-- ==== Sys2Proof/Word.lean ====
section
/-! DEFINITION. The words and numbers of the TC-16 (spec 00_scope, 0.5): bytes, registers, the two kinds of address,
and the ranges of channels, semaphores, spaces and cursors. -/

namespace Sys2Proof

/-- The smallest addressable unit of memory. -/
abbrev Byte := BitVec 8

/-- A register or cursor: 32 bits. -/
abbrev Word := BitVec 32

/-- A physical address: 40 bits. -/
abbrev PAddr := BitVec 40

/-- A virtual address: 32 bits. -/
abbrev VAddr := BitVec 32

/-- A physical address divided by 64 (Table 8-2). -/
abbrev Line := BitVec 34

/-- A channel, 0 to 15. -/
abbrev ChanId := Fin 16

/-- A semaphore, 0 to 255. -/
abbrev SemId := Fin 256

/-- A cursor, C0 to C7. -/
abbrev CursorId := Fin 8

end Sys2Proof
end

