-- ==== Sys2Proof/Config.lean ====
section
/-! DEFINITION. What the TC-16 fixes (Table 0-1: none of it is configurable), and the one free value of the model. -/

namespace Sys2Proof.Config

/-- IDENT (R177). -/
def ident : Word := 0x2D160A01

/-- Entries the line buffer holds at most (R147). -/
def lineEntries : Nat := 8

/-- Semaphore numbers the alert list holds at most (R69). -/
def alertEntries : Nat := 32

/-- Elements of one slice at most (R103). -/
def sliceElements : Nat := 16

/-- A COUNT of 0 means this many elements (Table 1-11). -/
def fullCount : Nat := 65536

/-- LAST_NOTIFIER of a SIGNAL (R61). -/
def portNotifier : Byte := 16

/-- FREE VALUE (log 6): which of several Channel Controllers acts next, when one event reaches more than one of them
and the spec orders them no further (R36, R151). Nothing constrains it. -/
opaque arrival : Nat → Nat

end Sys2Proof.Config
end

