-- ==== Sys2Proof/Syntax.lean ====
section
/-! DEFINITION. The commands of the TC-16: one constructor per row of spec/opcode_table.json, in the table's order. -/

namespace Sys2Proof

/-- An MP answer to a read (R160). -/
inductive Resp where
  | okay | corrected | uncorrectable | error
  deriving DecidableEq, Repr

/-- An MP answer to a write: OKAY or ERROR (R160). -/
inductive WriteResp where
  | okay | error
  deriving DecidableEq, Repr

/-- A command: a register access, the pin reset_n, an answer of the Memory Port, or an internal event of the table. -/
inductive Instr where
  /-- HARD_RESET: reset_n is asserted (R188). -/
  | hardReset
  /-- RESET_RELEASE: reset_n is released (R188). -/
  | resetRelease
  /-- CONTROL_WRITE: a 32-bit write to CONTROL with SOFT_RESET 0 (R178). -/
  | controlWrite (value : Word)
  /-- SOFT_RESET: a 32-bit write to CONTROL with SOFT_RESET 1 (R189). -/
  | softReset (value : Word)
  /-- ANCHOR_LO_WRITE (R180). -/
  | anchorLoWrite (value : Word)
  /-- ANCHOR_HI_WRITE (R180). -/
  | anchorHiWrite (value : Word)
  /-- SIGNAL: a write to the SIGNAL register (R181). -/
  | signal (value : Word)
  /-- SELECT: a CHANNEL_CMD write with COMMAND 0x0 (R182). -/
  | select (channel : ChanId)
  /-- START: a CHANNEL_CMD write with COMMAND 0x1 (R22). -/
  | start (channel : ChanId)
  /-- STOP: a CHANNEL_CMD write with COMMAND 0x2 (R38). -/
  | stop (channel : ChanId)
  /-- RESUME: a CHANNEL_CMD write with COMMAND 0x3 (R44). -/
  | resume (channel : ChanId)
  /-- SKIP: a CHANNEL_CMD write with COMMAND 0x4 (R46). -/
  | skip (channel : ChanId)
  /-- RESET: a CHANNEL_CMD write with COMMAND 0x5 (R47). -/
  | reset (channel : ChanId)
  /-- INVALID_COMMAND: a CHANNEL_CMD write with COMMAND 0x6 to 0xF (R182). -/
  | invalidCommand (channel : ChanId) (code : BitVec 4)
  /-- PENDING_COMMAND_TAKE: the command held during a channel reset is taken (R37). -/
  | pendingCommandTake
  /-- STATUS_REGISTER_WRITE (R184). -/
  | statusRegisterWrite (value : Word)
  /-- ALERT_READ (R186). -/
  | alertRead
  /-- IGNORED_REGISTER_WRITE: a write to IDENT, HALTED, ALERT or an unused offset (R176). -/
  | ignoredRegisterWrite (offset : BitVec 6) (value : Word)
  /-- NARROW_ACCESS: an access narrower than 32 bits (R176). -/
  | narrowAccess (offset : BitVec 6) (isWrite : Bool)
  /-- CONTEXT_READ_ANSWER: bytes 0 to 47 of a context (R23). -/
  | contextReadAnswer (resp : Resp) (data : BitVec 384)
  /-- LINK_READ_ANSWER: bytes 0 to 7 of the LAST_TASK record (R25). -/
  | linkReadAnswer (resp : Resp) (data : BitVec 64)
  /-- HEADER_READ_ANSWER: bytes 0 to 31 of a task record (R26). -/
  | headerReadAnswer (resp : Resp) (data : BitVec 256)
  /-- BODY_READ_ANSWER: the record from byte 32 on, 592 bytes at most (R26). -/
  | bodyReadAnswer (resp : Resp) (data : BitVec 4736)
  /-- ACCEPTANCE_WRITE_ANSWER (R27). -/
  | acceptanceWriteAnswer (resp : WriteResp)
  /-- DONE_WRITE_ANSWER (R33). -/
  | doneWriteAnswer (resp : WriteResp)
  /-- DONE_REWRITE_ANSWER (R45). -/
  | doneRewriteAnswer (resp : WriteResp)
  /-- HALT_STATUS_WRITE_ANSWER (R42). -/
  | haltStatusWriteAnswer (resp : WriteResp)
  /-- SKIPPED_WRITE_ANSWER (R46). -/
  | skippedWriteAnswer (resp : WriteResp)
  /-- SAVE_WRITE_ANSWER (R4). -/
  | saveWriteAnswer (resp : WriteResp)
  /-- WAIT_READ_ANSWER: bytes 0 to 5 of a semaphore record (R54). -/
  | waitReadAnswer (resp : Resp) (data : BitVec 48)
  /-- WAIT_WRITE_ANSWER (R54). -/
  | waitWriteAnswer (resp : WriteResp)
  /-- NOTIFY_READ_ANSWER (R56). -/
  | notifyReadAnswer (resp : Resp) (data : BitVec 48)
  /-- NOTIFY_WRITE_ANSWER (R56). -/
  | notifyWriteAnswer (resp : WriteResp)
  /-- UNDO_STOP_READ_ANSWER (R62). -/
  | undoStopReadAnswer (resp : Resp) (data : BitVec 48)
  /-- UNDO_STOP_WRITE_ANSWER (R62). -/
  | undoStopWriteAnswer (resp : WriteResp)
  /-- UNDO_RESET_READ_ANSWER (R63). -/
  | undoResetReadAnswer (resp : Resp) (data : BitVec 48)
  /-- UNDO_RESET_WRITE_ANSWER (R63). -/
  | undoResetWriteAnswer (resp : WriteResp)
  /-- SIGNAL_READ_ANSWER (R61). -/
  | signalReadAnswer (resp : Resp) (data : BitVec 48)
  /-- SIGNAL_WRITE_ANSWER (R61). -/
  | signalWriteAnswer (resp : WriteResp)
  /-- GRANT_POINT (R99). -/
  | grantPoint
  /-- ELEMENT_READ_ANSWER: an element or FILL source, in the low bytes (R82). -/
  | elementReadAnswer (resp : Resp) (data : BitVec 64)
  /-- DEVICE_WRITE_ANSWER (R84). -/
  | deviceWriteAnswer (resp : WriteResp)
  /-- ROOT_READ_ANSWER (R115). -/
  | rootReadAnswer (resp : Resp) (data : BitVec 64)
  /-- DESCRIPTOR_READ_ANSWER (R117). -/
  | descriptorReadAnswer (resp : Resp) (data : BitVec 64)
  /-- PAGE_ENTRY_READ_ANSWER (R118). -/
  | pageEntryReadAnswer (resp : Resp) (data : BitVec 64)
  /-- FLAG_WRITE_ANSWER (R122). -/
  | flagWriteAnswer (resp : WriteResp)
  /-- LINE_WRITE_OUT_ANSWER (R150). -/
  | lineWriteOutAnswer (resp : WriteResp)
  /-- CHANNEL_DRAIN_COMPLETE (R154). -/
  | channelDrainComplete
  /-- FULL_DRAIN_COMPLETE (R155). -/
  | fullDrainComplete
  /-- SLICE_COUNT_EXHAUSTED (R103). -/
  | sliceCountExhausted
  /-- ERROR_RECORD_WRITE_ANSWER (R171). -/
  | errorRecordWriteAnswer (resp : WriteResp)
  /-- RESET_REQUESTS_SETTLED (R48). -/
  | resetRequestsSettled (channel : ChanId)
  /-- SOFT_RESET_DRAIN (R189). -/
  | softResetDrain
  /-- SOFT_RESET_CLEARING (R189). -/
  | softResetClearing
  deriving DecidableEq, Repr

end Sys2Proof
end

