-- ==== Sys2Proof/WellFormed.lean ====
section
/-! DEFINITION. Which commands are well formed: the operand is one the row can carry. -/

namespace Sys2Proof

/-- Offsets whose writes are ignored: IDENT, HALTED, ALERT and the unused 0x24 to 0x3C (R176). -/
def ignoredOffset (offset : BitVec 6) : Bool :=
  offset == 0x00 || offset == 0x1C || (decide (0x20 ≤ offset.toNat) && offset.toNat % 4 == 0)

/-- CONTROL bit 1, SOFT_RESET (Table 10-2). -/
def softResetBit (value : Word) : Bool := value.getLsbD 1

/-- A command whose operand its row admits. -/
def Instr.wellFormed : Instr → Bool
  | .controlWrite value => !softResetBit value
  | .softReset value => softResetBit value
  | .invalidCommand _ code => decide (6 ≤ code.toNat)
  | .ignoredRegisterWrite offset _ => ignoredOffset offset
  | .hardReset | .resetRelease | .anchorLoWrite _ | .anchorHiWrite _ | .signal _ | .select _ | .start _ | .stop _
  | .resume _ | .skip _ | .reset _ | .pendingCommandTake | .statusRegisterWrite _ | .alertRead | .narrowAccess _ _
  | .contextReadAnswer _ _ | .linkReadAnswer _ _ | .headerReadAnswer _ _ | .bodyReadAnswer _ _
  | .acceptanceWriteAnswer _ | .doneWriteAnswer _ | .doneRewriteAnswer _ | .haltStatusWriteAnswer _
  | .skippedWriteAnswer _ | .saveWriteAnswer _ | .waitReadAnswer _ _ | .waitWriteAnswer _ | .notifyReadAnswer _ _
  | .notifyWriteAnswer _ | .undoStopReadAnswer _ _ | .undoStopWriteAnswer _ | .undoResetReadAnswer _ _
  | .undoResetWriteAnswer _ | .signalReadAnswer _ _ | .signalWriteAnswer _ | .grantPoint | .elementReadAnswer _ _
  | .deviceWriteAnswer _ | .rootReadAnswer _ _ | .descriptorReadAnswer _ _ | .pageEntryReadAnswer _ _
  | .flagWriteAnswer _ | .lineWriteOutAnswer _ | .channelDrainComplete | .fullDrainComplete | .sliceCountExhausted
  | .errorRecordWriteAnswer _ | .resetRequestsSettled _ | .softResetDrain | .softResetClearing => true

end Sys2Proof
end

