-- ==== Sys2Proof/Decode.lean ====
section
/-! DEFINITION. The command a word of the opcode table spells. No row of spec/opcode_table.json gives bits (98_reader:
n_rows_with_fixed 0), so no word spells a command (log 5). -/

namespace Sys2Proof

/-- The command that the `nbits` bits of `w` spell by the table's bits: none, since the table gives no row bits. -/
def decodeTableWord (_nbits _w : Nat) : Option Instr := none

end Sys2Proof
end

