-- ==== Sys2Proof/Machine/State.lean ====
section
/-! DEFINITION. The state of the TC-16: everything the spec gives each block (the tables "State held by ..." of its chapters),
as plain data, and the queue of commands. Reset values stand here too. -/

namespace Sys2Proof.Machine

open Sys2Proof

/-! ## Names -/

/-- Channel states (Table 1-4, Table 2-2). -/
inductive ChState where
  | off | postwait | fetching | prewait | ready | active | finishing | stopped | halted
  deriving DecidableEq, Repr

/-- Phases (Table 1-4). -/
inductive Phase where
  | post | fetch | prewait | move | purge | drain | status | notify
  deriving DecidableEq, Repr

/-- Fault codes of a channel (Table 1-8); "none" is an absent code. -/
inductive FaultCode where
  | contextError | chainBroken | staleRecord | format | fetchError
  | semInvalid | semOverflow | semError
  | moveForm | alignment | rangeLoss
  | regionAbsent | segmentRange | segmentAbsent | pageRange | pageAbsent | access | tableFormat | walkError
  | readError | writeError
  | statusWrite
  deriving DecidableEq, Repr

/-- Error event codes (Table 1-19). -/
inductive EventCode where
  | readUncorrectable | busError | memWrite | statusWrite | saveWrite | undoLost | signalMemory
  | tcParity
  | memCorrected
  deriving DecidableEq, Repr

/-- The units an error event can come from (Table 1-18, UNIT). -/
inductive EventUnit where
  | fu | su | te | tu | lb
  deriving DecidableEq, Repr

/-- Refusal reasons (Table 10-3). -/
inductive Reason where
  | none | busy | state | notResumable | notRunning | overflow | invalid | memory | semaphoreError | resetting
  | anchorLocked
  deriving DecidableEq, Repr

/-- The five channel commands that use the slot (Table 10-2, COMMAND). -/
inductive Command where
  | start | stop | resume | skip | reset
  deriving DecidableEq, Repr

/-- Where a soft reset stands (R189): none, its channels' resets, its drain, its clearing. -/
inductive SoftStep where
  | off | channels | draining | clearing
  deriving DecidableEq, Repr

/-- Where a channel's reset stands (R47, R48): none, its requests completing, its undo, its drain. -/
inductive ResetStep where
  | off | settling | undo | drain
  deriving DecidableEq, Repr

/-- Access codes (Table 1-17). -/
inductive AccessCode where
  | none | read | readWrite | deviceRead | deviceReadWrite
  deriving DecidableEq, Repr

/-! ## Requests and events -/

/-- A request at the Memory Port (Table 8-3): a write places byte `i` of `data` at `pa + i` where strobe `i` is set. -/
inductive MpReq where
  | read (pa : PAddr) (size : Nat)
  | write (pa : PAddr) (strobes : BitVec 64) (data : BitVec 512)
  deriving DecidableEq, Repr

/-- The five values of an error event (R167); CHANNEL 255 is an absent channel. -/
structure ErrorEvent where
  code : EventCode
  unit : EventUnit
  channel : Option ChanId
  resp : Resp
  pa : PAddr
  deriving DecidableEq, Repr

/-! ## The task copy (R13) -/

/-- Element size codes (Table 1-11). -/
inductive Size where
  | b1 | b2 | b4 | b8
  deriving DecidableEq, Repr

/-- Stepping directions (Table 1-11). -/
inductive Dir where
  | inc | dec | hold
  deriving DecidableEq, Repr

/-- Address forms (Table 1-11). -/
inductive Form where
  | displaced | indexed | immediate
  deriving DecidableEq, Repr

/-- Move operations (Table 1-11). -/
inductive MoveOp where
  | copy | fill | verify
  deriving DecidableEq, Repr

/-- One side of a move. -/
structure Side where
  form : Form
  update : Bool
  base : CursorId
  index : CursorId
  disp : BitVec 16
  size : Size
  dir : Dir
  deriving DecidableEq, Repr

/-- One move entry (Table 1-11); `signed` is EXTEND SIGNED, `narrowChecked` is NARROW CHECKED. -/
structure Move where
  op : MoveOp
  src : Side
  dst : Side
  signed : Bool
  narrowChecked : Bool
  count : BitVec 16
  imm : Word
  deriving DecidableEq, Repr

/-- A preload entry (Table 1-10). -/
structure Preload where
  cursor : CursorId
  value : Word
  deriving DecidableEq, Repr

/-- Purge scopes (Table 1-12). -/
inductive Scope where
  | all | space | segment | page
  deriving DecidableEq, Repr

/-- A purge descriptor (Table 1-12). -/
structure PurgeDescriptor where
  scope : Scope
  space : BitVec 6
  va : VAddr
  deriving DecidableEq, Repr

/-- The work of a task: the moves of a TRANSFER or the descriptor of a PURGE. -/
inductive Work where
  | transfer (moves : List Move)
  | purge (descriptor : PurgeDescriptor)
  deriving DecidableEq, Repr

/-- The task copy a channel holds (R13). -/
structure Task where
  link : BitVec 64
  pauseAfter : Bool
  waits : List SemId
  notifies : List SemId
  preloads : List Preload
  work : Work
  deriving DecidableEq, Repr

/-! ## Channel controllers -/

/-- Where a channel stands in its flow or in a procedure, and what it waits for (implied by R22 to R46; log 19). -/
inductive Activity where
  /-- OFF, STOPPED or HALTED, with nothing under way. -/
  | rest
  /-- The context read is at FU (R22, R44). -/
  | contextRead
  /-- Before its posting wait or the next wait of its list (R24, R28). -/
  | beforeWait
  /-- Its wait is at SU. -/
  | waiting
  /-- Its wait parked it (R54). -/
  | parked
  /-- Before the link choice (R25). -/
  | beforeFetch
  /-- The LINK read is at FU. -/
  | linkRead
  /-- The header read of the record at `link` is at FU. -/
  | headerRead (link : PAddr)
  /-- The body read of the record at `link`, whose header was `header`, is at FU. -/
  | bodyRead (link : PAddr) (header : BitVec 256)
  /-- The acceptance write of the record at `link` is at FU. -/
  | accepting (link : PAddr)
  /-- READY, waiting for the grant. -/
  | ready
  /-- ACTIVE. -/
  | slice
  /-- FINISHING: its drain is at LB (R32). -/
  | finishDrain
  /-- FINISHING: its DONE write is at FU (R33). -/
  | doneWrite
  /-- FINISHING: before the next notify (R34). -/
  | beforeNotify
  /-- FINISHING: its notify is at SU. -/
  | notifying
  /-- FINISHING: its DONE rewrite is at FU (R45). -/
  | doneRewrite
  /-- Stop procedure: its drain, then its save write (R41). -/
  | stopDrain | stopSave
  /-- Halt procedure: its drain, its status write, its save write (R42). -/
  | haltDrain | haltStatus | haltSave
  /-- Its SKIPPED write is at FU (R46). -/
  | skipWrite
  deriving DecidableEq, Repr

/-- What a Channel Controller holds (Table 2-1, Table 4-1). -/
structure Channel where
  state : ChState
  phase : Phase
  listIndex : Nat
  stopPending : Bool
  mark : Bool
  fault : Option FaultCode
  faultVA : VAddr
  contextValid : Bool
  space : BitVec 6
  priority : Fin 4
  posting : SemId
  firstLink : PAddr
  cursors : Vector Word 8
  current : Option PAddr
  lastTask : Option PAddr
  task : Option Task
  moveIndex : Nat
  remaining : Nat
  srcEA : VAddr
  dstEA : VAddr
  firstFlag : Bool
  fillValue : Option (BitVec 64)
  performed : Nat
  mismatch : Option (Nat × Nat)
  haltedBit : Bool
  activity : Activity
  reset : ResetStep
  resumedNotify : Bool
  deriving DecidableEq, Repr

/-- A channel after a hard reset, a RESET or a soft reset (Table 2-1, first two columns). -/
def Channel.off : Channel where
  state := .off
  phase := .post
  listIndex := 0
  stopPending := false
  mark := false
  fault := none
  faultVA := 0
  contextValid := false
  space := 0
  priority := 0
  posting := 0
  firstLink := 0
  cursors := Vector.replicate 8 0
  current := none
  lastTask := none
  task := none
  moveIndex := 0
  remaining := 0
  srcEA := 0
  dstEA := 0
  firstFlag := false
  fillValue := none
  performed := 0
  mismatch := none
  haltedBit := false
  activity := .rest
  reset := .off
  resumedNotify := false

/-! ## Task Fetch Unit (Table 2-7) -/

/-- The record traffic a channel asks of FU (R49). -/
inductive FuKind where
  | context | link | header | body | acceptance | done | doneRewrite | haltStatus | skipped | save
  deriving DecidableEq, Repr

/-- A request at FU: the channel, its kind and the MP request it becomes. -/
structure FuJob where
  chan : ChanId
  kind : FuKind
  req : MpReq
  deriving DecidableEq, Repr

/-- An MP answer a unit has received: the response and the data of a read. -/
structure Got (w : Nat) where
  resp : Resp
  data : BitVec w
  deriving DecidableEq, Repr

/-- FU: its queue, its request in progress, the answer in hand and the events it keeps (R49, R169). -/
structure FetchUnit where
  queue : List FuJob
  current : Option FuJob
  got : Option (Got 4736)
  held : List ErrorEvent
  deriving DecidableEq, Repr

/-! ## Semaphore Unit (Table 3-1) -/

/-- Requests at SU (Table 3-2). -/
inductive SuReq where
  | wait (n : ChanId) (k : SemId)
  | notify (n : ChanId) (k : SemId)
  | undoStop (n : ChanId)
  | undoReset (n : ChanId)
  | signal (k : SemId)
  deriving DecidableEq, Repr

/-- The operation in progress: `record` is absent until the record is read, then `newCount` is being written. -/
structure SuOp where
  req : SuReq
  sem : SemId
  record : Option (BitVec 48)
  newCount : BitVec 16
  deriving DecidableEq, Repr

/-- An entry of the parked list (R55). -/
structure Parked where
  chan : ChanId
  sem : SemId
  deriving DecidableEq, Repr

/-- SU: its queue, its operation, the parked list oldest first, the answer in hand and the events it keeps. -/
structure SemUnit where
  queue : List SuReq
  current : Option SuOp
  parked : List Parked
  got : Option (Got 48)
  held : List ErrorEvent
  deriving DecidableEq, Repr

/-! ## Line Buffer (Tables 8-1 and 8-2) -/

/-- A gathered line: a byte of `data` is held where its bit of `mask` is set, and is 0 elsewhere. -/
structure LineEntry where
  line : Line
  mask : BitVec 64
  data : BitVec 512
  chans : List ChanId
  deriving DecidableEq, Repr

/-- Requests at LB (R148). -/
inductive LbReq where
  /-- An element write from TE: address, size, value, channel (R149). -/
  | write (pa : PAddr) (size : Size) (value : BitVec 64) (n : ChanId)
  /-- A line check from TE (R152). -/
  | check (pa : PAddr)
  /-- A per-channel drain (R154). -/
  | drain (n : ChanId)
  /-- A full drain of TE (R155). -/
  | engineDrain
  /-- The full drain of the soft reset (R155). -/
  | softDrain
  deriving DecidableEq, Repr

/-- LB: entries oldest first, its queue, its operation, the line being written out, and the events it keeps. -/
structure LineBuffer where
  entries : List LineEntry
  queue : List LbReq
  current : Option LbReq
  writing : Option Line
  held : List ErrorEvent
  deriving DecidableEq, Repr

/-! ## Translation Unit (Tables 6-3, 7-1 and 7-2) -/

/-- A cache entry (Table 7-2); `parityOk` is whether the stored check value agrees with the stored fields (log 8). -/
structure CacheEntry where
  valid : Bool
  space : BitVec 6
  region : BitVec 2
  segment : BitVec 10
  page : BitVec 8
  frame : BitVec 28
  access : AccessCode
  modifiedKnown : Bool
  device : Bool
  direct : Bool
  parityOk : Bool
  deriving DecidableEq, Repr

/-- An entry after reset: VALID 0 (R146). -/
def CacheEntry.invalid : CacheEntry where
  valid := false
  space := 0
  region := 0
  segment := 0
  page := 0
  frame := 0
  access := .none
  modifiedKnown := false
  device := false
  direct := false
  parityOk := true

/-- The two ways of a set. -/
inductive Way where
  | way0 | way1
  deriving DecidableEq, Repr

/-- A set of the cache and its next-victim bit (R131). -/
structure CacheSet where
  way0 : CacheEntry
  way1 : CacheEntry
  victim : Way
  deriving DecidableEq, Repr

/-- A set after reset (R146). -/
def CacheSet.invalid : CacheSet := ⟨.invalid, .invalid, .way0⟩

/-- A translation request (R113). -/
structure TuReq where
  chan : ChanId
  space : BitVec 6
  va : VAddr
  isWrite : Bool
  deriving DecidableEq, Repr

/-- What TU answers to TE (R113). -/
inductive TuAnswer where
  | translated (pa : PAddr) (device : Bool) (direct : Bool)
  | fault (code : FaultCode)
  deriving DecidableEq, Repr

/-- Where TU stands: the step of Table 6-4 whose MP request is made, a walk to begin, or an answer formed. -/
inductive TuStage where
  | idle
  | begin
  | root
  | descriptor
  | pageEntry
  | flag
  | reply (answer : TuAnswer)
  deriving DecidableEq, Repr

/-- TU: the cache, the request it serves, the walk's step and values, the way a dirty upgrade is for, the answer in hand
and the events it keeps. -/
structure TransUnit where
  cache : Vector CacheSet 32
  req : Option TuReq
  stage : TuStage
  root : Option (BitVec 64)
  descriptor : Option (BitVec 64)
  pageEntry : Option (BitVec 64)
  upgrade : Option Way
  got : Option (Got 64)
  held : List ErrorEvent
  deriving DecidableEq, Repr

/-! ## Transfer Engine (Tables 4-1 and 5-1) -/

/-- The access an element or the beginning of a move makes: a FILL source, a source, a VERIFY destination beside the
source value read, or the write of a converted value. -/
inductive Access where
  | fillSource
  | source
  | verifyDest (source : BitVec 64)
  | writeDest (value : BitVec 64)
  deriving DecidableEq, Repr

/-- The step of the element in progress (R80, R83), or of the slice. -/
inductive TeStep where
  | idle
  /-- At an element boundary (R107). -/
  | boundary
  /-- TU translates the access. -/
  | translating (a : Access)
  /-- LB checks the line of the read (R152). -/
  | lineCheck (a : Access) (pa : PAddr)
  /-- The read is at MP. -/
  | reading (a : Access) (pa : PAddr)
  /-- The element write is at LB. -/
  | placing (value : BitVec 64) (pa : PAddr)
  /-- The full drain before a device write is at LB. -/
  | deviceDrain (value : BitVec 64) (pa : PAddr)
  /-- The device write is at MP. -/
  | deviceWrite (value : BitVec 64) (pa : PAddr)
  /-- The slice has performed 16 elements (R103). -/
  | exhausted
  /-- The purge's full drain is at LB (R109). -/
  | purgeDrain
  deriving DecidableEq, Repr

/-- Slice kinds (Table 5-1). -/
inductive SliceKind where
  | move | purge
  deriving DecidableEq, Repr

/-- Purge steps (Table 5-1). -/
inductive PurgeStep where
  | invalidate | drain
  deriving DecidableEq, Repr

/-- TE: the grant, ROTOR, the slice, the element in progress, the answer in hand and the events it keeps. -/
structure Engine where
  grant : Option ChanId
  rotor : ChanId
  counter : Nat
  kind : Option SliceKind
  purgeStep : Option PurgeStep
  step : TeStep
  got : Option (Got 64)
  held : List ErrorEvent
  deriving DecidableEq, Repr

/-! ## Memory Port, Status Block, Register Port -/

/-- Outstanding MP requests, one at most of each requester (R159). -/
structure MemPort where
  fu : Option MpReq
  su : Option MpReq
  te : Option MpReq
  tu : Option MpReq
  lb : Option MpReq
  sb : Option MpReq
  deriving DecidableEq, Repr

/-- SB (Table 9-3); HALTED is the haltedBit of each channel. -/
structure StatusBlock where
  level : BitVec 2
  queue : List ErrorEvent
  writing : Option ErrorEvent
  counter : Word
  errorEvent : Bool
  recordFailed : Bool
  refused : Bool
  alertLost : Bool
  deriving DecidableEq, Repr

/-- What RP last answered on the slave port (log 10). -/
structure Reply where
  error : Bool
  data : Word
  deriving DecidableEq, Repr

/-- RP (Tables 10-2 and 10-5). -/
structure RegPort where
  run : Bool
  reportLevel : BitVec 2
  intEn : BitVec 5
  anchorLo : BitVec 19
  anchorHi : BitVec 8
  signalSlot : Option SemId
  commandSlot : Option (ChanId × Command)
  lastNamed : ChanId
  refuseReason : Reason
  alerts : List SemId
  reply : Reply
  deriving DecidableEq, Repr

/-! ## The whole part -/

/-- The state of the part and the queue of commands that wait. -/
structure State where
  resetAsserted : Bool
  soft : SoftStep
  rp : RegPort
  sb : StatusBlock
  mp : MemPort
  fu : FetchUnit
  su : SemUnit
  te : Engine
  tu : TransUnit
  lb : LineBuffer
  chans : Vector Channel 16
  arrivals : Nat
  pending : List Instr
  deriving DecidableEq, Repr

/-- The part after a hard reset, with reset_n released (R188; log 9) and no command waiting. -/
def State.reset : State where
  resetAsserted := false
  soft := .off
  rp :=
    { run := false, reportLevel := 1, intEn := 0, anchorLo := 0, anchorHi := 0, signalSlot := none,
      commandSlot := none, lastNamed := 0, refuseReason := .none, alerts := [], reply := ⟨false, 0⟩ }
  sb :=
    { level := 1, queue := [], writing := none, counter := 0, errorEvent := false, recordFailed := false,
      refused := false, alertLost := false }
  mp := { fu := none, su := none, te := none, tu := none, lb := none, sb := none }
  fu := { queue := [], current := none, got := none, held := [] }
  su := { queue := [], current := none, parked := [], got := none, held := [] }
  te :=
    { grant := none, rotor := 15, counter := 0, kind := none, purgeStep := none, step := .idle, got := none,
      held := [] }
  tu :=
    { cache := Vector.replicate 32 CacheSet.invalid, req := none, stage := .idle, root := none, descriptor := none,
      pageEntry := none, upgrade := none, got := none, held := [] }
  lb := { entries := [], queue := [], current := none, writing := none, held := [] }
  chans := Vector.replicate 16 Channel.off
  arrivals := 0
  pending := []

/-- Why the part cannot take a command: both are the model's own stops, for commands that the part's state does not admit
(log 2). -/
inductive Fault where
  /-- Raised by the answer rows: MP answers a request that is not outstanding. Safe: no such answer is delivered (R159, R162). -/
  | answerNotAwaited
  /-- Raised by the internal events of the table when their condition does not hold. Safe: the event does not arise. -/
  | eventNotDue
  deriving DecidableEq, Repr

/-- Commands without a meaning in the model. -/
inductive Refusal where
  /-- Raised by exec for a row that has no meaning yet. Safe: the model stops. -/
  | notModelled (mnemonic : String)
  deriving DecidableEq, Repr

end Sys2Proof.Machine
end

