-- ==== Sys2Proof/Machine/Ops.lean ====
section
/-! DEFINITION. Shared operations: reading and changing one channel, queueing requests at FU, SU and LB, refusals,
error events and their way to SB, and the slave port's answer. -/

namespace Sys2Proof.Machine

/-! ## Channels -/

/-- What CC `n` holds. -/
def State.chan (s : State) (n : ChanId) : Channel := s.chans[n.val]

/-- Replace what CC `n` holds. -/
def State.setChan (s : State) (n : ChanId) (c : Channel) : State := { s with chans := s.chans.set n.val c }

/-- Change what CC `n` holds. -/
def State.modChan (s : State) (n : ChanId) (f : Channel → Channel) : State := s.setChan n (f (s.chan n))

/-- Every channel number, ascending. -/
def allChannels : List ChanId := List.finRange 16

/-- Every channel is OFF and no channel's reset is in progress (R180). -/
def State.allOff (s : State) : Bool :=
  allChannels.all fun n => (s.chan n).state == .off && (s.chan n).reset == .off

/-- The channel a request at SU comes from; none for RP's SIGNAL. -/
def SuReq.chan : SuReq → Option ChanId
  | .wait n _ => some n
  | .notify n _ => some n
  | .undoStop n => some n
  | .undoReset n => some n
  | .signal _ => none

/-- CC `n` has a request at FU, queued or in progress (R49). -/
def State.fuBusy (s : State) (n : ChanId) : Bool :=
  s.fu.queue.any (·.chan == n) || s.fu.current.any (·.chan == n)

/-- CC `n` has a request at SU, queued or in progress (R50). -/
def State.suBusy (s : State) (n : ChanId) : Bool :=
  s.su.queue.any (·.chan == some n) || s.su.current.any (·.req.chan == some n)

/-- CC `n` has a drain at LB, queued or in progress (R148). -/
def State.lbBusy (s : State) (n : ChanId) : Bool :=
  s.lb.queue.any (· == .drain n) || s.lb.current == some (.drain n)

/-- Channel `n` stands in the parked list (R55). -/
def State.isParked (s : State) (n : ChanId) : Bool := s.su.parked.any (·.chan == n)

/-- Set where channel `n` stands. -/
def State.setActivity (s : State) (n : ChanId) (a : Activity) : State := s.modChan n fun c => { c with activity := a }

/-! ## Queues -/

/-- A request joins FU's queue at its tail (R49). -/
def State.queueFu (s : State) (j : FuJob) : State := { s with fu := { s.fu with queue := s.fu.queue ++ [j] } }

/-- A request joins SU's queue at its tail (R50). -/
def State.queueSu (s : State) (r : SuReq) : State := { s with su := { s.su with queue := s.su.queue ++ [r] } }

/-- A request joins LB's queue at its tail (R148). -/
def State.queueLb (s : State) (r : LbReq) : State := { s with lb := { s.lb with queue := s.lb.queue ++ [r] } }

/-- Channel `n` asks FU for record traffic and waits in activity `a`. -/
def State.askFu (s : State) (n : ChanId) (kind : FuKind) (req : MpReq) (a : Activity) : State :=
  (s.setActivity n a).queueFu ⟨n, kind, req⟩

/-! ## The control area (Table 1-1) -/

/-- The anchor in force: bits 12 to 0 are zero (R1, R180). -/
def State.anchor (s : State) : PAddr := s.rp.anchorHi ++ s.rp.anchorLo ++ (0 : BitVec 13)

/-- The address of channel `n`'s context. -/
def State.contextAddr (s : State) (n : ChanId) : PAddr := s.anchor + BitVec.ofNat 40 (n.val * 128)

/-- The address of region root `region` of `space` (R115). -/
def State.rootAddr (s : State) (space : BitVec 6) (region : BitVec 2) : PAddr :=
  s.anchor + 0x800 + BitVec.ofNat 40 (space.toNat * 32 + region.toNat * 8)

/-- The address of semaphore record `k` (R51). -/
def State.semAddr (s : State) (k : SemId) : PAddr := s.anchor + 0x1000 + BitVec.ofNat 40 (k.val * 8)

/-- The address of the error record (R170). -/
def State.errorRecordAddr (s : State) : PAddr := s.anchor + 0x1800

/-! ## Refusals and the slave port -/

/-- STATUS.RESETTING (Table 10-2). -/
def State.resetting (s : State) : Bool := s.soft != .off

/-- A refusal sets STATUS.REFUSED and writes REFUSE_REASON (R185). -/
def State.refuse (s : State) (r : Reason) : State :=
  { s with sb := { s.sb with refused := true }, rp := { s.rp with refuseReason := r } }

/-- RP's answer on the slave port. -/
def State.replied (s : State) (r : Reply) : State := { s with rp := { s.rp with reply := r } }

/-- A 32-bit register write of CONTROL, ANCHOR_LO, ANCHOR_HI, SIGNAL, CHANNEL_CMD or STATUS: ignored while reset_n is
asserted (R176), refused during a soft reset (R190), else `act`. -/
def State.regWrite (s : State) (act : State → State) : State :=
  let s := s.replied ⟨false, 0⟩
  if s.resetAsserted then s
  else if s.resetting then s.refuse .resetting
  else act s

/-! ## Error events -/

/-- The address of a request. -/
def MpReq.addr : MpReq → PAddr
  | .read pa _ => pa
  | .write pa _ _ => pa

/-- Good data: OKAY or CORRECTED (R160). -/
def goodData : Resp → Bool
  | .okay => true
  | .corrected => true
  | .uncorrectable => false
  | .error => false

/-- A write answer as one of the four responses. -/
def asResp : WriteResp → Resp
  | .okay => .okay
  | .error => .error

/-- The event of a read of FU, TE, TU or of SU for a channel's flow (Table 9-2). -/
def readEvents (u : EventUnit) (n : Option ChanId) (r : Resp) (pa : PAddr) : List ErrorEvent :=
  match r with
  | .okay => []
  | .corrected => [⟨.memCorrected, u, n, r, pa⟩]
  | .uncorrectable => [⟨.readUncorrectable, u, n, r, pa⟩]
  | .error => [⟨.busError, u, n, r, pa⟩]

/-- The event of a write answered ERROR, with the code of its row (Table 9-2). -/
def writeEvents (code : EventCode) (u : EventUnit) (n : Option ChanId) (r : WriteResp) (pa : PAddr) : List ErrorEvent :=
  match r with
  | .okay => []
  | .error => [⟨code, u, n, .error, pa⟩]

/-- The lowest REPORT_LEVEL that reports an event: class U, R, C (R167, Table 9-4). -/
def EventCode.minLevel : EventCode → Nat
  | .readUncorrectable => 1
  | .busError => 1
  | .memWrite => 1
  | .statusWrite => 1
  | .saveWrite => 1
  | .undoLost => 1
  | .signalMemory => 1
  | .tcParity => 2
  | .memCorrected => 3

/-- SB reports the event at the level it holds (R168). -/
def StatusBlock.reports (b : StatusBlock) (e : ErrorEvent) : Bool := decide (e.code.minLevel ≤ b.level.toNat)

/-- A unit hands an event to SB: kept (absent) while its unit's place is occupied, whatever the level; with the place free
queued there, or discarded by the level SB holds then (R168, R169; log 13). -/
def StatusBlock.handOver (b : StatusBlock) (e : ErrorEvent) : Option StatusBlock :=
  if b.queue.any (·.unit == e.unit) then none
  else some (if b.reports e then { b with queue := b.queue ++ [e] } else b)

/-- The event counter after one more event (R170). -/
def StatusBlock.counted (b : StatusBlock) : Word := if b.counter = 0xFFFFFFFF then b.counter else b.counter + 1

/-! ## Several controllers at once -/

/-- The channels of `l` in a free order (log 6); the draws start at `k`. -/
def arrange : Nat → Nat → List ChanId → List ChanId
  | 0, _, l => l
  | _ + 1, _, [] => []
  | _ + 1, _, [a] => [a]
  | fuel + 1, k, a :: b :: l =>
    let all := a :: b :: l
    let i := Config.arrival k % all.length
    (all.drop i).take 1 ++ arrange fuel (k + 1) (all.eraseIdx i)

/-- Let each channel of `l` act, in a free order. -/
def State.inArrivalOrder (s : State) (l : List ChanId) (act : ChanId → State → State) : State :=
  let s' := (arrange l.length s.arrivals l).foldl (fun t n => act n t) s
  { s' with arrivals := s'.arrivals + l.length }

end Sys2Proof.Machine
end

