-- ==== Sys2Proof/Machine/Operands.lean ====
section
/-! DEFINITION. Operands of a move: element sizes, effective addresses, stepping, alignment, the MOVE_FORM checks and the
conversion of values (04_moves). -/

namespace Sys2Proof.Machine

/-- Bytes of an element (Table 1-11). -/
def Size.bytes : Size → Nat
  | .b1 => 1
  | .b2 => 2
  | .b4 => 4
  | .b8 => 8

/-- Byte strobes of an element at the start of a request. -/
def Size.strobes (z : Size) : BitVec 64 := BitVec.ofNat 64 (2 ^ z.bytes - 1)

/-- The low bytes of a value. -/
def Size.low (z : Size) (v : BitVec 64) : BitVec 64 := BitVec.ofNat 64 (v.toNat % 2 ^ (8 * z.bytes))

/-- Elements of a move: a COUNT of 0 means 65536 (Table 1-11). -/
def Move.total (m : Move) : Nat := if m.count = 0 then Config.fullCount else m.count.toNat

/-- A cursor named as BASE: C0 reads as zero (R76). -/
def Channel.baseValue (c : Channel) (k : CursorId) : Word := if k = 0 then 0 else c.cursors[k.val]

/-- A cursor named as index: C0 reads its held value (R76). -/
def Channel.indexValue (c : Channel) (k : CursorId) : Word := c.cursors[k.val]

/-- The effective address of a side; 0 where an IMMEDIATE side forms none (R75). -/
def Channel.effectiveAddr (c : Channel) (d : Side) : VAddr :=
  match d.form with
  | .displaced => c.baseValue d.base + d.disp.signExtend 32
  | .indexed => c.baseValue d.base + c.indexValue d.index
  | .immediate => 0

/-- One step in a side's direction, wrapping (R78). -/
def Side.step (d : Side) (va : VAddr) : VAddr :=
  match d.dir with
  | .inc => va + BitVec.ofNat 32 d.size.bytes
  | .dec => va - BitVec.ofNat 32 d.size.bytes
  | .hold => va

/-- An address that is a multiple of the element size (R79). -/
def Size.aligned (z : Size) (va : VAddr) : Bool := va.toNat % z.bytes == 0

/-- The two MOVE_FORM checks (R77): true where the move faults. -/
def Move.badForm (m : Move) : Bool :=
  (m.src.update && m.src.base == 0) || (m.dst.update && m.dst.base == 0)
    || (m.src.update && m.dst.update && m.src.base == m.dst.base)

/-- The number a source value stands for: unsigned under ZERO, two's complement under SIGNED (R91). -/
def numberOf (signed : Bool) (z : Size) (v : BitVec 64) : Int :=
  let bits := 8 * z.bytes
  let u := v.toNat % 2 ^ bits
  if signed && decide (2 ^ (bits - 1) ≤ u) then (u : Int) - 2 ^ bits else u

/-- The number lies in the destination's range (R92). -/
def fits (signed : Bool) (z : Size) (x : Int) : Bool :=
  let bits := 8 * z.bytes
  if signed then decide (-(2 ^ (bits - 1) : Int) ≤ x ∧ x < 2 ^ (bits - 1)) else decide (0 ≤ x ∧ x < 2 ^ bits)

/-- The low bytes that represent a number. -/
def bytesOf (z : Size) (x : Int) : BitVec 64 := BitVec.ofNat 64 (x % 2 ^ (8 * z.bytes)).toNat

/-- The conversion of a source value to the destination size; none is RANGE_LOSS (R91, R92). -/
def convert (signed narrowChecked : Bool) (src dst : Size) (v : BitVec 64) : Option (BitVec 64) :=
  let x := numberOf signed src v
  if decide (dst.bytes < src.bytes) && narrowChecked && !fits signed dst x then none else some (bytesOf dst x)

/-- The conversion of a move (R91, R92). -/
def Move.convert (m : Move) (v : BitVec 64) : Option (BitVec 64) :=
  Machine.convert m.signed m.narrowChecked m.src.size m.dst.size v

/-- The value of an IMMEDIATE source: its low SRC_SIZE bytes (R88). -/
def Move.immediateValue (m : Move) : BitVec 64 := m.src.size.low (m.imm.setWidth 64)

/-! ## Lines -/

/-- The line of a physical address (Table 8-2). -/
def lineOf (pa : PAddr) : Line := pa.extractLsb' 6 34

/-- The byte of an address within its line. -/
def lineOffset (pa : PAddr) : Nat := pa.toNat % 64

/-- The physical address of a line. -/
def lineAddr (l : Line) : PAddr := l ++ (0 : BitVec 6)

/-- The MASK bits of an element (R149). -/
def elementMask (pa : PAddr) (z : Size) : BitVec 64 := z.strobes <<< lineOffset pa

/-- The bits of DATA an element covers. -/
def elementBits (pa : PAddr) (z : Size) : BitVec 512 :=
  BitVec.ofNat 512 (2 ^ (8 * z.bytes) - 1) <<< (8 * lineOffset pa)

/-- The element's bytes at their offsets within the line (R149). -/
def elementData (pa : PAddr) (z : Size) (v : BitVec 64) : BitVec 512 :=
  ((z.low v).setWidth 512) <<< (8 * lineOffset pa)

end Sys2Proof.Machine
end

