-- ==== Sys2Proof/Machine/Formats.lean ====
section
/-! DEFINITION. The records the part shares with the host (01_control_area_and_record_formats): numeric codes, the checks
of contexts, task records and semaphore records, and the images the part writes. All fields are little-endian. -/

namespace Sys2Proof.Machine

/-! ## Codes -/

/-- State codes (Table 1-4). -/
def ChState.code : ChState → Nat
  | .off => 0
  | .postwait => 1
  | .fetching => 2
  | .prewait => 3
  | .ready => 4
  | .active => 5
  | .finishing => 6
  | .stopped => 7
  | .halted => 8

/-- Phase codes (Table 1-4). -/
def Phase.code : Phase → Nat
  | .post => 0
  | .fetch => 1
  | .prewait => 2
  | .move => 3
  | .purge => 4
  | .drain => 5
  | .status => 6
  | .notify => 7

/-- Fault codes (Table 1-8). -/
def FaultCode.code : FaultCode → Nat
  | .contextError => 0x01
  | .chainBroken => 0x02
  | .staleRecord => 0x03
  | .format => 0x04
  | .fetchError => 0x05
  | .semInvalid => 0x08
  | .semOverflow => 0x09
  | .semError => 0x0A
  | .moveForm => 0x10
  | .alignment => 0x11
  | .rangeLoss => 0x12
  | .regionAbsent => 0x18
  | .segmentRange => 0x19
  | .segmentAbsent => 0x1A
  | .pageRange => 0x1B
  | .pageAbsent => 0x1C
  | .access => 0x1D
  | .tableFormat => 0x1E
  | .walkError => 0x1F
  | .readError => 0x20
  | .writeError => 0x21
  | .statusWrite => 0x28

/-- The FAULT field: 0 for none (Table 1-8). -/
def faultByte (f : Option FaultCode) : Nat := (f.map FaultCode.code).getD 0

/-- Event codes (Table 1-19). -/
def EventCode.code : EventCode → Nat
  | .readUncorrectable => 0x01
  | .busError => 0x02
  | .memWrite => 0x03
  | .statusWrite => 0x04
  | .saveWrite => 0x05
  | .undoLost => 0x06
  | .signalMemory => 0x07
  | .tcParity => 0x10
  | .memCorrected => 0x20

/-- UNIT codes (Table 1-18). -/
def EventUnit.code : EventUnit → Nat
  | .fu => 1
  | .su => 2
  | .te => 3
  | .tu => 4
  | .lb => 5

/-- RESPONSE codes (Table 1-18). -/
def respCode : Resp → Nat
  | .okay => 0
  | .corrected => 1
  | .uncorrectable => 2
  | .error => 3

/-- Refusal codes (Table 10-3). -/
def Reason.code : Reason → Nat
  | .none => 0x0
  | .busy => 0x1
  | .state => 0x2
  | .notResumable => 0x3
  | .notRunning => 0x4
  | .overflow => 0x5
  | .invalid => 0x6
  | .memory => 0x7
  | .semaphoreError => 0x8
  | .resetting => 0x9
  | .anchorLocked => 0xA

/-! ## Fields of a record image -/

/-- The byte at an offset. -/
def byteAt {w : Nat} (d : BitVec w) (off : Nat) : BitVec 8 := d.extractLsb' (8 * off) 8

/-- The two bytes at an offset. -/
def halfAt {w : Nat} (d : BitVec w) (off : Nat) : BitVec 16 := d.extractLsb' (8 * off) 16

/-- The four bytes at an offset. -/
def wordAt {w : Nat} (d : BitVec w) (off : Nat) : BitVec 32 := d.extractLsb' (8 * off) 32

/-- The eight bytes at an offset. -/
def longAt {w : Nat} (d : BitVec w) (off : Nat) : BitVec 64 := d.extractLsb' (8 * off) 64

/-- A field placed at a byte offset of an image of at most 64 bytes. -/
def put {w : Nat} (off : Nat) (x : BitVec w) : BitVec 512 := (x.setWidth 512) <<< (8 * off)

/-- A number as one byte placed at an offset. -/
def putByte (off : Nat) (x : Nat) : BitVec 512 := put off (BitVec.ofNat 8 x)

/-- A task address as eight bytes: 0 for none, bits 63 to 40 zero (R4). -/
def putAddr (off : Nat) (a : Option PAddr) : BitVec 512 := put off (a.getD 0)

/-! ## Links and contexts -/

/-- A link as the channel follows it: absent where it is 0 or has any of bits 5-0 or 63-40 set (R25). -/
def linkOf (l : BitVec 64) : Option PAddr :=
  if l = 0 || l.extractLsb' 0 6 != 0 || l.extractLsb' 40 24 != 0 then none else some (l.setWidth 40)

/-- The context is valid (R3). -/
def contextValid (d : BitVec 384) : Bool :=
  decide ((byteAt d 0).toNat ≤ 63) && decide ((byteAt d 1).toNat ≤ 3) && decide ((halfAt d 2).toNat ≤ 255)
    && (longAt d 8 == 0 || ((longAt d 8).extractLsb' 0 6 == 0 && (longAt d 8).extractLsb' 40 24 == 0))

/-- The channel with the fields a valid context gives it (R3). -/
def Channel.latch (c : Channel) (d : BitVec 384) : Channel :=
  { c with
    contextValid := true
    space := d.extractLsb' 0 6
    priority := Fin.ofNat 4 (byteAt d 1).toNat
    posting := Fin.ofNat 256 (halfAt d 2).toNat
    firstLink := d.extractLsb' 64 40
    cursors := Vector.ofFn fun k : Fin 8 => wordAt d (16 + 4 * k.val) }

/-! ## Task records -/

/-- The checked fields of a record header (Table 1-5). -/
structure Header where
  link : BitVec 64
  purge : Bool
  pauseAfter : Bool
  waits : Nat
  notifies : Nat
  preloads : Nat
  moves : Nat
  deriving DecidableEq, Repr

/-- OUTCOME reads PENDING (R26). -/
def outcomePending (d : BitVec 256) : Bool := byteAt d 16 == 0

/-- The header checks of R6; absent where one fails. -/
def headerOf (d : BitVec 256) : Option Header :=
  let kind := byteAt d 8
  let flags := byteAt d 9
  let waits := (byteAt d 10).toNat
  let notifies := (byteAt d 11).toNat
  let preloads := (byteAt d 12).toNat
  let moves := (byteAt d 13).toNat
  if (kind == 1 || kind == 2) && flags.extractLsb' 1 7 == 0 && decide (waits ≤ 2) && decide (notifies ≤ 4)
      && decide (preloads ≤ 8) && (if kind == 1 then decide (moves ≤ 32) else moves == 0) && halfAt d 14 == 0 then
    some ⟨longAt d 0, kind == 2, flags.getLsbD 0, waits, notifies, preloads, moves⟩
  else none

/-- Bytes of a wait or notify list of `n` entries (R7). -/
def semListBytes (n : Nat) : Nat := 8 * ((n + 3) / 4)

/-- Offset of the notify list in the body (R7). -/
def Header.notifyAt (h : Header) : Nat := semListBytes h.waits

/-- Offset of the preload list in the body (R7). -/
def Header.preloadAt (h : Header) : Nat := h.notifyAt + semListBytes h.notifies

/-- Offset of the move list or the purge descriptor in the body (R7). -/
def Header.workAt (h : Header) : Nat := h.preloadAt + 8 * h.preloads

/-- Bytes of the body (R7). -/
def Header.bodyBytes (h : Header) : Nat := h.workAt + (if h.purge then 8 else 16 * h.moves)

/-- A wait or notify entry: absent where the semaphore number exceeds 255 (R10). -/
def semEntry (x : BitVec 16) : Option SemId := if h : x.toNat < 256 then some ⟨x.toNat, h⟩ else none

/-- A preload entry: absent where the cursor exceeds 7 or bytes 1-3 are not zero (R10). -/
def preloadEntry (x : BitVec 64) : Option Preload :=
  if h : (byteAt x 0).toNat < 8 then
    if x.extractLsb' 8 24 = 0 then some ⟨⟨(byteAt x 0).toNat, h⟩, wordAt x 4⟩ else none
  else none

/-- A size code (Table 1-11). -/
def sizeOf (x : BitVec 4) : Option Size :=
  if x = 0 then some .b1 else if x = 1 then some .b2 else if x = 2 then some .b4 else if x = 3 then some .b8 else none

/-- A direction code (Table 1-11). -/
def dirOf (x : BitVec 2) : Option Dir :=
  if x = 0 then some .inc else if x = 1 then some .dec else if x = 2 then some .hold else none

/-- A FORM code (Table 1-11). -/
def formOf (x : BitVec 2) : Option Form :=
  if x = 0 then some .displaced else if x = 1 then some .indexed else if x = 2 then some .immediate else none

/-- An OP code (Table 1-11). -/
def opOf (x : BitVec 8) : Option MoveOp :=
  if x = 1 then some .copy else if x = 2 then some .fill else if x = 3 then some .verify else none

/-- A cursor code of four bits: 0 to 7 (R11). -/
def cursorOf (x : BitVec 4) : Option CursorId := if h : x.toNat < 8 then some ⟨x.toNat, h⟩ else none

/-- One side of a move entry from its form byte and codes (Table 1-11, R11). -/
def sideOf (form : BitVec 8) (index : BitVec 4) (disp : BitVec 16) (size : BitVec 4) (dir : BitVec 2) : Option Side :=
  match formOf (form.extractLsb' 0 2), cursorOf index, sizeOf size, dirOf dir with
  | some f, some i, some z, some d =>
    if form.getLsbD 3 || form.getLsbD 7 then none
    else some ⟨f, form.getLsbD 2, ⟨(form.extractLsb' 4 3).toNat, (form.extractLsb' 4 3).isLt⟩, i, disp, z, d⟩
  | _, _, _, _ => none

/-- The checks of R11 that join fields: true where the entry gives FORMAT. -/
def Move.refused (m : Move) : Bool :=
  m.dst.form == .immediate
    || (m.src.form == .immediate && (m.op != .fill || m.src.size == .b8 || m.src.update))
    || (m.op == .verify && m.src.size != m.dst.size)

/-- A move entry (Table 1-11); absent where a check of R11 fails. -/
def moveEntry (e : BitVec 128) : Option Move :=
  let modes := byteAt e 2
  match opOf (byteAt e 0),
      sideOf (byteAt e 3) (e.extractLsb' 40 4) (halfAt e 8) (e.extractLsb' 8 4) (modes.extractLsb' 2 2),
      sideOf (byteAt e 4) (e.extractLsb' 44 4) (halfAt e 10) (e.extractLsb' 12 4) (modes.extractLsb' 4 2) with
  | some op, some src, some dst =>
    let m : Move := ⟨op, src, dst, modes.getLsbD 0, modes.getLsbD 1, halfAt e 6, wordAt e 12⟩
    if modes.extractLsb' 6 2 != 0 || m.refused then none else some m
  | _, _, _ => none

/-- A SCOPE code (Table 1-12). -/
def scopeOf (x : BitVec 8) : Option Scope :=
  if x = 0 then some .all else if x = 1 then some .space else if x = 2 then some .segment else if x = 3 then some .page
  else none

/-- A purge descriptor; absent where a check of R12 fails. -/
def purgeOf (x : BitVec 64) : Option PurgeDescriptor :=
  match scopeOf (byteAt x 0) with
  | none => none
  | some scope =>
    if (scope != .all && decide (63 < (byteAt x 1).toNat)) || halfAt x 2 != 0 then none
    else some ⟨scope, x.extractLsb' 8 6, wordAt x 4⟩

/-- Entries `i`, `i + 1`, ... of a list, or the index of the first that fails its check. -/
def readEntries {α : Type} (entry : Nat → Option α) : Nat → Nat → Except Nat (List α)
  | 0, _ => .ok []
  | k + 1, i =>
    match entry i with
    | none => .error i
    | some a =>
      match readEntries entry k (i + 1) with
      | .error j => .error j
      | .ok l => .ok (a :: l)

/-- The work part of a body: the moves by index, or the purge descriptor, whose index is 255 (R26). -/
def workOf (h : Header) (b : BitVec 4736) : Except Nat Work :=
  if h.purge then
    match purgeOf (longAt b h.workAt) with
    | none => .error 255
    | some d => .ok (.purge d)
  else
    match readEntries (fun i => moveEntry (b.extractLsb' (8 * (h.workAt + 16 * i)) 128)) h.moves 0 with
    | .error i => .error i
    | .ok l => .ok (.transfer l)

/-- The task a record gives, checked entry by entry in body order, or the list index of the first failing entry (R26). -/
def taskOf (h : Header) (b : BitVec 4736) : Except Nat Task :=
  match readEntries (fun i => semEntry (halfAt b (2 * i))) h.waits 0 with
  | .error i => .error i
  | .ok waits =>
    match readEntries (fun i => semEntry (halfAt b (h.notifyAt + 2 * i))) h.notifies 0 with
    | .error i => .error i
    | .ok notifies =>
      match readEntries (fun i => preloadEntry (longAt b (h.preloadAt + 8 * i))) h.preloads 0 with
      | .error i => .error i
      | .ok preloads =>
        match workOf h b with
        | .error i => .error i
        | .ok work => .ok ⟨h.link, h.pauseAfter, waits, notifies, preloads, work⟩

/-! ## Images the part writes -/

/-- The move in progress of a channel. -/
def Channel.currentMove (c : Channel) : Option Move :=
  match c.task with
  | some ⟨_, _, _, _, _, .transfer moves⟩ => moves[c.moveIndex]?
  | _ => none

/-- The index within its move of the next element: COUNT minus REMAINING (R93). -/
def Channel.elementIndex (c : Channel) : Nat :=
  match c.currentMove with
  | some m => m.total - c.remaining
  | none => 0

/-- OUTCOME codes the part writes (Table 1-7). -/
inductive OutcomeCode where
  | active | done | faulted | skipped | notifyFault
  deriving DecidableEq, Repr

/-- OUTCOME codes (Table 1-7). -/
def OutcomeCode.code : OutcomeCode → Nat
  | .active => 1
  | .done => 2
  | .faulted => 3
  | .skipped => 4
  | .notifyFault => 5

/-- A status block from its fields (Table 1-7). -/
def statusImage (outcome : OutcomeCode) (fault index mismatch element moved : Nat) (va : VAddr) : BitVec 512 :=
  putByte 0 outcome.code ||| putByte 1 fault ||| putByte 2 index ||| putByte 3 mismatch
    ||| put 4 (BitVec.ofNat 32 element) ||| put 8 (BitVec.ofNat 32 moved) ||| put 12 va

/-- MISMATCH: 1 if a mismatch occurred (R9). -/
def Channel.mismatchBit (c : Channel) : Nat := if c.mismatch.isSome then 1 else 0

/-- The status block of the DONE write (R9). -/
def Channel.doneImage (c : Channel) : BitVec 512 :=
  statusImage .done 0 (c.mismatch.getD (0, 0)).1 c.mismatchBit (c.mismatch.getD (0, 0)).2 c.performed 0

/-- The status block of a halt (R9, R42): NOTIFY_FAULT in NOTIFY, FAULTED in every other phase. -/
def Channel.haltImage (c : Channel) : BitVec 512 :=
  match c.phase with
  | .notify => statusImage .notifyFault (faultByte c.fault) c.listIndex c.mismatchBit 0 c.performed 0
  | .move =>
    statusImage .faulted (faultByte c.fault) c.moveIndex c.mismatchBit c.elementIndex c.performed c.faultVA
  | .prewait => statusImage .faulted (faultByte c.fault) c.listIndex c.mismatchBit 0 c.performed 0
  | .post | .fetch | .purge | .drain | .status =>
    statusImage .faulted (faultByte c.fault) 0 c.mismatchBit 0 c.performed 0

/-- The status block of the acceptance write: OUTCOME ACTIVE, every other field 0 (R8). -/
def activeImage : BitVec 512 := statusImage .active 0 0 0 0 0 0

/-- LIST_INDEX of the save block (R5). -/
def Channel.savedIndex (c : Channel) : Nat :=
  match c.phase with
  | .prewait => c.listIndex
  | .notify => c.listIndex
  | .move => c.moveIndex
  | .fetch => if c.fault = some .format then c.listIndex else 0
  | .post | .purge | .drain | .status => 0

/-- The save block, with STATE STOPPED or HALTED (Table 1-3, R5). -/
def Channel.saveImage (c : Channel) (st : ChState) : BitVec 512 :=
  let inMove := c.phase == .move
  putByte 0 st.code ||| putByte 1 c.phase.code ||| putByte 2 (if st = .stopped then 0 else faultByte c.fault)
    ||| putByte 3 c.savedIndex ||| put 4 (BitVec.ofNat 32 (if inMove then c.remaining else 0))
    ||| putAddr 8 c.lastTask ||| putAddr 16 c.current
    ||| put 24 c.cursors[0] ||| put 28 c.cursors[1] ||| put 32 c.cursors[2] ||| put 36 c.cursors[3]
    ||| put 40 c.cursors[4] ||| put 44 c.cursors[5] ||| put 48 c.cursors[6] ||| put 52 c.cursors[7]
    ||| put 56 (if inMove then c.srcEA else 0) ||| put 60 (if inMove then c.dstEA else 0)

/-- The error record of an event and the counter after it (Table 1-18, R170). -/
def errorImage (e : ErrorEvent) (events : Word) : BitVec 512 :=
  putByte 0 e.code.code ||| putByte 1 e.unit.code ||| putByte 2 ((e.channel.map Fin.val).getD 255)
    ||| putByte 3 (respCode e.resp) ||| put 4 events ||| put 8 e.pa

/-- A whole status block write of the record at `a`: bytes 16 to 31 (R8). -/
def statusWrite (a : PAddr) (image : BitVec 512) : MpReq := .write (a + 16) 0xFFFF image

/-- The SKIPPED write: byte 16 alone (R8). -/
def skippedWrite (a : PAddr) : MpReq := .write (a + 16) 1 (putByte 0 OutcomeCode.skipped.code)

/-! ## Semaphore records -/

/-- COUNT as a signed number (R15). -/
def semCount (d : BitVec 48) : Int := (halfAt d 4).toInt

/-- The record is live (R15). -/
def semLive (d : BitVec 48) : Bool :=
  byteAt d 0 == 1 && (byteAt d 1 == 0 || byteAt d 1 == 1) && (byteAt d 2 == 0 || byteAt d 2 == 1)

/-- DISCIPLINE is LIFO (Table 1-13). -/
def semLifo (d : BitVec 48) : Bool := byteAt d 1 == 1

/-- ALERT is 1 (Table 1-13). -/
def semAlert (d : BitVec 48) : Bool := byteAt d 2 == 1

/-- The write of bytes 3 to 5: LAST_NOTIFIER and COUNT (R51). -/
def semWrite (record : PAddr) (notifier : Byte) (count : BitVec 16) : MpReq :=
  .write (record + 3) 0b111 (put 0 notifier ||| put 1 count)

end Sys2Proof.Machine
end

