-- ==== Sys2Proof/Machine/Flags.lean ====
section
/-! DEFINITION. What the host sees: the values 32-bit register reads return, QUIET and the interrupt line (10). None of it
is stored: each is computed from State. -/

namespace Sys2Proof.Machine

/-- A one-bit field at position `i` of a register. -/
def bitAt (i : Nat) (b : Bool) : Word := if b then (1 : Word) <<< i else 0

/-- A field of several bits whose lowest bit stands at position `i`. -/
def fieldAt {w : Nat} (i : Nat) (x : BitVec w) : Word := (x.setWidth 32) <<< i

/-! ## Quiescence and the interrupt line -/

/-- A channel at rest (R179; log 26): OFF, STOPPED, HALTED or parked with no procedure, or held before new work. -/
def Channel.atRest (c : Channel) : Bool :=
  c.reset == .off
    && (match c.activity with
        | .rest => true
        | .parked => true
        | .beforeWait => true
        | .beforeFetch => true
        | .ready => true
        | .beforeNotify => true
        | .contextRead | .waiting | .linkRead | .headerRead _ | .bodyRead _ _ | .accepting _ | .slice | .finishDrain
        | .doneWrite | .notifying | .doneRewrite | .stopDrain | .stopSave | .haltDrain | .haltStatus | .haltSave
        | .skipWrite => false)

/-- MP holds no outstanding request (R162). -/
def MemPort.quiet (p : MemPort) : Bool :=
  p.fu.isNone && p.su.isNone && p.te.isNone && p.tu.isNone && p.lb.isNone && p.sb.isNone

/-- STATUS.QUIET (R179). -/
def State.quiet (s : State) : Bool :=
  !s.rp.run && !s.resetting && s.rp.signalSlot.isNone && s.rp.commandSlot.isNone
    && s.fu.queue.isEmpty && s.fu.current.isNone && s.su.queue.isEmpty && s.su.current.isNone
    && s.te.grant.isNone && s.lb.queue.isEmpty && s.lb.current.isNone
    && s.sb.queue.isEmpty && s.sb.writing.isNone && s.mp.quiet
    && allChannels.all fun n => (s.chan n).atRest

/-- STATUS.ALERT_PENDING (R184). -/
def State.alertPending (s : State) : Bool := !s.rp.alerts.isEmpty

/-- STATUS.HALT_PENDING (R184). -/
def State.haltPending (s : State) : Bool := allChannels.any fun n => (s.chan n).haltedBit

/-- The interrupt line (R187, Table 10-4): low while reset_n is asserted, since INT_EN is then 0. -/
def State.irq (s : State) : Bool :=
  (s.rp.intEn.getLsbD 0 && s.alertPending) || (s.rp.intEn.getLsbD 1 && s.haltPending)
    || (s.rp.intEn.getLsbD 2 && s.sb.refused) || (s.rp.intEn.getLsbD 3 && s.sb.errorEvent)
    || (s.rp.intEn.getLsbD 4 && (s.sb.alertLost || s.sb.recordFailed))

/-! ## Register values (Table 10-2) -/

/-- CONTROL as read: SOFT_RESET reads 0 (R178). -/
def State.controlValue (s : State) : Word :=
  bitAt 0 s.rp.run ||| fieldAt 4 s.rp.reportLevel ||| fieldAt 8 s.rp.intEn

/-- ANCHOR_LO as read. -/
def State.anchorLoValue (s : State) : Word := fieldAt 13 s.rp.anchorLo

/-- ANCHOR_HI as read. -/
def State.anchorHiValue (s : State) : Word := fieldAt 0 s.rp.anchorHi

/-- CHANNEL_CMD as read: the view of the last-named channel (R183). -/
def State.channelView (s : State) : Word :=
  let c := s.chan s.rp.lastNamed
  fieldAt 0 (BitVec.ofNat 4 s.rp.lastNamed.val) ||| fieldAt 8 (BitVec.ofNat 4 c.state.code)
    ||| bitAt 16 c.stopPending ||| bitAt 17 s.rp.commandSlot.isSome

/-- STATUS as read (R184). -/
def State.statusValue (s : State) : Word :=
  bitAt 0 s.alertPending ||| bitAt 1 s.haltPending ||| bitAt 4 s.sb.refused ||| bitAt 5 s.sb.errorEvent
    ||| bitAt 6 s.sb.alertLost ||| bitAt 7 s.sb.recordFailed ||| bitAt 8 s.quiet ||| bitAt 9 s.resetting
    ||| bitAt 10 s.rp.signalSlot.isSome ||| fieldAt 16 (BitVec.ofNat 4 s.rp.refuseReason.code)

/-- HALTED as read (R186). -/
def State.haltedValue (s : State) : Word :=
  allChannels.foldl (fun v n => v ||| bitAt n.val (s.chan n).haltedBit) 0

/-- ALERT as read, before the pop (R186). -/
def State.alertValue (s : State) : Word :=
  match s.rp.alerts with
  | [] => 0
  | k :: _ => bitAt 31 true ||| fieldAt 0 (BitVec.ofNat 8 k.val)

/-- What a 32-bit read at an offset returns; every read returns 0 while reset_n is asserted (R176). -/
def State.readRegister (s : State) (offset : BitVec 6) : Word :=
  if s.resetAsserted then 0
  else
    match offset.toNat with
    | 0x00 => Config.ident
    | 0x04 => s.controlValue
    | 0x08 => s.anchorLoValue
    | 0x0C => s.anchorHiValue
    | 0x10 => 0
    | 0x14 => s.channelView
    | 0x18 => s.statusValue
    | 0x1C => s.haltedValue
    | 0x20 => s.alertValue
    | _ => 0

end Sys2Proof.Machine
end

