-- ==== Sys2Proof/Machine/Channels.lean ====
section
/-! DEFINITION. The Channel Controllers (02_channels): the flow of a task, the stop and halt procedures, the answers a CC
acts on, and the channel commands. A channel whose reset is in progress acts on no answer as flow (R47). -/

namespace Sys2Proof.Machine

/-! ## Procedures -/

/-- The halt procedure begins: the fault is latched, stop-pending and the mark cleared, the drain asked for (R42, R43). -/
def beginHalt (n : ChanId) (code : FaultCode) (va : VAddr) (s : State) : State :=
  (s.modChan n fun c =>
    { c with fault := some code, faultVA := va, stopPending := false, mark := false, activity := .haltDrain }).queueLb
    (.drain n)

/-- The stop procedure begins: the drain is asked for (R41). -/
def beginStop (n : ChanId) (s : State) : State := (s.setActivity n .stopDrain).queueLb (.drain n)

/-- A pending stop at a stop point: it waits for the answer of an undo still at SU (R39, R40). -/
def stopHere (n : ChanId) (s : State) : State := if s.suBusy n then s else beginStop n s

/-- The save write of the procedure in progress (R4). -/
def askSave (n : ChanId) (st : ChState) (a : Activity) (s : State) : State :=
  s.askFu n .save (.write (s.contextAddr n + 64) (BitVec.allOnes 64) ((s.chan n).saveImage st)) a

/-! ## The flow of one task -/

/-- Before the posting wait: a stop point, then the wait if RUN is 1 (R24, R36). -/
def postingPoint (n : ChanId) (s : State) : State :=
  let c := s.chan n
  if c.stopPending then stopHere n s
  else if s.rp.run && !s.suBusy n then (s.setActivity n .waiting).queueSu (.wait n c.posting)
  else s

/-- The channel enters POSTWAIT for a posting wait (R24). -/
def enterPosting (n : ChanId) (s : State) : State :=
  postingPoint n
    (s.modChan n fun c => { c with state := .postwait, phase := .post, listIndex := 0, activity := .beforeWait })

/-- Follow a link: the header read, or CHAIN_BROKEN (R25, R26). -/
def followLink (n : ChanId) (l : BitVec 64) (s : State) : State :=
  match linkOf l with
  | none => beginHalt n .chainBroken 0 s
  | some a => s.askFu n .header (.read a 32) (.headerRead a)

/-- Before the fetch: a stop point, then the link choice if RUN is 1 (R25, R36). -/
def fetchPoint (n : ChanId) (s : State) : State :=
  let c := s.chan n
  if c.stopPending then stopHere n s
  else if s.rp.run then
    match c.lastTask with
    | none => followLink n (c.firstLink.setWidth 64) s
    | some a => s.askFu n .link (.read a 8) .linkRead
  else s

/-- The channel enters FETCHING (R24). -/
def enterFetch (n : ChanId) (s : State) : State :=
  fetchPoint n
    (s.modChan n fun c => { c with state := .fetching, phase := .fetch, listIndex := 0, activity := .beforeFetch })

/-- In READY: the mark, then the stop, is taken at once (R31, R43). -/
def readyPoint (n : ChanId) (s : State) : State :=
  let c := s.chan n
  if c.mark then beginHalt n .writeError 0 s else if c.stopPending then stopHere n s else s

/-- The preloads in list order (R29). -/
def applyPreloads (cursors : Vector Word 8) (l : List Preload) : Vector Word 8 :=
  l.foldl (fun v p => v.set p.cursor.val p.value) cursors

/-- Progress set for move `i` (R29, R95). -/
def Channel.prepareMove (c : Channel) (i : Nat) (m : Move) : Channel :=
  { c with moveIndex := i, remaining := m.total, srcEA := 0, dstEA := 0, firstFlag := true, fillValue := none }

/-- Progress and task counters cleared, no task held (R35, R46). -/
def Channel.clearTask (c : Channel) : Channel :=
  { c with
    current := none, task := none, moveIndex := 0, remaining := 0, srcEA := 0, dstEA := 0, firstFlag := false,
    fillValue := none, performed := 0, mismatch := none, resumedNotify := false }

/-- FINISHING is entered in phase DRAIN with a drain asked for (R32). -/
def enterFinishing (n : ChanId) (s : State) : State :=
  (s.modChan n fun c =>
    { c with state := .finishing, phase := .drain, listIndex := 0, activity := .finishDrain }).queueLb (.drain n)

/-- The preloads are applied and the channel enters its work (R29). -/
def enterWork (n : ChanId) (s : State) : State :=
  match (s.chan n).task with
  | none => s
  | some t =>
    let s := s.modChan n fun c => { c with cursors := applyPreloads c.cursors t.preloads, listIndex := 0 }
    match t.work with
    | .transfer [] => enterFinishing n s
    | .transfer (m :: _) =>
      readyPoint n
        (s.modChan n fun c =>
          ({ c with state := .ready, phase := .move, activity := .ready } : Channel).prepareMove 0 m)
    | .purge _ => readyPoint n (s.modChan n fun c => { c with state := .ready, phase := .purge, activity := .ready })

/-- The wait list or notify list of the task copy. -/
def Channel.waits (c : Channel) : List SemId := (c.task.map Task.waits).getD []

/-- The notify list of the task copy. -/
def Channel.notifies (c : Channel) : List SemId := (c.task.map Task.notifies).getD []

/-- Before the wait at the list index: a stop point, then the wait if RUN is 1; past the last, the work (R28, R29). -/
def prewaitPoint (n : ChanId) (s : State) : State :=
  let c := s.chan n
  match c.waits[c.listIndex]? with
  | none => enterWork n s
  | some k =>
    if c.stopPending then stopHere n s
    else if s.rp.run && !s.suBusy n then (s.setActivity n .waiting).queueSu (.wait n k)
    else s

/-- The task ends; the channel pauses, stops or goes back to its posting wait (R35). -/
def taskEnd (n : ChanId) (s : State) : State :=
  let c := s.chan n
  let pause := (c.task.map Task.pauseAfter).getD false
  let t := s.setChan n { c.clearTask with phase := .post, listIndex := 0, activity := .beforeWait }
  if pause then beginStop n t else if c.stopPending then stopHere n t else enterPosting n t

/-- The status write of the current record. -/
def askStatus (n : ChanId) (kind : FuKind) (image : BitVec 512) (a : Activity) (s : State) : State :=
  s.askFu n kind (statusWrite ((s.chan n).current.getD 0) image) a

/-- Before the notify at the list index; past the last, the DONE rewrite of a resumed channel or the task's end (R34, R45). -/
def notifyPoint (n : ChanId) (s : State) : State :=
  let c := s.chan n
  match c.notifies[c.listIndex]? with
  | some k => if s.rp.run && !s.suBusy n then (s.setActivity n .notifying).queueSu (.notify n k) else s
  | none => if c.resumedNotify then askStatus n .doneRewrite c.doneImage .doneRewrite s else taskEnd n s

/-- A channel goes on from the point at which it holds, if it holds at one (R36, R40). -/
def goOn (n : ChanId) (s : State) : State :=
  let c := s.chan n
  if c.reset != .off then s
  else
    match c.activity with
    | .beforeWait => if c.phase = .prewait then prewaitPoint n s else postingPoint n s
    | .beforeFetch => fetchPoint n s
    | .beforeNotify => notifyPoint n s
    | .ready => readyPoint n s
    | .rest | .contextRead | .waiting | .parked | .linkRead | .headerRead _ | .bodyRead _ _ | .accepting _ | .slice
    | .finishDrain | .doneWrite | .notifying | .doneRewrite | .stopDrain | .stopSave | .haltDrain | .haltStatus
    | .haltSave | .skipWrite => s

/-- A channel held by RUN (R36). -/
def Channel.heldByRun (c : Channel) : Bool :=
  c.reset == .off && (c.activity == .beforeWait || c.activity == .beforeFetch || c.activity == .beforeNotify)

/-! ## Answers of FU -/

/-- The answer to a context read (R23). -/
def contextAnswered (n : ChanId) (r : Resp) (d : BitVec 384) (s : State) : State :=
  if goodData r then
    if contextValid d then
      postingPoint n (s.modChan n fun c => { c.latch d with activity := .beforeWait })
    else beginHalt n .contextError 0 s
  else beginHalt n .fetchError 0 s

/-- The answer to the LINK read (R25). -/
def linkAnswered (n : ChanId) (r : Resp) (d : BitVec 64) (s : State) : State :=
  if goodData r then followLink n d s else beginHalt n .fetchError 0 s

/-- FORMAT with the index of the failing entry (R26). -/
def formatFault (n : ChanId) (i : Nat) (s : State) : State :=
  beginHalt n .format 0 (s.modChan n fun c => { c with listIndex := i })

/-- The checked record is copied and its acceptance write asked for, or FORMAT (R26, R27). -/
def acceptRecord (n : ChanId) (a : PAddr) (t : Except Nat Task) (s : State) : State :=
  match t with
  | .error i => formatFault n i s
  | .ok task =>
    (s.modChan n fun c => { c with task := some task }).askFu n .acceptance (statusWrite a activeImage) (.accepting a)

/-- The answer to the header read of the record at `a` (R26). -/
def headerAnswered (n : ChanId) (a : PAddr) (r : Resp) (d : BitVec 256) (s : State) : State :=
  if goodData r then
    if outcomePending d then
      match headerOf d with
      | none => formatFault n 255 s
      | some h =>
        if h.bodyBytes = 0 then acceptRecord n a (taskOf h 0) s
        else s.askFu n .body (.read (a + 32) h.bodyBytes) (.bodyRead a d)
    else beginHalt n .staleRecord 0 s
  else beginHalt n .fetchError 0 s

/-- The answer to the body read of the record at `a` whose header was `hd` (R26). -/
def bodyAnswered (n : ChanId) (a : PAddr) (hd : BitVec 256) (r : Resp) (d : BitVec 4736) (s : State) : State :=
  if goodData r then
    match headerOf hd with
    | none => formatFault n 255 s
    | some h => acceptRecord n a (taskOf h d) s
  else beginHalt n .fetchError 0 s

/-- The answer to the acceptance write of the record at `a` (R27). -/
def acceptanceAnswered (n : ChanId) (a : PAddr) (ok : Bool) (s : State) : State :=
  if ok then
    prewaitPoint n
      (s.modChan n fun c =>
        { c with
          current := some a, lastTask := some a, performed := 0, mismatch := none, listIndex := 0, state := .prewait,
          phase := .prewait, activity := .beforeWait })
  else beginHalt n .statusWrite 0 s

/-- The answer to the DONE write (R33). -/
def doneAnswered (n : ChanId) (ok : Bool) (s : State) : State :=
  if ok then notifyPoint n (s.modChan n fun c => { c with phase := .notify, listIndex := 0, activity := .beforeNotify })
  else beginHalt n .statusWrite 0 s

/-- The answer to the DONE rewrite (R45). -/
def doneRewriteAnswered (n : ChanId) (ok : Bool) (s : State) : State :=
  if ok then taskEnd n s else beginHalt n .statusWrite 0 s

/-- The answer to the halt's status write, whatever it is (R42). -/
def haltStatusAnswered (n : ChanId) (s : State) : State := askSave n .halted .haltSave s

/-- The answer to the SKIPPED write, whatever it is (R46). -/
def skippedAnswered (n : ChanId) (s : State) : State :=
  enterPosting n (s.modChan n fun c => { c.clearTask with haltedBit := false, fault := none, faultVA := 0 })

/-- The answer to the save write, whatever it is (R21, R41, R42). -/
def saveAnswered (n : ChanId) (s : State) : State :=
  s.modChan n fun c =>
    if c.activity = .haltSave then { c with state := .halted, haltedBit := true, activity := .rest }
    else { c with state := .stopped, stopPending := false, mark := false, activity := .rest }

/-- FU's answer reaches the CC (R49): nothing follows while the channel's reset is in progress (R47). -/
def fuAnswered (j : FuJob) (g : Got 4736) (s : State) : State :=
  let n := j.chan
  let c := s.chan n
  let ok := g.resp == .okay
  if c.reset != .off then s
  else
    match j.kind with
    | .context => contextAnswered n g.resp (g.data.setWidth 384) s
    | .link => linkAnswered n g.resp (g.data.setWidth 64) s
    | .header =>
      match c.activity with
      | .headerRead a => headerAnswered n a g.resp (g.data.setWidth 256) s
      | _ => s
    | .body =>
      match c.activity with
      | .bodyRead a hd => bodyAnswered n a hd g.resp g.data s
      | _ => s
    | .acceptance =>
      match c.activity with
      | .accepting a => acceptanceAnswered n a ok s
      | _ => s
    | .done => doneAnswered n ok s
    | .doneRewrite => doneRewriteAnswered n ok s
    | .haltStatus => haltStatusAnswered n s
    | .skipped => skippedAnswered n s
    | .save => saveAnswered n s

/-! ## Answers of SU -/

/-- A wait has succeeded, at once or by a wake (R24, R28, R58). -/
def waitSucceeded (n : ChanId) (s : State) : State :=
  let c := s.chan n
  if c.reset != .off then s
  else if c.phase = .prewait then
    prewaitPoint n (s.setChan n { c with listIndex := c.listIndex + 1, activity := .beforeWait })
  else enterFetch n s

/-- A wait has parked the channel; a pending stop takes effect through the undo (R39, R40). -/
def waitParked (n : ChanId) (s : State) : State :=
  let c := s.chan n
  if c.reset != .off then s
  else if c.stopPending then (s.setActivity n .parked).queueSu (.undoStop n)
  else s.setActivity n .parked

/-- A wait or notify was not performed (R24, R28, R34). -/
def requestFailed (n : ChanId) (code : FaultCode) (s : State) : State :=
  if (s.chan n).reset != .off then s else beginHalt n code 0 s

/-- A notify was performed (R34). -/
def notifyPerformed (n : ChanId) (s : State) : State :=
  let c := s.chan n
  if c.reset != .off then s
  else notifyPoint n (s.setChan n { c with listIndex := c.listIndex + 1, activity := .beforeNotify })

/-- An undo for STOP was performed: the stop takes effect in the phase of the undone wait (R40). -/
def stopUndone (n : ChanId) (s : State) : State :=
  if (s.chan n).reset != .off then s else beginStop n (s.setActivity n .beforeWait)

/-- An undo for STOP was not performed: the channel stays parked and the STOP is refused (R40). -/
def stopUndoFailed (n : ChanId) (s : State) : State :=
  if (s.chan n).reset != .off then s
  else (s.modChan n fun c => { c with stopPending := false }).refuse .semaphoreError

/-- A reset goes on to its drain (R48). -/
def resetDrain (n : ChanId) (s : State) : State := (s.modChan n fun c => { c with reset := .drain }).queueLb (.drain n)

/-- An undo for RESET was answered, whatever the answer (R48, R63). -/
def resetUndoAnswered (n : ChanId) (s : State) : State :=
  if (s.chan n).reset = .undo then resetDrain n s else s

/-! ## Answers of TE and LB -/

/-- What the CC does at slice end, the grant being free (R31); it uses none of it as flow during a reset (R107). -/
def sliceEnded (n : ChanId) (fault : Option (FaultCode × VAddr)) (s : State) : State :=
  let s := s.modChan n fun c => { c with state := .ready, activity := .ready }
  let c := s.chan n
  if c.reset != .off then s
  else
    match fault with
    | some (code, va) => beginHalt n code va s
    | none =>
      if c.mark then beginHalt n .writeError 0 s
      else if c.stopPending then stopHere n s
      else if c.phase = .drain then enterFinishing n s
      else s

/-- A drain of the channel was answered (R32, R41, R42, R48). -/
def drainAnswered (n : ChanId) (s : State) : State :=
  let c := s.chan n
  match c.reset with
  | .drain => s.setChan n Channel.off
  | .settling => s
  | .undo => s
  | .off =>
    match c.activity with
    | .finishDrain =>
      if c.mark then beginHalt n .writeError 0 s
      else askStatus n .done c.doneImage .doneWrite (s.modChan n fun c => { c with phase := .status })
    | .stopDrain => if c.mark then beginHalt n .writeError 0 s else askSave n .stopped .stopSave s
    | .haltDrain =>
      let s := s.modChan n fun c => { c with mark := false }
      if c.current.isSome then askStatus n .haltStatus c.haltImage .haltStatus s else askSave n .halted .haltSave s
    | _ => s

/-- LB sets a channel's write-error mark (R43, R151): not kept in OFF, cleared in a halt procedure (log 16). -/
def setMark (n : ChanId) (s : State) : State :=
  let c := s.chan n
  if c.state = .off || c.activity == .haltDrain || c.activity == .haltStatus || c.activity == .haltSave then s
  else s.setChan n { c with mark := true }

/-- A failed write-out marks every channel of the line; READY channels take the mark at once (R150, R151). -/
def markChannels (l : List ChanId) (s : State) : State :=
  let s := l.foldl (fun t n => setMark n t) s
  s.inArrivalOrder (l.filter fun n => (s.chan n).mark && (s.chan n).activity == .ready) goOn

/-! ## Channel commands (Table 2-4) -/

/-- The CC refuses a command (R37). -/
def refuseCommand (r : Reason) (s : State) : State := s.refuse r

/-- START (R22). -/
def takeStart (n : ChanId) (s : State) : State :=
  if (s.chan n).state = .off then
    if s.rp.run then
      (s.setChan n { Channel.off with state := .postwait }).askFu n .context (.read (s.contextAddr n) 48) .contextRead
    else refuseCommand .notRunning s
  else refuseCommand .state s

/-- A stop or halt procedure of the channel is in progress (R21). -/
def Channel.inProcedure (c : Channel) : Bool :=
  c.activity == .stopDrain || c.activity == .stopSave || c.activity == .haltDrain || c.activity == .haltStatus
    || c.activity == .haltSave

/-- STOP (R38, R39, R40). -/
def takeStop (n : ChanId) (s : State) : State :=
  let c := s.chan n
  if c.state = .off || c.state = .stopped || c.state = .halted then refuseCommand .state s
  else if c.stopPending || c.inProcedure then s
  else
    let s := s.setChan n { c with stopPending := true }
    if s.isParked n then s.queueSu (.undoStop n) else goOn n s

/-- A resumed channel continues in the phase held (Table 2-5); without a valid context it reads it again (R44). -/
def resumeFrom (n : ChanId) (s : State) : State :=
  let c := s.chan n
  if !c.contextValid then
    (s.setChan n { c with state := .postwait, phase := .post, listIndex := 0 }).askFu n .context
      (.read (s.contextAddr n) 48) .contextRead
  else
    match c.phase with
    | .post => enterPosting n s
    | .fetch => enterFetch n s
    | .prewait => prewaitPoint n (s.setChan n { c with state := .prewait, activity := .beforeWait })
    | .move => s.setChan n { c with state := .ready, activity := .ready }
    | .purge => s.setChan n { c with state := .ready, activity := .ready }
    | .drain => enterFinishing n s
    | .status =>
      askStatus n .done c.doneImage .doneWrite (s.setChan n { c with state := .finishing, resumedNotify := false })
    | .notify =>
      notifyPoint n (s.setChan n { c with state := .finishing, resumedNotify := true, activity := .beforeNotify })

/-- A STOPPED or HALTED channel with no SKIP in progress (R46). -/
def Channel.atHalt (c : Channel) : Bool := (c.state == .stopped || c.state == .halted) && c.activity == .rest

/-- RESUME (R44, R45, R165). -/
def takeResume (n : ChanId) (s : State) : State :=
  let c := s.chan n
  if c.atHalt then
    if c.state = .halted && c.fault = some .writeError then refuseCommand .notResumable s
    else resumeFrom n (s.setChan n { c with haltedBit := false, fault := none, faultVA := 0 })
  else refuseCommand .state s

/-- SKIP (R46). -/
def takeSkip (n : ChanId) (s : State) : State :=
  let c := s.chan n
  match c.current with
  | some a => if c.atHalt then s.askFu n .skipped (skippedWrite a) .skipWrite else refuseCommand .state s
  | none => refuseCommand .state s

/-- RESET: the channel's reset begins; its requests complete (R47). -/
def takeReset (n : ChanId) (s : State) : State := s.modChan n fun c => { c with reset := .settling }

/-- The CC takes a command (R37). -/
def takeChannelCommand (n : ChanId) (k : Command) (s : State) : State :=
  match k with
  | .start => takeStart n s
  | .stop => takeStop n s
  | .resume => takeResume n s
  | .skip => takeSkip n s
  | .reset => takeReset n s

end Sys2Proof.Machine
end

