-- ==== Sys2Proof/Machine/Semaphores.lean ====
section
/-! DEFINITION. The Semaphore Unit and the alert list (03_semaphores). -/

namespace Sys2Proof.Machine

/-! ## Decision on the record read -/

/-- Why an operation is not performed (Table 3-2): SEM_INVALID, SEM_OVERFLOW or a memory answer. -/
inductive SuFailure where
  | invalid | overflow | memory
  deriving DecidableEq, Repr

/-- The request is a wait, which lowers COUNT; every other raises it. -/
def SuReq.lowers : SuReq → Bool
  | .wait _ _ => true
  | .notify _ _ => false
  | .undoStop _ => false
  | .undoReset _ => false
  | .signal _ => false

/-- The failure a request meets on the COUNT at which it cannot be performed: R54 at -16, R56, R61 and R62 at 32767. -/
def SuReq.limitFailure : SuReq → SuFailure
  | .wait _ _ => .invalid
  | .notify _ _ => .overflow
  | .undoStop _ => .invalid
  | .undoReset _ => .invalid
  | .signal _ => .overflow

/-- LAST_NOTIFIER as the request writes it: its own number for a notify or SIGNAL, else the value read (R54, R56, R61, R62). -/
def SuReq.notifier (r : SuReq) (d : BitVec 48) : Byte :=
  match r with
  | .notify n _ => BitVec.ofNat 8 n.val
  | .signal _ => Config.portNotifier
  | .wait _ _ => byteAt d 3
  | .undoStop _ => byteAt d 3
  | .undoReset _ => byteAt d 3

/-- The COUNT the request writes on the record read, or why it is not performed (R52, R54, R56, R62). -/
def SuReq.decide (r : SuReq) (d : BitVec 48) : Except SuFailure (BitVec 16) :=
  if semLive d && Decidable.decide (-16 ≤ semCount d) then
    if r.lowers then
      if semCount d = -16 then .error r.limitFailure else .ok (halfAt d 4 - 1)
    else if semCount d = 32767 then .error r.limitFailure
    else .ok (halfAt d 4 + 1)
  else .error .invalid

/-! ## Events (Table 9-2) -/

/-- The request is an undo for RESET. -/
def SuReq.isUndoReset : SuReq → Bool
  | .undoReset _ => true
  | .wait _ _ => false
  | .notify _ _ => false
  | .undoStop _ => false
  | .signal _ => false

/-- The event code of a failing answer: SIGNAL_MEMORY, UNDO_LOST, or the code of a channel's own operation (R53). -/
def SuReq.failureCode (r : SuReq) (own : EventCode) : EventCode :=
  match r with
  | .signal _ => .signalMemory
  | .undoReset _ => .undoLost
  | .wait _ _ => own
  | .notify _ _ => own
  | .undoStop _ => own

/-- The events of the answer to SU's read: those of the response, and UNDO_LOST for an invalid record (R53, R63, R166). -/
def SuReq.readEvents (r : SuReq) (resp : Resp) (d : BitVec 48) (pa : PAddr) : List ErrorEvent :=
  let lost : List ErrorEvent :=
    match r.isUndoReset, r.decide d with
    | true, .error _ => [⟨.undoLost, .su, r.chan, resp, pa⟩]
    | true, .ok _ => []
    | false, _ => []
  match resp with
  | .okay => lost
  | .corrected => ⟨.memCorrected, .su, r.chan, resp, pa⟩ :: lost
  | .uncorrectable => [⟨r.failureCode .readUncorrectable, .su, r.chan, resp, pa⟩]
  | .error => [⟨r.failureCode .busError, .su, r.chan, resp, pa⟩]

/-- The event of the answer to SU's write of bytes 3 to 5, at the address written, which is the record's plus 3 (R53). -/
def SuReq.writeEvents (r : SuReq) (resp : WriteResp) (pa : PAddr) : List ErrorEvent :=
  Machine.writeEvents (r.failureCode .busError) .su r.chan resp pa

/-! ## Parked list and alert list -/

/-- The semaphore an operation of this request concerns; none for an undo of a channel not parked (R51, R62). -/
def State.suTarget (s : State) (r : SuReq) : Option SemId :=
  match r with
  | .wait _ k => some k
  | .notify _ k => some k
  | .signal k => some k
  | .undoStop n => (s.su.parked.find? (·.chan == n)).map Parked.sem
  | .undoReset n => (s.su.parked.find? (·.chan == n)).map Parked.sem

/-- The parked entry a notify on `k` removes: the oldest under FIFO, the newest under LIFO (R57). -/
def chooseParked (lifo : Bool) (k : SemId) (l : List Parked) : Option Parked :=
  if lifo then l.reverse.find? (·.sem == k) else l.find? (·.sem == k)

/-- An entry leaves the parked list. -/
def State.unpark (s : State) (n : ChanId) : State :=
  { s with su := { s.su with parked := s.su.parked.filter (·.chan != n) } }

/-- The wake of a notify whose new COUNT is at or below zero (R56, R58). -/
def wakeOne (lifo : Bool) (k : SemId) (count : BitVec 16) (s : State) : State :=
  if count.toInt ≤ 0 then
    match chooseParked lifo k s.su.parked with
    | none => s
    | some e => waitSucceeded e.chan { s with su := { s.su with parked := s.su.parked.erase e } }
  else s

/-- The offer of a semaphore number to the alert list (R59, R69). -/
def offerAlert (k : SemId) (s : State) : State :=
  if s.rp.alerts.contains k then s
  else if Config.alertEntries ≤ s.rp.alerts.length then { s with sb := { s.sb with alertLost := true } }
  else { s with rp := { s.rp with alerts := s.rp.alerts ++ [k] } }

/-- RP's slot empties when SU answers its SIGNAL (R61). -/
def State.emptySignalSlot (s : State) : State := { s with rp := { s.rp with signalSlot := none } }

/-! ## Answers -/

/-- The fault code of an operation not performed for a channel's flow (R53, R54, R56). -/
def SuFailure.fault : SuFailure → FaultCode
  | .invalid => .semInvalid
  | .overflow => .semOverflow
  | .memory => .semError

/-- The refusal reason of a SIGNAL not performed (R61). -/
def SuFailure.reason : SuFailure → Reason
  | .invalid => .invalid
  | .overflow => .overflow
  | .memory => .memory

/-- SU answers a request it does not perform (R53, R61, R62, R63). -/
def suFailed (r : SuReq) (f : SuFailure) (s : State) : State :=
  match r with
  | .wait n _ => requestFailed n f.fault s
  | .notify n _ => requestFailed n f.fault s
  | .undoStop n => stopUndoFailed n s
  | .undoReset n => resetUndoAnswered n (s.unpark n)
  | .signal _ => s.emptySignalSlot.refuse f.reason

/-- SU answers a wait whose write was answered OKAY (R54). -/
def waitPerformed (n : ChanId) (k : SemId) (count : BitVec 16) (s : State) : State :=
  if 0 ≤ count.toInt then waitSucceeded n s
  else waitParked n { s with su := { s.su with parked := s.su.parked ++ [⟨n, k⟩] } }

/-- The wake and the alert append of a notify or SIGNAL whose write was answered OKAY (R56, R61; log 7). -/
def notifyEffects (d : BitVec 48) (k : SemId) (count : BitVec 16) (s : State) : State :=
  let s := wakeOne (semLifo d) k count s
  if semAlert d then offerAlert k s else s

/-- SU answers a request whose write was answered OKAY (R51). -/
def suPerformed (o : SuOp) (d : BitVec 48) (s : State) : State :=
  match o.req with
  | .wait n k => waitPerformed n k o.newCount s
  | .notify n k => notifyPerformed n (notifyEffects d k o.newCount s)
  | .signal k => (notifyEffects d k o.newCount s).emptySignalSlot
  | .undoStop n => stopUndone n (s.unpark n)
  | .undoReset n => resetUndoAnswered n (s.unpark n)

/-- SU answers an undo of a channel that is not parked (R62, R63). -/
def notParked (r : SuReq) (s : State) : State :=
  match r with
  | .undoStop n => goOn n s
  | .undoReset n => resetUndoAnswered n s
  | .wait _ _ => s
  | .notify _ _ => s
  | .signal _ => s

/-! ## SU's steps -/

/-- The operation ends and leaves SU free. -/
def State.suFree (s : State) : State := { s with su := { s.su with current := none, got := none } }

/-- SU takes the request at the head of its queue (R50, R51). -/
def suTake (r : SuReq) (q : List SuReq) (s : State) : State :=
  let s := { s with su := { s.su with queue := q } }
  match s.suTarget r with
  | none => notParked r s
  | some k =>
    { s with su := { s.su with current := some ⟨r, k, none, 0⟩ }, mp := { s.mp with su := some (.read (s.semAddr k) 6) } }

/-- SU issues the write of bytes 3 to 5 (R51). -/
def suWrite (o : SuOp) (d : BitVec 48) (count : BitVec 16) (s : State) : State :=
  { s with
    su := { s.su with current := some { o with record := some d, newCount := count }, got := none }
    mp := { s.mp with su := some (semWrite (s.semAddr o.sem) (o.req.notifier d) count) } }

/-- SU acts on the answer in hand to its read, or to its write (R51, R53). -/
def suAnswered (o : SuOp) (g : Got 48) (s : State) : State :=
  match o.record with
  | none =>
    if goodData g.resp then
      match o.req.decide g.data with
      | .error f => suFailed o.req f s.suFree
      | .ok count => suWrite o g.data count s
    else suFailed o.req .memory s.suFree
  | some d => if g.resp = .okay then suPerformed o d s.suFree else suFailed o.req .memory s.suFree

/-- One internal step of SU: the answer in hand once no event is kept, else the next request. -/
def suStep (s : State) : Option State :=
  match s.su.current, s.su.got, s.su.held with
  | some o, some g, [] => some (suAnswered o g s)
  | none, _, [] =>
    match s.su.queue with
    | r :: q => some (suTake r q s)
    | [] => none
  | _, _, _ => none

end Sys2Proof.Machine
end

