-- ==== Sys2Proof/Machine/Translation.lean ====
section
/-! DEFINITION. The Translation Unit: the cache (07_translation_cache) and the table walk (06_address_spaces_and_table_walks). -/

namespace Sys2Proof.Machine

/-! ## Fields of a virtual address (Table 6-1) -/

/-- Bits 31-30. -/
def vaRegion (va : VAddr) : BitVec 2 := va.extractLsb' 30 2

/-- Bits 29-20. -/
def vaSegment (va : VAddr) : BitVec 10 := va.extractLsb' 20 10

/-- Bits 19-12. -/
def vaPage (va : VAddr) : BitVec 8 := va.extractLsb' 12 8

/-- Bits 11-0. -/
def vaOffset (va : VAddr) : BitVec 12 := va.extractLsb' 0 12

/-- The set of a key: the low 5 bits of page and segment combined by exclusive-or (R132). -/
def setIndex (segment : BitVec 10) (page : BitVec 8) : Fin 32 :=
  (page.extractLsb' 0 5 ^^^ segment.extractLsb' 0 5).toFin

/-! ## Access codes (Table 1-17) -/

/-- An access code of three bits; absent for 3, 4 and 7. -/
def accessOf (x : BitVec 3) : Option AccessCode :=
  if x = 0 then some .none
  else if x = 1 then some .read
  else if x = 2 then some .readWrite
  else if x = 5 then some .deviceRead
  else if x = 6 then some .deviceReadWrite
  else none

/-- The access check of Table 6-5. -/
def AccessCode.allows (a : AccessCode) (isWrite : Bool) : Bool :=
  match a with
  | .none => false
  | .read => !isWrite
  | .readWrite => true
  | .deviceRead => !isWrite
  | .deviceReadWrite => true

/-- A device page (R18, R120). -/
def AccessCode.device : AccessCode → Bool
  | .none => false
  | .read => false
  | .readWrite => false
  | .deviceRead => true
  | .deviceReadWrite => true

/-! ## Cache entries and sets -/

/-- A valid entry holds the key of the request (R133). -/
def CacheEntry.matchesKey (e : CacheEntry) (space : BitVec 6) (va : VAddr) : Bool :=
  e.valid && e.space == space && e.region == vaRegion va && e.segment == vaSegment va && e.page == vaPage va

/-- VALID becomes 0. -/
def CacheEntry.drop (e : CacheEntry) : CacheEntry := { e with valid := false }

/-- A way of a set. -/
def CacheSet.get (c : CacheSet) : Way → CacheEntry
  | .way0 => c.way0
  | .way1 => c.way1

/-- Replace a way of a set. -/
def CacheSet.put (c : CacheSet) (w : Way) (e : CacheEntry) : CacheSet :=
  match w with
  | .way0 => { c with way0 := e }
  | .way1 => { c with way1 := e }

/-- The other way. -/
def Way.other : Way → Way
  | .way0 => .way1
  | .way1 => .way0

/-- The fill after a miss, by the next-victim order (R138). -/
def CacheSet.fill (c : CacheSet) (e : CacheEntry) : CacheSet :=
  if !c.way0.valid then c.put .way0 e
  else if !c.way1.valid then c.put .way1 e
  else { c.put c.victim e with victim := c.victim.other }

/-- What a lookup finds in a set (R133, R134): the set after it, the ways that failed parity, the hit. -/
structure Lookup where
  set : CacheSet
  failures : Nat
  hit : Option Way
  deriving DecidableEq, Repr

/-- The lookup of a key in its set: candidates failing parity leave it, and of two good ones way 0 stays (R133, R134). -/
def CacheSet.lookup (c : CacheSet) (space : BitVec 6) (va : VAddr) : Lookup :=
  let m0 := c.way0.matchesKey space va
  let m1 := c.way1.matchesKey space va
  let bad0 := m0 && !c.way0.parityOk
  let bad1 := m1 && !c.way1.parityOk
  let good0 := m0 && c.way0.parityOk
  let good1 := m1 && c.way1.parityOk
  { set :=
      { c with
        way0 := if bad0 then c.way0.drop else c.way0
        way1 := if bad1 || (good0 && good1) then c.way1.drop else c.way1 }
    failures := bad0.toNat + bad1.toNat
    hit := if good0 then some .way0 else if good1 then some .way1 else none }

/-- A cache entry matches a purge descriptor (Table 7-5). -/
def CacheEntry.purged (e : CacheEntry) (d : PurgeDescriptor) : Bool :=
  match d.scope with
  | .all => true
  | .space => e.space == d.space
  | .segment => e.space == d.space && e.region == vaRegion d.va && e.segment == vaSegment d.va
  | .page =>
    e.space == d.space && e.region == vaRegion d.va && e.segment == vaSegment d.va && e.page == vaPage d.va

/-- The entry after a purge (R143). -/
def CacheEntry.purge (e : CacheEntry) (d : PurgeDescriptor) : CacheEntry := if e.purged d then e.drop else e

/-- The invalidation step of a purge; the next-victim bits stay (R143, R144). -/
def purgeCache (d : PurgeDescriptor) (cache : Vector CacheSet 32) : Vector CacheSet 32 :=
  cache.map fun c => { c with way0 := c.way0.purge d, way1 := c.way1.purge d }

/-! ## Requests and lookup -/

/-- The set of a request. -/
def TuReq.set (q : TuReq) : Fin 32 := setIndex (vaSegment q.va) (vaPage q.va)

/-- The translation through a frame (R136). -/
def framePA (frame : BitVec 28) (va : VAddr) : PAddr := frame ++ vaOffset va

/-- The answer or the walk a lookup leads to (R135, R136, R137, R140). -/
def lookupStage (l : Lookup) (q : TuReq) : TuStage × Option Way :=
  match l.hit with
  | none => (.begin, none)
  | some w =>
    let e := l.set.get w
    if !e.access.allows q.isWrite then (.reply (.fault .access), none)
    else if q.isWrite && !e.modifiedKnown then (.begin, some w)
    else (.reply (.translated (framePA e.frame q.va) e.device e.direct), none)

/-- TE asks TU for a translation: the lookup is made, and answers or leads to a walk (R113, R133). -/
def TransUnit.ask (u : TransUnit) (q : TuReq) : TransUnit :=
  let l := u.cache[q.set].lookup q.space q.va
  let r := lookupStage l q
  { cache := u.cache.set q.set l.set
    req := some q
    stage := r.1
    root := none
    descriptor := none
    pageEntry := none
    upgrade := r.2
    got := none
    held := u.held ++ List.replicate l.failures ⟨.tcParity, .tu, some q.chan, .okay, 0⟩ }

/-! ## The walk -/

/-- The segment table base of a root, or the frame base of a DIRECT region: BASE times 256 (R115, R116). -/
def tableBase (d : BitVec 64) : PAddr := wordAt d 4 ++ (0 : BitVec 8)

/-- A table entry of eight bytes. -/
def tableEntry (base : PAddr) (i : Nat) : PAddr := base + BitVec.ofNat 40 (i * 8)

/-- A walk ends with a fault: nothing is filled, and the entry of a dirty upgrade is invalidated (R137, R141). -/
def TransUnit.walkFault (u : TransUnit) (q : TuReq) (code : FaultCode) : TransUnit :=
  { u with
    cache :=
      match u.upgrade with
      | none => u.cache
      | some w => u.cache.set q.set (u.cache[q.set].put w (u.cache[q.set].get w).drop)
    stage := .reply (.fault code)
    upgrade := none }

/-- The entry a successful walk fills (R139). -/
def filledEntry (q : TuReq) (pa : PAddr) (access : AccessCode) (modified direct : Bool) : CacheEntry where
  valid := true
  space := q.space
  region := vaRegion q.va
  segment := vaSegment q.va
  page := vaPage q.va
  frame := pa.extractLsb' 12 28
  access := access
  modifiedKnown := modified
  device := access.device
  direct := direct
  parityOk := true

/-- Step 6: the fill, or the refill in place of a dirty upgrade, and the answer (R124, R138, R141). -/
def TransUnit.walkDone (u : TransUnit) (q : TuReq) (pa : PAddr) (access : AccessCode) (modified direct : Bool) :
    TransUnit :=
  let e := filledEntry q pa access modified direct
  { u with
    cache :=
      match u.upgrade with
      | none => u.cache.set q.set (u.cache[q.set].fill e)
      | some w => u.cache.set q.set (u.cache[q.set].put w e)
    stage := .reply (.translated pa access.device direct)
    upgrade := none }

/-- What a step of the walk leads to: a further request of TU, or the walk's end. -/
inductive WalkNext where
  | fault (code : FaultCode)
  | done (pa : PAddr) (access : AccessCode) (modified direct : Bool)
  | ask (req : MpReq) (stage : TuStage)
  deriving DecidableEq, Repr

/-- Step 1 on the root read; step 2's range check is made before its read (R115, R116, R117, R119). -/
def rootStep (q : TuReq) (d : BitVec 64) : WalkNext :=
  let kind := byteAt d 0
  if kind = 0 then .fault .regionAbsent
  else if kind = 1 then
    if 1023 < (halfAt d 2).toNat || (wordAt d 4).extractLsb' 0 5 != 0 then .fault .tableFormat
    else if (halfAt d 2).toNat < (vaSegment q.va).toNat then .fault .segmentRange
    else .ask (.read (tableEntry (tableBase d) (vaSegment q.va).toNat) 8) .descriptor
  else if kind = 2 then
    match accessOf ((byteAt d 1).extractLsb' 0 3) with
    | none => .fault .tableFormat
    | some a =>
      if (wordAt d 4).extractLsb' 0 22 != 0 then .fault .tableFormat
      else if a.allows q.isWrite then .done (tableBase d + (q.va.extractLsb' 0 30).setWidth 40) a true true
      else .fault .access
  else .fault .tableFormat

/-- Step 2 on the descriptor read; step 3's range check is made before its read (R117, R118). -/
def descriptorStep (q : TuReq) (d : BitVec 64) : WalkNext :=
  if !(byteAt d 0).getLsbD 0 then .fault .segmentAbsent
  else
    match accessOf ((byteAt d 1).extractLsb' 0 3) with
    | none => .fault .tableFormat
    | some _ =>
      if (wordAt d 4).extractLsb' 0 3 != 0 then .fault .tableFormat
      else if (byteAt d 2).toNat < (vaPage q.va).toNat then .fault .pageRange
      else .ask (.read (tableEntry (tableBase d) (vaPage q.va).toNat) 8) .pageEntry

/-- The physical address a page entry yields (R118). -/
def pagePA (q : TuReq) (entry : BitVec 64) : PAddr := framePA (entry.extractLsb' 32 28) q.va

/-- The flag byte step 5 writes, when one is needed (R121, Table 6-6). -/
def flagByte (isWrite : Bool) (b : Byte) : Option Byte :=
  let used := b.getLsbD 0
  let modified := b.getLsbD 1
  if !used || (isWrite && !modified) then some (if isWrite || modified then 3 else 1) else none

/-- MODIFIED after step 5 (R122, R124). -/
def modifiedAfter (isWrite : Bool) (b : Byte) : Bool := isWrite || b.getLsbD 1

/-- Step 3 on the page entry read, the access check, and step 5's write if one is needed (R118, R119, R121). -/
def pageStep (q : TuReq) (descriptor entry : BitVec 64) : WalkNext :=
  if !(byteAt entry 0).getLsbD 0 then .fault .pageAbsent
  else
    let a := (accessOf ((byteAt descriptor 1).extractLsb' 0 3)).getD .none
    if !a.allows q.isWrite then .fault .access
    else
      match flagByte q.isWrite (byteAt entry 1) with
      | some b =>
        .ask (.write (tableEntry (tableBase descriptor) (vaPage q.va).toNat + 1) 1 (put 0 b)) .flag
      | none => .done (pagePA q entry) a (modifiedAfter q.isWrite (byteAt entry 1)) false

/-- Step 5 after its write (R122). -/
def flagStep (q : TuReq) (descriptor entry : BitVec 64) (ok : Bool) : WalkNext :=
  if ok then
    .done (pagePA q entry) ((accessOf ((byteAt descriptor 1).extractLsb' 0 3)).getD .none)
      (modifiedAfter q.isWrite (byteAt entry 1)) false
  else .fault .walkError

/-- TU after a step of the walk. -/
def walkNext (q : TuReq) (x : WalkNext) (s : State) : State :=
  match x with
  | .fault code => { s with tu := s.tu.walkFault q code }
  | .done pa a modified direct => { s with tu := s.tu.walkDone q pa a modified direct }
  | .ask req stage => { s with tu := { s.tu with stage := stage }, mp := { s.mp with tu := some req } }

/-- TU takes the answer in hand out of its place. -/
def State.tuGotTaken (s : State) : State := { s with tu := { s.tu with got := none } }

/-- TU acts on the MP answer in hand (R114, R125). -/
def tuAnswered (q : TuReq) (g : Got 64) (s : State) : State :=
  let s := s.tuGotTaken
  match s.tu.stage with
  | .root =>
    let s := { s with tu := { s.tu with root := some g.data } }
    walkNext q (if goodData g.resp then rootStep q g.data else .fault .walkError) s
  | .descriptor =>
    let s := { s with tu := { s.tu with descriptor := some g.data } }
    walkNext q (if goodData g.resp then descriptorStep q g.data else .fault .walkError) s
  | .pageEntry =>
    let d := s.tu.descriptor.getD 0
    let s := { s with tu := { s.tu with pageEntry := some g.data } }
    walkNext q (if goodData g.resp then pageStep q d g.data else .fault .walkError) s
  | .flag => walkNext q (flagStep q (s.tu.descriptor.getD 0) (s.tu.pageEntry.getD 0) (g.resp == .okay)) s
  | .idle => s
  | .begin => s
  | .reply _ => s

/-- TU issues the root read of a walk (R115). -/
def walkBegin (q : TuReq) (s : State) : State :=
  { s with
    tu := { s.tu with stage := .root }
    mp := { s.mp with tu := some (.read (s.rootAddr q.space (vaRegion q.va)) 8) } }

/-- One internal step of TU: the answer in hand, or the walk's first read, once no event is kept. -/
def tuStep (s : State) : Option State :=
  match s.tu.req, s.tu.held with
  | some q, [] =>
    match s.tu.got with
    | some g => some (tuAnswered q g s)
    | none => if s.tu.stage = .begin then some (walkBegin q s) else none
  | _, _ => none

end Sys2Proof.Machine
end

