-- ==== Sys2Proof/Machine/Lines.lean ====
section
/-! DEFINITION. The Line Buffer (08_line_buffer_and_memory_port): gathering, write-outs, line checks and drains. -/

namespace Sys2Proof.Machine

/-! ## Entries -/

/-- The element's bytes enter the entry, its MASK bits are set and the channel joins CHANNELS (R149). -/
def LineEntry.merge (e : LineEntry) (pa : PAddr) (z : Size) (v : BitVec 64) (n : ChanId) : LineEntry where
  line := e.line
  mask := e.mask ||| elementMask pa z
  data := (e.data &&& ~~~elementBits pa z) ||| elementData pa z v
  chans := if e.chans.contains n then e.chans else e.chans ++ [n]

/-- A new entry that holds one element (R149). -/
def LineEntry.fresh (pa : PAddr) (z : Size) (v : BitVec 64) (n : ChanId) : LineEntry where
  line := lineOf pa
  mask := elementMask pa z
  data := elementData pa z v
  chans := [n]

/-- The entry that holds a line. -/
def LineBuffer.find (b : LineBuffer) (l : Line) : Option LineEntry := b.entries.find? (·.line == l)

/-- The element is merged into the entry of its line, in place (R149). -/
def mergeInto (entries : List LineEntry) (pa : PAddr) (z : Size) (v : BitVec 64) (n : ChanId) : List LineEntry :=
  entries.map fun e => if e.line == lineOf pa then e.merge pa z v n else e

/-- The entries after an element write that needs no eviction; none where LB must first write out the oldest (R149). -/
def placeElement (entries : List LineEntry) (pa : PAddr) (z : Size) (v : BitVec 64) (n : ChanId) :
    Option (List LineEntry) :=
  if entries.any (·.line == lineOf pa) then some (mergeInto entries pa z v n)
  else if entries.length < Config.lineEntries then some (entries ++ [LineEntry.fresh pa z v n])
  else none

/-- The entry an operation writes out next: the oldest for an eviction or a full drain, the line's for a check, the oldest
that names the channel for its drain (R149, R152, R154, R155). -/
def LineBuffer.victim (b : LineBuffer) (r : LbReq) : Option LineEntry :=
  match r with
  | .write _ _ _ _ => b.entries.head?
  | .check pa => b.find (lineOf pa)
  | .drain n => b.entries.find? (·.chans.contains n)
  | .engineDrain => b.entries.head?
  | .softDrain => b.entries.head?

/-! ## Write-outs -/

/-- The write-out of an entry: one MP write under the strobes of MASK (R150). -/
def writeOut (e : LineEntry) (s : State) : State :=
  { s with
    lb := { s.lb with writing := some e.line }
    mp := { s.mp with lb := some (.write (lineAddr e.line) e.mask e.data) } }

/-- CHANNEL of a MEM_WRITE event: the entry's one channel, or none when it names several (R150). -/
def LineEntry.eventChannel (e : LineEntry) : Option ChanId :=
  match e.chans with
  | [n] => some n
  | _ => none

/-- The event of a failed write-out (R150). -/
def LineEntry.failed (e : LineEntry) : ErrorEvent := ⟨.memWrite, .lb, e.eventChannel, .error, lineAddr e.line⟩

/-- The write-out of line `l` is answered: the entry leaves; ERROR marks its channels and raises MEM_WRITE (R150, R151). -/
def writeOutAnswered (l : Line) (resp : WriteResp) (s : State) : State :=
  let gone : State :=
    { s with
      lb := { s.lb with entries := s.lb.entries.filter (·.line != l), writing := none }
      mp := { s.mp with lb := none } }
  match resp, s.lb.find l with
  | .error, some e => markChannels e.chans { gone with lb := { gone.lb with held := gone.lb.held ++ [e.failed] } }
  | .error, none => gone
  | .okay, _ => gone

/-! ## LB's steps -/

/-- LB answers the operation in progress. -/
def State.lbFree (s : State) : State := { s with lb := { s.lb with current := none } }

/-- LB goes on with its operation: an answer to TE, or the next write-out. A drain with nothing left to write out waits for
CHANNEL_DRAIN_COMPLETE or FULL_DRAIN_COMPLETE (R154, R155). -/
def lbAdvance (r : LbReq) (s : State) : Option State :=
  match r with
  | .write pa z v n =>
    match placeElement s.lb.entries pa z v n with
    | some l => some { s with lb := { s.lb with entries := l, current := none } }
    | none =>
      match s.lb.victim r with
      | some e => some (writeOut e s)
      | none => none
  | .check _ =>
    match s.lb.victim r with
    | some e => some (writeOut e s)
    | none => some s.lbFree
  | .drain _ | .engineDrain | .softDrain =>
    match s.lb.victim r with
    | some e => some (writeOut e s)
    | none => none

/-- One internal step of LB: the next request, or the operation in progress once no event is kept (R148, R169). -/
def lbStep (s : State) : Option State :=
  match s.lb.current with
  | none =>
    match s.lb.queue with
    | r :: q => some { s with lb := { s.lb with queue := q, current := some r } }
    | [] => none
  | some r =>
    match s.lb.writing, s.lb.held with
    | none, [] => lbAdvance r s
    | _, _ => none

/-- The request comes from TE. -/
def LbReq.fromEngine : LbReq → Bool
  | .write _ _ _ _ => true
  | .check _ => true
  | .engineDrain => true
  | .drain _ => false
  | .softDrain => false

/-- TE has a request at LB, queued or in progress (R148). -/
def State.engineAtLb (s : State) : Bool := s.lb.queue.any (·.fromEngine) || s.lb.current.any (·.fromEngine)

end Sys2Proof.Machine
end

