-- ==== Sys2Proof/Machine/Transfers.lean ====
section
/-! DEFINITION. The Transfer Engine: moves (04_moves) and slices (05_transfer_engine_scheduling). -/

namespace Sys2Proof.Machine

/-! ## Slices -/

/-- TE ends the slice of channel `n` and frees the grant; then the CC acts (R103, R31). R104 lets the channel return to READY
before or after the next grant point: the model's CC always acts before it, within the step that frees the grant (log 33). -/
def endSlice (n : ChanId) (fault : Option (FaultCode × VAddr)) (s : State) : State :=
  sliceEnded n fault
    { s with te := { s.te with grant := none, counter := 0, kind := none, purgeStep := none, step := .idle } }

/-- The beginning of a move or an element faults (R94). -/
def sliceFault (n : ChanId) (code : FaultCode) (va : VAddr) (s : State) : State := endSlice n (some (code, va)) s

/-- The step of the element in progress. -/
def State.setTeStep (s : State) (x : TeStep) : State := { s with te := { s.te with step := x } }

/-- TE asks TU for the translation of an access (R81). -/
def askTranslation (n : ChanId) (va : VAddr) (isWrite : Bool) (a : Access) (s : State) : State :=
  { s with te := { s.te with step := .translating a }, tu := s.tu.ask ⟨n, (s.chan n).space, va, isWrite⟩ }

/-- The virtual address of an access (R87, R80). -/
def Access.va (a : Access) (m : Move) (c : Channel) : VAddr :=
  match a with
  | .fillSource => c.effectiveAddr m.src
  | .source => c.srcEA
  | .verifyDest _ => c.dstEA
  | .writeDest _ => c.dstEA

/-- The element size of an access. -/
def Access.size (a : Access) (m : Move) : Size :=
  match a with
  | .fillSource => m.src.size
  | .source => m.src.size
  | .verifyDest _ => m.dst.size
  | .writeDest _ => m.dst.size

/-! ## Elements -/

/-- Steps 1 and 2 of an element; a FILL makes only its destination's (R79, R80). -/
def startElement (n : ChanId) (m : Move) (s : State) : State :=
  let c := s.chan n
  if m.op != .fill && !m.src.size.aligned c.srcEA then sliceFault n .alignment c.srcEA s
  else if !m.dst.size.aligned c.dstEA then sliceFault n .alignment c.dstEA s
  else
    match m.op with
    | .fill => askTranslation n c.dstEA true (.writeDest (c.fillValue.getD 0)) s
    | .copy => askTranslation n c.srcEA false .source s
    | .verify => askTranslation n c.srcEA false .source s

/-- Step 4 of the beginning, then element 0 (R74). -/
def moveBegun (n : ChanId) (m : Move) (fill : Option (BitVec 64)) (s : State) : State :=
  startElement n m
    (s.modChan n fun c =>
      { c with
        srcEA := c.effectiveAddr m.src, dstEA := c.effectiveAddr m.dst, fillValue := fill, firstFlag := false })

/-- The fill value is converted; RANGE_LOSS names the destination address of element 0 (R87, R88). -/
def takeFill (n : ChanId) (m : Move) (v : BitVec 64) (s : State) : State :=
  match m.convert v with
  | none => sliceFault n .rangeLoss ((s.chan n).effectiveAddr m.dst) s
  | some w => moveBegun n m (some w) s

/-- The beginning of a move (R74, R77, R87, R88). -/
def beginMove (n : ChanId) (m : Move) (s : State) : State :=
  if m.badForm then sliceFault n .moveForm 0 s
  else
    match m.op with
    | .copy => moveBegun n m none s
    | .verify => moveBegun n m none s
    | .fill =>
      if m.src.form = .immediate then takeFill n m m.immediateValue s
      else
        let va := (s.chan n).effectiveAddr m.src
        if m.src.size.aligned va then askTranslation n va false .fillSource s
        else sliceFault n .alignment va s

/-- At an element boundary: a RESET ends the slice, else the move begins or its next element starts (R102, R107). -/
def elementBoundary (n : ChanId) (s : State) : State :=
  let c := s.chan n
  if c.reset != .off then endSlice n none s
  else
    match c.currentMove with
    | none => endSlice n none s
    | some m => if c.firstFlag then beginMove n m s else startElement n m s

/-! ## Progress -/

/-- The channel after a performed element (R93, R78); a mismatch leaves the addresses and is recorded if first (R90). -/
def Channel.performedElement (c : Channel) (m : Move) (mismatch : Bool) : Channel :=
  { c with
    remaining := c.remaining - 1
    performed := c.performed + 1
    srcEA := if mismatch || m.op == .fill then c.srcEA else m.src.step c.srcEA
    dstEA := if mismatch then c.dstEA else m.dst.step c.dstEA
    mismatch := if mismatch && c.mismatch.isNone then some (c.moveIndex, m.total - c.remaining) else c.mismatch }

/-- The cursor updates of a completed move, source side first (R96). -/
def Channel.updateCursors (c : Channel) (m : Move) : Channel :=
  let src := if m.op = .fill then m.src.step c.srcEA else c.srcEA
  let v := if m.src.update then c.cursors.set m.src.base.val src else c.cursors
  { c with cursors := if m.dst.update then v.set m.dst.base.val c.dstEA else v }

/-- The moves of the task copy. -/
def Channel.moves (c : Channel) : List Move :=
  match c.task with
  | some ⟨_, _, _, _, _, .transfer moves⟩ => moves
  | some ⟨_, _, _, _, _, .purge _⟩ => []
  | none => []

/-- The CC prepares the next move, or marks the list finished with phase DRAIN (R95; log 23). -/
def Channel.nextMove (c : Channel) : Channel :=
  match c.moves[c.moveIndex + 1]? with
  | some m => c.prepareMove (c.moveIndex + 1) m
  | none =>
    { c with
      phase := .drain, listIndex := 0, moveIndex := 0, remaining := 0, srcEA := 0, dstEA := 0, firstFlag := false,
      fillValue := none }

/-- An element is performed: progress, then the move's completion, the slice's count, or the next boundary (R93, R95, R103). -/
def elementDone (n : ChanId) (m : Move) (mismatch : Bool) (s : State) : State :=
  let c := (s.chan n).performedElement m mismatch
  let count := s.te.counter + 1
  let s := { s.setChan n c with te := { s.te with counter := count } }
  if mismatch || c.remaining = 0 then endSlice n none (s.setChan n ((c.updateCursors m).nextMove))
  else if Config.sliceElements ≤ count then s.setTeStep .exhausted
  else s.setTeStep .boundary

/-! ## Accesses -/

/-- TE acts on TU's answer (R81, R82, R83). -/
def translationAnswered (n : ChanId) (m : Move) (a : Access) (t : TuAnswer) (s : State) : State :=
  let s := { s with tu := { s.tu with req := none, stage := .idle, root := none, descriptor := none, pageEntry := none } }
  match t with
  | .fault code => sliceFault n code (a.va m (s.chan n)) s
  | .translated pa device _ =>
    match a with
    | .writeDest v =>
      if device then (s.setTeStep (.deviceDrain v pa)).queueLb .engineDrain
      else (s.setTeStep (.placing v pa)).queueLb (.write pa m.dst.size v n)
    | .fillSource => (s.setTeStep (.lineCheck a pa)).queueLb (.check pa)
    | .source => (s.setTeStep (.lineCheck a pa)).queueLb (.check pa)
    | .verifyDest _ => (s.setTeStep (.lineCheck a pa)).queueLb (.check pa)

/-- The read of an element, after its line check (R82). -/
def issueRead (m : Move) (a : Access) (pa : PAddr) (s : State) : State :=
  { s.setTeStep (.reading a pa) with mp := { s.mp with te := some (.read pa (a.size m).bytes) } }

/-- The device write of an element, after its full drain (R83). -/
def issueDeviceWrite (m : Move) (v : BitVec 64) (pa : PAddr) (s : State) : State :=
  { s.setTeStep (.deviceWrite v pa) with
    mp := { s.mp with te := some (.write pa m.dst.size.strobes ((m.dst.size.low v).setWidth 512)) } }

/-- TE acts on the value a read returned (R80, R87, R89, R90, R92). -/
def valueRead (n : ChanId) (m : Move) (a : Access) (v : BitVec 64) (s : State) : State :=
  let c := s.chan n
  match a with
  | .fillSource => takeFill n m v s
  | .source =>
    match m.op with
    | .verify => askTranslation n c.dstEA false (.verifyDest v) s
    | .copy | .fill =>
      match m.convert v with
      | none => sliceFault n .rangeLoss c.dstEA s
      | some w => askTranslation n c.dstEA true (.writeDest w) s
  | .verifyDest w => elementDone n m (w != v) s
  | .writeDest _ => s

/-- TE acts on the MP answer in hand (R82, R84). -/
def teAnswered (n : ChanId) (m : Move) (g : Got 64) (s : State) : State :=
  let s := { s with te := { s.te with got := none } }
  match s.te.step with
  | .reading a _ =>
    if goodData g.resp then valueRead n m a ((a.size m).low g.data) s
    else sliceFault n .readError (a.va m (s.chan n)) s
  | .deviceWrite _ _ =>
    if g.resp = .okay then elementDone n m false s else sliceFault n .writeError (s.chan n).dstEA s
  | _ => s

/-- One internal step of TE, once no event is kept. -/
def teStep (s : State) : Option State :=
  match s.te.grant, s.te.held with
  | some n, [] =>
    match s.te.step, s.te.got, (s.chan n).currentMove with
    | .boundary, _, _ => some (elementBoundary n s)
    | .exhausted, _, _ => if (s.chan n).reset != .off then some (endSlice n none s) else none
    | .translating a, _, some m =>
      match s.tu.stage, s.tu.held with
      | .reply t, [] => some (translationAnswered n m a t s)
      | _, _ => none
    | .lineCheck a pa, _, some m => if s.engineAtLb then none else some (issueRead m a pa s)
    | .placing _ _, _, some m => if s.engineAtLb then none else some (elementDone n m false s)
    | .reading _ _, some g, some m => some (teAnswered n m g s)
    | .deviceWrite _ _, some g, some m => some (teAnswered n m g s)
    | _, _, _ => none
  | _, _ => none

/-! ## Grants -/

/-- Eligible for the grant (R99). -/
def Channel.eligible (c : Channel) : Bool :=
  c.state == .ready && c.activity == .ready && !c.stopPending && !c.mark && c.reset == .off

/-- The channels in order after ROTOR, ROTOR itself last (R100). -/
def afterRotor (rotor : ChanId) : List ChanId := allChannels.map fun i => rotor + 1 + i

/-- The eligible channels, in order after ROTOR. -/
def State.candidates (s : State) : List ChanId := (afterRotor s.te.rotor).filter fun n => (s.chan n).eligible

/-- The winner: the highest PRIORITY, and of those the first after ROTOR (R100). -/
def State.winner (s : State) : Option ChanId :=
  s.candidates.find? fun n => s.candidates.all fun m => decide ((s.chan m).priority ≤ (s.chan n).priority)

/-- A grant point: the grant is none, RUN is 1 and a channel is eligible (R99). -/
def State.atGrantPoint (s : State) : Bool :=
  s.te.grant.isNone && s.rp.run && !s.candidates.isEmpty

/-- The purge slice: the invalidation, then its full drain (R109, R143). -/
def beginPurge (n : ChanId) (d : PurgeDescriptor) (s : State) : State :=
  { s with
    tu := { s.tu with cache := purgeCache d s.tu.cache }
    te := { s.te with kind := some .purge, purgeStep := some .drain, step := .purgeDrain } }.queueLb .engineDrain
    |>.setActivity n .slice

/-- TE grants channel `n` and begins its slice (R99, R102). -/
def grantTo (n : ChanId) (s : State) : State :=
  let c := s.chan n
  let s := { s with te := { s.te with grant := some n, rotor := n, counter := 0 } }
  let s := s.modChan n fun c => { c with state := .active, activity := .slice }
  match c.phase, c.task with
  | .purge, some ⟨_, _, _, _, _, .purge d⟩ => beginPurge n d s
  | _, _ => { s with te := { s.te with kind := some .move, step := .boundary } }

/-- A purge slice ends with its drain (R109, R110). -/
def purgeEnds (n : ChanId) (s : State) : State := endSlice n none (s.modChan n fun c => { c with phase := .drain })

/-- The full drain TE waits for is answered (R155). -/
def engineDrained (s : State) : State :=
  match s.te.grant, s.te.step with
  | some n, .purgeDrain => purgeEnds n s
  | some n, .deviceDrain v pa =>
    match (s.chan n).currentMove with
    | some m => issueDeviceWrite m v pa s
    | none => s
  | _, _ => s

end Sys2Proof.Machine
end

