-- ==== Sys2Proof/Machine/Settle.lean ====
section
/-! DEFINITION. What the part does by itself within one command (95_what_each_step_holds; log 3): units hand over their
events, take their next requests and act on answers, until each waits for MP or for a further command. -/

namespace Sys2Proof.Machine

/-! ## Events -/

/-- FU hands over the event it keeps (R169). -/
def fuHandOver (s : State) : Option State :=
  match s.fu.held with
  | [] => none
  | e :: l => (s.sb.handOver e).map fun b => { s with sb := b, fu := { s.fu with held := l } }

/-- SU hands over the event it keeps (R169). -/
def suHandOver (s : State) : Option State :=
  match s.su.held with
  | [] => none
  | e :: l => (s.sb.handOver e).map fun b => { s with sb := b, su := { s.su with held := l } }

/-- TE hands over the event it keeps (R169). -/
def teHandOver (s : State) : Option State :=
  match s.te.held with
  | [] => none
  | e :: l => (s.sb.handOver e).map fun b => { s with sb := b, te := { s.te with held := l } }

/-- TU hands over the event it keeps (R169). -/
def tuHandOver (s : State) : Option State :=
  match s.tu.held with
  | [] => none
  | e :: l => (s.sb.handOver e).map fun b => { s with sb := b, tu := { s.tu with held := l } }

/-- LB hands over the event it keeps (R169). -/
def lbHandOver (s : State) : Option State :=
  match s.lb.held with
  | [] => none
  | e :: l => (s.sb.handOver e).map fun b => { s with sb := b, lb := { s.lb with held := l } }

/-- SB takes the event at the head of its queue and issues its record write (R169, R170). -/
def sbStep (s : State) : Option State :=
  match s.sb.writing, s.sb.queue with
  | none, e :: q =>
    some
      { s with
        sb := { s.sb with queue := q, counter := s.sb.counted, errorEvent := true, writing := some e }
        mp :=
          { s.mp with
            sb := some (.write s.errorRecordAddr (BitVec.allOnes 64) (errorImage e s.sb.counted)) } }
  | _, _ => none

/-! ## FU -/

/-- FU's answer to the request in progress is passed to its CC, and FU is free (R49). -/
def fuDeliver (j : FuJob) (g : Got 4736) (s : State) : State :=
  fuAnswered j g { s with fu := { s.fu with current := none, got := none } }

/-- FU takes the request at the head of its queue and issues it (R49). -/
def fuTake (j : FuJob) (q : List FuJob) (s : State) : State :=
  { s with fu := { s.fu with queue := q, current := some j }, mp := { s.mp with fu := some j.req } }

/-- One internal step of FU. -/
def fuStep (s : State) : Option State :=
  match s.fu.current, s.fu.got, s.fu.held with
  | some j, some g, [] => some (fuDeliver j g s)
  | none, _, [] =>
    match s.fu.queue with
    | j :: q => some (fuTake j q s)
    | [] => none
  | _, _, _ => none

/-! ## The whole part -/

/-- The units' internal steps, in the order in which one is chosen. -/
def microSteps : List (State → Option State) :=
  [fuHandOver, suHandOver, teHandOver, tuHandOver, lbHandOver, sbStep, fuStep, suStep, lbStep, tuStep, teStep]

/-- One internal step of the part; none where every unit waits. -/
def micro (s : State) : Option State := microSteps.findSome? fun f => f s

/-! ## How much can come about -/

/-- A bound on the internal steps one request waiting at SU can lead to before MP is asked. -/
def SuReq.work : SuReq → Nat
  | .wait _ _ => 1
  | .notify _ _ => 1
  | .signal _ => 1
  | .undoStop _ => 5
  | .undoReset _ => 5

/-- The same for a step of TE. -/
def TeStep.work : TeStep → Nat
  | .boundary => 15
  | .translating _ => 9
  | .placing _ _ => 5
  | .exhausted => 4
  | .lineCheck _ _ => 1
  | .idle => 0
  | .reading _ _ => 0
  | .deviceDrain _ _ => 0
  | .deviceWrite _ _ => 0
  | .purgeDrain => 0

/-- The same for the slice in progress, 16 elements at most. -/
def Engine.work (e : Engine) : Nat :=
  match e.grant with
  | none => 0
  | some _ => 16 * (16 - e.counter) + e.step.work + 15 * e.got.isSome.toNat

/-- The same for the operation of LB. -/
def LineBuffer.work (b : LineBuffer) : Nat :=
  match b.current, b.writing with
  | none, _ => 0
  | some _, some _ => 1
  | some _, none => 2

/-- The same for a walk that is to begin. -/
def TuStage.work (x : TuStage) : Nat := (x == .begin).toNat

/-- The same for what FU, SU and LB have queued. -/
def State.queued (s : State) : Nat :=
  s.fu.queue.length + (s.su.queue.map SuReq.work).sum + 3 * s.lb.queue.length

/-- The same for the events the units keep and those SB has queued. -/
def State.eventWork (s : State) : Nat :=
  2 * (s.fu.held.length + s.su.held.length + s.te.held.length + s.tu.held.length + s.lb.held.length) + s.sb.queue.length

/-- The same for the answers in hand and for the operations of TU, TE and LB. -/
def State.unitWork (s : State) : Nat :=
  4 * s.fu.got.isSome.toNat + 7 * s.su.got.isSome.toNat + s.tu.got.isSome.toNat + s.tu.stage.work + s.te.work + s.lb.work

/-- A bound on the internal steps a state can lead to: each makes it smaller (log 17). -/
def State.work (s : State) : Nat := s.eventWork + s.queued + s.unitWork

/-- Internal steps until every unit waits. -/
def settleFor : Nat → State → State
  | 0, s => s
  | fuel + 1, s =>
    match micro s with
    | none => s
    | some t => settleFor fuel t

/-- The part at rest again after a command's own effect: internal steps until no unit has one to make, since the bound is
never short (log 17). -/
def settle (s : State) : State := settleFor s.work s

/-- A command's effect and all that comes about within the same step. -/
def settled (s : State) : Host.Outcome State Fault Refusal := .next (settle s)

end Sys2Proof.Machine
end

