-- ==== Sys2Proof/Machine/PartControl.lean ====
section
/-! DEFINITION. Meanings of the part-control rows (10_register_port_and_part_control): resets, CONTROL, ANCHOR, STATUS,
ALERT, ignored and narrow accesses. -/

namespace Sys2Proof.Machine

/-! ## Hard reset -/

/-- HARD_RESET: every block takes its hard-reset values at once; the queue and the free order stay (R188; log 21). -/
def execHardReset (s : State) : Host.Outcome State Fault Refusal :=
  .next { State.reset with resetAsserted := true, arrivals := s.arrivals, pending := s.pending }

/-- RESET_RELEASE: the part begins in its hard-reset state (R188). -/
def execResetRelease (s : State) : Host.Outcome State Fault Refusal := .next { s with resetAsserted := false }

/-! ## CONTROL -/

/-- RUN, REPORT_LEVEL and INT_EN are set together; channels held by RUN go on when RUN is set (R178, R36, R168). -/
def setControl (v : Word) (s : State) : State :=
  let t : State :=
    { s with
      rp :=
        { s.rp with run := v.getLsbD 0, reportLevel := v.extractLsb' 4 2, intEn := v.extractLsb' 8 5 }
      sb := { s.sb with level := v.extractLsb' 4 2 } }
  if !s.rp.run && v.getLsbD 0 then t.inArrivalOrder (allChannels.filter fun n => (t.chan n).heldByRun) goOn else t

/-- A channel not OFF is reset by the soft reset, unless its reset is already in progress (R189). -/
def Channel.softReset (c : Channel) : Channel :=
  if c.state != .off && c.reset == .off then { c with reset := .settling } else c

/-- A soft reset starts: RESETTING, RUN 0, both slots empty, an untaken SIGNAL withdrawn, every channel reset (R189, R72). -/
def beginSoftReset (s : State) : State :=
  { s with
    soft := .channels
    rp := { s.rp with run := false, commandSlot := none, signalSlot := none }
    su := { s.su with queue := s.su.queue.filter (·.chan.isSome) }
    chans := s.chans.map Channel.softReset }

/-- A 32-bit write to CONTROL, decided by SOFT_RESET (R178, R189; log 24). -/
def writeControl (v : Word) (s : State) : Host.Outcome State Fault Refusal :=
  .next (s.regWrite fun s => settle (if softResetBit v then beginSoftReset s else setControl v s))

/-- CONTROL_WRITE (R178). -/
def execControlWrite (v : Word) (s : State) : Host.Outcome State Fault Refusal := writeControl v s

/-- SOFT_RESET (R189). -/
def execSoftReset (v : Word) (s : State) : Host.Outcome State Fault Refusal := writeControl v s

/-- SOFT_RESET_DRAIN: every channel OFF and SU idle, the full drain is sent (R189 step 3). -/
def execSoftResetDrain (s : State) : Host.Outcome State Fault Refusal :=
  if s.soft = .channels && s.allOff && s.su.queue.isEmpty && s.su.current.isNone then
    settled ({ s with soft := .draining }.queueLb .softDrain)
  else .fault .eventNotDue

/-- The soft reset's drain is answered: at once the cache is invalidated, ROTOR becomes 15 and the alert list is emptied; what
SB holds is cleared later, once SB is idle (R189 step 4, R146). -/
def softDrained (s : State) : State :=
  { s with
    soft := .clearing
    tu := { s.tu with cache := Vector.replicate 32 CacheSet.invalid }
    te := { s.te with rotor := 15 }
    rp := { s.rp with alerts := [] } }

/-- The clearing step of a soft reset, SB being idle (R189 step 4, R146, R174, R186); what the drain's answer has cleared
already stays clear. -/
def clearPart (s : State) : State :=
  { s with
    soft := .off
    tu := { s.tu with cache := Vector.replicate 32 CacheSet.invalid }
    te := { s.te with rotor := 15 }
    rp := { s.rp with alerts := [], refuseReason := .none, lastNamed := 0 }
    sb :=
      { s.sb with counter := 0, errorEvent := false, recordFailed := false, refused := false, alertLost := false }
    chans := s.chans.map fun c => { c with haltedBit := false } }

/-- SOFT_RESET_CLEARING: the drain answered and SB idle, the part is cleared (R189 step 4). -/
def execSoftResetClearing (s : State) : Host.Outcome State Fault Refusal :=
  if s.soft = .clearing && s.sb.queue.isEmpty && s.sb.writing.isNone then .next (clearPart s) else .fault .eventNotDue

/-! ## ANCHOR -/

/-- An ANCHOR write takes effect with RUN 0 and every channel OFF, and is refused otherwise (R180). -/
def writeAnchor (f : RegPort → RegPort) (s : State) : Host.Outcome State Fault Refusal :=
  .next (s.regWrite fun s => if !s.rp.run && s.allOff then { s with rp := f s.rp } else s.refuse .anchorLocked)

/-- ANCHOR_LO_WRITE (R180). -/
def execAnchorLoWrite (v : Word) (s : State) : Host.Outcome State Fault Refusal :=
  writeAnchor (fun p => { p with anchorLo := v.extractLsb' 13 19 }) s

/-- ANCHOR_HI_WRITE (R180). -/
def execAnchorHiWrite (v : Word) (s : State) : Host.Outcome State Fault Refusal :=
  writeAnchor (fun p => { p with anchorHi := v.extractLsb' 0 8 }) s

/-! ## STATUS, ALERT and accesses without effect -/

/-- The sticky bits after a write of 1s (R184). -/
def StatusBlock.clear (b : StatusBlock) (v : Word) : StatusBlock :=
  { b with
    refused := b.refused && !v.getLsbD 4
    errorEvent := b.errorEvent && !v.getLsbD 5
    alertLost := b.alertLost && !v.getLsbD 6
    recordFailed := b.recordFailed && !v.getLsbD 7 }

/-- STATUS_REGISTER_WRITE (R184). -/
def execStatusRegisterWrite (v : Word) (s : State) : Host.Outcome State Fault Refusal :=
  .next (s.regWrite fun s => { s with sb := s.sb.clear v })

/-- ALERT_READ: the oldest entry is returned and removed (R186, R69); 0 while reset_n is asserted (R176). -/
def execAlertRead (s : State) : Host.Outcome State Fault Refusal :=
  if s.resetAsserted then .next (s.replied ⟨false, 0⟩)
  else .next ({ s with rp := { s.rp with alerts := s.rp.alerts.tail } }.replied ⟨false, s.alertValue⟩)

/-- IGNORED_REGISTER_WRITE (R176). -/
def execIgnoredRegisterWrite (_offset : BitVec 6) (_value : Word) (s : State) : Host.Outcome State Fault Refusal :=
  .next (s.replied ⟨false, 0⟩)

/-- NARROW_ACCESS: an error response and no effect (R176; log 11). -/
def execNarrowAccess (_offset : BitVec 6) (_isWrite : Bool) (s : State) : Host.Outcome State Fault Refusal :=
  .next (s.replied ⟨true, 0⟩)

end Sys2Proof.Machine
end

