-- ==== Sys2Proof/Machine/Commands.lean ====
section
/-! DEFINITION. Meanings of SIGNAL, the channel commands and the steps of a channel reset (R37, R47, R48, R181, R182). -/

namespace Sys2Proof.Machine

/-! ## SIGNAL -/

/-- RP decides on a SIGNAL write (R60, R181): NOT_RUNNING, BUSY, or accepted into the slot and queued at SU. -/
def acceptSignal (v : Word) (s : State) : State :=
  if !s.rp.run then s.refuse .notRunning
  else if s.rp.signalSlot.isSome then s.refuse .busy
  else
    let k : SemId := (v.extractLsb' 0 8).toFin
    settle ({ s with rp := { s.rp with signalSlot := some k } }.queueSu (.signal k))

/-- SIGNAL (R181). -/
def execSignal (v : Word) (s : State) : Host.Outcome State Fault Refusal := .next (s.regWrite (acceptSignal v))

/-! ## CHANNEL_CMD -/

/-- A command accepted by RP: the CC takes it at once, or after its reset in progress (R37, R182). -/
def acceptCommand (n : ChanId) (k : Command) (s : State) : State :=
  if s.rp.commandSlot.isSome then s.refuse .busy
  else
    let s := { s with rp := { s.rp with lastNamed := n } }
    if (s.chan n).reset != .off then { s with rp := { s.rp with commandSlot := some (n, k) } }
    else settle (takeChannelCommand n k s)

/-- RP decides on a CHANNEL_CMD write by its COMMAND code (R182). -/
def writeChannelCmd (n : ChanId) (code : BitVec 4) (s : State) : Host.Outcome State Fault Refusal :=
  .next
    (s.regWrite fun s =>
      match code.toNat with
      | 0 => { s with rp := { s.rp with lastNamed := n } }
      | 1 => acceptCommand n .start s
      | 2 => acceptCommand n .stop s
      | 3 => acceptCommand n .resume s
      | 4 => acceptCommand n .skip s
      | 5 => acceptCommand n .reset s
      | _ => s.refuse .invalid)

/-- SELECT (R182). -/
def execSelect (n : ChanId) (s : State) : Host.Outcome State Fault Refusal := writeChannelCmd n 0 s

/-- START (R22). -/
def execStart (n : ChanId) (s : State) : Host.Outcome State Fault Refusal := writeChannelCmd n 1 s

/-- STOP (R38). -/
def execStop (n : ChanId) (s : State) : Host.Outcome State Fault Refusal := writeChannelCmd n 2 s

/-- RESUME (R44). -/
def execResume (n : ChanId) (s : State) : Host.Outcome State Fault Refusal := writeChannelCmd n 3 s

/-- SKIP (R46). -/
def execSkip (n : ChanId) (s : State) : Host.Outcome State Fault Refusal := writeChannelCmd n 4 s

/-- RESET (R47). -/
def execReset (n : ChanId) (s : State) : Host.Outcome State Fault Refusal := writeChannelCmd n 5 s

/-- INVALID_COMMAND (R182). -/
def execInvalidCommand (n : ChanId) (code : BitVec 4) (s : State) : Host.Outcome State Fault Refusal :=
  writeChannelCmd n code s

/-- PENDING_COMMAND_TAKE: the channel's reset has ended, and its CC takes the command held (R37). -/
def execPendingCommandTake (s : State) : Host.Outcome State Fault Refusal :=
  match s.rp.commandSlot with
  | some (n, k) =>
    if (s.chan n).reset = .off then
      settled (takeChannelCommand n k { s with rp := { s.rp with commandSlot := none } })
    else .fault .eventNotDue
  | none => .fault .eventNotDue

/-! ## Channel reset -/

/-- The requests of a resetting channel are answered: none of it at FU, SU or LB, and not the grant (R47). -/
def State.requestsSettled (s : State) (n : ChanId) : Bool :=
  !s.fuBusy n && !s.suBusy n && !s.lbBusy n && s.te.grant != some n

/-- The resetting channel leaves its parked condition by an undo, or goes on to its drain (R48). -/
def resetGoesOn (n : ChanId) (s : State) : State :=
  if s.isParked n then (s.modChan n fun c => { c with reset := .undo }).queueSu (.undoReset n) else resetDrain n s

/-- RESET_REQUESTS_SETTLED (R48). -/
def execResetRequestsSettled (n : ChanId) (s : State) : Host.Outcome State Fault Refusal :=
  if (s.chan n).reset = .settling && s.requestsSettled n then settled (resetGoesOn n s) else .fault .eventNotDue

end Sys2Proof.Machine
end

