-- ==== Sys2Proof/Machine/RecordAnswers.lean ====
section
/-! DEFINITION. Meanings of MP's answers to FU: reads and writes of contexts and task records (02_channels, Table 9-2). -/

namespace Sys2Proof.Machine

/-- A read that passes the top of the physical space is answered ERROR by MP (R159; log 20). -/
def MpReq.answer (r : MpReq) (resp : Resp) : Resp :=
  match r with
  | .read pa size => if pa.toNat + size ≤ 2 ^ 40 then resp else .error
  | .write _ _ _ => resp

/-- The events of FU's answers (Table 9-2). -/
def FuKind.events (k : FuKind) (n : ChanId) (resp : Resp) (pa : PAddr) : List ErrorEvent :=
  let write (code : EventCode) : List ErrorEvent :=
    if resp = .okay then [] else [⟨code, .fu, some n, resp, pa⟩]
  match k with
  | .context => readEvents .fu (some n) resp pa
  | .link => readEvents .fu (some n) resp pa
  | .header => readEvents .fu (some n) resp pa
  | .body => readEvents .fu (some n) resp pa
  | .acceptance => write .statusWrite
  | .done => write .statusWrite
  | .doneRewrite => write .statusWrite
  | .haltStatus => write .statusWrite
  | .skipped => write .statusWrite
  | .save => write .saveWrite

/-- MP's answer reaches FU: the request of that kind ends and its event is raised (R49, R160, R166). -/
def fuAnswer (kind : FuKind) (resp : Resp) (d : BitVec 4736) (s : State) : Host.Outcome State Fault Refusal :=
  match s.fu.current, s.fu.got, s.mp.fu with
  | some j, none, some req =>
    if j.kind = kind then
      let r := req.answer resp
      settled
        { s with
          fu := { s.fu with got := some ⟨r, d⟩, held := s.fu.held ++ kind.events j.chan r req.addr }
          mp := { s.mp with fu := none } }
    else .fault .answerNotAwaited
  | _, _, _ => .fault .answerNotAwaited

/-- CONTEXT_READ_ANSWER (R23). -/
def execContextReadAnswer (resp : Resp) (d : BitVec 384) (s : State) : Host.Outcome State Fault Refusal :=
  fuAnswer .context resp (d.setWidth 4736) s

/-- LINK_READ_ANSWER (R25). -/
def execLinkReadAnswer (resp : Resp) (d : BitVec 64) (s : State) : Host.Outcome State Fault Refusal :=
  fuAnswer .link resp (d.setWidth 4736) s

/-- HEADER_READ_ANSWER (R26). -/
def execHeaderReadAnswer (resp : Resp) (d : BitVec 256) (s : State) : Host.Outcome State Fault Refusal :=
  fuAnswer .header resp (d.setWidth 4736) s

/-- BODY_READ_ANSWER (R26). -/
def execBodyReadAnswer (resp : Resp) (d : BitVec 4736) (s : State) : Host.Outcome State Fault Refusal :=
  fuAnswer .body resp d s

/-- ACCEPTANCE_WRITE_ANSWER (R27). -/
def execAcceptanceWriteAnswer (resp : WriteResp) (s : State) : Host.Outcome State Fault Refusal :=
  fuAnswer .acceptance (asResp resp) 0 s

/-- DONE_WRITE_ANSWER (R33). -/
def execDoneWriteAnswer (resp : WriteResp) (s : State) : Host.Outcome State Fault Refusal :=
  fuAnswer .done (asResp resp) 0 s

/-- DONE_REWRITE_ANSWER (R45). -/
def execDoneRewriteAnswer (resp : WriteResp) (s : State) : Host.Outcome State Fault Refusal :=
  fuAnswer .doneRewrite (asResp resp) 0 s

/-- HALT_STATUS_WRITE_ANSWER (R42). -/
def execHaltStatusWriteAnswer (resp : WriteResp) (s : State) : Host.Outcome State Fault Refusal :=
  fuAnswer .haltStatus (asResp resp) 0 s

/-- SKIPPED_WRITE_ANSWER (R46). -/
def execSkippedWriteAnswer (resp : WriteResp) (s : State) : Host.Outcome State Fault Refusal :=
  fuAnswer .skipped (asResp resp) 0 s

/-- SAVE_WRITE_ANSWER (R4). -/
def execSaveWriteAnswer (resp : WriteResp) (s : State) : Host.Outcome State Fault Refusal :=
  fuAnswer .save (asResp resp) 0 s

end Sys2Proof.Machine
end

