-- ==== Sys2Proof/Machine/SemaphoreAnswers.lean ====
section
/-! DEFINITION. Meanings of MP's answers to SU (03_semaphores): one pair of rows for each kind of request. -/

namespace Sys2Proof.Machine

/-- The five kinds of request at SU (Table 3-2). -/
inductive SuKind where
  | wait | notify | undoStop | undoReset | signal
  deriving DecidableEq, Repr

/-- The kind of a request. -/
def SuReq.kind : SuReq → SuKind
  | .wait _ _ => .wait
  | .notify _ _ => .notify
  | .undoStop _ => .undoStop
  | .undoReset _ => .undoReset
  | .signal _ => .signal

/-- MP answers SU's read of a record for a request of that kind (R51, R53). -/
def suReadAnswer (k : SuKind) (resp : Resp) (d : BitVec 48) (s : State) : Host.Outcome State Fault Refusal :=
  match s.su.current, s.su.got, s.mp.su with
  | some ⟨r, _, none, _⟩, none, some req =>
    if r.kind = k then
      settled
        { s with
          su := { s.su with got := some ⟨resp, d⟩, held := s.su.held ++ r.readEvents resp d req.addr }
          mp := { s.mp with su := none } }
    else .fault .answerNotAwaited
  | _, _, _ => .fault .answerNotAwaited

/-- MP answers SU's write of a record for a request of that kind (R51, R53). -/
def suWriteAnswer (k : SuKind) (resp : WriteResp) (s : State) : Host.Outcome State Fault Refusal :=
  match s.su.current, s.su.got, s.mp.su with
  | some ⟨r, _, some _, _⟩, none, some req =>
    if r.kind = k then
      settled
        { s with
          su := { s.su with got := some ⟨asResp resp, 0⟩, held := s.su.held ++ r.writeEvents resp req.addr }
          mp := { s.mp with su := none } }
    else .fault .answerNotAwaited
  | _, _, _ => .fault .answerNotAwaited

/-- WAIT_READ_ANSWER (R54). -/
def execWaitReadAnswer (resp : Resp) (d : BitVec 48) (s : State) : Host.Outcome State Fault Refusal :=
  suReadAnswer .wait resp d s

/-- WAIT_WRITE_ANSWER (R54). -/
def execWaitWriteAnswer (resp : WriteResp) (s : State) : Host.Outcome State Fault Refusal :=
  suWriteAnswer .wait resp s

/-- NOTIFY_READ_ANSWER (R56). -/
def execNotifyReadAnswer (resp : Resp) (d : BitVec 48) (s : State) : Host.Outcome State Fault Refusal :=
  suReadAnswer .notify resp d s

/-- NOTIFY_WRITE_ANSWER (R56). -/
def execNotifyWriteAnswer (resp : WriteResp) (s : State) : Host.Outcome State Fault Refusal :=
  suWriteAnswer .notify resp s

/-- UNDO_STOP_READ_ANSWER (R62). -/
def execUndoStopReadAnswer (resp : Resp) (d : BitVec 48) (s : State) : Host.Outcome State Fault Refusal :=
  suReadAnswer .undoStop resp d s

/-- UNDO_STOP_WRITE_ANSWER (R62). -/
def execUndoStopWriteAnswer (resp : WriteResp) (s : State) : Host.Outcome State Fault Refusal :=
  suWriteAnswer .undoStop resp s

/-- UNDO_RESET_READ_ANSWER (R63). -/
def execUndoResetReadAnswer (resp : Resp) (d : BitVec 48) (s : State) : Host.Outcome State Fault Refusal :=
  suReadAnswer .undoReset resp d s

/-- UNDO_RESET_WRITE_ANSWER (R63). -/
def execUndoResetWriteAnswer (resp : WriteResp) (s : State) : Host.Outcome State Fault Refusal :=
  suWriteAnswer .undoReset resp s

/-- SIGNAL_READ_ANSWER (R61). -/
def execSignalReadAnswer (resp : Resp) (d : BitVec 48) (s : State) : Host.Outcome State Fault Refusal :=
  suReadAnswer .signal resp d s

/-- SIGNAL_WRITE_ANSWER (R61). -/
def execSignalWriteAnswer (resp : WriteResp) (s : State) : Host.Outcome State Fault Refusal :=
  suWriteAnswer .signal resp s

end Sys2Proof.Machine
end

