-- ==== Sys2Proof/Machine/EngineAnswers.lean ====
section
/-! DEFINITION. Meanings of the grant point, of MP's answers to TE and TU, and of a slice's end by count
(04_moves, 05_transfer_engine_scheduling, 06_address_spaces_and_table_walks). -/

namespace Sys2Proof.Machine

/-- A RESET of channel `n`, or a soft reset, is the next command and RP accepts it: it is then taken after the grant and before
TE reaches the slice's first element boundary (R101, R107; log 32). -/
def State.resetComes (s : State) (n : ChanId) : Bool :=
  !s.resetAsserted && !s.resetting
    && (match s.pending with
        | .reset m :: _ => m == n && s.rp.commandSlot.isNone
        | .softReset v :: _ => softResetBit v
        | .controlWrite v :: _ => softResetBit v
        | _ => false)

/-- GRANT_POINT (R99, R100): the winner is granted and its slice begins; with a RESET of the winner next, TE still stands before
the slice's first element boundary when that command is taken, and ends the slice there (R101, R107; log 32). -/
def execGrantPoint (s : State) : Host.Outcome State Fault Refusal :=
  if s.atGrantPoint then
    match s.winner with
    | some n => if s.resetComes n then .next (grantTo n s) else settled (grantTo n s)
    | none => .fault .eventNotDue
  else .fault .eventNotDue

/-- SLICE_COUNT_EXHAUSTED (R103). -/
def execSliceCountExhausted (s : State) : Host.Outcome State Fault Refusal :=
  match s.te.grant, s.te.step with
  | some n, .exhausted => settled (endSlice n none s)
  | _, _ => .fault .eventNotDue

/-- MP's answer is in TE's hands, with the events it raised. -/
def State.teGot (s : State) (g : Got 64) (events : List ErrorEvent) : State :=
  { s with te := { s.te with got := some g, held := s.te.held ++ events }, mp := { s.mp with te := none } }

/-- ELEMENT_READ_ANSWER (R82). -/
def execElementReadAnswer (resp : Resp) (d : BitVec 64) (s : State) : Host.Outcome State Fault Refusal :=
  match s.te.grant, s.te.step, s.te.got, s.mp.te with
  | some n, .reading _ _, none, some req => settled (s.teGot ⟨resp, d⟩ (readEvents .te (some n) resp req.addr))
  | _, _, _, _ => .fault .answerNotAwaited

/-- DEVICE_WRITE_ANSWER (R84). -/
def execDeviceWriteAnswer (resp : WriteResp) (s : State) : Host.Outcome State Fault Refusal :=
  match s.te.grant, s.te.step, s.te.got, s.mp.te with
  | some n, .deviceWrite _ _, none, some req =>
    settled (s.teGot ⟨asResp resp, 0⟩ (writeEvents .memWrite .te (some n) resp req.addr))
  | _, _, _, _ => .fault .answerNotAwaited

/-- MP's answer is in TU's hands, with the events it raised. -/
def State.tuGot (s : State) (g : Got 64) (events : List ErrorEvent) : State :=
  { s with tu := { s.tu with got := some g, held := s.tu.held ++ events }, mp := { s.mp with tu := none } }

/-- MP answers TU's read of one step of the walk (R114, R125). -/
def walkReadAnswer (stage : TuStage) (resp : Resp) (d : BitVec 64) (s : State) : Host.Outcome State Fault Refusal :=
  match s.tu.req, s.tu.got, s.mp.tu with
  | some q, none, some req =>
    if s.tu.stage = stage then settled (s.tuGot ⟨resp, d⟩ (readEvents .tu (some q.chan) resp req.addr))
    else .fault .answerNotAwaited
  | _, _, _ => .fault .answerNotAwaited

/-- ROOT_READ_ANSWER (R115). -/
def execRootReadAnswer (resp : Resp) (d : BitVec 64) (s : State) : Host.Outcome State Fault Refusal :=
  walkReadAnswer .root resp d s

/-- DESCRIPTOR_READ_ANSWER (R117). -/
def execDescriptorReadAnswer (resp : Resp) (d : BitVec 64) (s : State) : Host.Outcome State Fault Refusal :=
  walkReadAnswer .descriptor resp d s

/-- PAGE_ENTRY_READ_ANSWER (R118). -/
def execPageEntryReadAnswer (resp : Resp) (d : BitVec 64) (s : State) : Host.Outcome State Fault Refusal :=
  walkReadAnswer .pageEntry resp d s

/-- FLAG_WRITE_ANSWER (R122). -/
def execFlagWriteAnswer (resp : WriteResp) (s : State) : Host.Outcome State Fault Refusal :=
  match s.tu.req, s.tu.stage, s.tu.got, s.mp.tu with
  | some q, .flag, none, some req =>
    settled (s.tuGot ⟨asResp resp, 0⟩ (writeEvents .busError .tu (some q.chan) resp req.addr))
  | _, _, _, _ => .fault .answerNotAwaited

end Sys2Proof.Machine
end

