-- ==== Sys2Proof/Machine/LineAnswers.lean ====
section
/-! DEFINITION. Meanings of MP's answers to LB and SB and of the ends of LB's drains (08_line_buffer_and_memory_port,
09_faults_and_error_reporting). -/

namespace Sys2Proof.Machine

/-- LINE_WRITE_OUT_ANSWER (R150, R151). -/
def execLineWriteOutAnswer (resp : WriteResp) (s : State) : Host.Outcome State Fault Refusal :=
  match s.lb.writing, s.mp.lb with
  | some l, some _ => settled (writeOutAnswered l resp s)
  | _, _ => .fault .answerNotAwaited

/-- LB has nothing left to write out for its operation and keeps no event (R154, R155, R169). -/
def State.drainOver (s : State) (r : LbReq) : Bool :=
  s.lb.writing.isNone && s.lb.held.isEmpty && (s.lb.victim r).isNone

/-- CHANNEL_DRAIN_COMPLETE (R154). -/
def execChannelDrainComplete (s : State) : Host.Outcome State Fault Refusal :=
  match s.lb.current with
  | some (.drain n) =>
    if s.drainOver (.drain n) then settled (drainAnswered n s.lbFree) else .fault .eventNotDue
  | _ => .fault .eventNotDue

/-- FULL_DRAIN_COMPLETE (R155). -/
def execFullDrainComplete (s : State) : Host.Outcome State Fault Refusal :=
  match s.lb.current with
  | some .engineDrain =>
    if s.drainOver .engineDrain then settled (engineDrained s.lbFree) else .fault .eventNotDue
  | some .softDrain =>
    if s.drainOver .softDrain && s.soft == .draining then settled (softDrained s.lbFree) else .fault .eventNotDue
  | _ => .fault .eventNotDue

/-- ERROR_RECORD_WRITE_ANSWER (R171). -/
def execErrorRecordWriteAnswer (resp : WriteResp) (s : State) : Host.Outcome State Fault Refusal :=
  match s.sb.writing, s.mp.sb with
  | some _, some _ =>
    settled
      { s with
        sb := { s.sb with writing := none, recordFailed := s.sb.recordFailed || resp == .error }
        mp := { s.mp with sb := none } }
  | _, _ => .fault .answerNotAwaited

end Sys2Proof.Machine
end

