-- ==== Sys2Proof/Machine/Dispatch.lean ====
section
/-! DEFINITION. The meaning of every command, one arm for each row of the table. -/

namespace Sys2Proof.Machine

open Sys2Proof

/-- The effect of a command on everything but the queue. -/
def exec (i : Instr) (s : State) : Host.Outcome State Fault Refusal :=
  match i with
  | .hardReset => Sys2Proof.Machine.execHardReset s
  | .resetRelease => Sys2Proof.Machine.execResetRelease s
  | .controlWrite v => Sys2Proof.Machine.execControlWrite v s
  | .softReset v => Sys2Proof.Machine.execSoftReset v s
  | .anchorLoWrite v => Sys2Proof.Machine.execAnchorLoWrite v s
  | .anchorHiWrite v => Sys2Proof.Machine.execAnchorHiWrite v s
  | .signal v => Sys2Proof.Machine.execSignal v s
  | .select n => Sys2Proof.Machine.execSelect n s
  | .start n => Sys2Proof.Machine.execStart n s
  | .stop n => Sys2Proof.Machine.execStop n s
  | .resume n => Sys2Proof.Machine.execResume n s
  | .skip n => Sys2Proof.Machine.execSkip n s
  | .reset n => Sys2Proof.Machine.execReset n s
  | .invalidCommand n code => Sys2Proof.Machine.execInvalidCommand n code s
  | .pendingCommandTake => Sys2Proof.Machine.execPendingCommandTake s
  | .statusRegisterWrite v => Sys2Proof.Machine.execStatusRegisterWrite v s
  | .alertRead => Sys2Proof.Machine.execAlertRead s
  | .ignoredRegisterWrite off v => Sys2Proof.Machine.execIgnoredRegisterWrite off v s
  | .narrowAccess off w => Sys2Proof.Machine.execNarrowAccess off w s
  | .contextReadAnswer r d => Sys2Proof.Machine.execContextReadAnswer r d s
  | .linkReadAnswer r d => Sys2Proof.Machine.execLinkReadAnswer r d s
  | .headerReadAnswer r d => Sys2Proof.Machine.execHeaderReadAnswer r d s
  | .bodyReadAnswer r d => Sys2Proof.Machine.execBodyReadAnswer r d s
  | .acceptanceWriteAnswer r => Sys2Proof.Machine.execAcceptanceWriteAnswer r s
  | .doneWriteAnswer r => Sys2Proof.Machine.execDoneWriteAnswer r s
  | .doneRewriteAnswer r => Sys2Proof.Machine.execDoneRewriteAnswer r s
  | .haltStatusWriteAnswer r => Sys2Proof.Machine.execHaltStatusWriteAnswer r s
  | .skippedWriteAnswer r => Sys2Proof.Machine.execSkippedWriteAnswer r s
  | .saveWriteAnswer r => Sys2Proof.Machine.execSaveWriteAnswer r s
  | .waitReadAnswer r d => Sys2Proof.Machine.execWaitReadAnswer r d s
  | .waitWriteAnswer r => Sys2Proof.Machine.execWaitWriteAnswer r s
  | .notifyReadAnswer r d => Sys2Proof.Machine.execNotifyReadAnswer r d s
  | .notifyWriteAnswer r => Sys2Proof.Machine.execNotifyWriteAnswer r s
  | .undoStopReadAnswer r d => Sys2Proof.Machine.execUndoStopReadAnswer r d s
  | .undoStopWriteAnswer r => Sys2Proof.Machine.execUndoStopWriteAnswer r s
  | .undoResetReadAnswer r d => Sys2Proof.Machine.execUndoResetReadAnswer r d s
  | .undoResetWriteAnswer r => Sys2Proof.Machine.execUndoResetWriteAnswer r s
  | .signalReadAnswer r d => Sys2Proof.Machine.execSignalReadAnswer r d s
  | .signalWriteAnswer r => Sys2Proof.Machine.execSignalWriteAnswer r s
  | .grantPoint => Sys2Proof.Machine.execGrantPoint s
  | .elementReadAnswer r d => Sys2Proof.Machine.execElementReadAnswer r d s
  | .deviceWriteAnswer r => Sys2Proof.Machine.execDeviceWriteAnswer r s
  | .rootReadAnswer r d => Sys2Proof.Machine.execRootReadAnswer r d s
  | .descriptorReadAnswer r d => Sys2Proof.Machine.execDescriptorReadAnswer r d s
  | .pageEntryReadAnswer r d => Sys2Proof.Machine.execPageEntryReadAnswer r d s
  | .flagWriteAnswer r => Sys2Proof.Machine.execFlagWriteAnswer r s
  | .lineWriteOutAnswer r => Sys2Proof.Machine.execLineWriteOutAnswer r s
  | .channelDrainComplete => Sys2Proof.Machine.execChannelDrainComplete s
  | .fullDrainComplete => Sys2Proof.Machine.execFullDrainComplete s
  | .sliceCountExhausted => Sys2Proof.Machine.execSliceCountExhausted s
  | .errorRecordWriteAnswer r => Sys2Proof.Machine.execErrorRecordWriteAnswer r s
  | .resetRequestsSettled n => Sys2Proof.Machine.execResetRequestsSettled n s
  | .softResetDrain => Sys2Proof.Machine.execSoftResetDrain s
  | .softResetClearing => Sys2Proof.Machine.execSoftResetClearing s

end Sys2Proof.Machine
end

