-- ==== Sys2Proof/Safety.lean ====
section
/-! DEFINITION. The terms in which claims about the part are stated: requests at a unit, settled states, states in which one
channel is left alone, the codes of the record tables, and the invariants the spec gives the alert list, the line buffer, SB's
queue, the cache, the slice counter, RUN, the answers in hand, and the one request of each channel at FU and SU. -/

namespace Sys2Proof.Machine

open Sys2Proof

/-! ## Requests at a unit -/

/-- The requests FU holds: the one in progress and its queue (R49). -/
def State.fuJobs (s : State) : List FuJob := s.fu.current.toList ++ s.fu.queue

/-- The requests SU holds: the one in progress and its queue (R50). -/
def State.suRequests (s : State) : List SuReq := (s.su.current.map SuOp.req).toList ++ s.su.queue

/-- The requests LB holds: the one in progress and its queue (R148). -/
def State.lbRequests (s : State) : List LbReq := s.lb.current.toList ++ s.lb.queue

/-! ## Groups of commands -/

/-- Writes to CONTROL, ANCHOR_LO, ANCHOR_HI, SIGNAL, CHANNEL_CMD and STATUS (R190). -/
def portWrite : Instr → Bool
  | .controlWrite _ | .softReset _ | .anchorLoWrite _ | .anchorHiWrite _ | .signal _ | .select _ | .start _ | .stop _
  | .resume _ | .skip _ | .reset _ | .invalidCommand _ _ | .statusRegisterWrite _ => true
  | _ => false

/-- The CHANNEL_CMD write that carries a command for channel `n` (Table 10-2). -/
def Command.write (k : Command) (n : ChanId) : Instr :=
  match k with
  | .start => .start n
  | .stop => .stop n
  | .resume => .resume n
  | .skip => .skip n
  | .reset => .reset n

/-- The row that answers the read of a request at SU (opcode table). -/
def readAnswerOf (r : SuReq) (resp : Resp) (d : BitVec 48) : Instr :=
  match r with
  | .wait _ _ => .waitReadAnswer resp d
  | .notify _ _ => .notifyReadAnswer resp d
  | .undoStop _ => .undoStopReadAnswer resp d
  | .undoReset _ => .undoResetReadAnswer resp d
  | .signal _ => .signalReadAnswer resp d

/-- The row that answers the write of a request at SU (opcode table). -/
def writeAnswerOf (r : SuReq) (resp : WriteResp) : Instr :=
  match r with
  | .wait _ _ => .waitWriteAnswer resp
  | .notify _ _ => .notifyWriteAnswer resp
  | .undoStop _ => .undoStopWriteAnswer resp
  | .undoReset _ => .undoResetWriteAnswer resp
  | .signal _ => .signalWriteAnswer resp

/-! ## States of the part -/

/-- Out of reset, with no soft reset in progress: register writes are taken (R176, R190). -/
def State.takesWrites (s : State) : Prop := s.resetAsserted = false ∧ s.soft = .off

/-- Every unit waits for MP or for a further command: what a step leaves (log 3). -/
def State.isSettled (s : State) : Prop := micro s = none

/-- No unit keeps an event, and so none keeps back an answer (R169). -/
def State.noneKept (s : State) : Prop :=
  s.fu.held = [] ∧ s.su.held = [] ∧ s.te.held = [] ∧ s.tu.held = [] ∧ s.lb.held = []

/-- Nothing on its way reaches channel `n`: FU and SU have no answer in hand, an undo of `n` is queued at SU only while `n`
is parked, and `n` does not hold the grant. -/
def State.leftAlone (s : State) (n : ChanId) : Prop :=
  s.fu.got = none ∧ s.su.got = none
    ∧ (SuReq.undoStop n ∈ s.su.queue ∨ SuReq.undoReset n ∈ s.su.queue → s.isParked n = true) ∧ s.te.grant ≠ some n

/-- A channel whose halt procedure has begun with a fault: the code is latched, a pending stop and the mark are cleared, and its
drain is asked for (R42). -/
def Channel.halting (c : Channel) (code : FaultCode) (va : VAddr) : Channel :=
  { c with fault := some code, faultVA := va, stopPending := false, mark := false, activity := .haltDrain }

/-- SB's queue has the place of a unit free, so that the unit can hand over its event (R169). -/
def State.hasRoom (s : State) (u : EventUnit) : Prop := ∀ e ∈ s.sb.queue, e.unit ≠ u

/-- FU awaits MP's answer to request `j`, of a channel whose reset is not in progress. -/
def State.fuAwaits (s : State) (j : FuJob) : Prop :=
  s.isSettled ∧ s.noneKept ∧ s.hasRoom .fu ∧ s.fu.current = some j ∧ s.mp.fu = some j.req ∧ s.leftAlone j.chan
    ∧ (s.chan j.chan).reset = .off

/-- SU awaits MP's answer for the operation `o`, and its channel, if it has one, has no further request queued at SU. -/
def State.suAwaits (s : State) (o : SuOp) : Prop :=
  s.isSettled ∧ s.noneKept ∧ s.hasRoom .su ∧ s.fu.got = none ∧ s.su.got = none ∧ s.su.current = some o
    ∧ s.mp.su.isSome = true ∧ ∀ n, o.req.chan = some n → (∀ r ∈ s.su.queue, r.chan ≠ some n) ∧ s.te.grant ≠ some n

/-- TE's request is at MP: an element's read or its device write. -/
def TeStep.awaitsPort : TeStep → Bool
  | .reading _ _ => true
  | .deviceWrite _ _ => true
  | .idle | .boundary | .translating _ | .lineCheck _ _ | .placing _ _ | .deviceDrain _ _ | .exhausted | .purgeDrain => false

/-- The access belongs to an element, not to the beginning of a FILL. -/
def Access.ofElement : Access → Bool
  | .fillSource => false
  | .source => true
  | .verifyDest _ => true
  | .writeDest _ => true

/-- TE stands within an element, the beginning of its move being over. -/
def TeStep.inElement : TeStep → Bool
  | .translating a => a.ofElement
  | .lineCheck a _ => a.ofElement
  | .reading a _ => a.ofElement
  | .placing _ _ => true
  | .deviceDrain _ _ => true
  | .deviceWrite _ _ => true
  | .idle | .boundary | .exhausted | .purgeDrain => false

/-- TE awaits MP's answer for channel `n`, which executes move `m`. -/
def State.teAwaits (s : State) (n : ChanId) (m : Move) : Prop :=
  s.isSettled ∧ s.noneKept ∧ s.hasRoom .te ∧ s.fu.got = none ∧ s.su.got = none ∧ s.te.grant = some n ∧ s.te.got = none
    ∧ s.mp.te.isSome = true ∧ (s.chan n).currentMove = some m ∧ (s.chan n).reset = .off
    ∧ ∀ r ∈ s.su.queue, r.chan ≠ some n

/-- TU awaits MP's answer to the step `stage` of the walk for `q`. -/
def State.tuAwaits (s : State) (q : TuReq) (stage : TuStage) : Prop :=
  s.isSettled ∧ s.noneKept ∧ s.hasRoom .tu ∧ s.tu.req = some q ∧ s.tu.stage = stage ∧ s.tu.got = none
    ∧ s.mp.tu.isSome = true

/-- TU awaits MP's answer to the step `stage` of a walk that TE asked for the access `a` of move `m`. -/
def State.walkAwaits (s : State) (q : TuReq) (stage : TuStage) (m : Move) (a : Access) : Prop :=
  s.tuAwaits q stage ∧ s.fu.got = none ∧ s.su.got = none ∧ s.te.got = none ∧ s.te.grant = some q.chan
    ∧ s.te.step = .translating a ∧ (s.chan q.chan).currentMove = some m ∧ (s.chan q.chan).reset = .off
    ∧ ∀ r ∈ s.su.queue, r.chan ≠ some q.chan

/-- A channel whose slice has just ended with a fault: READY, with the halt procedure begun (R31). -/
def Channel.sliceFaulted (c : Channel) (code : FaultCode) (va : VAddr) : Channel :=
  ({ c with state := .ready } : Channel).halting code va

/-- SB holds the event: queued, or in the record write in progress (R169, R170). -/
def State.sbHas (s : State) (e : ErrorEvent) : Prop := e ∈ s.sb.queue ∨ s.sb.writing = some e

/-- No unit but TE, TU and LB has anything to do: FU, SU and TE hold no answer, and the part is settled with no event kept. -/
def State.quietUnits (s : State) : Prop :=
  s.isSettled ∧ s.noneKept ∧ s.fu.got = none ∧ s.su.got = none ∧ s.te.got = none

/-- LB has no operation, no request and no write-out. -/
def State.lbIdle (s : State) : Prop := s.lb.current = none ∧ s.lb.queue = [] ∧ s.lb.writing = none

/-- LB's queue holds nothing of TE's. -/
def State.noEngineQueued (s : State) : Prop := ∀ r ∈ s.lb.queue, r.fromEngine = false

/-- Neither way of the key's set holds a valid entry of the key: a miss (R133, R137). -/
def State.misses (s : State) (space : BitVec 6) (va : VAddr) : Prop :=
  (s.tu.cache[setIndex (vaSegment va) (vaPage va)]).way0.matchesKey space va = false
    ∧ (s.tu.cache[setIndex (vaSegment va) (vaPage va)]).way1.matchesKey space va = false

/-- Only way `w` of the key's set holds a valid entry of the key, and it is `e` (R133). -/
def State.finds (s : State) (space : BitVec 6) (va : VAddr) (w : Way) (e : CacheEntry) : Prop :=
  (s.tu.cache[setIndex (vaSegment va) (vaPage va)]).get w = e ∧ e.matchesKey space va = true
    ∧ ((s.tu.cache[setIndex (vaSegment va) (vaPage va)]).get w.other).matchesKey space va = false

/-- TE has asked TU for an access of channel `n`, and TU has begun a walk with its read of the region root (R113, R115). -/
def State.walkBegun (s t : State) (n : ChanId) (va : VAddr) (isWrite : Bool) (a : Access) : Prop :=
  t.te.grant = some n ∧ t.te.step = .translating a ∧ t.tu.req = some ⟨n, (s.chan n).space, va, isWrite⟩ ∧ t.tu.stage = .root
    ∧ t.mp.tu = some (.read (s.rootAddr (s.chan n).space (vaRegion va)) 8)

/-- The slice of channel `n` has ended with a fault: the grant is free, the channel, whose progress was `c`, is in its halt
procedure, and its drain is asked for (R31, R42, R103). -/
def State.sliceFaults (t : State) (n : ChanId) (c : Channel) (code : FaultCode) (va : VAddr) : Prop :=
  t.te.grant = none ∧ t.te.counter = 0 ∧ t.chan n = c.sliceFaulted code va ∧ LbReq.drain n ∈ t.lbRequests

/-- The cache after a walk's fill, or after the refill in place of a dirty upgrade (R138, R141). -/
def State.filledCache (s : State) (q : TuReq) (e : CacheEntry) : Vector CacheSet 32 :=
  match s.tu.upgrade with
  | none => s.tu.cache.set q.set (s.tu.cache[q.set].fill e)
  | some w => s.tu.cache.set q.set (s.tu.cache[q.set].put w e)

/-- The cache after a walk's fault: as it was, or with the entry of a dirty upgrade invalidated (R137, R141). -/
def State.faultedCache (s : State) (q : TuReq) : Vector CacheSet 32 :=
  match s.tu.upgrade with
  | none => s.tu.cache
  | some w => s.tu.cache.set q.set (s.tu.cache[q.set].put w { s.tu.cache[q.set].get w with valid := false })

/-- An element of move `m`, the last of the last move of channel `n`, has been placed in the line buffer at `pa`: it counts as
performed, the slice has ended and the channel has entered FINISHING (R93, R95, R32). -/
def State.placedLast (s t : State) (n : ChanId) (m : Move) (v : BitVec 64) (pa : PAddr) : Prop :=
  t.te.grant = none ∧ (t.chan n).state = .finishing ∧ (t.chan n).phase = .drain
    ∧ (t.chan n).performed = (s.chan n).performed + 1 ∧ placeElement s.lb.entries pa m.dst.size v n = some t.lb.entries

/-- The element in progress is the last of the channel's last move, and no stop or mark waits for its slice's end. -/
def Channel.atLastElement (c : Channel) : Prop :=
  c.remaining = 1 ∧ c.moves[c.moveIndex + 1]? = none ∧ c.stopPending = false ∧ c.mark = false

/-- TE waits after the translation of an access: for the line check or the read, for the drain before a device write, or, with
the last element placed at once, for nothing. -/
def State.waitsAfter (s : State) (n : ChanId) (m : Move) (a : Access) (pa : PAddr) (device : Bool) : Prop :=
  match a with
  | .writeDest v =>
    device = true ∨ (s.lbIdle ∧ (s.chan n).atLastElement ∧ placeElement s.lb.entries pa m.dst.size v n ≠ none)
  | .fillSource | .source | .verifyDest _ => True

/-- TE has gone on with the translation of an access: to the line check and the read, to the drain before the device write, or
to the placing of the last element (R82, R83, R93). -/
def State.goesOnWith (s t : State) (n : ChanId) (m : Move) (a : Access) (pa : PAddr) (device : Bool) : Prop :=
  match a with
  | .writeDest v =>
    if device = true then t.te.step = .deviceDrain v pa ∧ LbReq.engineDrain ∈ t.lbRequests ∧ t.chan n = s.chan n
    else s.placedLast t n m v pa
  | .fillSource | .source | .verifyDest _ =>
    (t.te.step = .lineCheck a pa ∨ t.te.step = .reading a pa) ∧ t.chan n = s.chan n

/-! ## Codes of the record tables -/

/-- OP (Table 1-11). -/
def MoveOp.code : MoveOp → Nat
  | .copy => 1
  | .fill => 2
  | .verify => 3

/-- SRC_SIZE and DST_SIZE (Table 1-11). -/
def Size.code : Size → Nat
  | .b1 => 0
  | .b2 => 1
  | .b4 => 2
  | .b8 => 3

/-- SRC_DIR and DST_DIR (Table 1-11). -/
def Dir.code : Dir → Nat
  | .inc => 0
  | .dec => 1
  | .hold => 2

/-- FORM (Table 1-11). -/
def Form.code : Form → Nat
  | .displaced => 0
  | .indexed => 1
  | .immediate => 2

/-- SCOPE (Table 1-12). -/
def Scope.code : Scope → Nat
  | .all => 0
  | .space => 1
  | .segment => 2
  | .page => 3

/-- Entry `i` of a list of `k` is the first that fails its check. -/
def firstBad (good : Nat → Prop) (k i : Nat) : Prop := i < k ∧ ¬good i ∧ ∀ j < i, good j

/-! ## Invariants -/

/-- The alert list holds at most 32 numbers, none twice (R69). -/
def State.alertsOk (s : State) : Prop := s.rp.alerts.length ≤ 32 ∧ s.rp.alerts.Nodup

/-- LB holds at most 8 entries, no two of one line (R157). -/
def State.linesOk (s : State) : Prop := s.lb.entries.length ≤ 8 ∧ (s.lb.entries.map LineEntry.line).Nodup

/-- SB's queue holds at most one event of each unit (R169). -/
def State.eventsOk (s : State) : Prop := (s.sb.queue.map ErrorEvent.unit).Nodup

/-- The slice element counter is at most 16, and below 16 while an element is in progress (R103). -/
def State.counterOk (s : State) : Prop :=
  s.te.counter ≤ 16 ∧ (s.te.counter = 16 → s.te.step = .exhausted)

/-- A soft reset is in progress only with RUN 0 and both slots empty (R189). -/
def State.softResetOk (s : State) : Prop :=
  s.soft ≠ .off → s.rp.run = false ∧ s.rp.signalSlot = none ∧ s.rp.commandSlot = none

/-- No two valid entries of a set hold one key, and every valid entry stands in the set of its key (R132, R142). -/
def CacheSet.distinct (c : CacheSet) (i : Fin 32) : Prop :=
  (c.way0.valid = true → setIndex c.way0.segment c.way0.page = i)
    ∧ (c.way1.valid = true → setIndex c.way1.segment c.way1.page = i)
    ∧ ¬(c.way0.valid = true ∧ c.way1.valid = true ∧ c.way0.space = c.way1.space ∧ c.way0.region = c.way1.region
        ∧ c.way0.segment = c.way1.segment ∧ c.way0.page = c.way1.page)

/-- TU is at a step of a walk, so that a fill may follow (Table 6-4). -/
def TuStage.walking : TuStage → Bool
  | .begin => true
  | .root => true
  | .descriptor => true
  | .pageEntry => true
  | .flag => true
  | .idle => false
  | .reply _ => false

/-- The way other than the one a walk may fill holds no valid entry of the walk's key; with no dirty upgrade neither does
(R137, R141). -/
def TransUnit.keyFree (u : TransUnit) (q : TuReq) : Prop :=
  match u.upgrade with
  | none =>
    u.cache[q.set].way0.matchesKey q.space q.va = false ∧ u.cache[q.set].way1.matchesKey q.space q.va = false
  | some w => (u.cache[q.set].get w.other).matchesKey q.space q.va = false

/-- No two valid cache entries share a key, nor will the walk in progress make two (R142, R137, R141). -/
def State.cacheOk (s : State) : Prop :=
  (∀ i : Fin 32, s.tu.cache[i].distinct i)
    ∧ ∀ q, s.tu.req = some q → s.tu.stage.walking = true → s.tu.keyFree q

/-- An answer is in hand only where a request for it was in progress, and TE stands at a step only with the grant (R49, R50,
R98, R113). -/
def State.answersOk (s : State) : Prop :=
  (s.fu.got.isSome = true → s.fu.current.isSome = true) ∧ (s.su.got.isSome = true → s.su.current.isSome = true)
    ∧ (s.te.got.isSome = true → s.te.step.awaitsPort = true) ∧ (s.te.grant = none → s.te.step = .idle)
    ∧ (s.tu.got.isSome = true → s.tu.req.isSome = true ∧ s.tu.stage ≠ .idle ∧ s.tu.stage ≠ .begin
        ∧ ∀ a, s.tu.stage ≠ .reply a)

/-- The window of R101: a RESET of the grant holder, or a soft reset, is the next command after the grant (log 32). -/
def State.resetWindow (s : State) : Prop :=
  ∃ n, s.te.grant = some n ∧ s.resetComes n = true ∧ (s.chan n).reset = .off

/-- The record traffic of a kind is what a channel in an activity waits for (R49). -/
def FuKind.fits (k : FuKind) (a : Activity) : Bool :=
  match k with
  | .context => a == .contextRead
  | .link => a == .linkRead
  | .header => match a with | .headerRead _ => true | _ => false
  | .body => match a with | .bodyRead _ _ => true | _ => false
  | .acceptance => match a with | .accepting _ => true | _ => false
  | .done => a == .doneWrite
  | .doneRewrite => a == .doneRewrite
  | .haltStatus => a == .haltStatus
  | .skipped => a == .skipWrite
  | .save => a == .stopSave || a == .haltSave

/-- The request at SU is one a channel in an activity may have; an undo for RESET belongs to a channel in reset (R50). -/
def SuReq.fits (r : SuReq) (a : Activity) : Bool :=
  match r with
  | .wait _ _ => a == .waiting
  | .notify _ _ => a == .notifying
  | .undoStop _ => true
  | .undoReset _ => false
  | .signal _ => true

/-- What channel `n` has at FU. -/
def State.jobsOf (s : State) (n : ChanId) : List FuJob := s.fuJobs.filter (·.chan == n)

/-- What channel `n` has at SU. -/
def State.asksOf (s : State) (n : ChanId) : List SuReq := s.suRequests.filter (·.chan == some n)

/-- A channel out of reset waits for what it has asked, stands parked only where its wait parked it, and holds the grant only
in its slice, where within an element its first flag is 0 (R21, R49, R50, R55, R74, R99). -/
def State.flowFits (s : State) (n : ChanId) : Prop :=
  (∀ j ∈ s.jobsOf n, j.kind.fits (s.chan n).activity = true)
    ∧ (∀ r ∈ s.asksOf n, r.fits (s.chan n).activity = true)
    ∧ (s.isParked n = true → (s.chan n).activity = .parked)
    ∧ (s.te.grant = some n →
        (s.chan n).activity = .slice ∧ (s.te.step.inElement = true → (s.chan n).firstFlag = false))
    ∧ ((s.chan n).state = .off → (s.chan n).activity = .rest)
    ∧ (SuReq.undoStop n ∈ s.asksOf n → s.isParked n = true → (s.chan n).stopPending = true)

/-- Channel `n` has one request at FU and one at SU at most, has no wait at SU while parked, is parked while its undo is in
progress, and in the later steps of its reset has nothing left but its undo (R47, R48, R50, R55). -/
def State.flowAt (s : State) (n : ChanId) : Prop :=
  (s.jobsOf n).length ≤ 1 ∧ (s.asksOf n).length ≤ 1
    ∧ (∀ k, SuReq.wait n k ∈ s.asksOf n → s.isParked n = false)
    ∧ (∀ o, s.su.current = some o → o.req = .undoStop n ∨ o.req = .undoReset n → s.isParked n = true)
    ∧ ((s.chan n).reset = .off → s.flowFits n)
    ∧ ((s.chan n).reset = .undo → s.jobsOf n = [] ∧ s.te.grant ≠ some n ∧ ∀ r ∈ s.asksOf n, r = .undoReset n)
    ∧ ((s.chan n).reset = .drain →
        s.jobsOf n = [] ∧ s.te.grant ≠ some n ∧ s.asksOf n = [] ∧ s.isParked n = false)

/-- Every channel keeps to its flow, and none stands in the parked list twice, so that it holds 16 entries at most (R55). -/
def State.flowOk (s : State) : Prop :=
  (∀ n, s.flowAt n) ∧ (s.su.parked.map Parked.chan).Nodup ∧ s.su.parked.length ≤ 16

end Sys2Proof.Machine
end

