-- ==== Sys2Proof/Certificates/Slice0/Obligations.lean ====
section
/-! DEFINITION. What the provers are asked to prove of the TC-16: its registers and resets, its channels, its semaphores, its
transfers and translations, its line buffer and error reports, and the invariants every step keeps. -/

open Sys2Proof Sys2Proof.Machine

/-! ## A step -/

/-- A step runs the command at the front of the queue on the queue's rest; with no command waiting the part idles (the
model's choice, log 4). -/
def Obligations.StepRunsFrontCommand : Prop :=
  ∀ (s : State),
    (∀ c rest, s.pending = c :: rest → step s = exec c { s with pending := rest }) ∧ (s.pending = [] → step s = .next s)

/-! ## Resets of the part and the register port -/

/-- HARD_RESET leaves the reset state with reset_n asserted, and keeps only the queue of commands and the free order (the model's
choice, log 21); RESET_RELEASE changes reset_n alone (the model's choice, log 9). The reset state holds what the host finds
after a hard reset (Table 10-5, Table 2-1, R71, R98, R146, R161, R162, R188). -/
def Obligations.ResetLeavesHardResetValues : Prop :=
  (∀ s : State,
    exec .hardReset s = .next { State.reset with resetAsserted := true, arrivals := s.arrivals, pending := s.pending }
      ∧ exec .resetRelease s = .next { s with resetAsserted := false })
    ∧ State.reset.controlValue = 0x10 ∧ State.reset.anchor = 0 ∧ State.reset.rp.signalSlot = none
    ∧ State.reset.rp.commandSlot = none ∧ State.reset.rp.lastNamed = 0 ∧ State.reset.rp.alerts = []
    ∧ State.reset.statusValue = 0x100 ∧ State.reset.haltedValue = 0 ∧ State.reset.sb.counter = 0
    ∧ State.reset.irq = false ∧ State.reset.te.grant = none ∧ State.reset.te.rotor = 15
    ∧ State.reset.su.queue = [] ∧ State.reset.su.parked = [] ∧ State.reset.fu.queue = [] ∧ State.reset.lb.entries = []
    ∧ State.reset.mp.quiet = true
    ∧ (∀ i : Fin 32, State.reset.tu.cache[i].way0.valid = false ∧ State.reset.tu.cache[i].way1.valid = false
        ∧ State.reset.tu.cache[i].victim = .way0)
    ∧ ∀ n, State.reset.chan n = Channel.off

/-- While reset_n is asserted every register write is ignored; during a soft reset it is refused with RESETTING and has no
other effect. Otherwise an ANCHOR write with RUN 0 and every channel OFF replaces its half of the anchor, and any other ANCHOR
write is refused with ANCHOR_LOCKED. -/
def Obligations.WritesDecidedByResetsAndAnchorLock : Prop :=
  (∀ (c : Instr) (s : State), portWrite c = true →
    (s.resetAsserted = true → exec c s = .next (s.replied ⟨false, 0⟩))
      ∧ (s.resetAsserted = false → s.soft ≠ .off → exec c s = .next ((s.replied ⟨false, 0⟩).refuse .resetting)))
  ∧ ∀ (v : Word) (s : State), s.takesWrites →
    (s.rp.run = false ∧ s.allOff = true →
      exec (.anchorLoWrite v) s = .next { s with rp := { s.rp with anchorLo := v.extractLsb' 13 19, reply := ⟨false, 0⟩ } }
      ∧ exec (.anchorHiWrite v) s = .next { s with rp := { s.rp with anchorHi := v.extractLsb' 0 8, reply := ⟨false, 0⟩ } })
    ∧ (s.rp.run = true ∨ s.allOff = false →
      exec (.anchorLoWrite v) s = .next ((s.replied ⟨false, 0⟩).refuse .anchorLocked)
      ∧ exec (.anchorHiWrite v) s = .next ((s.replied ⟨false, 0⟩).refuse .anchorLocked))

/-- A CONTROL write that does not set RUN anew changes RUN, REPORT_LEVEL and INT_EN together, and nothing else; one that sets
RUN lets a channel held before its posting wait queue that wait. -/
def Obligations.ControlWriteSetsFieldsAndReleases : Prop :=
  ∀ (v : Word) (s : State), s.takesWrites → softResetBit v = false →
    (s.isSettled → s.noneKept → (s.rp.run = true ∨ v.getLsbD 0 = false) →
      exec (.controlWrite v) s = .next { s with
        rp := { s.rp with
          run := v.getLsbD 0, reportLevel := v.extractLsb' 4 2, intEn := v.extractLsb' 8 5, reply := ⟨false, 0⟩ }
        sb := { s.sb with level := v.extractLsb' 4 2 } })
    ∧ ∀ n, s.rp.run = false → v.getLsbD 0 = true → s.leftAlone n → s.suBusy n = false → (s.chan n).reset = .off →
      (s.chan n).activity = .beforeWait → (s.chan n).phase = .post → (s.chan n).stopPending = false →
      ∃ t, exec (.controlWrite v) s = .next t ∧ t.rp.run = true ∧ t.chan n = { s.chan n with activity := .waiting }
        ∧ SuReq.wait n (s.chan n).posting ∈ t.suRequests

/-- A STATUS write clears the sticky bits at which it carries a 1 and changes nothing else; an ALERT read returns the oldest
entry and removes it, or returns 0 on an empty list; a write to IDENT, HALTED, ALERT or an unused offset is ignored, and a narrow
access has no effect. That every answer stands in the field `reply` is the model's choice (log 10), and so is the error answer
to a narrow access while reset_n is asserted (log 11). -/
def Obligations.StatusAlertAndIgnoredAccesses : Prop :=
  ∀ (v : Word) (offset : BitVec 6) (w : Bool) (s : State),
    (s.takesWrites →
      exec (.statusRegisterWrite v) s = .next { s with
        rp := { s.rp with reply := ⟨false, 0⟩ }
        sb := { s.sb with
          refused := s.sb.refused && !v.getLsbD 4, errorEvent := s.sb.errorEvent && !v.getLsbD 5
          alertLost := s.sb.alertLost && !v.getLsbD 6, recordFailed := s.sb.recordFailed && !v.getLsbD 7 } })
    ∧ (∀ k rest, s.resetAsserted = false → s.rp.alerts = k :: rest →
      exec .alertRead s
        = .next { s with rp := { s.rp with alerts := rest, reply := ⟨false, 0x80000000 + BitVec.ofNat 32 k.val⟩ } })
    ∧ (s.resetAsserted = true ∨ s.rp.alerts = [] →
      exec .alertRead s = .next { s with rp := { s.rp with reply := ⟨false, 0⟩ } })
    ∧ (ignoredOffset offset = true →
      exec (.ignoredRegisterWrite offset v) s = .next { s with rp := { s.rp with reply := ⟨false, 0⟩ } })
    ∧ exec (.narrowAccess offset w) s = .next { s with rp := { s.rp with reply := ⟨true, 0⟩ } }

/-- IDENT reads 0x2D160A01 in every state in which reset_n is released, after any command. -/
def Obligations.IdentReadsConstant : Prop :=
  ∀ (s : State), s.resetAsserted = false →
    s.readRegister 0 = 0x2D160A01 ∧ (s.readRegister 0).extractLsb' 20 12 = 0x2D1
      ∧ (s.readRegister 0).extractLsb' 8 12 = 0x60A ∧ (s.readRegister 0).extractLsb' 0 8 = 0x01
      ∧ ∀ c t, exec c s = .next t → t.resetAsserted = false → t.readRegister 0 = 0x2D160A01

/-- STATUS shows the alert list, HALTED, the sticky bits, QUIET, RESETTING, the signal slot and the latest reason; irq is
high exactly while a cause and its enable are both true. CONTROL reads RUN, REPORT_LEVEL and INT_EN, and CHANNEL_CMD the view
of the last-named channel; ANCHOR_LO and ANCHOR_HI read the anchor's halves, HALTED one bit for each channel, and SIGNAL and the
unused offsets 0, as every offset does while reset_n is asserted. QUIET holds exactly while RUN and RESETTING are 0, the slots, the queues and MP are empty, TE holds
no grant, SB is idle and every channel stands at rest; which activities are at rest is the model's reading (log 26). -/
def Obligations.StatusAndInterruptViews : Prop :=
  ∀ (s : State),
    (s.statusValue.getLsbD 0 = !s.rp.alerts.isEmpty
      ∧ s.statusValue.getLsbD 1 = allChannels.any (fun n => (s.chan n).haltedBit)
      ∧ s.statusValue.getLsbD 4 = s.sb.refused ∧ s.statusValue.getLsbD 5 = s.sb.errorEvent
      ∧ s.statusValue.getLsbD 6 = s.sb.alertLost ∧ s.statusValue.getLsbD 7 = s.sb.recordFailed
      ∧ s.statusValue.getLsbD 8 = s.quiet ∧ s.statusValue.getLsbD 9 = decide (s.soft ≠ .off)
      ∧ s.statusValue.getLsbD 10 = s.rp.signalSlot.isSome
      ∧ s.statusValue.extractLsb' 16 4 = BitVec.ofNat 4 s.rp.refuseReason.code)
    ∧ (s.irq = true ↔
        (s.rp.intEn.getLsbD 0 = true ∧ s.rp.alerts ≠ []) ∨ (s.rp.intEn.getLsbD 1 = true ∧ ∃ n, (s.chan n).haltedBit = true)
          ∨ (s.rp.intEn.getLsbD 2 = true ∧ s.sb.refused = true) ∨ (s.rp.intEn.getLsbD 3 = true ∧ s.sb.errorEvent = true)
          ∨ (s.rp.intEn.getLsbD 4 = true ∧ (s.sb.alertLost = true ∨ s.sb.recordFailed = true)))
    ∧ (s.resetAsserted = false →
      s.readRegister 0x04 = s.controlValue ∧ s.readRegister 0x14 = s.channelView ∧ s.readRegister 0x18 = s.statusValue
        ∧ s.readRegister 0x08 = s.rp.anchorLo ++ (0 : BitVec 13) ∧ s.readRegister 0x0C = s.rp.anchorHi.setWidth 32
        ∧ s.readRegister 0x10 = 0
        ∧ (∀ n : ChanId, (s.readRegister 0x1C).getLsbD n.val = (s.chan n).haltedBit)
        ∧ (s.readRegister 0x1C).extractLsb' 16 16 = 0
        ∧ ∀ offset : BitVec 6, 0x24 ≤ offset.toNat → offset.toNat % 4 = 0 → s.readRegister offset = 0)
    ∧ (s.resetAsserted = true → ∀ offset, s.readRegister offset = 0)
    ∧ (s.controlValue.getLsbD 0 = s.rp.run ∧ s.controlValue.getLsbD 1 = false
      ∧ s.controlValue.extractLsb' 4 2 = s.rp.reportLevel ∧ s.controlValue.extractLsb' 8 5 = s.rp.intEn)
    ∧ ((s.channelView.extractLsb' 0 4).toNat = s.rp.lastNamed.val
      ∧ (s.channelView.extractLsb' 8 4).toNat = (s.chan s.rp.lastNamed).state.code
      ∧ s.channelView.getLsbD 16 = (s.chan s.rp.lastNamed).stopPending
      ∧ s.channelView.getLsbD 17 = s.rp.commandSlot.isSome)
    ∧ (s.quiet = true ↔
      s.rp.run = false ∧ s.soft = .off ∧ s.rp.signalSlot = none ∧ s.rp.commandSlot = none ∧ s.fu.queue = []
        ∧ s.fu.current = none ∧ s.su.queue = [] ∧ s.su.current = none ∧ s.te.grant = none ∧ s.lb.queue = []
        ∧ s.lb.current = none ∧ s.sb.queue = [] ∧ s.sb.writing = none
        ∧ (s.mp.fu = none ∧ s.mp.su = none ∧ s.mp.te = none ∧ s.mp.tu = none ∧ s.mp.lb = none ∧ s.mp.sb = none)
        ∧ ∀ n, (s.chan n).reset = .off
          ∧ ((s.chan n).activity = .rest ∨ (s.chan n).activity = .parked ∨ (s.chan n).activity = .beforeWait
            ∨ (s.chan n).activity = .beforeFetch ∨ (s.chan n).activity = .ready
            ∨ (s.chan n).activity = .beforeNotify))

/-- A soft reset starts: RESETTING 1, RUN 0, both slots empty, the anchor and the other controls kept, no SIGNAL left in SU's
queue, and every channel that was not OFF in its reset. Once every channel is OFF and SU idle it sends LB a full drain; its
clearing step, taken when SB is idle, ends it with the cache, the alert list, the sticky bits, the counter, HALTED and the
last-named channel cleared, and the controls and anchor kept. -/
def Obligations.SoftResetBeginsAndEnds : Prop :=
  ∀ (s : State),
    (∀ v, s.takesWrites → softResetBit v = true →
      ∃ t, exec (.softReset v) s = .next t ∧ t.soft = .channels ∧ t.rp.run = false ∧ t.rp.commandSlot = none
        ∧ t.rp.signalSlot = none ∧ t.anchor = s.anchor ∧ t.rp.reportLevel = s.rp.reportLevel ∧ t.rp.intEn = s.rp.intEn
        ∧ (∀ k, SuReq.signal k ∉ t.su.queue)
        ∧ ∀ n, s.leftAlone n → (s.chan n).reset = .off →
          t.chan n = if (s.chan n).state = .off then s.chan n else { s.chan n with reset := .settling })
    ∧ (s.soft = .channels → s.allOff = true → s.su.queue = [] → s.su.current = none →
      ∃ t, exec .softResetDrain s = .next t ∧ t.soft = .draining ∧ LbReq.softDrain ∈ t.lbRequests)
    ∧ (s.soft = .clearing → s.sb.queue = [] → s.sb.writing = none →
      ∃ t, exec .softResetClearing s = .next t ∧ t.soft = .off
        ∧ (∀ i : Fin 32, t.tu.cache[i] = CacheSet.invalid) ∧ t.te.rotor = 15
        ∧ t.rp = { s.rp with alerts := [], refuseReason := .none, lastNamed := 0 }
        ∧ t.sb = { s.sb with
            counter := 0, errorEvent := false, recordFailed := false, refused := false, alertLost := false }
        ∧ (∀ n, t.chan n = { s.chan n with haltedBit := false }) ∧ t.fu = s.fu ∧ t.su = s.su ∧ t.lb = s.lb ∧ t.mp = s.mp
        ∧ t.te = { s.te with rotor := 15 })

/-! ## Channel commands and SIGNAL -/

/-- SELECT names the channel that CHANNEL_CMD shows; a code from 6 to 15 is refused with INVALID; a command is refused with BUSY
while RP's slot is occupied, and waits in the slot while a reset of its channel is in progress. -/
def Obligations.ChannelCmdDecidedByPort : Prop :=
  ∀ (n : ChanId) (code : BitVec 4) (k : Command) (s : State), s.takesWrites →
    exec (.select n) s = .next { s with rp := { s.rp with lastNamed := n, reply := ⟨false, 0⟩ } }
      ∧ (6 ≤ code.toNat → exec (.invalidCommand n code) s = .next ((s.replied ⟨false, 0⟩).refuse .invalid))
      ∧ (s.rp.commandSlot ≠ none → exec (k.write n) s = .next ((s.replied ⟨false, 0⟩).refuse .busy))
      ∧ (s.rp.commandSlot = none → (s.chan n).reset ≠ .off →
        exec (k.write n) s
          = .next { s with rp := { s.rp with lastNamed := n, commandSlot := some (n, k), reply := ⟨false, 0⟩ } })

/-- A SIGNAL is refused with RUN 0 or the slot occupied, and is otherwise, SU having no answer in hand, held in the slot and
queued at SU, no channel changing. -/
def Obligations.SignalDecidedByPort : Prop :=
  ∀ (v : Word) (s : State), s.takesWrites →
    (s.rp.run = false → exec (.signal v) s = .next ((s.replied ⟨false, 0⟩).refuse .notRunning))
    ∧ (s.rp.run = true → s.rp.signalSlot ≠ none → exec (.signal v) s = .next ((s.replied ⟨false, 0⟩).refuse .busy))
    ∧ (s.rp.run = true → s.rp.signalSlot = none → s.isSettled → s.noneKept → s.su.got = none →
      ∃ t, exec (.signal v) s = .next t ∧ t.rp.signalSlot = some (v.extractLsb' 0 8).toFin
        ∧ SuReq.signal (v.extractLsb' 0 8).toFin ∈ t.suRequests ∧ ∀ m, t.chan m = s.chan m)

/-- START of an OFF channel with RUN 1 enters POSTWAIT with every field cleared and asks FU for its context; with RUN 0 it is
refused with NOT_RUNNING, and in any other state with STATE. -/
def Obligations.StartDecidedByState : Prop :=
  ∀ (n : ChanId) (s : State), s.takesWrites → s.rp.commandSlot = none → (s.chan n).reset = .off → s.isSettled →
    ((s.chan n).state = .off → s.rp.run = true → s.leftAlone n →
      ∃ t, exec (.start n) s = .next t ∧ t.chan n = { Channel.off with state := .postwait, activity := .contextRead }
        ∧ (⟨n, .context, .read (s.contextAddr n) 48⟩ : FuJob) ∈ t.fuJobs ∧ t.rp.lastNamed = n)
    ∧ ((s.chan n).state = .off → s.rp.run = false →
      exec (.start n) s
        = .next (({ s with rp := { s.rp with lastNamed := n, reply := ⟨false, 0⟩ } } : State).refuse .notRunning))
    ∧ ((s.chan n).state ≠ .off →
      exec (.start n) s
        = .next (({ s with rp := { s.rp with lastNamed := n, reply := ⟨false, 0⟩ } } : State).refuse .state))

/-- STOP is refused in OFF, STOPPED and HALTED; ignored while a stop is pending or a procedure runs; asks SU to undo the wait
of a parked channel; and in READY begins the stop procedure with its drain. -/
def Obligations.StopDecidedByState : Prop :=
  ∀ (n : ChanId) (s : State), s.takesWrites → s.rp.commandSlot = none → (s.chan n).reset = .off → s.isSettled →
    ((s.chan n).state = .off ∨ (s.chan n).state = .stopped ∨ (s.chan n).state = .halted →
      exec (.stop n) s
        = .next (({ s with rp := { s.rp with lastNamed := n, reply := ⟨false, 0⟩ } } : State).refuse .state))
    ∧ ((s.chan n).state ≠ .off → (s.chan n).state ≠ .stopped → (s.chan n).state ≠ .halted →
      ((s.chan n).stopPending = true ∨ (s.chan n).inProcedure = true →
        exec (.stop n) s = .next { s with rp := { s.rp with lastNamed := n, reply := ⟨false, 0⟩ } })
      ∧ ((s.chan n).stopPending = false → (s.chan n).inProcedure = false → s.leftAlone n →
        (s.isParked n = true →
          ∃ t, exec (.stop n) s = .next t ∧ t.chan n = { s.chan n with stopPending := true }
            ∧ SuReq.undoStop n ∈ t.suRequests)
        ∧ (s.isParked n = false → (s.chan n).activity = .ready → (s.chan n).mark = false → s.suBusy n = false →
          ∃ t, exec (.stop n) s = .next t ∧ t.chan n = { s.chan n with stopPending := true, activity := .stopDrain }
            ∧ LbReq.drain n ∈ t.lbRequests)))

/-- RESUME with RUN 1 clears the fault and the HALTED bit and goes on in the phase held (Table 2-5); without a valid context
it reads the context again. -/
def Obligations.ResumeGoesOnInPhaseHeld : Prop :=
  ∀ (n : ChanId) (s : State) (c : Channel), s.takesWrites → s.rp.commandSlot = none → (s.chan n).reset = .off →
    (s.chan n).atHalt = true → ¬((s.chan n).state = .halted ∧ (s.chan n).fault = some .writeError) → s.leftAlone n →
    s.suBusy n = false → s.rp.run = true → (s.chan n).stopPending = false → (s.chan n).mark = false →
    c = { s.chan n with haltedBit := false, fault := none, faultVA := 0 } →
    ∃ t, exec (.resume n) s = .next t
      ∧ (c.contextValid = false →
        t.chan n = { c with state := .postwait, phase := .post, listIndex := 0, activity := .contextRead }
          ∧ (⟨n, .context, .read (s.contextAddr n) 48⟩ : FuJob) ∈ t.fuJobs)
      ∧ (c.contextValid = true →
        (c.phase = .post →
          t.chan n = { c with state := .postwait, phase := .post, listIndex := 0, activity := .waiting }
            ∧ SuReq.wait n c.posting ∈ t.suRequests)
        ∧ (∀ a, c.phase = .fetch → c.lastTask = some a →
          t.chan n = { c with state := .fetching, phase := .fetch, listIndex := 0, activity := .linkRead }
            ∧ (⟨n, .link, .read a 8⟩ : FuJob) ∈ t.fuJobs)
        ∧ (∀ k, c.phase = .prewait → c.waits[c.listIndex]? = some k →
          t.chan n = { c with state := .prewait, activity := .waiting } ∧ SuReq.wait n k ∈ t.suRequests)
        ∧ (c.phase = .move ∨ c.phase = .purge → t.chan n = { c with state := .ready, activity := .ready })
        ∧ (c.phase = .drain →
          t.chan n = { c with state := .finishing, phase := .drain, listIndex := 0, activity := .finishDrain }
            ∧ LbReq.drain n ∈ t.lbRequests)
        ∧ (∀ a, c.phase = .status → c.current = some a →
          t.chan n = { c with state := .finishing, resumedNotify := false, activity := .doneWrite }
            ∧ (⟨n, .done, statusWrite a c.doneImage⟩ : FuJob) ∈ t.fuJobs)
        ∧ (∀ k, c.phase = .notify → c.notifies[c.listIndex]? = some k →
          t.chan n = { c with state := .finishing, resumedNotify := true, activity := .notifying }
            ∧ SuReq.notify n k ∈ t.suRequests))

/-- SKIP of a STOPPED or HALTED channel with a current task asks FU for the SKIPPED write; RESUME and SKIP are refused in every
other state, and RESUME of a channel HALTED with WRITE_ERROR is refused with NOT_RESUMABLE. -/
def Obligations.SkipTakenAndRefusals : Prop :=
  ∀ (n : ChanId) (s : State) (u : State), s.takesWrites → s.rp.commandSlot = none → (s.chan n).reset = .off →
    s.isSettled → u = { s with rp := { s.rp with lastNamed := n, reply := ⟨false, 0⟩ } } →
    (∀ a, (s.chan n).atHalt = true → (s.chan n).current = some a → s.leftAlone n →
      ∃ t, exec (.skip n) s = .next t ∧ t.chan n = { s.chan n with activity := .skipWrite }
        ∧ (⟨n, .skipped, .write (a + 16) 1 4⟩ : FuJob) ∈ t.fuJobs)
    ∧ ((s.chan n).atHalt = false ∨ (s.chan n).current = none → exec (.skip n) s = .next (u.refuse .state))
    ∧ ((s.chan n).atHalt = false → exec (.resume n) s = .next (u.refuse .state))
    ∧ ((s.chan n).atHalt = true → (s.chan n).state = .halted → (s.chan n).fault = some .writeError →
      exec (.resume n) s = .next (u.refuse .notResumable))

/-- RESET begins the reset of a channel that does not hold the grant and that nothing on its way reaches, of an OFF channel too
(the model's reading, log 14); once its requests are answered a parked channel asks for its undo and any other goes on to its
drain. A command held in the slot meanwhile is taken when the reset has ended, as if it were written then. -/
def Obligations.ResetGoesOnAndHeldCommandTaken : Prop :=
  ∀ (n : ChanId) (s : State), s.leftAlone n →
    (s.takesWrites → s.rp.commandSlot = none → (s.chan n).reset = .off →
      ∃ t, exec (.reset n) s = .next t ∧ t.chan n = { s.chan n with reset := .settling })
    ∧ ((s.chan n).reset = .settling → s.requestsSettled n = true →
      (s.isParked n = true →
        ∃ t, exec (.resetRequestsSettled n) s = .next t ∧ t.chan n = { s.chan n with reset := .undo }
          ∧ SuReq.undoReset n ∈ t.suRequests)
      ∧ (s.isParked n = false →
        ∃ t, exec (.resetRequestsSettled n) s = .next t ∧ t.chan n = { s.chan n with reset := .drain }
          ∧ LbReq.drain n ∈ t.lbRequests))
    ∧ ∀ k, s.rp.commandSlot = some (n, k) → (s.chan n).reset = .off →
      ∃ t, exec .pendingCommandTake s = .next t ∧ t.rp.commandSlot = none
        ∧ (s.takesWrites → s.rp.lastNamed = n → s.rp.reply = ⟨false, 0⟩ →
          exec (k.write n) { s with rp := { s.rp with commandSlot := none } } = .next t)


/-! ## Answers to FU -/

/-- What the part reads of a context, a header, a list entry, a move entry, a purge descriptor and a body is what Tables 1-2 to
1-12 lay out: a record is good exactly when its fields are in range, its lists stand one after another, each on 8 bytes, and the
first entry in body order that fails its check gives its index, 255 for a purge descriptor. -/
def Obligations.RecordsReadByTables : Prop :=
  (∀ d : BitVec 384, contextValid d = true ↔
    (byteAt d 0).toNat ≤ 63 ∧ (byteAt d 1).toNat ≤ 3 ∧ (halfAt d 2).toNat ≤ 255
      ∧ (longAt d 8 = 0 ∨ ((longAt d 8).toNat % 64 = 0 ∧ (longAt d 8).toNat < 2 ^ 40)))
  ∧ (∀ (d : BitVec 256) (h : Header), headerOf d = some h ↔
    (byteAt d 8 = 1 ∨ byteAt d 8 = 2) ∧ (byteAt d 9).toNat ≤ 1 ∧ (byteAt d 10).toNat ≤ 2 ∧ (byteAt d 11).toNat ≤ 4
      ∧ (byteAt d 12).toNat ≤ 8 ∧ (byteAt d 8 = 1 → (byteAt d 13).toNat ≤ 32) ∧ (byteAt d 8 = 2 → byteAt d 13 = 0)
      ∧ halfAt d 14 = 0
      ∧ h = ⟨longAt d 0, decide (byteAt d 8 = 2), decide (byteAt d 9 = 1), (byteAt d 10).toNat, (byteAt d 11).toNat,
          (byteAt d 12).toNat, (byteAt d 13).toNat⟩)
  ∧ (∀ h : Header, h.waits ≤ 2 → h.notifies ≤ 4 →
    h.notifyAt = (if h.waits = 0 then 0 else 8) ∧ h.preloadAt = h.notifyAt + (if h.notifies = 0 then 0 else 8)
      ∧ h.workAt = h.preloadAt + 8 * h.preloads ∧ h.bodyBytes = h.workAt + (if h.purge then 8 else 16 * h.moves))
  ∧ (∀ (x : BitVec 16) (k : SemId), semEntry x = some k ↔ x.toNat = k.val)
  ∧ (∀ (x : BitVec 64) (p : Preload), preloadEntry x = some p ↔
    (byteAt x 0).toNat = p.cursor.val ∧ byteAt x 1 = 0 ∧ halfAt x 2 = 0 ∧ wordAt x 4 = p.value)
  ∧ (∀ (e : BitVec 128) (m : Move), moveEntry e = some m ↔
    ((byteAt e 0).toNat = m.op.code ∧ (e.extractLsb' 8 4).toNat = m.src.size.code
      ∧ (e.extractLsb' 12 4).toNat = m.dst.size.code ∧ e.getLsbD 16 = m.signed ∧ e.getLsbD 17 = m.narrowChecked
      ∧ (e.extractLsb' 18 2).toNat = m.src.dir.code ∧ (e.extractLsb' 20 2).toNat = m.dst.dir.code
      ∧ e.extractLsb' 22 2 = 0)
    ∧ ((e.extractLsb' 24 2).toNat = m.src.form.code ∧ e.getLsbD 26 = m.src.update ∧ e.getLsbD 27 = false
      ∧ (e.extractLsb' 28 3).toNat = m.src.base.val ∧ e.getLsbD 31 = false)
    ∧ ((e.extractLsb' 32 2).toNat = m.dst.form.code ∧ e.getLsbD 34 = m.dst.update ∧ e.getLsbD 35 = false
      ∧ (e.extractLsb' 36 3).toNat = m.dst.base.val ∧ e.getLsbD 39 = false)
    ∧ ((e.extractLsb' 40 4).toNat = m.src.index.val ∧ (e.extractLsb' 44 4).toNat = m.dst.index.val
      ∧ halfAt e 6 = m.count ∧ halfAt e 8 = m.src.disp ∧ halfAt e 10 = m.dst.disp ∧ wordAt e 12 = m.imm)
    ∧ m.dst.form ≠ .immediate
    ∧ (m.src.form = .immediate → m.op = .fill ∧ m.src.size ≠ .b8 ∧ m.src.update = false)
    ∧ (m.op = .verify → m.src.size = m.dst.size))
  ∧ (∀ (x : BitVec 64) (d : PurgeDescriptor), purgeOf x = some d ↔
    (byteAt x 0).toNat = d.scope.code ∧ (d.scope ≠ .all → (byteAt x 1).toNat ≤ 63) ∧ halfAt x 2 = 0
      ∧ d.space = x.extractLsb' 8 6 ∧ d.va = wordAt x 4)
  ∧ (∀ (h : Header) (b : BitVec 4736) (t : Task), taskOf h b = .ok t ↔
    t.link = h.link ∧ t.pauseAfter = h.pauseAfter
      ∧ (t.waits.length = h.waits ∧ ∀ i k, t.waits[i]? = some k → semEntry (halfAt b (2 * i)) = some k)
      ∧ (t.notifies.length = h.notifies
        ∧ ∀ i k, t.notifies[i]? = some k → semEntry (halfAt b (h.notifyAt + 2 * i)) = some k)
      ∧ (t.preloads.length = h.preloads
        ∧ ∀ i p, t.preloads[i]? = some p → preloadEntry (longAt b (h.preloadAt + 8 * i)) = some p)
      ∧ match t.work with
        | .transfer l => h.purge = false ∧ l.length = h.moves
          ∧ ∀ i m, l[i]? = some m → moveEntry (b.extractLsb' (8 * (h.workAt + 16 * i)) 128) = some m
        | .purge d => h.purge = true ∧ purgeOf (longAt b h.workAt) = some d)
  ∧ ∀ (h : Header) (b : BitVec 4736) (i : Nat) (W N P M : Nat → Prop),
    (∀ j, W j ↔ semEntry (halfAt b (2 * j)) ≠ none) → (∀ j, N j ↔ semEntry (halfAt b (h.notifyAt + 2 * j)) ≠ none) →
    (∀ j, P j ↔ preloadEntry (longAt b (h.preloadAt + 8 * j)) ≠ none) →
    (∀ j, M j ↔ moveEntry (b.extractLsb' (8 * (h.workAt + 16 * j)) 128) ≠ none) →
    (taskOf h b = .error i ↔
      firstBad W h.waits i ∨ ((∀ j < h.waits, W j) ∧ (firstBad N h.notifies i ∨ ((∀ j < h.notifies, N j)
        ∧ (firstBad P h.preloads i ∨ ((∀ j < h.preloads, P j)
          ∧ ((h.purge = false ∧ firstBad M h.moves i)
            ∨ (h.purge = true ∧ purgeOf (longAt b h.workAt) = none ∧ i = 255))))))))

/-- What the part writes is what Tables 1-3, 1-7, 1-8, 1-9, 1-18 and 1-19 lay out: the status block of a DONE write and of a halt,
the save block of a stop or a halt, and the error record of an event, field by field. -/
def Obligations.ImagesWrittenByTables : Prop :=
  (∀ c : Channel,
    byteAt c.doneImage 0 = 2 ∧ byteAt c.doneImage 1 = 0
      ∧ byteAt c.doneImage 2 = BitVec.ofNat 8 (c.mismatch.map Prod.fst |>.getD 0)
      ∧ byteAt c.doneImage 3 = (if c.mismatch.isSome then 1 else 0)
      ∧ wordAt c.doneImage 4 = BitVec.ofNat 32 (c.mismatch.map Prod.snd |>.getD 0)
      ∧ wordAt c.doneImage 8 = BitVec.ofNat 32 c.performed ∧ wordAt c.doneImage 12 = 0)
  ∧ (∀ c : Channel,
    byteAt c.haltImage 0 = (if c.phase = .notify then 5 else 3)
      ∧ byteAt c.haltImage 1 = BitVec.ofNat 8 (c.fault.map FaultCode.code |>.getD 0)
      ∧ byteAt c.haltImage 2
        = (if c.phase = .prewait ∨ c.phase = .notify then BitVec.ofNat 8 c.listIndex
            else if c.phase = .move then BitVec.ofNat 8 c.moveIndex else 0)
      ∧ byteAt c.haltImage 3 = (if c.mismatch.isSome then 1 else 0)
      ∧ wordAt c.haltImage 4
        = (if c.phase = .move then
            BitVec.ofNat 32 (c.currentMove.map (fun m => m.total - c.remaining) |>.getD 0) else 0)
      ∧ wordAt c.haltImage 8 = BitVec.ofNat 32 c.performed
      ∧ wordAt c.haltImage 12 = (if c.phase = .move then c.faultVA else 0))
  ∧ (∀ (c : Channel) (st : ChState), st = .stopped ∨ st = .halted →
    byteAt (c.saveImage st) 0 = (if st = .stopped then 7 else 8)
      ∧ (byteAt (c.saveImage st) 1).toNat = c.phase.code
      ∧ byteAt (c.saveImage st) 2
        = (if st = .stopped then 0 else BitVec.ofNat 8 (c.fault.map FaultCode.code |>.getD 0))
      ∧ byteAt (c.saveImage st) 3
        = (if c.phase = .prewait ∨ c.phase = .notify then BitVec.ofNat 8 c.listIndex
            else if c.phase = .move then BitVec.ofNat 8 c.moveIndex
            else if c.phase = .fetch ∧ c.fault = some .format then BitVec.ofNat 8 c.listIndex else 0)
      ∧ wordAt (c.saveImage st) 4 = (if c.phase = .move then BitVec.ofNat 32 c.remaining else 0)
      ∧ longAt (c.saveImage st) 8 = (c.lastTask.getD 0).setWidth 64
      ∧ longAt (c.saveImage st) 16 = (c.current.getD 0).setWidth 64
      ∧ (∀ k : Fin 8, wordAt (c.saveImage st) (24 + 4 * k.val) = c.cursors[k])
      ∧ wordAt (c.saveImage st) 56 = (if c.phase = .move then c.srcEA else 0)
      ∧ wordAt (c.saveImage st) 60 = (if c.phase = .move then c.dstEA else 0))
  ∧ (∀ (e : ErrorEvent) (events : Word),
    (byteAt (errorImage e events) 0).toNat = e.code.code ∧ (byteAt (errorImage e events) 1).toNat = e.unit.code
      ∧ byteAt (errorImage e events) 2 = (match e.channel with | some n => BitVec.ofNat 8 n.val | none => 255)
      ∧ byteAt (errorImage e events) 3
        = (match e.resp with | .okay => 0 | .corrected => 1 | .uncorrectable => 2 | .error => 3)
      ∧ wordAt (errorImage e events) 4 = events ∧ longAt (errorImage e events) 8 = e.pa.setWidth 64
      ∧ ∀ i, 16 ≤ i → i < 64 → byteAt (errorImage e events) i = 0)
  ∧ [EventCode.readUncorrectable, .busError, .memWrite, .statusWrite, .saveWrite, .undoLost, .signalMemory, .tcParity,
      .memCorrected].map EventCode.code = [0x01, 0x02, 0x03, 0x04, 0x05, 0x06, 0x07, 0x10, 0x20]
  ∧ [EventUnit.fu, .su, .te, .tu, .lb].map EventUnit.code = [1, 2, 3, 4, 5]
  ∧ [FaultCode.contextError, .chainBroken, .staleRecord, .format, .fetchError, .semInvalid, .semOverflow, .semError, .moveForm,
      .alignment, .rangeLoss].map FaultCode.code = [0x01, 0x02, 0x03, 0x04, 0x05, 0x08, 0x09, 0x0A, 0x10, 0x11, 0x12]
  ∧ [FaultCode.regionAbsent, .segmentRange, .segmentAbsent, .pageRange, .pageAbsent, .access, .tableFormat, .walkError,
      .readError, .writeError, .statusWrite].map FaultCode.code
    = [0x18, 0x19, 0x1A, 0x1B, 0x1C, 0x1D, 0x1E, 0x1F, 0x20, 0x21, 0x28]
  ∧ [Phase.post, .fetch, .prewait, .move, .purge, .drain, .status, .notify].map Phase.code = [0, 1, 2, 3, 4, 5, 6, 7]
  ∧ [ChState.off, .postwait, .fetching, .prewait, .ready, .active, .finishing, .stopped, .halted].map ChState.code
    = [0, 1, 2, 3, 4, 5, 6, 7, 8]

/-- A good context is latched field by field, and with RUN 1 the posting wait is queued; an invalid one halts the channel with
CONTEXT_ERROR. -/
def Obligations.ContextAnswerLatchesFields : Prop :=
  ∀ (n : ChanId) (req : MpReq) (resp : Resp) (d : BitVec 384) (s : State), s.fuAwaits ⟨n, .context, req⟩ →
    goodData (req.answer resp) = true → s.suBusy n = false →
    ∃ t, exec (.contextReadAnswer resp d) s = .next t
      ∧ (contextValid d = true →
        (t.chan n).contextValid = true ∧ (t.chan n).space.toNat = (byteAt d 0).toNat
          ∧ (t.chan n).priority.val = (byteAt d 1).toNat ∧ (t.chan n).posting.val = (halfAt d 2).toNat
          ∧ (t.chan n).firstLink.toNat = (longAt d 8).toNat
          ∧ (∀ k : Fin 8, (t.chan n).cursors[k] = wordAt d (16 + 4 * k.val))
          ∧ (s.rp.run = true → (s.chan n).stopPending = false →
            (t.chan n).activity = .waiting ∧ SuReq.wait n (t.chan n).posting ∈ t.suRequests))
      ∧ (contextValid d = false →
        t.chan n = (s.chan n).halting .contextError 0 ∧ LbReq.drain n ∈ t.lbRequests)

/-- A good LINK is followed by the header read at its address; a bad one halts the channel with CHAIN_BROKEN. -/
def Obligations.LinkAnswerIsFollowed : Prop :=
  ∀ (n : ChanId) (req : MpReq) (resp : Resp) (d : BitVec 64) (s : State), s.fuAwaits ⟨n, .link, req⟩ →
    goodData (req.answer resp) = true →
    ∃ t, exec (.linkReadAnswer resp d) s = .next t
      ∧ (d ≠ 0 → d.toNat % 64 = 0 → d.toNat < 2 ^ 40 →
        t.chan n = { s.chan n with activity := .headerRead (d.setWidth 40) }
          ∧ (⟨n, .header, .read (d.setWidth 40) 32⟩ : FuJob) ∈ t.fuJobs)
      ∧ (d = 0 ∨ d.toNat % 64 ≠ 0 ∨ 2 ^ 40 ≤ d.toNat →
        t.chan n = (s.chan n).halting .chainBroken 0 ∧ LbReq.drain n ∈ t.lbRequests)

/-- A PENDING record with a good header has its body read, as many bytes as the header gives; a record not PENDING halts the
channel with STALE_RECORD, and a bad header with FORMAT and list index 255. -/
def Obligations.HeaderAnswerChecked : Prop :=
  ∀ (n : ChanId) (a : PAddr) (req : MpReq) (resp : Resp) (d : BitVec 256) (s : State), s.fuAwaits ⟨n, .header, req⟩ →
    goodData (req.answer resp) = true → (s.chan n).activity = .headerRead a →
    ∃ t, exec (.headerReadAnswer resp d) s = .next t
      ∧ (outcomePending d = false →
        t.chan n = (s.chan n).halting .staleRecord 0 ∧ LbReq.drain n ∈ t.lbRequests)
      ∧ (outcomePending d = true → headerOf d = none →
        t.chan n = { (s.chan n).halting .format 0 with listIndex := 255 } ∧ LbReq.drain n ∈ t.lbRequests)
      ∧ ∀ h, outcomePending d = true → headerOf d = some h → h.bodyBytes ≠ 0 →
        t.chan n = { s.chan n with activity := .bodyRead a d }
          ∧ (⟨n, .body, .read (a + 32) h.bodyBytes⟩ : FuJob) ∈ t.fuJobs

/-- A record whose every entry is good is copied and its acceptance write asked for; the first bad entry halts the channel with
FORMAT and its index. -/
def Obligations.BodyAnswerCopiesTask : Prop :=
  ∀ (n : ChanId) (a : PAddr) (hd : BitVec 256) (h : Header) (req : MpReq) (resp : Resp) (d : BitVec 4736) (s : State),
    s.fuAwaits ⟨n, .body, req⟩ → goodData (req.answer resp) = true → (s.chan n).activity = .bodyRead a hd →
    headerOf hd = some h →
    ∃ t, exec (.bodyReadAnswer resp d) s = .next t
      ∧ (∀ task, taskOf h d = .ok task →
        t.chan n = { s.chan n with task := some task, activity := .accepting a }
          ∧ (⟨n, .acceptance, .write (a + 16) 0xFFFF 1⟩ : FuJob) ∈ t.fuJobs)
      ∧ ∀ i, taskOf h d = .error i →
        t.chan n = { (s.chan n).halting .format 0 with listIndex := i } ∧ LbReq.drain n ∈ t.lbRequests

/-- An acceptance write answered OKAY makes the record the current and the last task, clears the task's counts and enters
PREWAIT, where with RUN 1 the first wait is queued; with no wait to make, a TRANSFER applies its preloads in list order and
enters READY with its first move prepared. Answered ERROR it halts the channel with STATUS_WRITE. -/
def Obligations.AcceptanceTakesRecord : Prop :=
  ∀ (n : ChanId) (a pa : PAddr) (strobes : BitVec 64) (image : BitVec 512) (s : State) (task : Task) (c : Channel),
    s.fuAwaits ⟨n, .acceptance, .write pa strobes image⟩ → (s.chan n).activity = .accepting a →
    (s.chan n).task = some task →
    c = { s.chan n with current := some a, lastTask := some a, performed := 0, mismatch := none, listIndex := 0 } →
    (∀ k rest, task.waits = k :: rest → s.rp.run = true → s.suBusy n = false → (s.chan n).stopPending = false →
      ∃ t, exec (.acceptanceWriteAnswer .okay) s = .next t
        ∧ t.chan n = { c with state := .prewait, phase := .prewait, activity := .waiting }
        ∧ SuReq.wait n k ∈ t.suRequests)
    ∧ (∀ m rest, task.waits = [] → task.work = .transfer (m :: rest) → (s.chan n).stopPending = false →
      (s.chan n).mark = false →
      ∃ t, exec (.acceptanceWriteAnswer .okay) s = .next t
        ∧ t.chan n = { c with
            state := .ready, phase := .move, activity := .ready, moveIndex := 0, remaining := m.total, srcEA := 0
            dstEA := 0, firstFlag := true, fillValue := none
            cursors := task.preloads.foldl (fun v p => v.set p.cursor.val p.value) (s.chan n).cursors })
    ∧ ∃ t, exec (.acceptanceWriteAnswer .error) s = .next t ∧ t.chan n = (s.chan n).halting .statusWrite 0
        ∧ LbReq.drain n ∈ t.lbRequests

/-- A DONE write answered OKAY goes on to the notifies, the first queued with RUN 1; a task with no notify then ends: its copy
and counts are cleared, LAST_TASK is kept and the posting wait of the next task is queued. A DONE rewrite answered OKAY ends the
task, with PAUSE_AFTER by the stop procedure in phase POST. Answered ERROR either halts the channel with STATUS_WRITE. -/
def Obligations.DoneAnswersGoOn : Prop :=
  ∀ (n : ChanId) (pa : PAddr) (strobes : BitVec 64) (image : BitVec 512) (s : State),
    (s.fuAwaits ⟨n, .done, .write pa strobes image⟩ → s.suBusy n = false → s.rp.run = true →
      (∀ k rest, (s.chan n).notifies = k :: rest →
        ∃ t, exec (.doneWriteAnswer .okay) s = .next t
          ∧ t.chan n = { s.chan n with phase := .notify, listIndex := 0, activity := .notifying }
          ∧ SuReq.notify n k ∈ t.suRequests)
      ∧ (∀ task, (s.chan n).task = some task → task.notifies = [] → task.pauseAfter = false →
        (s.chan n).stopPending = false → (s.chan n).resumedNotify = false →
        ∃ t, exec (.doneWriteAnswer .okay) s = .next t
          ∧ t.chan n = { (s.chan n).clearTask with
              state := .postwait, phase := .post, listIndex := 0, activity := .waiting }
          ∧ SuReq.wait n (s.chan n).posting ∈ t.suRequests))
    ∧ (s.fuAwaits ⟨n, .done, .write pa strobes image⟩ →
      ∃ t, exec (.doneWriteAnswer .error) s = .next t ∧ t.chan n = (s.chan n).halting .statusWrite 0
        ∧ LbReq.drain n ∈ t.lbRequests)
    ∧ (s.fuAwaits ⟨n, .doneRewrite, .write pa strobes image⟩ →
      (∀ task, (s.chan n).task = some task → task.pauseAfter = true →
        ∃ t, exec (.doneRewriteAnswer .okay) s = .next t
          ∧ t.chan n = { (s.chan n).clearTask with phase := .post, listIndex := 0, activity := .stopDrain }
          ∧ LbReq.drain n ∈ t.lbRequests)
      ∧ ∃ t, exec (.doneRewriteAnswer .error) s = .next t ∧ t.chan n = (s.chan n).halting .statusWrite 0
          ∧ LbReq.drain n ∈ t.lbRequests)

/-- After the halt's status write the save block is written, whatever the answer; after the save write the channel is HALTED
with its bit set, or STOPPED with its stop done, whatever the answer. -/
def Obligations.HaltAndSaveAnswersEndProcedures : Prop :=
  ∀ (n : ChanId) (req : MpReq) (resp : WriteResp) (s : State),
    (s.fuAwaits ⟨n, .haltStatus, req⟩ →
      ∃ t, exec (.haltStatusWriteAnswer resp) s = .next t ∧ t.chan n = { s.chan n with activity := .haltSave }
        ∧ (⟨n, .save, .write (s.contextAddr n + 64) (BitVec.allOnes 64) ((s.chan n).saveImage .halted)⟩ : FuJob)
          ∈ t.fuJobs)
    ∧ (s.fuAwaits ⟨n, .save, req⟩ → (s.chan n).activity = .haltSave →
      ∃ t, exec (.saveWriteAnswer resp) s = .next t
        ∧ t.chan n = { s.chan n with state := .halted, haltedBit := true, activity := .rest })
    ∧ (s.fuAwaits ⟨n, .save, req⟩ → (s.chan n).activity = .stopSave →
      ∃ t, exec (.saveWriteAnswer resp) s = .next t
        ∧ t.chan n = { s.chan n with state := .stopped, stopPending := false, mark := false, activity := .rest })

/-- After the SKIPPED write, whatever its answer, the task is abandoned and its next posting wait is queued with RUN 1;
LAST_TASK, the cursors and the latched context stay. -/
def Obligations.SkippedAnswerGoesToPosting : Prop :=
  ∀ (n : ChanId) (req : MpReq) (resp : WriteResp) (s : State), s.fuAwaits ⟨n, .skipped, req⟩ → s.suBusy n = false →
    s.rp.run = true → (s.chan n).stopPending = false →
    ∃ t, exec (.skippedWriteAnswer resp) s = .next t
      ∧ t.chan n = { s.chan n with
          current := none, task := none, moveIndex := 0, remaining := 0, srcEA := 0, dstEA := 0, firstFlag := false
          fillValue := none, performed := 0, mismatch := none, resumedNotify := false, haltedBit := false, fault := none
          faultVA := 0, state := .postwait, phase := .post, listIndex := 0, activity := .waiting }
      ∧ SuReq.wait n (s.chan n).posting ∈ t.suRequests

/-- A context, LINK, header or body read answered without good data halts the channel with FETCH_ERROR, all else of it kept. -/
def Obligations.FailedRecordReadsHalt : Prop :=
  ∀ (n : ChanId) (req : MpReq) (resp : Resp) (s : State), goodData (req.answer resp) = false →
    (s.fuAwaits ⟨n, .context, req⟩ → ∀ d,
      ∃ t, exec (.contextReadAnswer resp d) s = .next t ∧ t.chan n = (s.chan n).halting .fetchError 0
        ∧ LbReq.drain n ∈ t.lbRequests)
    ∧ (s.fuAwaits ⟨n, .link, req⟩ → ∀ d,
      ∃ t, exec (.linkReadAnswer resp d) s = .next t ∧ t.chan n = (s.chan n).halting .fetchError 0
        ∧ LbReq.drain n ∈ t.lbRequests)
    ∧ (∀ a, s.fuAwaits ⟨n, .header, req⟩ → (s.chan n).activity = .headerRead a → ∀ d,
      ∃ t, exec (.headerReadAnswer resp d) s = .next t ∧ t.chan n = (s.chan n).halting .fetchError 0
        ∧ LbReq.drain n ∈ t.lbRequests)
    ∧ (∀ a hd, s.fuAwaits ⟨n, .body, req⟩ → (s.chan n).activity = .bodyRead a hd → ∀ d,
      ∃ t, exec (.bodyReadAnswer resp d) s = .next t ∧ t.chan n = (s.chan n).halting .fetchError 0
        ∧ LbReq.drain n ∈ t.lbRequests)

/-- A failing or corrected answer to FU raises one event, with the code of Table 9-2, UNIT FU, the channel, the answer and the
address of the request; SB then holds it if its level reports it. An answer OKAY raises none. -/
def Obligations.FuEventsReachStatusBlock : Prop :=
  ∀ (j : FuJob) (resp r : Resp) (d : BitVec 4736) (s : State), s.fuAwaits j → r = j.req.answer resp →
    (∀ code, s.sb.level.toNat ≥ (if code = .memCorrected then 3 else 1) →
      ((j.kind = .context ∨ j.kind = .link ∨ j.kind = .header ∨ j.kind = .body)
        ∧ ((r = .corrected ∧ code = .memCorrected) ∨ (r = .uncorrectable ∧ code = .readUncorrectable)
          ∨ (r = .error ∧ code = .busError)))
        ∨ ((j.kind = .acceptance ∨ j.kind = .done ∨ j.kind = .doneRewrite ∨ j.kind = .haltStatus ∨ j.kind = .skipped)
          ∧ r = .error ∧ code = .statusWrite)
        ∨ (j.kind = .save ∧ r = .error ∧ code = .saveWrite) →
      ∃ t, fuAnswer j.kind resp d s = .next t ∧ t.sbHas ⟨code, .fu, some j.chan, r, j.req.addr⟩)
    ∧ (r = .okay →
      ∃ t, fuAnswer j.kind resp d s = .next t ∧ t.sb.queue = s.sb.queue ∧ t.sb.writing = s.sb.writing
        ∧ t.sb.counter = s.sb.counter)

/-- The answers to SU, TE and TU raise the events of Table 9-2, with UNIT, CHANNEL, RESPONSE and the address of the request, and SB
then holds each one that its level reports: MEM_CORRECTED, READ_UNCORRECTABLE or BUS_ERROR of a read, BUS_ERROR or MEM_WRITE of a
write; SIGNAL_MEMORY, with no channel, for either failure of a SIGNAL; UNDO_LOST for either failure of an undo for RESET, and for
one whose record is good to read and not to use. An answer OKAY to SU raises no other. -/
def Obligations.UnitEventsReachStatusBlock : Prop :=
  (∀ (o : SuOp) (req : MpReq) (ch : Option ChanId) (s : State), s.suAwaits o → s.mp.su = some req →
    ch = (match o.req with
      | .wait n _ => some n | .notify n _ => some n | .undoStop n => some n | .undoReset n => some n | .signal _ => none) →
    (∀ resp d code, o.record = none → s.sb.level.toNat ≥ (if code = .memCorrected then 3 else 1) →
      (resp = .corrected ∧ code = .memCorrected)
        ∨ ((resp = .uncorrectable ∨ resp = .error)
          ∧ code = (match o.req with
            | .signal _ => .signalMemory
            | .undoReset _ => .undoLost
            | _ => if resp = .error then .busError else .readUncorrectable))
        ∨ ((∃ n, o.req = .undoReset n) ∧ (∃ f, o.req.decide d = .error f) ∧ code = .undoLost
          ∧ (resp = .okay ∨ (resp = .corrected ∧ (s.sb.writing = none ∨ s.sb.level ≠ 3)))) →
      ∃ t, exec (readAnswerOf o.req resp d) s = .next t ∧ t.sbHas ⟨code, .su, ch, resp, req.addr⟩)
    ∧ (∀ d, o.record = none → ((∃ count, o.req.decide d = .ok count) ∨ ∀ n, o.req ≠ .undoReset n) →
      ∃ t, exec (readAnswerOf o.req .okay d) s = .next t ∧ t.sb.queue = s.sb.queue ∧ t.sb.writing = s.sb.writing
        ∧ t.sb.counter = s.sb.counter)
    ∧ (o.record ≠ none → 1 ≤ s.sb.level.toNat →
      ∃ t, exec (writeAnswerOf o.req .error) s = .next t
        ∧ t.sbHas
          ⟨(match o.req with | .signal _ => .signalMemory | .undoReset _ => .undoLost | _ => .busError), .su, ch, .error,
            req.addr⟩)
    ∧ (o.record ≠ none →
      ∃ t, exec (writeAnswerOf o.req .okay) s = .next t ∧ t.sb.queue = s.sb.queue ∧ t.sb.writing = s.sb.writing
        ∧ t.sb.counter = s.sb.counter))
  ∧ (∀ (n : ChanId) (m : Move) (req : MpReq) (s : State), s.teAwaits n m → s.mp.te = some req →
    (∀ a pa resp d code, s.te.step = .reading a pa → s.sb.level.toNat ≥ (if code = .memCorrected then 3 else 1) →
      (resp = .corrected ∧ code = .memCorrected) ∨ (resp = .uncorrectable ∧ code = .readUncorrectable)
        ∨ (resp = .error ∧ code = .busError) →
      ∃ t, exec (.elementReadAnswer resp d) s = .next t ∧ t.sbHas ⟨code, .te, some n, resp, req.addr⟩)
    ∧ ∀ v pa, s.te.step = .deviceWrite v pa → 1 ≤ s.sb.level.toNat →
      ∃ t, exec (.deviceWriteAnswer .error) s = .next t ∧ t.sbHas ⟨.memWrite, .te, some n, .error, req.addr⟩)
  ∧ ∀ (q : TuReq) (stage : TuStage) (req : MpReq) (s : State), s.tuAwaits q stage → s.mp.tu = some req →
    (∀ resp d code c, s.sb.level.toNat ≥ (if code = .memCorrected then 3 else 1) →
      (resp = .corrected ∧ code = .memCorrected) ∨ (resp = .uncorrectable ∧ code = .readUncorrectable)
        ∨ (resp = .error ∧ code = .busError) →
      (stage = .root ∧ c = .rootReadAnswer resp d) ∨ (stage = .descriptor ∧ c = .descriptorReadAnswer resp d)
        ∨ (stage = .pageEntry ∧ c = .pageEntryReadAnswer resp d) →
      ∃ t, exec c s = .next t ∧ t.sbHas ⟨code, .tu, some q.chan, resp, req.addr⟩)
    ∧ (stage = .flag → 1 ≤ s.sb.level.toNat →
      ∃ t, exec (.flagWriteAnswer .error) s = .next t ∧ t.sbHas ⟨.busError, .tu, some q.chan, .error, req.addr⟩)

/-- A channel command, and an answer to FU, leaves every other channel that nothing on its way reaches as it was, and keeps the
parked list, the alert list and every request at FU but the one answered. -/
def Obligations.OtherChannelsLeftAsTheyWere : Prop :=
  ∀ (n m : ChanId) (s : State), m ≠ n → s.leftAlone m →
    (∀ k : Command, ∃ t, exec (k.write n) s = .next t ∧ t.chan m = s.chan m ∧ t.rp.alerts = s.rp.alerts
      ∧ t.su.parked = s.su.parked ∧ ∀ j ∈ s.fuJobs, j ∈ t.fuJobs)
    ∧ ∀ j resp d, s.fuAwaits j → j.chan = n →
      ∃ t, fuAnswer j.kind resp d s = .next t ∧ t.chan m = s.chan m ∧ t.rp.alerts = s.rp.alerts
        ∧ t.su.parked = s.su.parked ∧ ∀ x ∈ s.fu.queue, x ∈ t.fuJobs

/-! ## The Semaphore Unit -/

/-- SU performs an operation exactly on a live record (LIVE 1, DISCIPLINE and ALERT 0 or 1) whose COUNT is in the range of the
operation: -15 to 32767 for a wait, -16 to 32766 for every other; it decides on no COUNT outside -16 to 32767. At 32767 a notify
or SIGNAL fails with SEM_OVERFLOW; every other failure is SEM_INVALID. (That a decided COUNT is what the write carries, and
that a request not performed is followed by no write, are statements of their own.) -/
def Obligations.CountStaysInRange : Prop :=
  ∀ (r : SuReq) (d : BitVec 48) (live isWait : Prop),
    (live ↔ byteAt d 0 = 1 ∧ (byteAt d 1 = 0 ∨ byteAt d 1 = 1) ∧ (byteAt d 2 = 0 ∨ byteAt d 2 = 1)) →
    (isWait ↔ ∃ n k, r = .wait n k) →
    semCount d = (halfAt d 4).toInt ∧ (semLifo d = true ↔ byteAt d 1 = 1) ∧ (semAlert d = true ↔ byteAt d 2 = 1)
    ∧ (∀ count, r.decide d = .ok count →
      -16 ≤ count.toInt ∧ count.toInt ≤ 32767
        ∧ (isWait → -15 ≤ semCount d ∧ count.toInt = semCount d - 1 ∧ count.toInt ≤ 32766)
        ∧ (¬isWait → semCount d ≤ 32766 ∧ count.toInt = semCount d + 1 ∧ -15 ≤ count.toInt))
    ∧ ((∃ count, r.decide d = .ok count) ↔
      live ∧ (isWait → -15 ≤ semCount d) ∧ (¬isWait → -16 ≤ semCount d ∧ semCount d ≤ 32766))
    ∧ (∀ f, r.decide d = .error f →
      (f = .overflow ↔ live ∧ semCount d = 32767 ∧ ((∃ n k, r = .notify n k) ∨ ∃ k, r = .signal k))
        ∧ (f = .invalid ↔ ¬(live ∧ semCount d = 32767 ∧ ((∃ n k, r = .notify n k) ∨ ∃ k, r = .signal k))))

/-- On a good read of a record that allows the operation SU writes LAST_NOTIFIER and COUNT, bytes 3 to 5 of record k at the anchor
plus 0x1000 + 8k: COUNT lowered by one for a wait and raised by one for every other request, LAST_NOTIFIER the channel's number
for a notify, 16 for a SIGNAL and the byte read for a wait or an undo. No channel and no parked entry changes. -/
def Obligations.SemaphoreReadIssuesWrite : Prop :=
  ∀ (o : SuOp) (resp : Resp) (d : BitVec 48) (count : BitVec 16) (last : Byte) (s : State), s.suAwaits o → o.record = none →
    goodData resp = true → o.req.decide d = .ok count →
    last = (match o.req with
      | .notify n _ => BitVec.ofNat 8 n.val
      | .signal _ => 16
      | .wait _ _ | .undoStop _ | .undoReset _ => byteAt d 3) →
    ∃ t, exec (readAnswerOf o.req resp d) s = .next t
      ∧ t.mp.su = some (.write (s.anchor + 0x1000 + BitVec.ofNat 40 (o.sem.val * 8) + 3) 7 (put 0 last ||| put 1 count))
      ∧ t.su.current = some { o with record := some d, newCount := count } ∧ t.su.parked = s.su.parked
      ∧ t.rp = s.rp ∧ ∀ n, t.chan n = s.chan n

/-- On a record read that fails, or that does not allow the operation, no record is written: a wait or notify halts its channel
with the fault, an undo for STOP refuses the STOP with SEMAPHORE_ERROR and leaves the channel parked, an undo for RESET lets the
reset go on to its drain, and a SIGNAL is refused with INVALID, OVERFLOW or MEMORY and leaves the slot. An undo for RESET whose read was CORRECTED raises two events; while the
first, reported, keeps SU's place at SB, the second is kept and the undo is not answered (R169). -/
def Obligations.SemaphoreReadNotPerformed : Prop :=
  ∀ (o : SuOp) (resp : Resp) (d : BitVec 48) (f : SuFailure) (s : State), s.suAwaits o → o.record = none →
    ((goodData resp = true ∧ o.req.decide d = .error f) ∨ (goodData resp = false ∧ f = .memory)) →
    (∀ n k, o.req = .wait n k → (s.chan n).reset = .off →
      ∃ t, exec (.waitReadAnswer resp d) s = .next t ∧ t.chan n = (s.chan n).halting f.fault 0
        ∧ LbReq.drain n ∈ t.lbRequests ∧ ∀ pa strobes data, t.mp.su ≠ some (.write pa strobes data))
    ∧ (∀ n k, o.req = .notify n k → (s.chan n).reset = .off →
      ∃ t, exec (.notifyReadAnswer resp d) s = .next t ∧ t.chan n = (s.chan n).halting f.fault 0
        ∧ LbReq.drain n ∈ t.lbRequests ∧ ∀ pa strobes data, t.mp.su ≠ some (.write pa strobes data))
    ∧ (∀ n, o.req = .undoStop n → (s.chan n).reset = .off →
      ∃ t, exec (.undoStopReadAnswer resp d) s = .next t ∧ t.chan n = { s.chan n with stopPending := false }
        ∧ t.su.parked = s.su.parked ∧ t.sb.refused = true ∧ t.rp.refuseReason = .semaphoreError
        ∧ ∀ pa strobes data, t.mp.su ≠ some (.write pa strobes data))
    ∧ (∀ n, o.req = .undoReset n → (s.chan n).reset = .undo →
      (resp = .corrected → s.sb.writing = none ∨ s.sb.level ≠ 3) →
      ∃ t, exec (.undoResetReadAnswer resp d) s = .next t ∧ t.chan n = { s.chan n with reset := .drain }
        ∧ LbReq.drain n ∈ t.lbRequests ∧ t.isParked n = false
        ∧ ∀ pa strobes data, t.mp.su ≠ some (.write pa strobes data))
    ∧ (∀ n req, o.req = .undoReset n → s.mp.su = some req → resp = .corrected → s.sb.writing ≠ none → s.sb.level = 3 →
      ∃ t, exec (.undoResetReadAnswer resp d) s = .next t ∧ t.chan n = s.chan n ∧ t.su.parked = s.su.parked
        ∧ t.su.current = some o ∧ t.su.held = [⟨.undoLost, .su, some n, .corrected, req.addr⟩] ∧ t.mp.su = none)
    ∧ (∀ k, o.req = .signal k →
      ∃ t, exec (.signalReadAnswer resp d) s = .next t ∧ t.rp.signalSlot = none ∧ t.sb.refused = true
        ∧ t.rp.refuseReason = (match f with | .invalid => .invalid | .overflow => .overflow | .memory => .memory)
        ∧ t.su.parked = s.su.parked ∧ t.rp.alerts = s.rp.alerts
        ∧ ∀ pa strobes data, t.mp.su ≠ some (.write pa strobes data))

/-- A wait whose write is answered OKAY succeeds on a new COUNT of 0 or more, and its channel goes on to its fetch or its next
wait; on a negative COUNT it parks the channel, newest in the list. Answered ERROR it halts the channel with SEM_ERROR. -/
def Obligations.WaitWriteSucceedsOrParks : Prop :=
  ∀ (n : ChanId) (k : SemId) (d : BitVec 48) (count : BitVec 16) (s : State), s.suAwaits ⟨.wait n k, k, some d, count⟩ →
    (s.chan n).reset = .off → (s.chan n).stopPending = false →
    (∀ a, 0 ≤ count.toInt → (s.chan n).phase = .post → s.rp.run = true → (s.chan n).lastTask = some a →
      ∃ t, exec (.waitWriteAnswer .okay) s = .next t
        ∧ t.chan n = { s.chan n with state := .fetching, phase := .fetch, listIndex := 0, activity := .linkRead }
        ∧ (⟨n, .link, .read a 8⟩ : FuJob) ∈ t.fuJobs ∧ t.su.parked = s.su.parked)
    ∧ (∀ k', 0 ≤ count.toInt → (s.chan n).phase = .prewait → s.rp.run = true →
      (s.chan n).waits[(s.chan n).listIndex + 1]? = some k' →
      ∃ t, exec (.waitWriteAnswer .okay) s = .next t
        ∧ t.chan n = { s.chan n with listIndex := (s.chan n).listIndex + 1, activity := .waiting }
        ∧ SuReq.wait n k' ∈ t.suRequests ∧ t.su.parked = s.su.parked)
    ∧ (count.toInt < 0 →
      ∃ t, exec (.waitWriteAnswer .okay) s = .next t ∧ t.chan n = { s.chan n with activity := .parked }
        ∧ t.su.parked = s.su.parked ++ [⟨n, k⟩])
    ∧ ∃ t, exec (.waitWriteAnswer .error) s = .next t ∧ t.chan n = (s.chan n).halting .semError 0
        ∧ t.su.parked = s.su.parked

/-- A notify or SIGNAL whose write is answered OKAY wakes, on a new COUNT at or below zero, the oldest (FIFO) or newest (LIFO)
channel parked on its semaphore, and no other; with ALERT 1 the number joins the alert list unless it is there or the list is
full. A notify then advances its list; a SIGNAL leaves RP's slot. Answered ERROR, neither wakes or alerts: the notify halts its
channel with SEM_ERROR, and the SIGNAL is refused with MEMORY and leaves the slot. -/
def Obligations.NotifyWakesAndAlerts : Prop :=
  ∀ (r : SuReq) (k : SemId) (d : BitVec 48) (count : BitVec 16) (s : State), s.suAwaits ⟨r, k, some d, count⟩ →
    (r = .signal k ∨ ∃ n, r = .notify n k) →
    (∃ t, exec (writeAnswerOf r .okay) s = .next t
      ∧ (count.toInt ≤ 0 → semLifo d = false → ∀ pre e post, s.su.parked = pre ++ e :: post → e.sem = k →
          (∀ x ∈ pre, x.sem ≠ k) → t.su.parked = pre ++ post)
      ∧ (count.toInt ≤ 0 → semLifo d = true → ∀ pre e post, s.su.parked = pre ++ e :: post → s.su.parked.Nodup →
          e.sem = k → (∀ x ∈ post, x.sem ≠ k) → t.su.parked = pre ++ post)
      ∧ (0 < count.toInt ∨ (∀ x ∈ s.su.parked, x.sem ≠ k) → t.su.parked = s.su.parked)
      ∧ (semAlert d = true → k ∉ s.rp.alerts → s.rp.alerts.length < 32 → t.rp.alerts = s.rp.alerts ++ [k])
      ∧ (semAlert d = false ∨ k ∈ s.rp.alerts ∨ 32 ≤ s.rp.alerts.length → t.rp.alerts = s.rp.alerts)
      ∧ (semAlert d = true → k ∉ s.rp.alerts → 32 ≤ s.rp.alerts.length → t.sb.alertLost = true)
      ∧ (r = .signal k → t.rp.signalSlot = none)
      ∧ ∀ n k', r = .notify n k → (s.chan n).reset = .off → s.rp.run = true → (∀ x ∈ s.su.parked, x.chan ≠ n) →
          (s.chan n).notifies[(s.chan n).listIndex + 1]? = some k' →
          t.chan n = { s.chan n with listIndex := (s.chan n).listIndex + 1, activity := .notifying }
            ∧ SuReq.notify n k' ∈ t.suRequests)
    ∧ (r = .signal k →
      ∃ t, exec (.signalWriteAnswer .error) s = .next t ∧ t.rp.signalSlot = none ∧ t.sb.refused = true
        ∧ t.rp.refuseReason = .memory ∧ t.su.parked = s.su.parked ∧ t.rp.alerts = s.rp.alerts)
    ∧ ∀ n, r = .notify n k → (s.chan n).reset = .off →
      ∃ t, exec (.notifyWriteAnswer .error) s = .next t ∧ t.chan n = (s.chan n).halting .semError 0
        ∧ LbReq.drain n ∈ t.lbRequests ∧ t.su.parked = s.su.parked ∧ t.rp.alerts = s.rp.alerts

/-- A wake, by a notify or a SIGNAL, is the success of the wait it ends, whatever RUN holds: a channel parked in its posting wait
goes on to FETCHING, and one parked in its wait list goes on past that entry, to its next wait, or past the last to its work,
with its preloads applied. Held by RUN 0 it stays before its next wait or its fetch. -/
def Obligations.WakeIsSuccessOfWait : Prop :=
  ∀ (r : SuReq) (m : ChanId) (k : SemId) (d : BitVec 48) (count : BitVec 16) (e : Parked) (s : State) (c : Channel),
    s.suAwaits ⟨r, k, some d, count⟩ → (r = .signal k ∨ ∃ n, r = .notify n k ∧ n ≠ m) → count.toInt ≤ 0 →
    chooseParked (semLifo d) k s.su.parked = some e → e.chan = m → (s.chan m).reset = .off → (s.chan m).stopPending = false →
    s.te.grant ≠ some m → (∀ r ∈ s.su.queue, r.chan ≠ some m) → c = s.chan m →
    ∃ t, exec (writeAnswerOf r .okay) s = .next t
      ∧ (c.phase = .post →
        (t.chan m).state = .fetching ∧ (t.chan m).phase = .fetch
          ∧ (s.rp.run = false →
            t.chan m = { c with state := .fetching, phase := .fetch, listIndex := 0, activity := .beforeFetch })
          ∧ ∀ a, s.rp.run = true → c.lastTask = some a →
            t.chan m = { c with state := .fetching, phase := .fetch, listIndex := 0, activity := .linkRead }
              ∧ (⟨m, .link, .read a 8⟩ : FuJob) ∈ t.fuJobs)
      ∧ (c.phase = .prewait →
        (∀ k', c.waits[c.listIndex + 1]? = some k' →
          (s.rp.run = false → t.chan m = { c with listIndex := c.listIndex + 1, activity := .beforeWait })
          ∧ (s.rp.run = true →
            t.chan m = { c with listIndex := c.listIndex + 1, activity := .waiting } ∧ SuReq.wait m k' ∈ t.suRequests))
        ∧ ∀ task, c.waits[c.listIndex + 1]? = none → c.task = some task → c.mark = false →
          (∀ x rest, task.work = .transfer (x :: rest) →
            t.chan m = { c with
              state := .ready, phase := .move, activity := .ready, listIndex := 0, moveIndex := 0, remaining := x.total
              srcEA := 0, dstEA := 0, firstFlag := true, fillValue := none
              cursors := task.preloads.foldl (fun v p => v.set p.cursor.val p.value) c.cursors })
          ∧ ∀ x, task.work = .purge x →
            t.chan m = { c with
              state := .ready, phase := .purge, activity := .ready, listIndex := 0
              cursors := task.preloads.foldl (fun v p => v.set p.cursor.val p.value) c.cursors })

/-- An undo for STOP whose write is answered OKAY takes the channel out of the parked list and begins the stop procedure; on
ERROR the STOP is refused with SEMAPHORE_ERROR and the channel stays parked. An undo for RESET takes it out and goes on to the drain, whatever the
answer. -/
def Obligations.UndoAnswersReleaseChannel : Prop :=
  ∀ (n : ChanId) (k : SemId) (d : BitVec 48) (count : BitVec 16) (resp : WriteResp) (s : State),
    (s.suAwaits ⟨.undoStop n, k, some d, count⟩ → (s.chan n).reset = .off →
      (∃ t, exec (.undoStopWriteAnswer .okay) s = .next t ∧ t.chan n = { s.chan n with activity := .stopDrain }
        ∧ LbReq.drain n ∈ t.lbRequests ∧ t.isParked n = false)
      ∧ ∃ t, exec (.undoStopWriteAnswer .error) s = .next t ∧ t.chan n = { s.chan n with stopPending := false }
        ∧ t.su.parked = s.su.parked ∧ t.sb.refused = true ∧ t.rp.refuseReason = .semaphoreError)
    ∧ (s.suAwaits ⟨.undoReset n, k, some d, count⟩ → (s.chan n).reset = .undo →
      ∃ t, exec (.undoResetWriteAnswer resp) s = .next t ∧ t.chan n = { s.chan n with reset := .drain }
        ∧ LbReq.drain n ∈ t.lbRequests ∧ t.isParked n = false)

/-! ## Grants and slices -/

/-- At a grant point TE grants an eligible channel of the highest priority, the first of them in order after ROTOR, sets ROTOR
to it and makes it ACTIVE. Its slice then runs until it waits for an answer, or ends within the step with an element performed or
a fault. With a RESET of the winner next, the channel stands ACTIVE before its first element boundary, and that RESET ends the
slice with no element performed; that the RESET next in the queue is the one taken there is the model's choice (log 32). -/
def Obligations.GrantGoesToWinner : Prop :=
  (∀ s : State, s.atGrantPoint = true →
    ∃ n t, exec .grantPoint s = .next t ∧ (s.chan n).eligible = true ∧ t.te.rotor = n
      ∧ (∀ m, (s.chan m).eligible = true →
        (s.chan m).priority ≤ (s.chan n).priority
          ∧ ((s.chan m).priority = (s.chan n).priority → (n - s.te.rotor - 1).val ≤ (m - s.te.rotor - 1).val))
      ∧ (s.quietUnits → (s.chan n).currentMove ≠ none → (s.chan n).phase = .move →
        (t.te.grant = some n ∧ (t.chan n).state = .active ∧ (t.chan n).activity = .slice)
          ∨ (t.te.grant = none ∧ ((s.chan n).performed < (t.chan n).performed ∨ (t.chan n).activity = .haltDrain)))
      ∧ (s.resetComes n = true → (s.chan n).phase = .move →
        t.te.grant = some n ∧ t.te.counter = 0 ∧ t.te.step = .boundary
          ∧ t.chan n = { s.chan n with state := .active, activity := .slice }))
  ∧ ∀ (n : ChanId) (s : State), s.te.grant = some n → s.te.step = .boundary → s.te.held = [] → s.takesWrites →
    s.rp.commandSlot = none → (s.chan n).reset = .off →
    ∃ t, exec (.reset n) s = .next t ∧ t.te.grant = none ∧ t.te.counter = 0
      ∧ t.chan n = { s.chan n with reset := .settling, state := .ready, activity := .ready }

/-- The grant of a channel in phase PURGE makes it ACTIVE, invalidates exactly the entries its descriptor matches (Table 7-5),
leaves every next-victim bit and sends LB a full drain. -/
def Obligations.PurgeGrantInvalidatesMatches : Prop :=
  ∀ (n : ChanId) (task : Task) (d : PurgeDescriptor) (s : State), s.atGrantPoint = true → s.winner = some n →
    s.isSettled → s.noneKept → (s.chan n).phase = .purge → (s.chan n).task = some task → task.work = .purge d →
    ∃ t, exec .grantPoint s = .next t ∧ t.te.grant = some n ∧ t.te.counter = 0 ∧ t.te.step = .purgeDrain
      ∧ t.chan n = { s.chan n with state := .active, activity := .slice } ∧ LbReq.engineDrain ∈ t.lbRequests
      ∧ ∀ i : Fin 32, t.tu.cache[i].victim = s.tu.cache[i].victim
        ∧ ∀ w, t.tu.cache[i].get w = { s.tu.cache[i].get w with
            valid := (s.tu.cache[i].get w).valid && !decide (d.scope = .all
              ∨ ((s.tu.cache[i].get w).space = d.space
                ∧ (d.scope = .space
                  ∨ ((s.tu.cache[i].get w).region = vaRegion d.va ∧ (s.tu.cache[i].get w).segment = vaSegment d.va
                    ∧ (d.scope = .segment ∨ (s.tu.cache[i].get w).page = vaPage d.va))))) }

/-- A slice of 16 elements ends with the grant free and the counter 0; its channel takes the write-error mark, then a pending
stop, and else stands READY again, all in the step that frees the grant (the model's choice, log 33). -/
def Obligations.SliceCountEndsSlice : Prop :=
  ∀ (n : ChanId) (s : State), s.te.grant = some n → s.te.step = .exhausted → (s.chan n).reset = .off →
    (s.chan n).phase = .move → s.fu.got = none → s.su.got = none → s.suBusy n = false →
    ∃ t, exec .sliceCountExhausted s = .next t ∧ t.te.grant = none ∧ t.te.counter = 0 ∧ t.te.rotor = s.te.rotor
      ∧ ((s.chan n).mark = true →
        t.chan n = (s.chan n).sliceFaulted .writeError 0 ∧ LbReq.drain n ∈ t.lbRequests)
      ∧ ((s.chan n).mark = false → (s.chan n).stopPending = true →
        t.chan n = { s.chan n with state := .ready, activity := .stopDrain } ∧ LbReq.drain n ∈ t.lbRequests)
      ∧ ((s.chan n).mark = false → (s.chan n).stopPending = false →
        t.chan n = { s.chan n with state := .ready, activity := .ready })

/-- A move begins in its first slice: the MOVE_FORM checks, then the effective addresses from the cursors, C0 reading as zero
where it is the base, then a FILL's value, and then element 0, whose addresses must be aligned, the source before the
destination. A fault ends the slice at the address of the side that faulted; with no fault TE asks for the translation of the
first access, which on a miss begins with the region root. Addresses step by the element size and wrap. -/
def Obligations.MovesBeginAtTheirAddresses : Prop :=
  (∀ (c : Channel) (d : Side),
    c.effectiveAddr d
      = match d.form with
        | .displaced => (if d.base = 0 then 0 else c.cursors[d.base]) + d.disp.signExtend 32
        | .indexed => (if d.base = 0 then 0 else c.cursors[d.base]) + c.cursors[d.index]
        | .immediate => 0)
  ∧ (∀ (d : Side) (va : VAddr),
    d.step va
      = match d.dir with
        | .inc => va + BitVec.ofNat 32 d.size.bytes
        | .dec => va - BitVec.ofNat 32 d.size.bytes
        | .hold => va)
  ∧ (∀ (z : Size) (va : VAddr), z.aligned va = true ↔ va.toNat % z.bytes = 0)
  ∧ [Size.b1, .b2, .b4, .b8].map Size.bytes = [1, 2, 4, 8]
  ∧ (∀ m : Move, m.badForm = true ↔
    (m.src.update = true ∧ m.src.base = 0) ∨ (m.dst.update = true ∧ m.dst.base = 0)
      ∨ (m.src.update = true ∧ m.dst.update = true ∧ m.src.base = m.dst.base))
  ∧ (∀ (n : ChanId) (m : Move) (s : State) (c b : Channel) (A B : VAddr), s.atGrantPoint = true → s.winner = some n →
    s.quietUnits → s.resetComes n = false → c = s.chan n → c.phase = .move → c.currentMove = some m → c.firstFlag = true →
    A = c.effectiveAddr m.src → B = c.effectiveAddr m.dst →
    b = { c with srcEA := A, dstEA := B, fillValue := none, firstFlag := false } →
    ∃ t, exec .grantPoint s = .next t
      ∧ (m.badForm = true → t.sliceFaults n c .moveForm 0)
      ∧ (m.badForm = false → m.op ≠ .fill →
        (m.src.size.aligned A = false → t.sliceFaults n b .alignment A)
        ∧ (m.src.size.aligned A = true → m.dst.size.aligned B = false → t.sliceFaults n b .alignment B)
        ∧ (m.src.size.aligned A = true → m.dst.size.aligned B = true → s.misses c.space A →
          s.walkBegun t n A false .source ∧ t.chan n = { b with state := .active, activity := .slice }))
      ∧ (m.badForm = false → m.op = .fill → m.src.form ≠ .immediate →
        (m.src.size.aligned A = false → t.sliceFaults n c .alignment A)
        ∧ (m.src.size.aligned A = true → s.misses c.space A →
          s.walkBegun t n A false .fillSource ∧ t.chan n = { c with state := .active, activity := .slice }))
      ∧ (m.badForm = false → m.op = .fill → m.src.form = .immediate →
        (m.convert (m.src.size.low (m.imm.setWidth 64)) = none → t.sliceFaults n c .rangeLoss B)
        ∧ ∀ w, m.convert (m.src.size.low (m.imm.setWidth 64)) = some w →
          (m.dst.size.aligned B = false → t.sliceFaults n { b with fillValue := some w } .alignment B)
          ∧ (m.dst.size.aligned B = true → s.misses c.space B →
            s.walkBegun t n B true (.writeDest w)
              ∧ t.chan n = { b with fillValue := some w, state := .active, activity := .slice })))
  ∧ ∀ (n : ChanId) (m : Move) (pa : PAddr) (resp : Resp) (d : BitVec 64) (s : State) (b : Channel) (A B : VAddr),
    s.teAwaits n m → s.te.step = .reading .fillSource pa → m.op = .fill → A = (s.chan n).effectiveAddr m.src →
    B = (s.chan n).effectiveAddr m.dst →
    b = { s.chan n with srcEA := A, dstEA := B, firstFlag := false } →
    ∃ t, exec (.elementReadAnswer resp d) s = .next t
      ∧ (goodData resp = false → t.sliceFaults n (s.chan n) .readError A)
      ∧ (goodData resp = true → m.convert (m.src.size.low d) = none → t.sliceFaults n (s.chan n) .rangeLoss B)
      ∧ ∀ w, goodData resp = true → m.convert (m.src.size.low d) = some w →
        (m.dst.size.aligned B = false → t.sliceFaults n { b with fillValue := some w } .alignment B)
        ∧ (m.dst.size.aligned B = true → s.misses (s.chan n).space B →
          s.walkBegun t n B true (.writeDest w) ∧ t.chan n = { b with fillValue := some w })

/-! ## Elements -/

/-- A source value is extended, kept or cut to the destination size (R91, R92); a checked narrowing gives no value exactly when the
number does not lie in the destination's range (R92). -/
def Obligations.ConversionFollowsSizes : Prop :=
  ∀ (signed checked : Bool) (src dst : Size) (v : BitVec 64), v.toNat < 2 ^ (8 * src.bytes) →
    (src.bytes = dst.bytes → convert signed checked src dst v = some v)
    ∧ (src.bytes < dst.bytes → convert false checked src dst v = some v)
    ∧ (src.bytes < dst.bytes →
      convert true checked src dst v
        = some (if v.getLsbD (8 * src.bytes - 1) then
            BitVec.ofNat 64 (2 ^ (8 * dst.bytes) - 2 ^ (8 * src.bytes) + v.toNat) else v))
    ∧ (dst.bytes < src.bytes → convert signed false src dst v = some (BitVec.ofNat 64 (v.toNat % 2 ^ (8 * dst.bytes))))
    ∧ (dst.bytes < src.bytes →
      convert false true src dst v = if v.toNat < 2 ^ (8 * dst.bytes) then some v else none)
    ∧ (dst.bytes < src.bytes → ∀ x : Int,
      x = (if v.getLsbD (8 * src.bytes - 1) then (v.toNat : Int) - 2 ^ (8 * src.bytes) else v.toNat) →
      convert true true src dst v
        = if -(2 ^ (8 * dst.bytes - 1)) ≤ x ∧ x ≤ 2 ^ (8 * dst.bytes - 1) - 1 then
            some (BitVec.ofNat 64 (v.toNat % 2 ^ (8 * dst.bytes))) else none)

/-- A COPY element whose source is read goes on to the translation of its destination; a value out of range ends the slice with
RANGE_LOSS at the destination address, and a failed read with READ_ERROR at the source address. A miss begins a walk with the
region root. A hit that refuses writes ends the slice with ACCESS; a hit whose page is not known modified begins the walk of a
dirty upgrade; any other hit is written by the entry's frame, to a device page after a full drain and to a normal page by the
line buffer. An entry that fails its parity is invalidated, raises TC_PARITY and is missed. -/
def Obligations.CopySourceReadGoesOn : Prop :=
  ∀ (n : ChanId) (m : Move) (pa : PAddr) (resp : Resp) (d : BitVec 64) (s : State) (c : Channel) (v : BitVec 64),
    s.teAwaits n m → s.te.step = .reading .source pa → m.op = .copy → v = m.src.size.low d → c = s.chan n →
    (goodData resp = true → m.convert v = none →
      ∃ t, exec (.elementReadAnswer resp d) s = .next t ∧ t.sliceFaults n c .rangeLoss c.dstEA)
    ∧ (goodData resp = false →
      ∃ t, exec (.elementReadAnswer resp d) s = .next t ∧ t.sliceFaults n c .readError c.srcEA)
    ∧ ∀ x, goodData resp = true → m.convert v = some x →
      (s.misses c.space c.dstEA →
        ∃ t, exec (.elementReadAnswer resp d) s = .next t ∧ s.walkBegun t n c.dstEA true (.writeDest x)
          ∧ t.tu.upgrade = none ∧ t.chan n = c ∧ t.tu.cache = s.tu.cache)
      ∧ (∀ w e, s.finds c.space c.dstEA w e → e.parityOk = true →
        (e.access.allows true = false →
          ∃ t, exec (.elementReadAnswer resp d) s = .next t ∧ t.sliceFaults n c .access c.dstEA
            ∧ t.tu.cache = s.tu.cache)
        ∧ (e.access.allows true = true → e.modifiedKnown = false →
          ∃ t, exec (.elementReadAnswer resp d) s = .next t ∧ s.walkBegun t n c.dstEA true (.writeDest x)
            ∧ t.tu.upgrade = some w ∧ t.chan n = c ∧ t.tu.cache = s.tu.cache)
        ∧ (e.access.allows true = true → e.modifiedKnown = true →
          s.waitsAfter n m (.writeDest x) (e.frame ++ c.dstEA.extractLsb' 0 12) e.device →
          ∃ t, exec (.elementReadAnswer resp d) s = .next t ∧ t.tu.req = none ∧ t.tu.cache = s.tu.cache
            ∧ s.goesOnWith t n m (.writeDest x) (e.frame ++ c.dstEA.extractLsb' 0 12) e.device))
      ∧ ∀ w e, s.finds c.space c.dstEA w e → e.parityOk = false → s.hasRoom .tu →
        ∃ t, exec (.elementReadAnswer resp d) s = .next t ∧ s.walkBegun t n c.dstEA true (.writeDest x)
          ∧ t.chan n = c
          ∧ t.tu.cache = s.tu.cache.set (setIndex (vaSegment c.dstEA) (vaPage c.dstEA))
              ((s.tu.cache[setIndex (vaSegment c.dstEA) (vaPage c.dstEA)]).put w { e with valid := false })
          ∧ (2 ≤ s.sb.level.toNat → t.sbHas ⟨.tcParity, .tu, some n, .okay, 0⟩)

/-- The first unequal element of a VERIFY completes its move: it counts as performed, the first mismatch of the task is
recorded, the cursors marked UPDATE take the addresses of that element, and the next move is prepared. -/
def Obligations.VerifyMismatchCompletesMove : Prop :=
  ∀ (n : ChanId) (m m' : Move) (w : BitVec 64) (pa : PAddr) (resp : Resp) (d : BitVec 64) (s : State), s.teAwaits n m →
    s.te.step = .reading (.verifyDest w) pa → m.op = .verify → goodData resp = true → w ≠ m.dst.size.low d →
    (s.chan n).moves[(s.chan n).moveIndex + 1]? = some m' → (s.chan n).stopPending = false → (s.chan n).mark = false →
    (s.chan n).phase = .move →
    ∃ t, exec (.elementReadAnswer resp d) s = .next t ∧ t.te.grant = none
      ∧ t.chan n = { s.chan n with
          state := .ready, activity := .ready, performed := (s.chan n).performed + 1
          mismatch :=
            if (s.chan n).mismatch.isNone then
              some ((s.chan n).moveIndex, m.total - (s.chan n).remaining) else (s.chan n).mismatch
          cursors :=
            let v := if m.src.update then (s.chan n).cursors.set m.src.base.val (s.chan n).srcEA else (s.chan n).cursors
            if m.dst.update then v.set m.dst.base.val (s.chan n).dstEA else v
          moveIndex := (s.chan n).moveIndex + 1, remaining := m'.total, srcEA := 0, dstEA := 0, firstFlag := true
          fillValue := none }

/-- A device write answered OKAY performs its element: REMAINING falls by one, the performed count rises by one and the addresses
step. The last element of the last move ends the slice and enters FINISHING with its drain; any other leaves the move in
progress, and the 16th of the slice leaves TE at the slice's end. Answered ERROR it ends the slice with WRITE_ERROR at the
destination address, the element not performed. -/
def Obligations.DeviceWriteAnswerEndsElement : Prop :=
  ∀ (n : ChanId) (m : Move) (v : BitVec 64) (pa : PAddr) (s : State), s.teAwaits n m → s.te.step = .deviceWrite v pa →
    ((s.chan n).atLastElement →
      ∃ t, exec (.deviceWriteAnswer .okay) s = .next t ∧ t.te.grant = none ∧ (t.chan n).state = .finishing
        ∧ (t.chan n).phase = .drain ∧ (t.chan n).performed = (s.chan n).performed + 1
        ∧ (t.chan n).activity = .finishDrain ∧ LbReq.drain n ∈ t.lbRequests)
    ∧ (2 ≤ (s.chan n).remaining → s.te.counter < 15 → m.op ≠ .fill → (s.chan n).firstFlag = false →
      ∃ t, exec (.deviceWriteAnswer .okay) s = .next t ∧ (t.chan n).performed = (s.chan n).performed + 1
        ∧ (t.chan n).remaining = (s.chan n).remaining - 1 ∧ (t.chan n).srcEA = m.src.step (s.chan n).srcEA
        ∧ (t.chan n).dstEA = m.dst.step (s.chan n).dstEA ∧ (t.chan n).moveIndex = (s.chan n).moveIndex
        ∧ (t.chan n).cursors = (s.chan n).cursors ∧ (t.chan n).mismatch = (s.chan n).mismatch)
    ∧ (2 ≤ (s.chan n).remaining → s.te.counter = 15 →
      ∃ t, exec (.deviceWriteAnswer .okay) s = .next t ∧ t.te.grant = some n ∧ t.te.step = .exhausted ∧ t.te.counter = 16
        ∧ t.chan n = { s.chan n with
            performed := (s.chan n).performed + 1, remaining := (s.chan n).remaining - 1
            srcEA := if m.op = .fill then (s.chan n).srcEA else m.src.step (s.chan n).srcEA
            dstEA := m.dst.step (s.chan n).dstEA })
    ∧ ∃ t, exec (.deviceWriteAnswer .error) s = .next t ∧ t.sliceFaults n (s.chan n) .writeError (s.chan n).dstEA

/-! ## Translation -/

/-- A good root of KIND TABLE leads to the descriptor of the segment, a present descriptor to the entry of the page, and a
resident entry whose flags are behind to the write of its byte 1; the cache, the channels and TE stay as they are. -/
def Obligations.WalkStepsAskForNextEntry : Prop :=
  ∀ (q : TuReq) (resp : Resp) (d : BitVec 64) (s : State), goodData resp = true →
    (s.tuAwaits q .root → byteAt d 0 = 1 → (halfAt d 2).toNat ≤ 1023 → (wordAt d 4).extractLsb' 0 5 = 0 →
      (vaSegment q.va).toNat ≤ (halfAt d 2).toNat →
      ∃ t, exec (.rootReadAnswer resp d) s = .next t ∧ t.tu.stage = .descriptor ∧ t.tu.cache = s.tu.cache
        ∧ t.mp.tu = some (.read (wordAt d 4 ++ (0 : BitVec 8) + BitVec.ofNat 40 ((vaSegment q.va).toNat * 8)) 8)
        ∧ (∀ n, t.chan n = s.chan n) ∧ t.te = s.te)
    ∧ (s.tuAwaits q .descriptor → (byteAt d 0).getLsbD 0 = true → accessOf ((byteAt d 1).extractLsb' 0 3) ≠ none →
      (wordAt d 4).extractLsb' 0 3 = 0 → (vaPage q.va).toNat ≤ (byteAt d 2).toNat →
      ∃ t, exec (.descriptorReadAnswer resp d) s = .next t ∧ t.tu.stage = .pageEntry ∧ t.tu.cache = s.tu.cache
        ∧ t.mp.tu = some (.read (wordAt d 4 ++ (0 : BitVec 8) + BitVec.ofNat 40 ((vaPage q.va).toNat * 8)) 8)
        ∧ (∀ n, t.chan n = s.chan n) ∧ t.te = s.te)
    ∧ ∀ x code, s.tuAwaits q .pageEntry → s.tu.descriptor = some x →
      accessOf ((byteAt x 1).extractLsb' 0 3) = some code → code.allows q.isWrite = true →
      (byteAt d 0).getLsbD 0 = true →
      ((byteAt d 1).getLsbD 0 = false ∨ (q.isWrite = true ∧ (byteAt d 1).getLsbD 1 = false)) →
      ∃ t, exec (.pageEntryReadAnswer resp d) s = .next t ∧ t.tu.stage = .flag ∧ t.tu.cache = s.tu.cache
        ∧ t.mp.tu = some (.write (wordAt x 4 ++ (0 : BitVec 8) + BitVec.ofNat 40 ((vaPage q.va).toNat * 8) + 1) 1
            (put 0 (if q.isWrite = true ∨ (byteAt d 1).getLsbD 1 = true then (3 : Byte) else 1)))
        ∧ (∀ n, t.chan n = s.chan n) ∧ t.te = s.te

/-- A walk that succeeds fills the cache, or refills the way of a dirty upgrade in place, and answers TE, which goes on with its
access: on the page entry when no flag write is needed, on the flag write answered OKAY, and on a DIRECT root, whose base plus the
low 30 bits of the address is the translation and whose entry is marked modified. The entry holds the key of the request, the
frame, the access code and whether it is a device code, and MODIFIED_KNOWN for a write or a page found modified. The codes and
what they allow are those of Tables 1-17 and 6-5. -/
def Obligations.WalkFillsCacheAndGoesOn : Prop :=
  [0, 1, 2, 3, 4, 5, 6, 7].map accessOf
      = [some .none, some .read, some .readWrite, none, none, some .deviceRead, some .deviceReadWrite, none]
  ∧ (∀ (c : AccessCode) (isWrite : Bool), c.allows isWrite = true ↔
    c = .readWrite ∨ c = .deviceReadWrite ∨ (isWrite = false ∧ (c = .read ∨ c = .deviceRead)))
  ∧ ∀ (q : TuReq) (m : Move) (a : Access) (x entry : BitVec 64) (code : AccessCode) (pa : PAddr) (resp : Resp) (s : State)
    (dev : Bool) (entryOf : PAddr → Bool → Bool → CacheEntry),
    pa = entry.extractLsb' 32 28 ++ q.va.extractLsb' 0 12 → goodData resp = true →
    dev = decide (code = .deviceRead ∨ code = .deviceReadWrite) →
    (∀ at' modified direct, entryOf at' modified direct =
      { valid := true, space := q.space, region := q.va.extractLsb' 30 2, segment := q.va.extractLsb' 20 10
        page := q.va.extractLsb' 12 8, frame := at'.extractLsb' 12 28, access := code, modifiedKnown := modified
        device := dev, direct := direct, parityOk := true }) →
    (s.tu.descriptor = some x → accessOf ((byteAt x 1).extractLsb' 0 3) = some code →
      s.waitsAfter q.chan m a pa dev →
      (s.walkAwaits q .pageEntry m a → code.allows q.isWrite = true → (byteAt entry 0).getLsbD 0 = true →
        (byteAt entry 1).getLsbD 0 = true → (q.isWrite = false ∨ (byteAt entry 1).getLsbD 1 = true) →
        ∃ t, exec (.pageEntryReadAnswer resp entry) s = .next t ∧ t.tu.req = none
          ∧ t.tu.cache = s.filledCache q (entryOf pa (q.isWrite || (byteAt entry 1).getLsbD 1) false)
          ∧ s.goesOnWith t q.chan m a pa dev)
      ∧ (s.walkAwaits q .flag m a → s.tu.pageEntry = some entry →
        ∃ t, exec (.flagWriteAnswer .okay) s = .next t ∧ t.tu.req = none
          ∧ t.tu.cache = s.filledCache q (entryOf pa (q.isWrite || (byteAt entry 1).getLsbD 1) false)
          ∧ s.goesOnWith t q.chan m a pa dev))
    ∧ ∀ d direct, s.walkAwaits q .root m a → byteAt d 0 = 2 → (wordAt d 4).extractLsb' 0 22 = 0 →
      accessOf ((byteAt d 1).extractLsb' 0 3) = some code → code.allows q.isWrite = true →
      direct = (wordAt d 4 ++ (0 : BitVec 8)) + (q.va.extractLsb' 0 30).setWidth 40 →
      s.waitsAfter q.chan m a direct dev →
      ∃ t, exec (.rootReadAnswer resp d) s = .next t ∧ t.tu.req = none
        ∧ t.tu.cache = s.filledCache q (entryOf direct true true)
        ∧ s.goesOnWith t q.chan m a direct dev

/-- A walk that finds the region, segment or page absent or out of range, a table entry of a bad format, or a code that refuses
the access, or whose read or flag write fails, fills nothing, invalidates the entry of a dirty upgrade, and ends the slice with
the fault at the address of the access. Codes 3, 4 and 7 are bad; 0 refuses every access, and 1 and 5 refuse writes. -/
def Obligations.WalkFaultEndsSlice : Prop :=
  ∀ (q : TuReq) (m : Move) (a : Access) (resp : Resp) (d : BitVec 64) (va : VAddr) (s : State) (bad refused : BitVec 64 → Prop),
    va = a.va m (s.chan q.chan) →
    (∀ x, bad x ↔ (byteAt x 1).extractLsb' 0 3 = 3 ∨ (byteAt x 1).extractLsb' 0 3 = 4 ∨ (byteAt x 1).extractLsb' 0 3 = 7) →
    (∀ x, refused x ↔ (byteAt x 1).extractLsb' 0 3 = 0
      ∨ (q.isWrite = true ∧ ((byteAt x 1).extractLsb' 0 3 = 1 ∨ (byteAt x 1).extractLsb' 0 3 = 5))) →
    (s.walkAwaits q .root m a → ∀ code,
      (goodData resp = false ∧ code = .walkError)
        ∨ (goodData resp = true
          ∧ ((byteAt d 0 = 0 ∧ code = .regionAbsent)
            ∨ (3 ≤ (byteAt d 0).toNat ∧ code = .tableFormat)
            ∨ (byteAt d 0 = 1 ∧ (1023 < (halfAt d 2).toNat ∨ (wordAt d 4).extractLsb' 0 5 ≠ 0) ∧ code = .tableFormat)
            ∨ (byteAt d 0 = 1 ∧ (halfAt d 2).toNat ≤ 1023 ∧ (wordAt d 4).extractLsb' 0 5 = 0
              ∧ (halfAt d 2).toNat < (vaSegment q.va).toNat ∧ code = .segmentRange)
            ∨ (byteAt d 0 = 2 ∧ (bad d ∨ (wordAt d 4).extractLsb' 0 22 ≠ 0) ∧ code = .tableFormat)
            ∨ (byteAt d 0 = 2 ∧ (wordAt d 4).extractLsb' 0 22 = 0 ∧ refused d ∧ code = .access))) →
      ∃ t, exec (.rootReadAnswer resp d) s = .next t ∧ t.tu.cache = s.faultedCache q
        ∧ t.sliceFaults q.chan (s.chan q.chan) code va)
    ∧ (s.walkAwaits q .descriptor m a → ∀ code,
      (goodData resp = false ∧ code = .walkError)
        ∨ (goodData resp = true
          ∧ (((byteAt d 0).getLsbD 0 = false ∧ code = .segmentAbsent)
            ∨ ((byteAt d 0).getLsbD 0 = true ∧ (bad d ∨ (wordAt d 4).extractLsb' 0 3 ≠ 0) ∧ code = .tableFormat)
            ∨ ((byteAt d 0).getLsbD 0 = true ∧ ¬bad d ∧ (wordAt d 4).extractLsb' 0 3 = 0
              ∧ (byteAt d 2).toNat < (vaPage q.va).toNat ∧ code = .pageRange))) →
      ∃ t, exec (.descriptorReadAnswer resp d) s = .next t ∧ t.tu.cache = s.faultedCache q
        ∧ t.sliceFaults q.chan (s.chan q.chan) code va)
    ∧ (s.walkAwaits q .pageEntry m a → ∀ code,
      (goodData resp = false ∧ code = .walkError)
        ∨ (goodData resp = true
          ∧ (((byteAt d 0).getLsbD 0 = false ∧ code = .pageAbsent)
            ∨ ∃ x, (byteAt d 0).getLsbD 0 = true ∧ s.tu.descriptor = some x ∧ refused x ∧ code = .access)) →
      ∃ t, exec (.pageEntryReadAnswer resp d) s = .next t ∧ t.tu.cache = s.faultedCache q
        ∧ t.sliceFaults q.chan (s.chan q.chan) code va)
    ∧ (s.walkAwaits q .flag m a →
      ∃ t, exec (.flagWriteAnswer .error) s = .next t ∧ t.tu.cache = s.faultedCache q
        ∧ t.sliceFaults q.chan (s.chan q.chan) .walkError va)

/-- A fill takes an invalid way, way 0 first, and leaves the next-victim bit; with both ways valid it replaces the way the bit
names, and the bit then names the other. -/
def Obligations.CacheFillOrder : Prop :=
  ∀ (c : CacheSet) (e : CacheEntry),
    (c.way0.valid = false → c.fill e = { c with way0 := e })
    ∧ (c.way0.valid = true → c.way1.valid = false → c.fill e = { c with way1 := e })
    ∧ (c.way0.valid = true → c.way1.valid = true → c.victim = .way0 → c.fill e = { c with way0 := e, victim := .way1 })
    ∧ (c.way0.valid = true → c.way1.valid = true → c.victim = .way1 → c.fill e = { c with way1 := e, victim := .way0 })

/-! ## The line buffer -/

/-- An element write enters the entry of its line, which keeps its place, or a new entry at the tail while fewer than eight are
held; its bytes and their MASK bits are those of the element and the channel joins CHANNELS. With eight held the oldest is written
out first, LB issuing that write-out when TE sends the element, and the new entry is appended whatever the answer. A line check
issues the write-out of the line of a read, which follows whatever the answer, or at once where no entry holds the line. -/
def Obligations.ElementWritesGatherInLines : Prop :=
  (∀ (l : List LineEntry) (pa : PAddr) (z : Size) (v : BitVec 64) (n : ChanId),
    (∀ pre e post, l = pre ++ e :: post → e.line = pa.extractLsb' 6 34 → (∀ x ∈ pre ++ post, x.line ≠ e.line) →
      placeElement l pa z v n = some (pre ++ e.merge pa z v n :: post))
    ∧ ((∀ x ∈ l, x.line ≠ pa.extractLsb' 6 34) → l.length < 8 →
      placeElement l pa z v n = some (l ++ [LineEntry.fresh pa z v n]))
    ∧ ((∀ x ∈ l, x.line ≠ pa.extractLsb' 6 34) → 8 ≤ l.length → placeElement l pa z v n = none))
  ∧ (∀ (e : LineEntry) (pa : PAddr) (z : Size) (v : BitVec 64) (n : ChanId) (off : Nat), off = pa.toNat % 64 →
    pa.toNat % z.bytes = 0 →
    (e.merge pa z v n).line = e.line
      ∧ (e.merge pa z v n).chans = (if n ∈ e.chans then e.chans else e.chans ++ [n])
      ∧ (LineEntry.fresh pa z v n).line = pa.extractLsb' 6 34 ∧ (LineEntry.fresh pa z v n).chans = [n]
      ∧ ∀ i < 64,
        (e.merge pa z v n).mask.getLsbD i = (e.mask.getLsbD i || decide (off ≤ i ∧ i < off + z.bytes))
        ∧ byteAt (e.merge pa z v n).data i = (if off ≤ i ∧ i < off + z.bytes then byteAt v (i - off) else byteAt e.data i)
        ∧ (LineEntry.fresh pa z v n).mask.getLsbD i = decide (off ≤ i ∧ i < off + z.bytes)
        ∧ byteAt (LineEntry.fresh pa z v n).data i = (if off ≤ i ∧ i < off + z.bytes then byteAt v (i - off) else 0))
  ∧ (∀ (n : ChanId) (m : Move) (src pa : PAddr) (resp : Resp) (d v : BitVec 64) (w : Way) (x : CacheEntry) (s : State),
    s.teAwaits n m → s.te.step = .reading .source src → goodData resp = true → v = m.src.size.low d → s.lbIdle →
    s.finds (s.chan n).space (s.chan n).dstEA w x → x.parityOk = true → pa = x.frame ++ (s.chan n).dstEA.extractLsb' 0 12 →
    (∀ y e rest, m.op = .copy → m.convert v = some y → x.access.allows true = true → x.modifiedKnown = true →
      x.device = false → s.lb.entries = e :: rest → rest.length = 7 → (∀ z ∈ e :: rest, z.line ≠ pa.extractLsb' 6 34) →
      ∃ t, exec (.elementReadAnswer resp d) s = .next t ∧ t.te.step = .placing y pa
        ∧ t.lb.current = some (.write pa m.dst.size y n) ∧ t.lb.writing = some e.line
        ∧ t.mp.lb = some (.write (e.line ++ (0 : BitVec 6)) e.mask e.data) ∧ t.lb.entries = s.lb.entries)
    ∧ (m.op = .verify → x.access.allows false = true →
      ∃ t, exec (.elementReadAnswer resp d) s = .next t ∧ t.lb.entries = s.lb.entries ∧ t.chan n = s.chan n
        ∧ (∀ e, s.lb.entries.find? (·.line == pa.extractLsb' 6 34) = some e →
          t.te.step = .lineCheck (.verifyDest v) pa ∧ t.lb.current = some (.check pa) ∧ t.lb.writing = some e.line
            ∧ t.mp.lb = some (.write (e.line ++ (0 : BitVec 6)) e.mask e.data))
        ∧ ((∀ e ∈ s.lb.entries, e.line ≠ pa.extractLsb' 6 34) →
          t.te.step = .reading (.verifyDest v) pa ∧ t.mp.te = some (.read pa m.dst.size.bytes))))
  ∧ (∀ (n : ChanId) (m : Move) (v : BitVec 64) (pa : PAddr) (e : LineEntry) (rest : List LineEntry) (s : State),
    s.quietUnits → s.noEngineQueued → s.te.grant = some n → s.te.step = .placing v pa →
    (s.chan n).currentMove = some m → m.op ≠ .fill → s.lb.current = some (.write pa m.dst.size v n) →
    s.lb.writing = some e.line → s.mp.lb.isSome = true → s.lb.entries = e :: rest → rest.length = 7 →
    (∀ x ∈ rest, x.line ≠ e.line) → (∀ x ∈ e :: rest, x.line ≠ pa.extractLsb' 6 34) →
    (∃ t, exec (.lineWriteOutAnswer .okay) s = .next t ∧ t.lb.entries = rest ++ [LineEntry.fresh pa m.dst.size v n]
      ∧ (t.chan n).performed = (s.chan n).performed + 1)
    ∧ (s.hasRoom .lb →
      ∃ t, exec (.lineWriteOutAnswer .error) s = .next t ∧ t.lb.entries = rest ++ [LineEntry.fresh pa m.dst.size v n]
        ∧ (t.chan n).performed = (s.chan n).performed + 1))
  ∧ ∀ (n : ChanId) (m : Move) (a : Access) (pa : PAddr) (resp : WriteResp) (s : State), s.quietUnits → s.noEngineQueued →
    s.te.grant = some n → s.te.step = .lineCheck a pa → (s.chan n).currentMove = some m →
    s.lb.current = some (.check pa) → s.lb.writing = some (pa.extractLsb' 6 34) → s.mp.lb.isSome = true →
    s.hasRoom .lb →
    ∃ t, exec (.lineWriteOutAnswer resp) s = .next t ∧ t.te.step = .reading a pa
      ∧ t.mp.te = some (.read pa (a.size m).bytes)
      ∧ t.lb.entries = s.lb.entries.filter (·.line != pa.extractLsb' 6 34)

/-- In a drain the line written out leaves LB whatever the answer, every other line standing as it was, and LB writes out the
next: the oldest, or the oldest that names the drain's channel. On ERROR every channel the line names is marked, whatever it is
doing, but for one that is OFF or in its halt procedure (the model's reading, log 16); a READY one halts at once with WRITE_ERROR,
in phase PURGE too (log 28); and SB holds the MEM_WRITE
event if its level reports it. -/
def Obligations.LineWriteOutAnswered : Prop :=
  ∀ (l : Line) (req : MpReq) (r : LbReq) (s : State), s.lb.writing = some l → s.mp.lb = some req →
    s.lb.current = some r → (r = .engineDrain ∨ r = .softDrain ∨ ∃ n, r = .drain n) →
    (∃ t, exec (.lineWriteOutAnswer .okay) s = .next t ∧ t.lb.entries = s.lb.entries.filter (·.line != l)
      ∧ (∀ n, s.leftAlone n → t.chan n = s.chan n)
      ∧ (s.lb.held = [] → ∀ e, (∀ n, r = .drain n → (s.lb.entries.filter (·.line != l)).find? (·.chans.contains n) = some e) →
        ((r = .engineDrain ∨ r = .softDrain) → (s.lb.entries.filter (·.line != l)).head? = some e) →
        t.lb.writing = some e.line ∧ t.mp.lb = some (.write (e.line ++ (0 : BitVec 6)) e.mask e.data)))
    ∧ ∀ e, s.lb.find l = some e →
      ∃ t, exec (.lineWriteOutAnswer .error) s = .next t ∧ t.lb.entries = s.lb.entries.filter (·.line != l)
        ∧ (s.noneKept → s.hasRoom .lb →
          s.sb.reports ⟨.memWrite, .lb, (match e.chans with | [n] => some n | _ => none), .error, e.line ++ (0 : BitVec 6)⟩
            = true →
          t.sbHas ⟨.memWrite, .lb, (match e.chans with | [n] => some n | _ => none), .error, e.line ++ (0 : BitVec 6)⟩)
        ∧ (∀ n, s.quietUnits → s.te.grant = some n → (s.chan n).state = .active → (s.chan n).activity = .slice →
          n ∈ e.chans → t.chan n = { s.chan n with mark := true })
        ∧ ∀ n, s.leftAlone n →
          (n ∉ e.chans → (s.chan n).mark = false → t.chan n = s.chan n)
          ∧ (n ∈ e.chans → (s.chan n).state ≠ .off → (s.chan n).activity ≠ .ready → (s.chan n).activity ≠ .haltDrain →
            (s.chan n).activity ≠ .haltStatus → (s.chan n).activity ≠ .haltSave →
            t.chan n = { s.chan n with mark := true })
          ∧ (n ∈ e.chans → (s.chan n).activity ≠ .ready → (s.chan n).state = .off ∨ (s.chan n).activity = .haltDrain
            ∨ (s.chan n).activity = .haltStatus ∨ (s.chan n).activity = .haltSave → t.chan n = s.chan n)
          ∧ (n ∈ e.chans → (s.chan n).state = .ready → (s.chan n).activity = .ready → (s.chan n).reset = .off →
            t.chan n = (s.chan n).halting .writeError 0)

/-- When the last write-out of its drain is answered, a finishing channel asks for its DONE write and a stopping one for its save
write; either, if marked, halts with WRITE_ERROR instead and asks for its drain again (the model's reading, log 25). A halting one,
its mark cleared, asks for its status write, or with no current task for its save write at once, with STATE HALTED; and a
resetting one goes OFF with every field cleared. -/
def Obligations.ChannelDrainAnswered : Prop :=
  ∀ (n : ChanId) (s : State), s.lb.current = some (.drain n) → s.drainOver (.drain n) = true → s.leftAlone n →
    ((s.chan n).reset = .off → (s.chan n).mark = true →
      (s.chan n).activity = .finishDrain ∨ (s.chan n).activity = .stopDrain →
      ∃ t, exec .channelDrainComplete s = .next t ∧ t.chan n = (s.chan n).halting .writeError 0
        ∧ LbReq.drain n ∈ t.lbRequests)
    ∧ (∀ a, (s.chan n).reset = .off → (s.chan n).mark = false → (s.chan n).activity = .finishDrain →
      (s.chan n).current = some a →
      ∃ t, exec .channelDrainComplete s = .next t ∧ t.chan n = { s.chan n with phase := .status, activity := .doneWrite }
        ∧ (⟨n, .done, statusWrite a (s.chan n).doneImage⟩ : FuJob) ∈ t.fuJobs)
    ∧ ((s.chan n).reset = .off → (s.chan n).mark = false → (s.chan n).activity = .stopDrain →
      ∃ t, exec .channelDrainComplete s = .next t ∧ t.chan n = { s.chan n with activity := .stopSave }
        ∧ (⟨n, .save, .write (s.contextAddr n + 64) (BitVec.allOnes 64) ((s.chan n).saveImage .stopped)⟩ : FuJob)
          ∈ t.fuJobs)
    ∧ (∀ a, (s.chan n).reset = .off → (s.chan n).activity = .haltDrain → (s.chan n).current = some a →
      ∃ t, exec .channelDrainComplete s = .next t ∧ t.chan n = { s.chan n with mark := false, activity := .haltStatus }
        ∧ (⟨n, .haltStatus, statusWrite a (s.chan n).haltImage⟩ : FuJob) ∈ t.fuJobs)
    ∧ ((s.chan n).reset = .off → (s.chan n).activity = .haltDrain → (s.chan n).current = none →
      ∃ t, exec .channelDrainComplete s = .next t ∧ t.chan n = { s.chan n with mark := false, activity := .haltSave }
        ∧ (⟨n, .save, .write (s.contextAddr n + 64) (BitVec.allOnes 64) ((s.chan n).saveImage .halted)⟩ : FuJob)
          ∈ t.fuJobs)
    ∧ ((s.chan n).reset = .drain → ∃ t, exec .channelDrainComplete s = .next t ∧ t.chan n = Channel.off)

/-- When its full drain is answered TE ends a purge slice, the channel entering FINISHING, or issues the device write; the soft
reset goes on to its clearing step, with the cache invalidated, ROTOR at 15 and the alert list empty at once. -/
def Obligations.FullDrainAnswered : Prop :=
  ∀ (s : State), s.isSettled → s.noneKept →
    (∀ n, s.lb.current = some .engineDrain → s.drainOver .engineDrain = true → s.te.grant = some n →
      s.te.step = .purgeDrain → (s.chan n).reset = .off → (s.chan n).stopPending = false → (s.chan n).mark = false →
      s.fu.got = none → s.su.got = none → s.suBusy n = false →
      ∃ t, exec .fullDrainComplete s = .next t ∧ t.te.grant = none
        ∧ t.chan n = { s.chan n with state := .finishing, phase := .drain, listIndex := 0, activity := .finishDrain }
        ∧ LbReq.drain n ∈ t.lbRequests)
    ∧ (∀ n m v pa, s.lb.current = some .engineDrain → s.drainOver .engineDrain = true → s.te.grant = some n →
      s.te.step = .deviceDrain v pa → (s.chan n).currentMove = some m → s.te.got = none →
      ∃ t, exec .fullDrainComplete s = .next t ∧ t.te.step = .deviceWrite v pa
        ∧ t.mp.te = some (.write pa m.dst.size.strobes ((m.dst.size.low v).setWidth 512)))
    ∧ (s.lb.current = some .softDrain → s.drainOver .softDrain = true → s.soft = .draining →
      ∃ t, exec .fullDrainComplete s = .next t ∧ t.soft = .clearing ∧ t.te.rotor = 15 ∧ t.rp.alerts = []
        ∧ ∀ i : Fin 32, t.tu.cache[i] = CacheSet.invalid)

/-! ## The status block -/

/-- Events are reported by class and level (Table 9-4), the level being the one SB holds at the hand-over (the model's reading,
log 13): while its unit's place at SB is occupied an event is kept, whatever the level; with the place free a reported event joins the queue, and any other is discarded without trace. The answer to a record
write ends it, ERROR setting RECORD_FAILED; SB then takes its next event, if it has one: the counter rises by one unless
saturated, ERROR_EVENT is set, and all 64 bytes of the error record are written at the anchor plus 0x1800. -/
def Obligations.EventsReportedAndRecorded : Prop :=
  (∀ (b : StatusBlock) (e : ErrorEvent) (needed : Nat),
    needed = (match e.code with | .memCorrected => 3 | .tcParity => 2 | _ => 1) →
    ((∃ x ∈ b.queue, x.unit = e.unit) → b.handOver e = none)
    ∧ ((∀ x ∈ b.queue, x.unit ≠ e.unit) → needed ≤ b.level.toNat →
      b.handOver e = some { b with queue := b.queue ++ [e] })
    ∧ ((∀ x ∈ b.queue, x.unit ≠ e.unit) → b.level.toNat < needed → b.handOver e = some b))
  ∧ ∀ (e : ErrorEvent) (req : MpReq) (resp : WriteResp) (s : State), s.isSettled → s.sb.writing = some e →
    s.mp.sb = some req →
    ∃ t, exec (.errorRecordWriteAnswer resp) s = .next t
      ∧ t.sb.recordFailed = (s.sb.recordFailed || resp == .error)
      ∧ (s.sb.queue = [] → t.sb.writing = none ∧ t.mp.sb = none ∧ t.sb.counter = s.sb.counter)
      ∧ ∀ e' rest, s.sb.queue = e' :: rest →
        t.sb.writing = some e' ∧ t.sb.errorEvent = true
          ∧ t.sb.counter = (if s.sb.counter = 0xFFFFFFFF then 0xFFFFFFFF else s.sb.counter + 1)
          ∧ t.mp.sb = some (.write (s.anchor + 0x1800) (BitVec.allOnes 64) (errorImage e' t.sb.counter))

/-! ## What every step keeps -/

/-- No command changes the queue. Only HARD_RESET, ALERT_READ, a soft reset's drain and its clearing step take a number from the
alert list. Only a hard reset, its release, a CONTROL write, a soft reset and the ANCHOR writes change RUN, REPORT_LEVEL, INT_EN,
the anchor or the reset pin. -/
def Obligations.ControlsKeptByOtherCommands : Prop :=
  ∀ (c : Instr) (s t : State), exec c s = .next t →
    t.pending = s.pending
      ∧ (c ≠ .hardReset → c ≠ .alertRead → c ≠ .softResetClearing →
        ¬(c = .fullDrainComplete ∧ s.lb.current = some .softDrain) → s.rp.alerts <+: t.rp.alerts)
      ∧ ((match c with
          | .hardReset | .resetRelease | .controlWrite _ | .softReset _ | .anchorLoWrite _ | .anchorHiWrite _ => False
          | _ => True) →
        t.rp.run = s.rp.run ∧ t.rp.reportLevel = s.rp.reportLevel ∧ t.rp.intEn = s.rp.intEn ∧ t.anchor = s.anchor
          ∧ t.sb.level = s.sb.level ∧ t.resetAsserted = s.resetAsserted)

/-- After every step the alert list holds at most 32 numbers, none twice; LB holds at most 8 lines, none twice; and SB's queue
holds at most one event of each unit. -/
def Obligations.ListsStayWithinBounds : Prop :=
  ∀ (s t : State), step s = .next t →
    (s.alertsOk → t.alertsOk) ∧ (s.linesOk → t.linesOk) ∧ (s.eventsOk → t.eventsOk)

/-- No two valid cache entries hold one key, and each stands in the set of its key, after every step. -/
def Obligations.CacheKeysStayDistinct : Prop :=
  ∀ (s t : State), s.cacheOk → step s = .next t → t.cacheOk

/-- The slice element counter stays at most 16, and a soft reset in progress keeps RUN 0 and both slots empty, after every
step. -/
def Obligations.SliceAndSoftResetModesStay : Prop :=
  ∀ (s t : State), s.counterOk → s.softResetOk → step s = .next t → t.counterOk ∧ t.softResetOk

/-- A step leaves the part settled, unless a RESET of the channel it has just granted is the next command (log 32); and an answer
is in hand only where its request was in progress. -/
def Obligations.StepLeavesPartSettled : Prop :=
  ∀ (s t : State), s.answersOk → step s = .next t →
    t.answersOk ∧ (s.isSettled ∨ s.resetWindow → t.isSettled ∨ t.resetWindow)

/-- After every step each channel has one request at FU and one at SU at most, of the kind it waits for, a channel out of reset
holds the grant only in its slice, its first flag 0 within an element, and the parked list holds at most 16 entries and no channel
twice. -/
def Obligations.ChannelsKeepOneRequestEach : Prop :=
  ∀ (s t : State), s.flowOk → step s = .next t → t.flowOk

/-- The invariants hold after reset. -/
def Obligations.InvariantsHoldAtReset : Prop :=
  State.reset.alertsOk ∧ State.reset.linesOk ∧ State.reset.eventsOk ∧ State.reset.cacheOk ∧ State.reset.counterOk
    ∧ State.reset.softResetOk ∧ State.reset.isSettled ∧ State.reset.noneKept ∧ State.reset.answersOk ∧ State.reset.flowOk
end

