-- ==== Sys2Proof/Laws/State.lean ====
section
/-! SUPPORT. What each shared update of State leaves in each field, so that no proof unfolds a record update. -/

namespace Sys2Proof.Laws

open Sys2Proof.Machine

/-! ## One channel -/

@[simp] theorem chan_setChan (s : State) (n : ChanId) (c : Channel) : (s.setChan n c).chan n = c := by
  simp [State.chan, State.setChan]

@[simp] theorem chan_setChan_ne (s : State) (n m : ChanId) (c : Channel) (h : m ≠ n) :
    (s.setChan n c).chan m = s.chan m := by
  have : n.val ≠ m.val := fun e => h (Fin.ext e.symm)
  simp [State.chan, State.setChan, Vector.getElem_set_ne, this]

@[simp] theorem chan_modChan (s : State) (n : ChanId) (f : Channel → Channel) :
    (s.modChan n f).chan n = f (s.chan n) := chan_setChan _ _ _

@[simp] theorem chan_modChan_ne (s : State) (n m : ChanId) (f : Channel → Channel) (h : m ≠ n) :
    (s.modChan n f).chan m = s.chan m := chan_setChan_ne _ _ _ _ h

@[simp] theorem chan_setActivity (s : State) (n : ChanId) (a : Activity) :
    (s.setActivity n a).chan n = { s.chan n with activity := a } := chan_modChan _ _ _

@[simp] theorem chan_setActivity_ne (s : State) (n m : ChanId) (a : Activity) (h : m ≠ n) :
    (s.setActivity n a).chan m = s.chan m := chan_modChan_ne _ _ _ _ h

/-! ## setChan -/

@[simp] theorem resetAsserted_setChan (s : State) (n : ChanId) (c : Channel) : (s.setChan n c).resetAsserted = s.resetAsserted := rfl
@[simp] theorem soft_setChan (s : State) (n : ChanId) (c : Channel) : (s.setChan n c).soft = s.soft := rfl
@[simp] theorem rp_setChan (s : State) (n : ChanId) (c : Channel) : (s.setChan n c).rp = s.rp := rfl
@[simp] theorem sb_setChan (s : State) (n : ChanId) (c : Channel) : (s.setChan n c).sb = s.sb := rfl
@[simp] theorem mp_setChan (s : State) (n : ChanId) (c : Channel) : (s.setChan n c).mp = s.mp := rfl
@[simp] theorem fu_setChan (s : State) (n : ChanId) (c : Channel) : (s.setChan n c).fu = s.fu := rfl
@[simp] theorem su_setChan (s : State) (n : ChanId) (c : Channel) : (s.setChan n c).su = s.su := rfl
@[simp] theorem te_setChan (s : State) (n : ChanId) (c : Channel) : (s.setChan n c).te = s.te := rfl
@[simp] theorem tu_setChan (s : State) (n : ChanId) (c : Channel) : (s.setChan n c).tu = s.tu := rfl
@[simp] theorem lb_setChan (s : State) (n : ChanId) (c : Channel) : (s.setChan n c).lb = s.lb := rfl
@[simp] theorem arrivals_setChan (s : State) (n : ChanId) (c : Channel) : (s.setChan n c).arrivals = s.arrivals := rfl
@[simp] theorem pending_setChan (s : State) (n : ChanId) (c : Channel) : (s.setChan n c).pending = s.pending := rfl

/-! ## modChan -/

@[simp] theorem resetAsserted_modChan (s : State) (n : ChanId) (f : Channel → Channel) : (s.modChan n f).resetAsserted = s.resetAsserted := rfl
@[simp] theorem soft_modChan (s : State) (n : ChanId) (f : Channel → Channel) : (s.modChan n f).soft = s.soft := rfl
@[simp] theorem rp_modChan (s : State) (n : ChanId) (f : Channel → Channel) : (s.modChan n f).rp = s.rp := rfl
@[simp] theorem sb_modChan (s : State) (n : ChanId) (f : Channel → Channel) : (s.modChan n f).sb = s.sb := rfl
@[simp] theorem mp_modChan (s : State) (n : ChanId) (f : Channel → Channel) : (s.modChan n f).mp = s.mp := rfl
@[simp] theorem fu_modChan (s : State) (n : ChanId) (f : Channel → Channel) : (s.modChan n f).fu = s.fu := rfl
@[simp] theorem su_modChan (s : State) (n : ChanId) (f : Channel → Channel) : (s.modChan n f).su = s.su := rfl
@[simp] theorem te_modChan (s : State) (n : ChanId) (f : Channel → Channel) : (s.modChan n f).te = s.te := rfl
@[simp] theorem tu_modChan (s : State) (n : ChanId) (f : Channel → Channel) : (s.modChan n f).tu = s.tu := rfl
@[simp] theorem lb_modChan (s : State) (n : ChanId) (f : Channel → Channel) : (s.modChan n f).lb = s.lb := rfl
@[simp] theorem arrivals_modChan (s : State) (n : ChanId) (f : Channel → Channel) : (s.modChan n f).arrivals = s.arrivals := rfl
@[simp] theorem pending_modChan (s : State) (n : ChanId) (f : Channel → Channel) : (s.modChan n f).pending = s.pending := rfl

/-! ## setActivity -/

@[simp] theorem resetAsserted_setActivity (s : State) (n : ChanId) (a : Activity) : (s.setActivity n a).resetAsserted = s.resetAsserted := rfl
@[simp] theorem soft_setActivity (s : State) (n : ChanId) (a : Activity) : (s.setActivity n a).soft = s.soft := rfl
@[simp] theorem rp_setActivity (s : State) (n : ChanId) (a : Activity) : (s.setActivity n a).rp = s.rp := rfl
@[simp] theorem sb_setActivity (s : State) (n : ChanId) (a : Activity) : (s.setActivity n a).sb = s.sb := rfl
@[simp] theorem mp_setActivity (s : State) (n : ChanId) (a : Activity) : (s.setActivity n a).mp = s.mp := rfl
@[simp] theorem fu_setActivity (s : State) (n : ChanId) (a : Activity) : (s.setActivity n a).fu = s.fu := rfl
@[simp] theorem su_setActivity (s : State) (n : ChanId) (a : Activity) : (s.setActivity n a).su = s.su := rfl
@[simp] theorem te_setActivity (s : State) (n : ChanId) (a : Activity) : (s.setActivity n a).te = s.te := rfl
@[simp] theorem tu_setActivity (s : State) (n : ChanId) (a : Activity) : (s.setActivity n a).tu = s.tu := rfl
@[simp] theorem lb_setActivity (s : State) (n : ChanId) (a : Activity) : (s.setActivity n a).lb = s.lb := rfl
@[simp] theorem arrivals_setActivity (s : State) (n : ChanId) (a : Activity) : (s.setActivity n a).arrivals = s.arrivals := rfl
@[simp] theorem pending_setActivity (s : State) (n : ChanId) (a : Activity) : (s.setActivity n a).pending = s.pending := rfl

/-! ## queueFu -/

@[simp] theorem chan_queueFu (s : State) (j : FuJob) (m : ChanId) : (s.queueFu j).chan m = s.chan m := rfl
@[simp] theorem resetAsserted_queueFu (s : State) (j : FuJob) : (s.queueFu j).resetAsserted = s.resetAsserted := rfl
@[simp] theorem soft_queueFu (s : State) (j : FuJob) : (s.queueFu j).soft = s.soft := rfl
@[simp] theorem rp_queueFu (s : State) (j : FuJob) : (s.queueFu j).rp = s.rp := rfl
@[simp] theorem sb_queueFu (s : State) (j : FuJob) : (s.queueFu j).sb = s.sb := rfl
@[simp] theorem mp_queueFu (s : State) (j : FuJob) : (s.queueFu j).mp = s.mp := rfl
@[simp] theorem fu_queueFu (s : State) (j : FuJob) : (s.queueFu j).fu = { s.fu with queue := s.fu.queue ++ [j] } := rfl
@[simp] theorem su_queueFu (s : State) (j : FuJob) : (s.queueFu j).su = s.su := rfl
@[simp] theorem te_queueFu (s : State) (j : FuJob) : (s.queueFu j).te = s.te := rfl
@[simp] theorem tu_queueFu (s : State) (j : FuJob) : (s.queueFu j).tu = s.tu := rfl
@[simp] theorem lb_queueFu (s : State) (j : FuJob) : (s.queueFu j).lb = s.lb := rfl
@[simp] theorem arrivals_queueFu (s : State) (j : FuJob) : (s.queueFu j).arrivals = s.arrivals := rfl
@[simp] theorem pending_queueFu (s : State) (j : FuJob) : (s.queueFu j).pending = s.pending := rfl

/-! ## queueSu -/

@[simp] theorem chan_queueSu (s : State) (r : SuReq) (m : ChanId) : (s.queueSu r).chan m = s.chan m := rfl
@[simp] theorem resetAsserted_queueSu (s : State) (r : SuReq) : (s.queueSu r).resetAsserted = s.resetAsserted := rfl
@[simp] theorem soft_queueSu (s : State) (r : SuReq) : (s.queueSu r).soft = s.soft := rfl
@[simp] theorem rp_queueSu (s : State) (r : SuReq) : (s.queueSu r).rp = s.rp := rfl
@[simp] theorem sb_queueSu (s : State) (r : SuReq) : (s.queueSu r).sb = s.sb := rfl
@[simp] theorem mp_queueSu (s : State) (r : SuReq) : (s.queueSu r).mp = s.mp := rfl
@[simp] theorem fu_queueSu (s : State) (r : SuReq) : (s.queueSu r).fu = s.fu := rfl
@[simp] theorem su_queueSu (s : State) (r : SuReq) : (s.queueSu r).su = { s.su with queue := s.su.queue ++ [r] } := rfl
@[simp] theorem te_queueSu (s : State) (r : SuReq) : (s.queueSu r).te = s.te := rfl
@[simp] theorem tu_queueSu (s : State) (r : SuReq) : (s.queueSu r).tu = s.tu := rfl
@[simp] theorem lb_queueSu (s : State) (r : SuReq) : (s.queueSu r).lb = s.lb := rfl
@[simp] theorem arrivals_queueSu (s : State) (r : SuReq) : (s.queueSu r).arrivals = s.arrivals := rfl
@[simp] theorem pending_queueSu (s : State) (r : SuReq) : (s.queueSu r).pending = s.pending := rfl

/-! ## queueLb -/

@[simp] theorem chan_queueLb (s : State) (r : LbReq) (m : ChanId) : (s.queueLb r).chan m = s.chan m := rfl
@[simp] theorem resetAsserted_queueLb (s : State) (r : LbReq) : (s.queueLb r).resetAsserted = s.resetAsserted := rfl
@[simp] theorem soft_queueLb (s : State) (r : LbReq) : (s.queueLb r).soft = s.soft := rfl
@[simp] theorem rp_queueLb (s : State) (r : LbReq) : (s.queueLb r).rp = s.rp := rfl
@[simp] theorem sb_queueLb (s : State) (r : LbReq) : (s.queueLb r).sb = s.sb := rfl
@[simp] theorem mp_queueLb (s : State) (r : LbReq) : (s.queueLb r).mp = s.mp := rfl
@[simp] theorem fu_queueLb (s : State) (r : LbReq) : (s.queueLb r).fu = s.fu := rfl
@[simp] theorem su_queueLb (s : State) (r : LbReq) : (s.queueLb r).su = s.su := rfl
@[simp] theorem te_queueLb (s : State) (r : LbReq) : (s.queueLb r).te = s.te := rfl
@[simp] theorem tu_queueLb (s : State) (r : LbReq) : (s.queueLb r).tu = s.tu := rfl
@[simp] theorem lb_queueLb (s : State) (r : LbReq) : (s.queueLb r).lb = { s.lb with queue := s.lb.queue ++ [r] } := rfl
@[simp] theorem arrivals_queueLb (s : State) (r : LbReq) : (s.queueLb r).arrivals = s.arrivals := rfl
@[simp] theorem pending_queueLb (s : State) (r : LbReq) : (s.queueLb r).pending = s.pending := rfl

/-! ## refuse -/

@[simp] theorem chan_refuse (s : State) (r : Reason) (m : ChanId) : (s.refuse r).chan m = s.chan m := rfl
@[simp] theorem resetAsserted_refuse (s : State) (r : Reason) : (s.refuse r).resetAsserted = s.resetAsserted := rfl
@[simp] theorem soft_refuse (s : State) (r : Reason) : (s.refuse r).soft = s.soft := rfl
@[simp] theorem rp_refuse (s : State) (r : Reason) : (s.refuse r).rp = { s.rp with refuseReason := r } := rfl
@[simp] theorem sb_refuse (s : State) (r : Reason) : (s.refuse r).sb = { s.sb with refused := true } := rfl
@[simp] theorem mp_refuse (s : State) (r : Reason) : (s.refuse r).mp = s.mp := rfl
@[simp] theorem fu_refuse (s : State) (r : Reason) : (s.refuse r).fu = s.fu := rfl
@[simp] theorem su_refuse (s : State) (r : Reason) : (s.refuse r).su = s.su := rfl
@[simp] theorem te_refuse (s : State) (r : Reason) : (s.refuse r).te = s.te := rfl
@[simp] theorem tu_refuse (s : State) (r : Reason) : (s.refuse r).tu = s.tu := rfl
@[simp] theorem lb_refuse (s : State) (r : Reason) : (s.refuse r).lb = s.lb := rfl
@[simp] theorem arrivals_refuse (s : State) (r : Reason) : (s.refuse r).arrivals = s.arrivals := rfl
@[simp] theorem pending_refuse (s : State) (r : Reason) : (s.refuse r).pending = s.pending := rfl

/-! ## replied -/

@[simp] theorem chan_replied (s : State) (r : Reply) (m : ChanId) : (s.replied r).chan m = s.chan m := rfl
@[simp] theorem resetAsserted_replied (s : State) (r : Reply) : (s.replied r).resetAsserted = s.resetAsserted := rfl
@[simp] theorem soft_replied (s : State) (r : Reply) : (s.replied r).soft = s.soft := rfl
@[simp] theorem rp_replied (s : State) (r : Reply) : (s.replied r).rp = { s.rp with reply := r } := rfl
@[simp] theorem sb_replied (s : State) (r : Reply) : (s.replied r).sb = s.sb := rfl
@[simp] theorem mp_replied (s : State) (r : Reply) : (s.replied r).mp = s.mp := rfl
@[simp] theorem fu_replied (s : State) (r : Reply) : (s.replied r).fu = s.fu := rfl
@[simp] theorem su_replied (s : State) (r : Reply) : (s.replied r).su = s.su := rfl
@[simp] theorem te_replied (s : State) (r : Reply) : (s.replied r).te = s.te := rfl
@[simp] theorem tu_replied (s : State) (r : Reply) : (s.replied r).tu = s.tu := rfl
@[simp] theorem lb_replied (s : State) (r : Reply) : (s.replied r).lb = s.lb := rfl
@[simp] theorem arrivals_replied (s : State) (r : Reply) : (s.replied r).arrivals = s.arrivals := rfl
@[simp] theorem pending_replied (s : State) (r : Reply) : (s.replied r).pending = s.pending := rfl

/-! ## setTeStep -/

@[simp] theorem chan_setTeStep (s : State) (x : TeStep) (m : ChanId) : (s.setTeStep x).chan m = s.chan m := rfl
@[simp] theorem resetAsserted_setTeStep (s : State) (x : TeStep) : (s.setTeStep x).resetAsserted = s.resetAsserted := rfl
@[simp] theorem soft_setTeStep (s : State) (x : TeStep) : (s.setTeStep x).soft = s.soft := rfl
@[simp] theorem rp_setTeStep (s : State) (x : TeStep) : (s.setTeStep x).rp = s.rp := rfl
@[simp] theorem sb_setTeStep (s : State) (x : TeStep) : (s.setTeStep x).sb = s.sb := rfl
@[simp] theorem mp_setTeStep (s : State) (x : TeStep) : (s.setTeStep x).mp = s.mp := rfl
@[simp] theorem fu_setTeStep (s : State) (x : TeStep) : (s.setTeStep x).fu = s.fu := rfl
@[simp] theorem su_setTeStep (s : State) (x : TeStep) : (s.setTeStep x).su = s.su := rfl
@[simp] theorem te_setTeStep (s : State) (x : TeStep) : (s.setTeStep x).te = { s.te with step := x } := rfl
@[simp] theorem tu_setTeStep (s : State) (x : TeStep) : (s.setTeStep x).tu = s.tu := rfl
@[simp] theorem lb_setTeStep (s : State) (x : TeStep) : (s.setTeStep x).lb = s.lb := rfl
@[simp] theorem arrivals_setTeStep (s : State) (x : TeStep) : (s.setTeStep x).arrivals = s.arrivals := rfl
@[simp] theorem pending_setTeStep (s : State) (x : TeStep) : (s.setTeStep x).pending = s.pending := rfl

/-! ## emptySignalSlot -/

@[simp] theorem chan_emptySignalSlot (s : State) (m : ChanId) : (s.emptySignalSlot).chan m = s.chan m := rfl
@[simp] theorem resetAsserted_emptySignalSlot (s : State) : (s.emptySignalSlot).resetAsserted = s.resetAsserted := rfl
@[simp] theorem soft_emptySignalSlot (s : State) : (s.emptySignalSlot).soft = s.soft := rfl
@[simp] theorem rp_emptySignalSlot (s : State) : (s.emptySignalSlot).rp = { s.rp with signalSlot := none } := rfl
@[simp] theorem sb_emptySignalSlot (s : State) : (s.emptySignalSlot).sb = s.sb := rfl
@[simp] theorem mp_emptySignalSlot (s : State) : (s.emptySignalSlot).mp = s.mp := rfl
@[simp] theorem fu_emptySignalSlot (s : State) : (s.emptySignalSlot).fu = s.fu := rfl
@[simp] theorem su_emptySignalSlot (s : State) : (s.emptySignalSlot).su = s.su := rfl
@[simp] theorem te_emptySignalSlot (s : State) : (s.emptySignalSlot).te = s.te := rfl
@[simp] theorem tu_emptySignalSlot (s : State) : (s.emptySignalSlot).tu = s.tu := rfl
@[simp] theorem lb_emptySignalSlot (s : State) : (s.emptySignalSlot).lb = s.lb := rfl
@[simp] theorem arrivals_emptySignalSlot (s : State) : (s.emptySignalSlot).arrivals = s.arrivals := rfl
@[simp] theorem pending_emptySignalSlot (s : State) : (s.emptySignalSlot).pending = s.pending := rfl

/-! ## unpark -/

@[simp] theorem chan_unpark (s : State) (n : ChanId) (m : ChanId) : (s.unpark n).chan m = s.chan m := rfl
@[simp] theorem resetAsserted_unpark (s : State) (n : ChanId) : (s.unpark n).resetAsserted = s.resetAsserted := rfl
@[simp] theorem soft_unpark (s : State) (n : ChanId) : (s.unpark n).soft = s.soft := rfl
@[simp] theorem rp_unpark (s : State) (n : ChanId) : (s.unpark n).rp = s.rp := rfl
@[simp] theorem sb_unpark (s : State) (n : ChanId) : (s.unpark n).sb = s.sb := rfl
@[simp] theorem mp_unpark (s : State) (n : ChanId) : (s.unpark n).mp = s.mp := rfl
@[simp] theorem fu_unpark (s : State) (n : ChanId) : (s.unpark n).fu = s.fu := rfl
@[simp] theorem su_unpark (s : State) (n : ChanId) : (s.unpark n).su = { s.su with parked := s.su.parked.filter (·.chan != n) } := rfl
@[simp] theorem te_unpark (s : State) (n : ChanId) : (s.unpark n).te = s.te := rfl
@[simp] theorem tu_unpark (s : State) (n : ChanId) : (s.unpark n).tu = s.tu := rfl
@[simp] theorem lb_unpark (s : State) (n : ChanId) : (s.unpark n).lb = s.lb := rfl
@[simp] theorem arrivals_unpark (s : State) (n : ChanId) : (s.unpark n).arrivals = s.arrivals := rfl
@[simp] theorem pending_unpark (s : State) (n : ChanId) : (s.unpark n).pending = s.pending := rfl

/-! ## suFree -/

@[simp] theorem chan_suFree (s : State) (m : ChanId) : (s.suFree).chan m = s.chan m := rfl
@[simp] theorem resetAsserted_suFree (s : State) : (s.suFree).resetAsserted = s.resetAsserted := rfl
@[simp] theorem soft_suFree (s : State) : (s.suFree).soft = s.soft := rfl
@[simp] theorem rp_suFree (s : State) : (s.suFree).rp = s.rp := rfl
@[simp] theorem sb_suFree (s : State) : (s.suFree).sb = s.sb := rfl
@[simp] theorem mp_suFree (s : State) : (s.suFree).mp = s.mp := rfl
@[simp] theorem fu_suFree (s : State) : (s.suFree).fu = s.fu := rfl
@[simp] theorem su_suFree (s : State) : (s.suFree).su = { s.su with current := none, got := none } := rfl
@[simp] theorem te_suFree (s : State) : (s.suFree).te = s.te := rfl
@[simp] theorem tu_suFree (s : State) : (s.suFree).tu = s.tu := rfl
@[simp] theorem lb_suFree (s : State) : (s.suFree).lb = s.lb := rfl
@[simp] theorem arrivals_suFree (s : State) : (s.suFree).arrivals = s.arrivals := rfl
@[simp] theorem pending_suFree (s : State) : (s.suFree).pending = s.pending := rfl

/-! ## lbFree -/

@[simp] theorem chan_lbFree (s : State) (m : ChanId) : (s.lbFree).chan m = s.chan m := rfl
@[simp] theorem resetAsserted_lbFree (s : State) : (s.lbFree).resetAsserted = s.resetAsserted := rfl
@[simp] theorem soft_lbFree (s : State) : (s.lbFree).soft = s.soft := rfl
@[simp] theorem rp_lbFree (s : State) : (s.lbFree).rp = s.rp := rfl
@[simp] theorem sb_lbFree (s : State) : (s.lbFree).sb = s.sb := rfl
@[simp] theorem mp_lbFree (s : State) : (s.lbFree).mp = s.mp := rfl
@[simp] theorem fu_lbFree (s : State) : (s.lbFree).fu = s.fu := rfl
@[simp] theorem su_lbFree (s : State) : (s.lbFree).su = s.su := rfl
@[simp] theorem te_lbFree (s : State) : (s.lbFree).te = s.te := rfl
@[simp] theorem tu_lbFree (s : State) : (s.lbFree).tu = s.tu := rfl
@[simp] theorem lb_lbFree (s : State) : (s.lbFree).lb = { s.lb with current := none } := rfl
@[simp] theorem arrivals_lbFree (s : State) : (s.lbFree).arrivals = s.arrivals := rfl
@[simp] theorem pending_lbFree (s : State) : (s.lbFree).pending = s.pending := rfl

/-! ## tuGotTaken -/

@[simp] theorem chan_tuGotTaken (s : State) (m : ChanId) : (s.tuGotTaken).chan m = s.chan m := rfl
@[simp] theorem resetAsserted_tuGotTaken (s : State) : (s.tuGotTaken).resetAsserted = s.resetAsserted := rfl
@[simp] theorem soft_tuGotTaken (s : State) : (s.tuGotTaken).soft = s.soft := rfl
@[simp] theorem rp_tuGotTaken (s : State) : (s.tuGotTaken).rp = s.rp := rfl
@[simp] theorem sb_tuGotTaken (s : State) : (s.tuGotTaken).sb = s.sb := rfl
@[simp] theorem mp_tuGotTaken (s : State) : (s.tuGotTaken).mp = s.mp := rfl
@[simp] theorem fu_tuGotTaken (s : State) : (s.tuGotTaken).fu = s.fu := rfl
@[simp] theorem su_tuGotTaken (s : State) : (s.tuGotTaken).su = s.su := rfl
@[simp] theorem te_tuGotTaken (s : State) : (s.tuGotTaken).te = s.te := rfl
@[simp] theorem tu_tuGotTaken (s : State) : (s.tuGotTaken).tu = { s.tu with got := none } := rfl
@[simp] theorem lb_tuGotTaken (s : State) : (s.tuGotTaken).lb = s.lb := rfl
@[simp] theorem arrivals_tuGotTaken (s : State) : (s.tuGotTaken).arrivals = s.arrivals := rfl
@[simp] theorem pending_tuGotTaken (s : State) : (s.tuGotTaken).pending = s.pending := rfl

end Sys2Proof.Laws
end

