-- ==== Sys2Proof/Laws/Channels.lean ====
section
/-! SUPPORT. What a Channel Controller's reaction can do: it changes its own channel, appends its own requests at FU, SU and
LB, may refuse a command, and touches nothing else. One lemma for each reaction says so. -/

namespace Sys2Proof.Laws

open Sys2Proof.Machine

/-- A request CC `n` may queue at SU: an undo only while it is parked (R40, R48). -/
def OwnRequest (n : ChanId) (s : State) (r : SuReq) : Prop :=
  r.chan = some n ∧ (s.isParked n = true ∨ (r ≠ .undoStop n ∧ r ≠ .undoReset n))

/-- What the reaction of CC `n` leads to. -/
structure Acts (n : ChanId) (s t : State) : Prop where
  others : ∀ m, m ≠ n → t.chan m = s.chan m
  fu : ∃ l, t.fu = { s.fu with queue := s.fu.queue ++ l } ∧ ∀ j ∈ l, j.chan = n
  su : ∃ l, t.su = { s.su with queue := s.su.queue ++ l } ∧ ∀ r ∈ l, OwnRequest n s r
  lb : ∃ l, t.lb = { s.lb with queue := s.lb.queue ++ l } ∧ ∀ r ∈ l, r = LbReq.drain n
  rp : ∃ x, t.rp = { s.rp with refuseReason := x }
  sb : ∃ b, t.sb = { s.sb with refused := b } ∧ (s.sb.refused = true → b = true)
  te : t.te = s.te
  tu : t.tu = s.tu
  mp : t.mp = s.mp
  soft : t.soft = s.soft
  resetAsserted : t.resetAsserted = s.resetAsserted
  arrivals : t.arrivals = s.arrivals
  pending : t.pending = s.pending

namespace Acts

variable {n : ChanId} {s t u : State}

theorem refl (n : ChanId) (s : State) : Acts n s s where
  others _ _ := rfl
  fu := ⟨[], by simp, by simp⟩
  su := ⟨[], by simp, by simp⟩
  lb := ⟨[], by simp, by simp⟩
  rp := ⟨s.rp.refuseReason, rfl⟩
  sb := ⟨s.sb.refused, rfl, id⟩
  te := rfl
  tu := rfl
  mp := rfl
  soft := rfl
  resetAsserted := rfl
  arrivals := rfl
  pending := rfl

theorem trans (a : Acts n s t) (b : Acts n t u) : Acts n s u where
  others m h := (b.others m h).trans (a.others m h)
  fu := by
    obtain ⟨l, h, hl⟩ := a.fu
    obtain ⟨k, g, hk⟩ := b.fu
    refine ⟨l ++ k, by rw [g, h]; simp, fun j hj => ?_⟩
    rcases List.mem_append.mp hj with h | h
    · exact hl j h
    · exact hk j h
  su := by
    obtain ⟨l, h, hl⟩ := a.su
    obtain ⟨k, g, hk⟩ := b.su
    refine ⟨l ++ k, by rw [g, h]; simp, fun j hj => ?_⟩
    have hp : t.isParked n = s.isParked n := by rw [State.isParked, h]; rfl
    rcases List.mem_append.mp hj with h | h
    · exact hl j h
    · simpa only [OwnRequest, hp] using hk j h
  lb := by
    obtain ⟨l, h, hl⟩ := a.lb
    obtain ⟨k, g, hk⟩ := b.lb
    refine ⟨l ++ k, by rw [g, h]; simp, fun j hj => ?_⟩
    rcases List.mem_append.mp hj with h | h
    · exact hl j h
    · exact hk j h
  rp := by
    obtain ⟨x, h⟩ := a.rp
    obtain ⟨y, g⟩ := b.rp
    exact ⟨y, by rw [g, h]⟩
  sb := by
    obtain ⟨x, h, hx⟩ := a.sb
    obtain ⟨y, g, hy⟩ := b.sb
    exact ⟨y, by rw [g, h], fun r => hy (by rw [h]; exact hx r)⟩
  te := b.te.trans a.te
  tu := b.tu.trans a.tu
  mp := b.mp.trans a.mp
  soft := b.soft.trans a.soft
  resetAsserted := b.resetAsserted.trans a.resetAsserted
  arrivals := b.arrivals.trans a.arrivals
  pending := b.pending.trans a.pending

theorem setChan (n : ChanId) (s : State) (c : Channel) : Acts n s (s.setChan n c) :=
  { refl n s with others := fun m h => chan_setChan_ne s n m c h }

theorem modChan (n : ChanId) (s : State) (f : Channel → Channel) : Acts n s (s.modChan n f) := setChan n s _

theorem setActivity (n : ChanId) (s : State) (a : Activity) : Acts n s (s.setActivity n a) := modChan n s _

theorem queueFu (s : State) (j : FuJob) (h : j.chan = n) : Acts n s (s.queueFu j) :=
  { refl n s with others := fun _ _ => rfl, fu := ⟨[j], rfl, by simp [h]⟩ }

theorem queueSu (s : State) (r : SuReq) (h : OwnRequest n s r) : Acts n s (s.queueSu r) :=
  { refl n s with others := fun _ _ => rfl, su := ⟨[r], rfl, by simpa using h⟩ }

/-- A wait of the channel. -/
theorem queueWait (n : ChanId) (k : SemId) (s : State) : Acts n s (s.queueSu (.wait n k)) :=
  queueSu s _ ⟨rfl, .inr ⟨by simp, by simp⟩⟩

/-- A notify of the channel. -/
theorem queueNotify (n : ChanId) (k : SemId) (s : State) : Acts n s (s.queueSu (.notify n k)) :=
  queueSu s _ ⟨rfl, .inr ⟨by simp, by simp⟩⟩

theorem queueDrain (n : ChanId) (s : State) : Acts n s (s.queueLb (.drain n)) :=
  { refl n s with others := fun _ _ => rfl, lb := ⟨[.drain n], rfl, by simp⟩ }

theorem refuse (n : ChanId) (s : State) (r : Reason) : Acts n s (s.refuse r) :=
  { refl n s with others := fun _ _ => rfl, rp := ⟨r, rfl⟩, sb := ⟨true, rfl, fun _ => rfl⟩ }

theorem askFu (n : ChanId) (s : State) (k : FuKind) (q : MpReq) (a : Activity) : Acts n s (s.askFu n k q a) :=
  (setActivity n s a).trans (queueFu _ _ rfl)

end Acts

variable (n : ChanId) (s : State)

theorem acts_beginHalt (c : FaultCode) (va : VAddr) : Acts n s (beginHalt n c va s) :=
  (Acts.modChan n s _).trans (Acts.queueDrain n _)

theorem acts_beginStop : Acts n s (beginStop n s) := (Acts.setActivity n s _).trans (Acts.queueDrain n _)

theorem acts_stopHere : Acts n s (stopHere n s) := by
  unfold stopHere; split
  · exact Acts.refl n s
  · exact acts_beginStop n s

theorem acts_askSave (st : ChState) (a : Activity) : Acts n s (askSave n st a s) := Acts.askFu n s _ _ _

theorem acts_postingPoint : Acts n s (postingPoint n s) := by
  unfold postingPoint; dsimp only; split_ifs
  · exact acts_stopHere n s
  · exact (Acts.setActivity n s _).trans (Acts.queueWait n _ _)
  · exact Acts.refl n s

theorem acts_enterPosting : Acts n s (enterPosting n s) := (Acts.modChan n s _).trans (acts_postingPoint n _)

theorem acts_followLink (l : BitVec 64) : Acts n s (followLink n l s) := by
  unfold followLink; split
  · exact acts_beginHalt n s _ _
  · exact Acts.askFu n s _ _ _

theorem acts_fetchPoint : Acts n s (fetchPoint n s) := by
  unfold fetchPoint; dsimp only; split_ifs
  · exact acts_stopHere n s
  · split
    · exact acts_followLink n s _
    · exact Acts.askFu n s _ _ _
  · exact Acts.refl n s

theorem acts_enterFetch : Acts n s (enterFetch n s) := (Acts.modChan n s _).trans (acts_fetchPoint n _)

theorem acts_readyPoint : Acts n s (readyPoint n s) := by
  unfold readyPoint; dsimp only; split_ifs
  · exact acts_beginHalt n s _ _
  · exact acts_stopHere n s
  · exact Acts.refl n s

theorem acts_enterFinishing : Acts n s (enterFinishing n s) := (Acts.modChan n s _).trans (Acts.queueDrain n _)

theorem acts_enterWork : Acts n s (enterWork n s) := by
  unfold enterWork; split
  · exact Acts.refl n s
  · dsimp only; split
    · exact (Acts.modChan n s _).trans (acts_enterFinishing n _)
    · exact (Acts.modChan n s _).trans ((Acts.modChan n _ _).trans (acts_readyPoint n _))
    · exact (Acts.modChan n s _).trans ((Acts.modChan n _ _).trans (acts_readyPoint n _))

theorem acts_prewaitPoint : Acts n s (prewaitPoint n s) := by
  unfold prewaitPoint; dsimp only; split
  · exact acts_enterWork n s
  · split_ifs
    · exact acts_stopHere n s
    · exact (Acts.setActivity n s _).trans (Acts.queueWait n _ _)
    · exact Acts.refl n s

theorem acts_taskEnd : Acts n s (taskEnd n s) := by
  unfold taskEnd; dsimp only; split_ifs
  · exact (Acts.setChan n s _).trans (acts_beginStop n _)
  · exact (Acts.setChan n s _).trans (acts_stopHere n _)
  · exact (Acts.setChan n s _).trans (acts_enterPosting n _)

theorem acts_askStatus (k : FuKind) (i : BitVec 512) (a : Activity) : Acts n s (askStatus n k i a s) :=
  Acts.askFu n s _ _ _

theorem acts_notifyPoint : Acts n s (notifyPoint n s) := by
  unfold notifyPoint; dsimp only; split
  · split_ifs
    · exact (Acts.setActivity n s _).trans (Acts.queueNotify n _ _)
    · exact Acts.refl n s
  · split_ifs
    · exact acts_askStatus n s _ _ _
    · exact acts_taskEnd n s

theorem acts_goOn : Acts n s (goOn n s) := by
  unfold goOn; dsimp only; split
  · exact Acts.refl n s
  · split
    · split
      · exact acts_prewaitPoint n s
      · exact acts_postingPoint n s
    · exact acts_fetchPoint n s
    · exact acts_notifyPoint n s
    · exact acts_readyPoint n s
    all_goals exact Acts.refl n s

theorem acts_contextAnswered (r : Resp) (d : BitVec 384) : Acts n s (contextAnswered n r d s) := by
  unfold contextAnswered; split_ifs
  · exact (Acts.modChan n s _).trans (acts_postingPoint n _)
  · exact acts_beginHalt n s _ _
  · exact acts_beginHalt n s _ _

theorem acts_linkAnswered (r : Resp) (d : BitVec 64) : Acts n s (linkAnswered n r d s) := by
  unfold linkAnswered; split_ifs
  · exact acts_followLink n s _
  · exact acts_beginHalt n s _ _

theorem acts_formatFault (i : Nat) : Acts n s (formatFault n i s) := (Acts.modChan n s _).trans (acts_beginHalt n _ _ _)

theorem acts_acceptRecord (a : PAddr) (t : Except Nat Task) : Acts n s (acceptRecord n a t s) := by
  unfold acceptRecord; split
  · exact acts_formatFault n s _
  · exact (Acts.modChan n s _).trans (Acts.askFu n _ _ _ _)

theorem acts_headerAnswered (a : PAddr) (r : Resp) (d : BitVec 256) : Acts n s (headerAnswered n a r d s) := by
  unfold headerAnswered; split_ifs
  · split
    · exact acts_formatFault n s _
    · split_ifs
      · exact acts_acceptRecord n s _ _
      · exact Acts.askFu n s _ _ _
  · exact acts_beginHalt n s _ _
  · exact acts_beginHalt n s _ _

theorem acts_bodyAnswered (a : PAddr) (hd : BitVec 256) (r : Resp) (d : BitVec 4736) :
    Acts n s (bodyAnswered n a hd r d s) := by
  unfold bodyAnswered; split_ifs
  · split
    · exact acts_formatFault n s _
    · exact acts_acceptRecord n s _ _
  · exact acts_beginHalt n s _ _

theorem acts_acceptanceAnswered (a : PAddr) (ok : Bool) : Acts n s (acceptanceAnswered n a ok s) := by
  unfold acceptanceAnswered; split_ifs
  · exact (Acts.modChan n s _).trans (acts_prewaitPoint n _)
  · exact acts_beginHalt n s _ _

theorem acts_doneAnswered (ok : Bool) : Acts n s (doneAnswered n ok s) := by
  unfold doneAnswered; split_ifs
  · exact (Acts.modChan n s _).trans (acts_notifyPoint n _)
  · exact acts_beginHalt n s _ _

theorem acts_doneRewriteAnswered (ok : Bool) : Acts n s (doneRewriteAnswered n ok s) := by
  unfold doneRewriteAnswered; split_ifs
  · exact acts_taskEnd n s
  · exact acts_beginHalt n s _ _

theorem acts_skippedAnswered : Acts n s (skippedAnswered n s) := (Acts.modChan n s _).trans (acts_enterPosting n _)

theorem acts_saveAnswered : Acts n s (saveAnswered n s) := Acts.modChan n s _

/-- FU's answer concerns the channel of its request alone (R49). -/
theorem acts_fuAnswered (j : FuJob) (g : Got 4736) : Acts j.chan s (fuAnswered j g s) := by
  unfold fuAnswered; dsimp only; split_ifs
  · exact Acts.refl _ s
  · split
    · exact acts_contextAnswered _ s _ _
    · exact acts_linkAnswered _ s _ _
    · split
      · exact acts_headerAnswered _ s _ _ _
      · exact Acts.refl _ s
    · split
      · exact acts_bodyAnswered _ s _ _ _ _
      · exact Acts.refl _ s
    · split
      · exact acts_acceptanceAnswered _ s _ _
      · exact Acts.refl _ s
    · exact acts_doneAnswered _ s _
    · exact acts_doneRewriteAnswered _ s _
    · exact acts_askSave _ s _ _
    · exact acts_skippedAnswered _ s
    · exact acts_saveAnswered _ s

theorem acts_waitSucceeded : Acts n s (waitSucceeded n s) := by
  unfold waitSucceeded; dsimp only; split_ifs
  · exact Acts.refl n s
  · exact (Acts.setChan n s _).trans (acts_prewaitPoint n _)
  · exact acts_enterFetch n s

theorem acts_waitParked (h : s.isParked n = true) : Acts n s (waitParked n s) := by
  unfold waitParked; dsimp only; split_ifs
  · exact Acts.refl n s
  · exact (Acts.setActivity n s _).trans (Acts.queueSu _ _ ⟨rfl, .inl h⟩)
  · exact Acts.setActivity n s _

theorem acts_requestFailed (c : FaultCode) : Acts n s (requestFailed n c s) := by
  unfold requestFailed; split_ifs
  · exact Acts.refl n s
  · exact acts_beginHalt n s _ _

theorem acts_notifyPerformed : Acts n s (notifyPerformed n s) := by
  unfold notifyPerformed; dsimp only; split_ifs
  · exact Acts.refl n s
  · exact (Acts.setChan n s _).trans (acts_notifyPoint n _)

theorem acts_stopUndone : Acts n s (stopUndone n s) := by
  unfold stopUndone; split_ifs
  · exact Acts.refl n s
  · exact (Acts.setActivity n s _).trans (acts_beginStop n _)

theorem acts_stopUndoFailed : Acts n s (stopUndoFailed n s) := by
  unfold stopUndoFailed; split_ifs
  · exact Acts.refl n s
  · exact (Acts.modChan n s _).trans (Acts.refuse n _ _)

theorem acts_resetDrain : Acts n s (resetDrain n s) := (Acts.modChan n s _).trans (Acts.queueDrain n _)

theorem acts_resetUndoAnswered : Acts n s (resetUndoAnswered n s) := by
  unfold resetUndoAnswered; split_ifs
  · exact acts_resetDrain n s
  · exact Acts.refl n s

theorem acts_sliceEnded (f : Option (FaultCode × VAddr)) : Acts n s (sliceEnded n f s) := by
  unfold sliceEnded; dsimp only; split
  · exact Acts.modChan n s _
  · split
    · exact (Acts.modChan n s _).trans (acts_beginHalt n _ _ _)
    · split
      · exact (Acts.modChan n s _).trans (acts_beginHalt n _ _ _)
      · split
        · exact (Acts.modChan n s _).trans (acts_stopHere n _)
        · split
          · exact (Acts.modChan n s _).trans (acts_enterFinishing n _)
          · exact Acts.modChan n s _

theorem acts_drainAnswered : Acts n s (drainAnswered n s) := by
  unfold drainAnswered; dsimp only; split
  · exact Acts.setChan n s _
  · exact Acts.refl n s
  · exact Acts.refl n s
  · split
    · split_ifs
      · exact acts_beginHalt n s _ _
      · exact (Acts.modChan n s _).trans (acts_askStatus n _ _ _ _)
    · split_ifs
      · exact acts_beginHalt n s _ _
      · exact acts_askSave n s _ _
    · split_ifs
      · exact (Acts.modChan n s _).trans (acts_askStatus n _ _ _ _)
      · exact (Acts.modChan n s _).trans (acts_askSave n _ _ _)
    · exact Acts.refl n s

theorem acts_setMark : Acts n s (setMark n s) := by
  unfold setMark; dsimp only; split_ifs
  · exact Acts.refl n s
  · exact Acts.setChan n s _

theorem acts_takeStart : Acts n s (takeStart n s) := by
  unfold takeStart; split_ifs
  · exact (Acts.setChan n s _).trans (Acts.askFu n _ _ _ _)
  · exact Acts.refuse n s _
  · exact Acts.refuse n s _

theorem acts_takeStop : Acts n s (takeStop n s) := by
  unfold takeStop; dsimp only; split_ifs
  · exact Acts.refuse n s _
  · exact Acts.refl n s
  · exact (Acts.setChan n s _).trans (Acts.queueSu _ _ ⟨rfl, .inl ‹_›⟩)
  · exact (Acts.setChan n s _).trans (acts_goOn n _)

theorem acts_resumeFrom : Acts n s (resumeFrom n s) := by
  unfold resumeFrom; dsimp only; split_ifs
  · exact (Acts.setChan n s _).trans (Acts.askFu n _ _ _ _)
  · split
    · exact acts_enterPosting n s
    · exact acts_enterFetch n s
    · exact (Acts.setChan n s _).trans (acts_prewaitPoint n _)
    · exact Acts.setChan n s _
    · exact Acts.setChan n s _
    · exact acts_enterFinishing n s
    · exact (Acts.setChan n s _).trans (acts_askStatus n _ _ _ _)
    · exact (Acts.setChan n s _).trans (acts_notifyPoint n _)

theorem acts_takeResume : Acts n s (takeResume n s) := by
  unfold takeResume; dsimp only; split_ifs
  · exact Acts.refuse n s _
  · exact (Acts.setChan n s _).trans (acts_resumeFrom n _)
  · exact Acts.refuse n s _

theorem acts_takeSkip : Acts n s (takeSkip n s) := by
  unfold takeSkip; dsimp only; split
  · split_ifs
    · exact Acts.askFu n s _ _ _
    · exact Acts.refuse n s _
  · exact Acts.refuse n s _

/-- A channel command concerns its own channel alone (R37). -/
theorem acts_takeChannelCommand (k : Command) : Acts n s (takeChannelCommand n k s) := by
  cases k
  · exact acts_takeStart n s
  · exact acts_takeStop n s
  · exact acts_takeResume n s
  · exact acts_takeSkip n s
  · exact (Acts.modChan n s _ : Acts n s (takeReset n s))

theorem acts_resetGoesOn : Acts n s (resetGoesOn n s) := by
  unfold resetGoesOn; split_ifs
  · exact (Acts.modChan n s _).trans (Acts.queueSu _ _ ⟨rfl, .inl ‹_›⟩)
  · exact acts_resetDrain n s

end Sys2Proof.Laws
end

