-- ==== Sys2Proof/Laws/Settle.lean ====
section
/-! SUPPORT. The internal steps of the part: how one arises, how a property is carried through all of them, what each unit's
step can change, and that a channel left alone keeps its state. -/

namespace Sys2Proof.Laws

open Sys2Proof.Machine

/-! ## Carrying a property through the internal steps -/

theorem settleFor_of_none {s : State} (h : micro s = none) (fuel : Nat) : settleFor fuel s = s := by
  cases fuel <;> simp [settleFor, h]

theorem settleFor_succ {s t : State} (h : micro s = some t) (fuel : Nat) : settleFor (fuel + 1) s = settleFor fuel t := by
  simp [settleFor, h]

/-- In a settled state nothing more comes about. -/
theorem settle_of_settled {s : State} (h : s.isSettled) : settle s = s := settleFor_of_none h _

/-- A property that every internal step keeps is kept by all of them. -/
theorem settleFor_induct (P : State → Prop) (h : ∀ s t, P s → micro s = some t → P t) :
    ∀ fuel s, P s → P (settleFor fuel s)
  | 0, _, p => p
  | fuel + 1, s, p => by
    unfold settleFor
    split
    · exact p
    · exact settleFor_induct P h fuel _ (h _ _ p (by assumption))

theorem settle_induct (P : State → Prop) (h : ∀ s t, P s → micro s = some t → P t) {s : State} (p : P s) : P (settle s) :=
  settleFor_induct P h _ s p

/-- An internal step is one unit's. -/
theorem micro_cases {s t : State} (h : micro s = some t) :
    fuHandOver s = some t ∨ suHandOver s = some t ∨ teHandOver s = some t ∨ tuHandOver s = some t ∨ lbHandOver s = some t
      ∨ sbStep s = some t ∨ fuStep s = some t ∨ suStep s = some t ∨ lbStep s = some t ∨ tuStep s = some t
      ∨ teStep s = some t := by
  simp only [micro, microSteps] at h
  obtain ⟨f, hf, hs⟩ := List.exists_of_findSome?_eq_some h
  simp only [List.mem_cons, List.not_mem_nil, or_false] at hf
  rcases hf with rfl | rfl | rfl | rfl | rfl | rfl | rfl | rfl | rfl | rfl | rfl <;> simp [hs]

/-- The part has settled when no unit has a step to make. -/
theorem settled_iff (s : State) :
    s.isSettled ↔ fuHandOver s = none ∧ suHandOver s = none ∧ teHandOver s = none ∧ tuHandOver s = none
      ∧ lbHandOver s = none ∧ sbStep s = none ∧ fuStep s = none ∧ suStep s = none ∧ lbStep s = none ∧ tuStep s = none
      ∧ teStep s = none := by
  simp [State.isSettled, micro, microSteps, List.findSome?_eq_none_iff]

/-! ## Hand-overs -/

/-- A hand-over leaves SB as it was, or adds the event of a unit whose place was free (R168, R169). -/
theorem handOver_cases {b c : StatusBlock} {e : ErrorEvent} (h : b.handOver e = some c) :
    c = b ∨ (b.reports e = true ∧ (∀ x ∈ b.queue, x.unit ≠ e.unit) ∧ c = { b with queue := b.queue ++ [e] }) := by
  unfold StatusBlock.handOver at h
  split_ifs at h with h1 h2
  · right
    refine ⟨h2, fun x hx e' => h1 ?_, by simpa using h.symm⟩
    exact List.any_eq_true.mpr ⟨x, hx, by simpa using e'⟩
  · left; simpa using h.symm

/-- What a hand-over changes: SB, and the events its unit keeps. -/
theorem fuHandOver_some {s t : State} (h : fuHandOver s = some t) :
    ∃ e l b, s.fu.held = e :: l ∧ s.sb.handOver e = some b ∧ t = { s with sb := b, fu := { s.fu with held := l } } := by
  unfold fuHandOver at h
  split at h
  · cases h
  · obtain ⟨b, hb, rfl⟩ := Option.map_eq_some_iff.mp h; exact ⟨_, _, b, ‹_›, hb, rfl⟩

theorem suHandOver_some {s t : State} (h : suHandOver s = some t) :
    ∃ e l b, s.su.held = e :: l ∧ s.sb.handOver e = some b ∧ t = { s with sb := b, su := { s.su with held := l } } := by
  unfold suHandOver at h
  split at h
  · cases h
  · obtain ⟨b, hb, rfl⟩ := Option.map_eq_some_iff.mp h; exact ⟨_, _, b, ‹_›, hb, rfl⟩

theorem teHandOver_some {s t : State} (h : teHandOver s = some t) :
    ∃ e l b, s.te.held = e :: l ∧ s.sb.handOver e = some b ∧ t = { s with sb := b, te := { s.te with held := l } } := by
  unfold teHandOver at h
  split at h
  · cases h
  · obtain ⟨b, hb, rfl⟩ := Option.map_eq_some_iff.mp h; exact ⟨_, _, b, ‹_›, hb, rfl⟩

theorem tuHandOver_some {s t : State} (h : tuHandOver s = some t) :
    ∃ e l b, s.tu.held = e :: l ∧ s.sb.handOver e = some b ∧ t = { s with sb := b, tu := { s.tu with held := l } } := by
  unfold tuHandOver at h
  split at h
  · cases h
  · obtain ⟨b, hb, rfl⟩ := Option.map_eq_some_iff.mp h; exact ⟨_, _, b, ‹_›, hb, rfl⟩

theorem lbHandOver_some {s t : State} (h : lbHandOver s = some t) :
    ∃ e l b, s.lb.held = e :: l ∧ s.sb.handOver e = some b ∧ t = { s with sb := b, lb := { s.lb with held := l } } := by
  unfold lbHandOver at h
  split at h
  · cases h
  · obtain ⟨b, hb, rfl⟩ := Option.map_eq_some_iff.mp h; exact ⟨_, _, b, ‹_›, hb, rfl⟩

/-- SB's step: it takes the oldest event and issues its record write (R170). -/
theorem sbStep_some {s t : State} (h : sbStep s = some t) :
    ∃ e q, s.sb.writing = none ∧ s.sb.queue = e :: q ∧
      t = { s with
            sb := { s.sb with queue := q, counter := s.sb.counted, errorEvent := true, writing := some e }
            mp :=
              { s.mp with
                sb := some (.write s.errorRecordAddr (BitVec.allOnes 64) (errorImage e s.sb.counted)) } } := by
  unfold sbStep at h
  split at h
  · exact ⟨_, _, ‹_›, ‹_›, (Option.some.inj h).symm⟩
  · cases h

/-- FU's step: it delivers the answer in hand, or takes its next request (R49). -/
theorem fuStep_some {s t : State} (h : fuStep s = some t) :
    (∃ j g, s.fu.current = some j ∧ s.fu.got = some g ∧ s.fu.held = [] ∧ t = fuDeliver j g s)
      ∨ ∃ j q, s.fu.current = none ∧ s.fu.held = [] ∧ s.fu.queue = j :: q ∧ t = fuTake j q s := by
  unfold fuStep at h
  split at h
  · exact .inl ⟨_, _, ‹_›, ‹_›, ‹_›, (Option.some.inj h).symm⟩
  · split at h
    · exact .inr ⟨_, _, ‹_›, ‹_›, ‹_›, (Option.some.inj h).symm⟩
    · cases h
  · cases h

/-- SU's step: it acts on the answer in hand, or takes its next request (R50). -/
theorem suStep_some {s t : State} (h : suStep s = some t) :
    (∃ o g, s.su.current = some o ∧ s.su.got = some g ∧ s.su.held = [] ∧ t = suAnswered o g s)
      ∨ ∃ r q, s.su.current = none ∧ s.su.held = [] ∧ s.su.queue = r :: q ∧ t = suTake r q s := by
  unfold suStep at h
  split at h
  · exact .inl ⟨_, _, ‹_›, ‹_›, ‹_›, (Option.some.inj h).symm⟩
  · split at h
    · exact .inr ⟨_, _, ‹_›, ‹_›, ‹_›, (Option.some.inj h).symm⟩
    · cases h
  · cases h

/-- LB's step changes LB and its request at MP, and nothing else. -/
theorem lbStep_frame {s t : State} (h : lbStep s = some t) :
    ∃ b q, t = { s with lb := b, mp := { s.mp with lb := q } } ∧ b.held = s.lb.held := by
  unfold lbStep at h
  split at h
  · split at h
    · exact ⟨_, s.mp.lb, (Option.some.inj h).symm, rfl⟩
    · cases h
  · split at h
    · unfold lbAdvance at h
      (repeat' split at h) <;>
        first
        | exact ⟨_, s.mp.lb, (Option.some.inj h).symm, rfl⟩
        | exact ⟨_, _, (Option.some.inj h).symm, rfl⟩
        | cases h
    · cases h

/-- TU's step changes TU and its request at MP, and nothing else. -/
theorem tuStep_frame {s t : State} (h : tuStep s = some t) :
    ∃ u q, t = { s with tu := u, mp := { s.mp with tu := q } } ∧ u.held = s.tu.held := by
  have walk : ∀ q x (s : State), ∃ u p, walkNext q x s = { s with tu := u, mp := { s.mp with tu := p } }
      ∧ u.held = s.tu.held := by
    intro q x s
    cases x
    · exact ⟨_, s.mp.tu, rfl, rfl⟩
    · exact ⟨_, s.mp.tu, rfl, rfl⟩
    · exact ⟨_, _, rfl, rfl⟩
  unfold tuStep at h
  split at h
  · split at h
    · cases h
      unfold tuAnswered
      dsimp only
      split
      · obtain ⟨u, p, e, hu⟩ := walk _ _ _; exact ⟨u, p, e, hu⟩
      · obtain ⟨u, p, e, hu⟩ := walk _ _ _; exact ⟨u, p, e, hu⟩
      · obtain ⟨u, p, e, hu⟩ := walk _ _ _; exact ⟨u, p, e, hu⟩
      · obtain ⟨u, p, e, hu⟩ := walk _ _ _; exact ⟨u, p, e, hu⟩
      all_goals exact ⟨_, s.mp.tu, rfl, rfl⟩
    · split at h
      · exact ⟨_, _, (Option.some.inj h).symm, rfl⟩
      · cases h
  · cases h

end Sys2Proof.Laws
end

