-- ==== Sys2Proof/Laws/Engine.lean ====
section
/-! SUPPORT. What the Transfer Engine's steps can do for the channel that holds the grant: they change that channel, TE and
TU, append requests, and touch no other channel and no other unit. -/

namespace Sys2Proof.Laws

open Sys2Proof.Machine

/-- What TE's work for channel `n` leads to. -/
structure Engages (n : ChanId) (s t : State) : Prop where
  others : ∀ m, m ≠ n → t.chan m = s.chan m
  fu : ∃ l, t.fu = { s.fu with queue := s.fu.queue ++ l } ∧ ∀ j ∈ l, j.chan = n
  su : ∃ l, t.su = { s.su with queue := s.su.queue ++ l } ∧ ∀ r ∈ l, OwnRequest n s r
  lb : ∃ l, t.lb = { s.lb with queue := s.lb.queue ++ l }
  rp : ∃ x, t.rp = { s.rp with refuseReason := x }
  sb : ∃ b, t.sb = { s.sb with refused := b } ∧ (s.sb.refused = true → b = true)
  grant : t.te.grant = s.te.grant ∨ t.te.grant = none
  rotor : t.te.rotor = s.te.rotor
  held : t.te.held = s.te.held
  mp : ∃ q, t.mp = { s.mp with te := q }
  soft : t.soft = s.soft
  resetAsserted : t.resetAsserted = s.resetAsserted
  arrivals : t.arrivals = s.arrivals
  pending : t.pending = s.pending

namespace Engages

variable {n : ChanId} {s t u : State}

theorem ofActs (a : Acts n s t) : Engages n s t where
  others := a.others
  fu := a.fu
  su := a.su
  lb := let ⟨l, h, _⟩ := a.lb; ⟨l, h⟩
  rp := a.rp
  sb := a.sb
  grant := .inl (by rw [a.te])
  rotor := by rw [a.te]
  held := by rw [a.te]
  mp := ⟨s.mp.te, by rw [a.mp]⟩
  soft := a.soft
  resetAsserted := a.resetAsserted
  arrivals := a.arrivals
  pending := a.pending

theorem refl (n : ChanId) (s : State) : Engages n s s := ofActs (Acts.refl n s)

theorem trans (a : Engages n s t) (b : Engages n t u) : Engages n s u where
  others m h := (b.others m h).trans (a.others m h)
  fu := by
    obtain ⟨l, h, hl⟩ := a.fu
    obtain ⟨k, g, hk⟩ := b.fu
    refine ⟨l ++ k, by rw [g, h]; simp, fun j hj => ?_⟩
    rcases List.mem_append.mp hj with h | h
    · exact hl j h
    · exact hk j h
  su := by
    obtain ⟨l, h, hl⟩ := a.su
    obtain ⟨k, g, hk⟩ := b.su
    refine ⟨l ++ k, by rw [g, h]; simp, fun j hj => ?_⟩
    have hp : t.isParked n = s.isParked n := by rw [State.isParked, h]; rfl
    rcases List.mem_append.mp hj with h | h
    · exact hl j h
    · simpa only [OwnRequest, hp] using hk j h
  lb := by
    obtain ⟨l, h⟩ := a.lb
    obtain ⟨k, g⟩ := b.lb
    exact ⟨l ++ k, by rw [g, h]; simp⟩
  rp := by
    obtain ⟨x, h⟩ := a.rp
    obtain ⟨y, g⟩ := b.rp
    exact ⟨y, by rw [g, h]⟩
  sb := by
    obtain ⟨x, h, hx⟩ := a.sb
    obtain ⟨y, g, hy⟩ := b.sb
    exact ⟨y, by rw [g, h], fun r => hy (by rw [h]; exact hx r)⟩
  grant := by
    rcases b.grant with h | h
    · rcases a.grant with g | g
      · exact .inl (h.trans g)
      · exact .inr (h.trans g)
    · exact .inr h
  rotor := b.rotor.trans a.rotor
  held := b.held.trans a.held
  mp := by
    obtain ⟨x, h⟩ := a.mp
    obtain ⟨y, g⟩ := b.mp
    exact ⟨y, by rw [g, h]⟩
  soft := b.soft.trans a.soft
  resetAsserted := b.resetAsserted.trans a.resetAsserted
  arrivals := b.arrivals.trans a.arrivals
  pending := b.pending.trans a.pending

/-- A change of TE and TU alone that keeps the grant or frees it. -/
theorem units (n : ChanId) (s : State) (e : Engine) (v : TransUnit) (q : Option MpReq)
    (hg : e.grant = s.te.grant ∨ e.grant = none) (hr : e.rotor = s.te.rotor) (hh : e.held = s.te.held) :
    Engages n s { s with te := e, tu := v, mp := { s.mp with te := q } } :=
  { refl n s with others := fun _ _ => rfl, grant := hg, rotor := hr, held := hh, mp := ⟨q, rfl⟩ }

theorem modChan (n : ChanId) (s : State) (f : Channel → Channel) : Engages n s (s.modChan n f) :=
  ofActs (Acts.modChan n s f)

theorem setChan (n : ChanId) (s : State) (c : Channel) : Engages n s (s.setChan n c) := ofActs (Acts.setChan n s c)

theorem setTeStep (n : ChanId) (s : State) (x : TeStep) : Engages n s (s.setTeStep x) :=
  units n s { s.te with step := x } s.tu s.mp.te (.inl rfl) rfl rfl

theorem queueLb (n : ChanId) (s : State) (r : LbReq) : Engages n s (s.queueLb r) :=
  { refl n s with others := fun _ _ => rfl, lb := ⟨[r], rfl⟩ }

end Engages

variable (n : ChanId) (s : State)

theorem engages_endSlice (f : Option (FaultCode × VAddr)) : Engages n s (endSlice n f s) :=
  (Engages.units n s
    { s.te with grant := none, counter := 0, kind := none, purgeStep := none, step := .idle } s.tu s.mp.te (.inr rfl)
    rfl rfl).trans (.ofActs (acts_sliceEnded n _ f))

theorem engages_sliceFault (c : FaultCode) (va : VAddr) : Engages n s (sliceFault n c va s) := engages_endSlice n s _

theorem engages_askTranslation (va : VAddr) (w : Bool) (a : Access) : Engages n s (askTranslation n va w a s) :=
  Engages.units n s { s.te with step := .translating a } _ s.mp.te (.inl rfl) rfl rfl

theorem engages_startElement (m : Move) : Engages n s (startElement n m s) := by
  unfold startElement; dsimp only; split_ifs
  · exact engages_sliceFault n s _ _
  · exact engages_sliceFault n s _ _
  · split <;> exact engages_askTranslation n s _ _ _

theorem engages_moveBegun (m : Move) (f : Option (BitVec 64)) : Engages n s (moveBegun n m f s) :=
  (Engages.modChan n s _).trans (engages_startElement n _ m)

theorem engages_takeFill (m : Move) (v : BitVec 64) : Engages n s (takeFill n m v s) := by
  unfold takeFill; split
  · exact engages_sliceFault n s _ _
  · exact engages_moveBegun n s m _

theorem engages_beginMove (m : Move) : Engages n s (beginMove n m s) := by
  unfold beginMove; split
  · exact engages_sliceFault n s _ _
  · split
    · exact engages_moveBegun n s m _
    · exact engages_moveBegun n s m _
    · split
      · exact engages_takeFill n s m _
      · dsimp only; split
        · exact engages_askTranslation n s _ _ _
        · exact engages_sliceFault n s _ _

theorem engages_elementBoundary : Engages n s (elementBoundary n s) := by
  unfold elementBoundary; dsimp only; split
  · exact engages_endSlice n s _
  · split
    · exact engages_endSlice n s _
    · split
      · exact engages_beginMove n s _
      · exact engages_startElement n s _

theorem engages_elementDone (m : Move) (x : Bool) : Engages n s (elementDone n m x s) := by
  have h1 : Engages n s
      { s.setChan n ((s.chan n).performedElement m x) with te := { s.te with counter := s.te.counter + 1 } } :=
    (Engages.setChan n s _).trans
      (Engages.units n _ { s.te with counter := s.te.counter + 1 } s.tu s.mp.te (.inl rfl) rfl rfl)
  unfold elementDone; dsimp only; split
  · exact h1.trans ((Engages.setChan n _ _).trans (engages_endSlice n _ _))
  · split
    · exact h1.trans (Engages.setTeStep n _ _)
    · exact h1.trans (Engages.setTeStep n _ _)

theorem engages_translationAnswered (m : Move) (a : Access) (x : TuAnswer) :
    Engages n s (translationAnswered n m a x s) := by
  have h1 : Engages n s
      { s with tu := { s.tu with req := none, stage := .idle, root := none, descriptor := none, pageEntry := none } } :=
    Engages.units n s s.te _ s.mp.te (.inl rfl) rfl rfl
  unfold translationAnswered; dsimp only; split
  · exact h1.trans (engages_sliceFault n _ _ _)
  · split
    · split
      · exact h1.trans ((Engages.setTeStep n _ _).trans (Engages.queueLb n _ _))
      · exact h1.trans ((Engages.setTeStep n _ _).trans (Engages.queueLb n _ _))
    all_goals exact h1.trans ((Engages.setTeStep n _ _).trans (Engages.queueLb n _ _))

theorem engages_issueRead (m : Move) (a : Access) (pa : PAddr) : Engages n s (issueRead m a pa s) :=
  Engages.units n s { s.te with step := .reading a pa } s.tu _ (.inl rfl) rfl rfl

theorem engages_issueDeviceWrite (m : Move) (v : BitVec 64) (pa : PAddr) : Engages n s (issueDeviceWrite m v pa s) :=
  Engages.units n s { s.te with step := .deviceWrite v pa } s.tu _ (.inl rfl) rfl rfl

theorem engages_valueRead (m : Move) (a : Access) (v : BitVec 64) : Engages n s (valueRead n m a v s) := by
  unfold valueRead; dsimp only; split
  · exact engages_takeFill n s m v
  · split
    · exact engages_askTranslation n s _ _ _
    all_goals
      split
      · exact engages_sliceFault n s _ _
      · exact engages_askTranslation n s _ _ _
  · exact engages_elementDone n s m _
  · exact Engages.refl n s

theorem engages_teAnswered (m : Move) (g : Got 64) : Engages n s (teAnswered n m g s) := by
  have h1 : Engages n s { s with te := { s.te with got := none } } :=
    Engages.units n s { s.te with got := none } s.tu s.mp.te (.inl rfl) rfl rfl
  unfold teAnswered; dsimp only; split
  · split
    · exact h1.trans (engages_valueRead n _ m _ _)
    · exact h1.trans (engages_sliceFault n _ _ _)
  · split
    · exact h1.trans (engages_elementDone n _ m _)
    · exact h1.trans (engages_sliceFault n _ _ _)
  · exact h1

/-- TE's step works for the channel that holds the grant alone (R99). -/
theorem teStep_engages {s t : State} (h : teStep s = some t) : ∃ n, s.te.grant = some n ∧ Engages n s t := by
  unfold teStep at h
  split at h
  · rename_i n hg _
    refine ⟨n, hg, ?_⟩
    split at h
    · cases h; exact engages_elementBoundary n s
    · split at h
      · cases h; exact engages_endSlice n s _
      · cases h
    · split at h
      · cases h; exact engages_translationAnswered n s _ _ _
      · cases h
    · split at h
      · cases h
      · cases h; exact engages_issueRead n s _ _ _
    · split at h
      · cases h
      · cases h; exact engages_elementDone n s _ _
    · cases h; exact engages_teAnswered n s _ _
    · cases h; exact engages_teAnswered n s _ _
    · cases h
  · cases h

end Sys2Proof.Laws
end

