-- ==== Sys2Proof/Laws/Semaphores.lean ====
section
/-! SUPPORT. What the Semaphore Unit's steps can do, and what every internal step keeps: RUN and the other controls, the
anchor, the order of the alert list and its bounds. -/

namespace Sys2Proof.Laws

open Sys2Proof.Machine

/-! ## What internal steps keep -/

/-- The registers and modes that no internal step changes; REFUSE_REASON, the alert list and the signal slot may move. -/
structure Keeps (s t : State) : Prop where
  rp : ∃ x l k, t.rp = { s.rp with refuseReason := x, alerts := s.rp.alerts ++ l, signalSlot := k }
    ∧ (k = s.rp.signalSlot ∨ k = none)
  alerts : s.alertsOk → t.alertsOk
  level : t.sb.level = s.sb.level
  soft : t.soft = s.soft
  resetAsserted : t.resetAsserted = s.resetAsserted
  arrivals : t.arrivals = s.arrivals
  pending : t.pending = s.pending

namespace Keeps

variable {s t u : State}

theorem trans (a : Keeps s t) (b : Keeps t u) : Keeps s u where
  rp := by
    obtain ⟨x, l, k, h, hk⟩ := a.rp
    obtain ⟨y, m, j, g, hj⟩ := b.rp
    refine ⟨y, l ++ m, j, by rw [g, h]; simp, ?_⟩
    rw [h] at hj
    rcases hj with e | e
    · rcases hk with f | f
      · exact .inl (e.trans f)
      · exact .inr (e.trans f)
    · exact .inr e
  alerts h := b.alerts (a.alerts h)
  level := b.level.trans a.level
  soft := b.soft.trans a.soft
  resetAsserted := b.resetAsserted.trans a.resetAsserted
  arrivals := b.arrivals.trans a.arrivals
  pending := b.pending.trans a.pending

/-- A change that leaves RP's registers but REFUSE_REASON, and the modes. -/
theorem of (h : ∃ x, t.rp = { s.rp with refuseReason := x }) (l : t.sb.level = s.sb.level) (f : t.soft = s.soft)
    (r : t.resetAsserted = s.resetAsserted) (a : t.arrivals = s.arrivals) (p : t.pending = s.pending) : Keeps s t where
  rp := let ⟨x, e⟩ := h; ⟨x, [], s.rp.signalSlot, by rw [e]; simp, .inl rfl⟩
  alerts o := by
    obtain ⟨x, e⟩ := h
    unfold State.alertsOk at *
    rw [e]; exact o
  level := l
  soft := f
  resetAsserted := r
  arrivals := a
  pending := p

theorem refl (s : State) : Keeps s s := of ⟨_, rfl⟩ rfl rfl rfl rfl rfl

theorem ofActs {n : ChanId} (a : Acts n s t) : Keeps s t :=
  of a.rp (by obtain ⟨b, h, _⟩ := a.sb; rw [h]) a.soft a.resetAsserted a.arrivals a.pending

theorem ofEngages {n : ChanId} (a : Engages n s t) : Keeps s t :=
  of a.rp (by obtain ⟨b, h, _⟩ := a.sb; rw [h]) a.soft a.resetAsserted a.arrivals a.pending

end Keeps

/-! ## Steps of SU -/

/-- The append to the alert list keeps it within 32 numbers, none twice (R59, R69). -/
theorem keeps_offerAlert (k : SemId) (s : State) : Keeps s (offerAlert k s) := by
  unfold offerAlert
  split
  · exact Keeps.refl s
  · split
    · exact .of ⟨_, rfl⟩ rfl rfl rfl rfl rfl
    · rename_i h1 h2
      exact
        { Keeps.refl s with
          rp := ⟨s.rp.refuseReason, [k], s.rp.signalSlot, rfl, .inl rfl⟩
          alerts := fun ⟨a, b⟩ => by
            refine ⟨?_, ?_⟩
            · simp only [List.length_append, List.length_singleton, Config.alertEntries] at *
              omega
            · simp only [List.contains_iff_mem] at h1
              exact List.nodup_append.mpr ⟨b, by simp, by simpa using fun a ha (e : a = k) => h1 (e ▸ ha)⟩ }

theorem keeps_wakeOne (b : Bool) (k : SemId) (c : BitVec 16) (s : State) : Keeps s (wakeOne b k c s) := by
  unfold wakeOne
  split
  · split
    · exact Keeps.refl s
    · refine Keeps.trans (t := { s with su := { s.su with parked := _ } }) ?_ (.ofActs (acts_waitSucceeded _ _))
      exact .of ⟨_, rfl⟩ rfl rfl rfl rfl rfl
  · exact Keeps.refl s

theorem keeps_notifyEffects (d : BitVec 48) (k : SemId) (c : BitVec 16) (s : State) : Keeps s (notifyEffects d k c s) := by
  unfold notifyEffects
  dsimp only
  split
  · exact (keeps_wakeOne _ k c s).trans (keeps_offerAlert k _)
  · exact keeps_wakeOne _ k c s

theorem keeps_suFree (s : State) : Keeps s s.suFree := .of ⟨_, rfl⟩ rfl rfl rfl rfl rfl

theorem keeps_unpark (s : State) (n : ChanId) : Keeps s (s.unpark n) := .of ⟨_, rfl⟩ rfl rfl rfl rfl rfl

theorem keeps_emptySignalSlot (s : State) : Keeps s s.emptySignalSlot :=
  { Keeps.refl s with rp := ⟨s.rp.refuseReason, [], none, by simp [State.emptySignalSlot], .inr rfl⟩, alerts := id }

theorem keeps_suFailed (r : SuReq) (f : SuFailure) (s : State) : Keeps s (suFailed r f s) := by
  cases r
  · exact .ofActs (acts_requestFailed _ _ _)
  · exact .ofActs (acts_requestFailed _ _ _)
  · exact .ofActs (acts_stopUndoFailed _ _)
  · exact (keeps_unpark s _).trans (.ofActs (acts_resetUndoAnswered _ _))
  · exact (keeps_emptySignalSlot s).trans (.of ⟨_, rfl⟩ rfl rfl rfl rfl rfl)

theorem keeps_waitPerformed (n : ChanId) (k : SemId) (c : BitVec 16) (s : State) : Keeps s (waitPerformed n k c s) := by
  unfold waitPerformed
  split
  · exact .ofActs (acts_waitSucceeded n s)
  · refine Keeps.trans (t := { s with su := { s.su with parked := _ } }) ?_ (.ofActs (acts_waitParked n _ (by simp [State.isParked])))
    exact .of ⟨_, rfl⟩ rfl rfl rfl rfl rfl

theorem keeps_suPerformed (o : SuOp) (d : BitVec 48) (s : State) : Keeps s (suPerformed o d s) := by
  unfold suPerformed
  split
  · exact keeps_waitPerformed _ _ _ s
  · exact (keeps_notifyEffects _ _ _ s).trans (.ofActs (acts_notifyPerformed _ _))
  · exact (keeps_notifyEffects _ _ _ s).trans (keeps_emptySignalSlot _)
  · exact (keeps_unpark s _).trans (.ofActs (acts_stopUndone _ _))
  · exact (keeps_unpark s _).trans (.ofActs (acts_resetUndoAnswered _ _))

theorem keeps_suAnswered (o : SuOp) (g : Got 48) (s : State) : Keeps s (suAnswered o g s) := by
  unfold suAnswered
  split
  · split
    · split
      · exact (keeps_suFree s).trans (keeps_suFailed _ _ _)
      · exact .of ⟨_, rfl⟩ rfl rfl rfl rfl rfl
    · exact (keeps_suFree s).trans (keeps_suFailed _ _ _)
  · split
    · exact (keeps_suFree s).trans (keeps_suPerformed _ _ _)
    · exact (keeps_suFree s).trans (keeps_suFailed _ _ _)

theorem keeps_notParked (r : SuReq) (s : State) : Keeps s (notParked r s) := by
  cases r
  · exact Keeps.refl s
  · exact Keeps.refl s
  · exact .ofActs (acts_goOn _ s)
  · exact .ofActs (acts_resetUndoAnswered _ s)
  · exact Keeps.refl s

theorem keeps_suTake (r : SuReq) (q : List SuReq) (s : State) : Keeps s (suTake r q s) := by
  have h : Keeps s { s with su := { s.su with queue := q } } := .of ⟨_, rfl⟩ rfl rfl rfl rfl rfl
  unfold suTake
  dsimp only
  split
  · exact h.trans (keeps_notParked r _)
  · exact .of ⟨_, rfl⟩ rfl rfl rfl rfl rfl

/-! ## Every internal step -/

theorem handOver_level {b c : StatusBlock} {e : ErrorEvent} (h : b.handOver e = some c) : c.level = b.level := by
  rcases handOver_cases h with rfl | ⟨_, _, rfl⟩ <;> rfl

/-- An internal step keeps the controls, and the alert list within its bounds. -/
theorem micro_keeps {s t : State} (h : micro s = some t) : Keeps s t := by
  rcases micro_cases h with h | h | h | h | h | h | h | h | h | h | h
  · obtain ⟨e, l, b, _, hb, rfl⟩ := fuHandOver_some h; exact .of ⟨_, rfl⟩ (handOver_level hb) rfl rfl rfl rfl
  · obtain ⟨e, l, b, _, hb, rfl⟩ := suHandOver_some h; exact .of ⟨_, rfl⟩ (handOver_level hb) rfl rfl rfl rfl
  · obtain ⟨e, l, b, _, hb, rfl⟩ := teHandOver_some h; exact .of ⟨_, rfl⟩ (handOver_level hb) rfl rfl rfl rfl
  · obtain ⟨e, l, b, _, hb, rfl⟩ := tuHandOver_some h; exact .of ⟨_, rfl⟩ (handOver_level hb) rfl rfl rfl rfl
  · obtain ⟨e, l, b, _, hb, rfl⟩ := lbHandOver_some h; exact .of ⟨_, rfl⟩ (handOver_level hb) rfl rfl rfl rfl
  · obtain ⟨e, q, _, _, rfl⟩ := sbStep_some h; exact .of ⟨_, rfl⟩ rfl rfl rfl rfl rfl
  · rcases fuStep_some h with ⟨j, g, _, _, _, rfl⟩ | ⟨j, q, _, _, _, rfl⟩
    · refine Keeps.trans (t := { s with fu := { s.fu with current := none, got := none } }) ?_
        (.ofActs (acts_fuAnswered _ j g))
      exact .of ⟨_, rfl⟩ rfl rfl rfl rfl rfl
    · exact .of ⟨_, rfl⟩ rfl rfl rfl rfl rfl
  · rcases suStep_some h with ⟨o, g, _, _, _, rfl⟩ | ⟨r, q, _, _, _, rfl⟩
    · exact keeps_suAnswered o g s
    · exact keeps_suTake r q s
  · obtain ⟨b, q, rfl, _⟩ := lbStep_frame h; exact .of ⟨_, rfl⟩ rfl rfl rfl rfl rfl
  · obtain ⟨u, q, rfl, _⟩ := tuStep_frame h; exact .of ⟨_, rfl⟩ rfl rfl rfl rfl rfl
  · obtain ⟨n, _, e⟩ := teStep_engages h; exact .ofEngages e

theorem settleFor_keeps (fuel : Nat) (s : State) : Keeps s (settleFor fuel s) :=
  settleFor_induct (Keeps s) (fun _ _ h m => h.trans (micro_keeps m)) fuel s (Keeps.refl s)

/-- What comes about within a command keeps the controls, and the alert list within its bounds. -/
theorem settle_keeps (s : State) : Keeps s (settle s) := settleFor_keeps _ s

end Sys2Proof.Laws
end

