-- ==== Sys2Proof/Laws/Frames.lean ====
section
/-! SUPPORT. A channel that nothing on its way reaches keeps its state through all internal steps, and the requests standing at
FU, SU and LB stay there. -/

namespace Sys2Proof.Laws

open Sys2Proof.Machine

/-- The record an operation concerns depends on the parked list alone. -/
theorem suTarget_congr {s t : State} (h : t.su.parked = s.su.parked) (r : SuReq) : t.suTarget r = s.suTarget r := by
  cases r <;> simp [State.suTarget, h]

/-- A parked channel stands in the parked list, so its undo has a record to concern. -/
theorem suTarget_undo {s : State} {n : ChanId} (h : s.isParked n = true) :
    s.suTarget (.undoStop n) ≠ none ∧ s.suTarget (.undoReset n) ≠ none := by
  simp only [State.isParked, List.any_eq_true] at h
  obtain ⟨e, he, hn⟩ := h
  have : s.su.parked.find? (·.chan == n) ≠ none := by
    simp only [ne_eq, List.find?_eq_none, not_forall]
    exact ⟨e, he, by simpa using hn⟩
  simp [State.suTarget, this]

/-- From `s` to `t` nothing has reached channel `n`, and no request has been answered. -/
structure Rests (n : ChanId) (s t : State) : Prop where
  chan : t.chan n = s.chan n
  fuJobs : ∀ j ∈ s.fuJobs, j ∈ t.fuJobs
  suRequests : ∀ r ∈ s.suRequests, s.suTarget r ≠ none → r ∈ t.suRequests
  drains : ∀ m, LbReq.drain m ∈ s.lbRequests → LbReq.drain m ∈ t.lbRequests
  parked : t.su.parked = s.su.parked
  alerts : t.rp.alerts = s.rp.alerts
  signalSlot : t.rp.signalSlot = s.rp.signalSlot

namespace Rests

variable {n : ChanId} {s t u : State}

theorem refl (n : ChanId) (s : State) : Rests n s s :=
  ⟨rfl, fun _ h => h, fun _ h _ => h, fun _ h => h, rfl, rfl, rfl⟩

theorem trans (a : Rests n s t) (b : Rests n t u) : Rests n s u where
  chan := b.chan.trans a.chan
  fuJobs j h := b.fuJobs j (a.fuJobs j h)
  suRequests r h k := b.suRequests r (a.suRequests r h k) (by rw [suTarget_congr a.parked]; exact k)
  drains m h := b.drains m (a.drains m h)
  parked := b.parked.trans a.parked
  alerts := b.alerts.trans a.alerts
  signalSlot := b.signalSlot.trans a.signalSlot

/-- Queues that have only grown. -/
theorem ofQueues (hc : t.chan n = s.chan n) (hf : ∃ l, t.fu = { s.fu with queue := s.fu.queue ++ l })
    (hs : ∃ l, t.su = { s.su with queue := s.su.queue ++ l }) (hl : ∃ l, t.lb = { s.lb with queue := s.lb.queue ++ l })
    (hr : ∃ x, t.rp = { s.rp with refuseReason := x }) : Rests n s t where
  chan := hc
  fuJobs j h := by
    obtain ⟨l, e⟩ := hf
    simp only [State.fuJobs, e, List.mem_append] at *
    tauto
  suRequests r h _ := by
    obtain ⟨l, e⟩ := hs
    simp only [State.suRequests, e, List.mem_append] at *
    tauto
  drains m h := by
    obtain ⟨l, e⟩ := hl
    simp only [State.lbRequests, e, List.mem_append] at *
    tauto
  parked := by obtain ⟨l, e⟩ := hs; rw [e]
  alerts := by obtain ⟨x, e⟩ := hr; rw [e]
  signalSlot := by obtain ⟨x, e⟩ := hr; rw [e]

end Rests

theorem handOver_rests {n : ChanId} {s t : State} (hc : t.chan n = s.chan n) (hf : t.fu.queue = s.fu.queue)
    (hf' : t.fu.current = s.fu.current) (hs : t.su.queue = s.su.queue) (hs' : t.su.current = s.su.current)
    (hp : t.su.parked = s.su.parked) (hl : t.lb.queue = s.lb.queue) (hl' : t.lb.current = s.lb.current)
    (hr : t.rp = s.rp) : Rests n s t where
  chan := hc
  fuJobs j h := by simpa only [State.fuJobs, hf, hf'] using h
  suRequests r h _ := by simpa only [State.suRequests, hs, hs'] using h
  drains m h := by simpa only [State.lbRequests, hl, hl'] using h
  parked := hp
  alerts := by rw [hr]
  signalSlot := by rw [hr]

/-- LB answers no drain by itself. -/
theorem lbStep_drains {s t : State} (h : lbStep s = some t) (m : ChanId) (hm : LbReq.drain m ∈ s.lbRequests) :
    LbReq.drain m ∈ t.lbRequests := by
  unfold lbStep at h
  split at h
  · rename_i hc
    split at h
    · rename_i r q hq
      cases h
      simpa [State.lbRequests, hc, hq] using hm
    · cases h
  · rename_i r hc
    split at h
    · unfold lbAdvance at h
      (repeat' split at h) <;> cases h
      all_goals
        simp only [State.lbRequests, State.lbFree, writeOut, hc, Option.toList_some, Option.toList_none,
          List.mem_append, List.mem_singleton, List.nil_append, reduceCtorEq, false_or] at *
        exact hm
    · cases h

/-- Requests other than the undos stay while SU has no answer in hand, and so does the parked list. -/
theorem suTake_rests {s : State} {r : SuReq} {q : List SuReq} (hc : s.su.current = none) (hq : s.su.queue = r :: q)
    (x : SuReq) (hx : x ∈ s.suRequests) (hn : s.suTarget x ≠ none) : x ∈ (suTake r q s).suRequests := by
  have hx' : x = r ∨ x ∈ q := by simpa [State.suRequests, hc, hq] using hx
  unfold suTake
  dsimp only
  split
  · rename_i ht
    have hne : x ≠ r := by
      rintro rfl
      exact hn ht
    have hxq : x ∈ q := hx'.resolve_left hne
    have key : ∀ n (t : State), Acts n { s with su := { s.su with queue := q } } t → x ∈ t.suRequests := by
      intro n t a
      obtain ⟨l, e, _⟩ := a.su
      simp only [State.suRequests, e, List.mem_append]
      exact .inr (.inl hxq)
    cases r
    · exact key 0 _ (Acts.refl 0 _)
    · exact key 0 _ (Acts.refl 0 _)
    · exact key _ _ (acts_goOn _ _)
    · exact key _ _ (acts_resetUndoAnswered _ _)
    · exact key 0 _ (Acts.refl 0 _)
  · rcases hx' with rfl | h
    · simp [State.suRequests]
    · simp [State.suRequests, h]

/-- A channel left alone stays so, and keeps its state, through an internal step. -/
theorem micro_leftAlone {n : ChanId} {s t : State} (a : s.leftAlone n) (h : micro s = some t) :
    t.leftAlone n ∧ Rests n s t := by
  obtain ⟨hf, hs, hu, hg⟩ := a
  rcases micro_cases h with h | h | h | h | h | h | h | h | h | h | h
  · obtain ⟨e, l, b, _, _, rfl⟩ := fuHandOver_some h
    exact ⟨⟨hf, hs, hu, hg⟩, handOver_rests rfl rfl rfl rfl rfl rfl rfl rfl rfl⟩
  · obtain ⟨e, l, b, _, _, rfl⟩ := suHandOver_some h
    exact ⟨⟨hf, hs, hu, hg⟩, handOver_rests rfl rfl rfl rfl rfl rfl rfl rfl rfl⟩
  · obtain ⟨e, l, b, _, _, rfl⟩ := teHandOver_some h
    exact ⟨⟨hf, hs, hu, hg⟩, handOver_rests rfl rfl rfl rfl rfl rfl rfl rfl rfl⟩
  · obtain ⟨e, l, b, _, _, rfl⟩ := tuHandOver_some h
    exact ⟨⟨hf, hs, hu, hg⟩, handOver_rests rfl rfl rfl rfl rfl rfl rfl rfl rfl⟩
  · obtain ⟨e, l, b, _, _, rfl⟩ := lbHandOver_some h
    exact ⟨⟨hf, hs, hu, hg⟩, handOver_rests rfl rfl rfl rfl rfl rfl rfl rfl rfl⟩
  · obtain ⟨e, q, _, _, rfl⟩ := sbStep_some h
    exact ⟨⟨hf, hs, hu, hg⟩, handOver_rests rfl rfl rfl rfl rfl rfl rfl rfl rfl⟩
  · rcases fuStep_some h with ⟨j, g, _, hgot, _, rfl⟩ | ⟨j, q, hc, _, hq, rfl⟩
    · rw [hf] at hgot; cases hgot
    · refine ⟨⟨hf, hs, hu, hg⟩, { Rests.refl n s with chan := rfl, fuJobs := fun x hx => ?_ }⟩
      simpa [State.fuJobs, fuTake, hc, hq] using hx
  · rcases suStep_some h with ⟨o, g, _, hgot, _, rfl⟩ | ⟨r, q, hc, _, hq, rfl⟩
    · rw [hs] at hgot; cases hgot
    · have hu' : SuReq.undoStop n ∈ q ∨ SuReq.undoReset n ∈ q → s.isParked n = true := by
        rintro (h | h)
        · exact hu (.inl (by rw [hq]; exact List.mem_cons_of_mem _ h))
        · exact hu (.inr (by rw [hq]; exact List.mem_cons_of_mem _ h))
      have keep := fun x hx hn => suTake_rests (s := s) hc hq x hx hn
      have acts : ∀ m (t : State), m ≠ n → Acts m { s with su := { s.su with queue := q } } t →
          t.leftAlone n ∧ t.chan n = s.chan n ∧ (∀ j ∈ s.fuJobs, j ∈ t.fuJobs)
            ∧ (∀ m, LbReq.drain m ∈ s.lbRequests → LbReq.drain m ∈ t.lbRequests) ∧ t.su.parked = s.su.parked
              ∧ t.rp.alerts = s.rp.alerts ∧ t.rp.signalSlot = s.rp.signalSlot := by
        intro m t hm a
        have R := Rests.ofQueues (n := n) (a.others n hm.symm) (let ⟨l, e, _⟩ := a.fu; ⟨l, e⟩)
          (let ⟨l, e, _⟩ := a.su; ⟨l, e⟩) (let ⟨l, e, _⟩ := a.lb; ⟨l, e⟩) a.rp
        obtain ⟨lf, ef, _⟩ := a.fu
        obtain ⟨ls, es, hls⟩ := a.su
        refine ⟨⟨by rw [ef]; exact hf, by rw [es]; exact hs, ?_, by rw [a.te]; exact hg⟩, R.chan, R.fuJobs, R.drains,
          R.parked, R.alerts, R.signalSlot⟩
        have hno : ∀ r, r.chan = some n → r ∉ ls := fun r hr x => hm (by simpa [hr] using (hls _ x).1.symm)
        have hp : t.isParked n = s.isParked n := by rw [State.isParked, es]; rfl
        rw [hp, es]
        simp only [List.mem_append, hno _ (show (SuReq.undoStop n).chan = some n from rfl),
          hno _ (show (SuReq.undoReset n).chan = some n from rfl), or_false]
        exact hu'
      have refl' : ∀ t : State, t = { s with su := { s.su with queue := q } } →
          t.leftAlone n ∧ t.chan n = s.chan n ∧ (∀ j ∈ s.fuJobs, j ∈ t.fuJobs)
            ∧ (∀ m, LbReq.drain m ∈ s.lbRequests → LbReq.drain m ∈ t.lbRequests) ∧ t.su.parked = s.su.parked
              ∧ t.rp.alerts = s.rp.alerts ∧ t.rp.signalSlot = s.rp.signalSlot := by
        rintro t rfl
        exact ⟨⟨hf, hs, hu', hg⟩, rfl, fun _ h => h, fun _ h => h, rfl, rfl, rfl⟩
      have main : (suTake r q s).leftAlone n ∧ (suTake r q s).chan n = s.chan n
          ∧ (∀ j ∈ s.fuJobs, j ∈ (suTake r q s).fuJobs)
            ∧ (∀ m, LbReq.drain m ∈ s.lbRequests → LbReq.drain m ∈ (suTake r q s).lbRequests)
              ∧ (suTake r q s).su.parked = s.su.parked ∧ (suTake r q s).rp.alerts = s.rp.alerts
                ∧ (suTake r q s).rp.signalSlot = s.rp.signalSlot := by
        unfold suTake
        dsimp only
        split
        · rename_i ht
          have ht' : s.suTarget r = none := ht
          have hne : ∀ m, r = .undoStop m ∨ r = .undoReset m → m ≠ n := by
            rintro m (rfl | rfl) rfl
            · exact (suTarget_undo (hu (.inl (by rw [hq]; simp)))).1 ht'
            · exact (suTarget_undo (hu (.inr (by rw [hq]; simp)))).2 ht'
          cases r
          · exact refl' _ rfl
          · exact refl' _ rfl
          · exact acts _ _ (hne _ (.inl rfl)) (acts_goOn _ _)
          · exact acts _ _ (hne _ (.inr rfl)) (acts_resetUndoAnswered _ _)
          · exact refl' _ rfl
        · exact ⟨⟨hf, hs, hu', hg⟩, rfl, fun _ h => h, fun _ h => h, rfl, rfl, rfl⟩
      exact ⟨main.1, main.2.1, main.2.2.1, keep, main.2.2.2.1, main.2.2.2.2.1, main.2.2.2.2.2.1, main.2.2.2.2.2.2⟩
  · have hd := lbStep_drains h
    obtain ⟨b, q, rfl, _⟩ := lbStep_frame h
    exact ⟨⟨hf, hs, hu, hg⟩, rfl, fun _ h => h, fun _ h _ => h, hd, rfl, rfl, rfl⟩
  · obtain ⟨u, q, rfl, _⟩ := tuStep_frame h
    exact ⟨⟨hf, hs, hu, hg⟩, handOver_rests rfl rfl rfl rfl rfl rfl rfl rfl rfl⟩
  · obtain ⟨m, hm, e⟩ := teStep_engages h
    have hmn : n ≠ m := by rintro rfl; exact hg hm
    have R := Rests.ofQueues (n := n) (e.others n hmn) (let ⟨l, e, _⟩ := e.fu; ⟨l, e⟩)
      (let ⟨l, e, _⟩ := e.su; ⟨l, e⟩) e.lb e.rp
    obtain ⟨lf, ef, _⟩ := e.fu
    obtain ⟨ls, es, hls⟩ := e.su
    have hno : ∀ r, r.chan = some n → r ∉ ls := fun r hr x => hmn (by simpa [hr] using (hls _ x).1)
    refine ⟨⟨by rw [ef]; exact hf, by rw [es]; exact hs, ?_, ?_⟩, R⟩
    · have hp : t.isParked n = s.isParked n := by rw [State.isParked, es]; rfl
      rw [hp, es]
      simp only [List.mem_append, hno _ (show (SuReq.undoStop n).chan = some n from rfl),
        hno _ (show (SuReq.undoReset n).chan = some n from rfl), or_false]
      exact hu
    · rcases e.grant with h | h
      · rw [h]; exact hg
      · rw [h]; simp

/-- The reaction of a CC leaves every channel alone that was. -/
theorem acts_leftAlone {m n : ChanId} {s t : State} (a : Acts m s t) (h : s.leftAlone n) : t.leftAlone n := by
  obtain ⟨hf, hs, hu, hg⟩ := h
  obtain ⟨lf, ef, _⟩ := a.fu
  obtain ⟨ls, es, hls⟩ := a.su
  have hp : t.isParked n = s.isParked n := by rw [State.isParked, es]; rfl
  refine ⟨by rw [ef]; exact hf, by rw [es]; exact hs, ?_, by rw [a.te]; exact hg⟩
  rw [hp, es]
  simp only [List.mem_append]
  have own : ∀ r ∈ ls, r = .undoStop n ∨ r = .undoReset n → s.isParked n = true := by
    intro r hr e
    obtain ⟨hc, h | h⟩ := hls r hr
    · have : m = n := by rcases e with rfl | rfl <;> simpa [SuReq.chan] using hc.symm
      exact this ▸ h
    · have : m = n := by rcases e with rfl | rfl <;> simpa [SuReq.chan] using hc.symm
      subst this
      rcases e with rfl | rfl
      · exact absurd rfl h.1
      · exact absurd rfl h.2
  rintro ((h | h) | (h | h))
  · exact hu (.inl h)
  · exact own _ h (.inl rfl)
  · exact hu (.inr h)
  · exact own _ h (.inr rfl)

theorem settleFor_leftAlone {n : ChanId} {s : State} (a : s.leftAlone n) (fuel : Nat) :
    (settleFor fuel s).leftAlone n ∧ Rests n s (settleFor fuel s) :=
  settleFor_induct (fun t => t.leftAlone n ∧ Rests n s t)
    (fun _ _ h m => ⟨(micro_leftAlone h.1 m).1, h.2.trans (micro_leftAlone h.1 m).2⟩) fuel s ⟨a, Rests.refl n s⟩

/-- A channel left alone keeps its state through all that comes about within a command. -/
theorem settle_leftAlone {n : ChanId} {s : State} (a : s.leftAlone n) : Rests n s (settle s) :=
  (settleFor_leftAlone a _).2

/-- While FU and SU have no answer in hand, no internal step changes the parked list, the alert list or the signal slot. -/
theorem micro_noAnswer {s t : State} (hf : s.fu.got = none) (hs : s.su.got = none) (h : micro s = some t) :
    t.fu.got = none ∧ t.su.got = none ∧ t.su.parked = s.su.parked ∧ t.rp.alerts = s.rp.alerts
      ∧ t.rp.signalSlot = s.rp.signalSlot := by
  have acts : ∀ {m : ChanId} {u v : State}, u.fu.got = none → u.su.got = none → Acts m u v →
      v.fu.got = none ∧ v.su.got = none ∧ v.su.parked = u.su.parked ∧ v.rp.alerts = u.rp.alerts
        ∧ v.rp.signalSlot = u.rp.signalSlot := by
    intro m u v h1 h2 a
    obtain ⟨l, e, _⟩ := a.fu
    obtain ⟨k, g, _⟩ := a.su
    obtain ⟨x, r⟩ := a.rp
    exact ⟨by rw [e]; exact h1, by rw [g]; exact h2, by rw [g], by rw [r], by rw [r]⟩
  rcases micro_cases h with h | h | h | h | h | h | h | h | h | h | h
  · obtain ⟨e, l, b, _, _, rfl⟩ := fuHandOver_some h; exact ⟨hf, hs, rfl, rfl, rfl⟩
  · obtain ⟨e, l, b, _, _, rfl⟩ := suHandOver_some h; exact ⟨hf, hs, rfl, rfl, rfl⟩
  · obtain ⟨e, l, b, _, _, rfl⟩ := teHandOver_some h; exact ⟨hf, hs, rfl, rfl, rfl⟩
  · obtain ⟨e, l, b, _, _, rfl⟩ := tuHandOver_some h; exact ⟨hf, hs, rfl, rfl, rfl⟩
  · obtain ⟨e, l, b, _, _, rfl⟩ := lbHandOver_some h; exact ⟨hf, hs, rfl, rfl, rfl⟩
  · obtain ⟨e, q, _, _, rfl⟩ := sbStep_some h; exact ⟨hf, hs, rfl, rfl, rfl⟩
  · rcases fuStep_some h with ⟨j, g, _, hgot, _, rfl⟩ | ⟨j, q, hc, _, hq, rfl⟩
    · rw [hf] at hgot; cases hgot
    · exact ⟨hf, hs, rfl, rfl, rfl⟩
  · rcases suStep_some h with ⟨o, g, _, hgot, _, rfl⟩ | ⟨r, q, hc, _, hq, rfl⟩
    · rw [hs] at hgot; cases hgot
    · unfold suTake
      dsimp only
      split
      · cases r
        · exact ⟨hf, hs, rfl, rfl, rfl⟩
        · exact ⟨hf, hs, rfl, rfl, rfl⟩
        · exact acts (u := { s with su := { s.su with queue := q } }) hf hs (acts_goOn _ _)
        · exact acts (u := { s with su := { s.su with queue := q } }) hf hs (acts_resetUndoAnswered _ _)
        · exact ⟨hf, hs, rfl, rfl, rfl⟩
      · exact ⟨hf, hs, rfl, rfl, rfl⟩
  · obtain ⟨b, q, rfl, _⟩ := lbStep_frame h; exact ⟨hf, hs, rfl, rfl, rfl⟩
  · obtain ⟨u, q, rfl, _⟩ := tuStep_frame h; exact ⟨hf, hs, rfl, rfl, rfl⟩
  · obtain ⟨m, _, e⟩ := teStep_engages h
    obtain ⟨l, f, _⟩ := e.fu
    obtain ⟨k, g, _⟩ := e.su
    obtain ⟨x, r⟩ := e.rp
    exact ⟨by rw [f]; exact hf, by rw [g]; exact hs, by rw [g], by rw [r], by rw [r]⟩

theorem settleFor_noAnswer {s : State} (hf : s.fu.got = none) (hs : s.su.got = none) (fuel : Nat) :
    (settleFor fuel s).su.parked = s.su.parked ∧ (settleFor fuel s).rp.alerts = s.rp.alerts
      ∧ (settleFor fuel s).rp.signalSlot = s.rp.signalSlot :=
  (settleFor_induct
    (fun t => t.fu.got = none ∧ t.su.got = none ∧ t.su.parked = s.su.parked ∧ t.rp.alerts = s.rp.alerts
      ∧ t.rp.signalSlot = s.rp.signalSlot)
    (fun _ _ h m =>
      let k := micro_noAnswer h.1 h.2.1 m
      ⟨k.1, k.2.1, k.2.2.1.trans h.2.2.1, k.2.2.2.1.trans h.2.2.2.1, k.2.2.2.2.trans h.2.2.2.2⟩)
    fuel s ⟨hf, hs, rfl, rfl, rfl⟩).2.2

end Sys2Proof.Laws
end

