-- ==== Sys2Proof/Laws/Work.lean ====
section
/-! SUPPORT. The internal steps of one command end by themselves: each makes the bound State.work smaller, so `settle` always
leaves a settled part (log 17). -/

namespace Sys2Proof.Laws

open Sys2Proof.Machine

/-! ## What is queued -/

@[simp] theorem queued_setChan (s : State) (n : ChanId) (c : Channel) : (s.setChan n c).queued = s.queued := rfl
@[simp] theorem queued_modChan (s : State) (n : ChanId) (f : Channel → Channel) : (s.modChan n f).queued = s.queued := rfl
@[simp] theorem queued_setActivity (s : State) (n : ChanId) (a : Activity) : (s.setActivity n a).queued = s.queued := rfl
@[simp] theorem queued_refuse (s : State) (r : Reason) : (s.refuse r).queued = s.queued := rfl

@[simp] theorem queued_queueFu (s : State) (j : FuJob) : (s.queueFu j).queued = s.queued + 1 := by
  simp only [State.queued, State.queueFu, List.length_append, List.length_singleton]; omega

@[simp] theorem queued_queueSu (s : State) (r : SuReq) : (s.queueSu r).queued = s.queued + r.work := by
  simp only [State.queued, State.queueSu, List.map_append, List.sum_append, List.map_cons, List.map_nil, List.sum_cons,
    List.sum_nil]; omega

@[simp] theorem queued_queueLb (s : State) (r : LbReq) : (s.queueLb r).queued = s.queued + 3 := by
  simp only [State.queued, State.queueLb, List.length_append, List.length_singleton]; omega

@[simp] theorem queued_askFu (s : State) (n : ChanId) (k : FuKind) (q : MpReq) (a : Activity) :
    (s.askFu n k q a).queued = s.queued + 1 := by
  simp only [State.askFu, queued_queueFu, queued_setActivity]

/-! ## A channel's reaction queues one request at most -/

variable (n : ChanId) (s : State)

theorem queued_beginHalt (c : FaultCode) (va : VAddr) : (beginHalt n c va s).queued ≤ s.queued + 3 := by
  simp [beginHalt]

theorem queued_beginStop : (beginStop n s).queued ≤ s.queued + 3 := by simp [beginStop]

theorem queued_stopHere : (stopHere n s).queued ≤ s.queued + 3 := by
  unfold stopHere; split
  · omega
  · exact queued_beginStop n s

theorem queued_askSave (st : ChState) (a : Activity) : (askSave n st a s).queued ≤ s.queued + 3 := by
  simp [askSave]

theorem queued_askStatus (k : FuKind) (i : BitVec 512) (a : Activity) : (askStatus n k i a s).queued ≤ s.queued + 3 := by
  simp [askStatus]

theorem queued_postingPoint : (postingPoint n s).queued ≤ s.queued + 3 := by
  unfold postingPoint; dsimp only; split_ifs
  · exact queued_stopHere n s
  · simp [SuReq.work]
  · omega

theorem queued_enterPosting : (enterPosting n s).queued ≤ s.queued + 3 := queued_postingPoint n _

theorem queued_followLink (l : BitVec 64) : (followLink n l s).queued ≤ s.queued + 3 := by
  unfold followLink; split
  · exact queued_beginHalt n s _ _
  · simp

theorem queued_fetchPoint : (fetchPoint n s).queued ≤ s.queued + 3 := by
  unfold fetchPoint; dsimp only; split_ifs
  · exact queued_stopHere n s
  · split
    · exact queued_followLink n s _
    · simp
  · omega

theorem queued_enterFetch : (enterFetch n s).queued ≤ s.queued + 3 := queued_fetchPoint n _

theorem queued_readyPoint : (readyPoint n s).queued ≤ s.queued + 3 := by
  unfold readyPoint; dsimp only; split_ifs
  · exact queued_beginHalt n s _ _
  · exact queued_stopHere n s
  · omega

theorem queued_enterFinishing : (enterFinishing n s).queued ≤ s.queued + 3 := by simp [enterFinishing]

theorem queued_enterWork : (enterWork n s).queued ≤ s.queued + 3 := by
  unfold enterWork; split
  · omega
  · dsimp only; split
    · exact queued_enterFinishing n _
    · exact queued_readyPoint n _
    · exact queued_readyPoint n _

theorem queued_prewaitPoint : (prewaitPoint n s).queued ≤ s.queued + 3 := by
  unfold prewaitPoint; dsimp only; split
  · exact queued_enterWork n s
  · split_ifs
    · exact queued_stopHere n s
    · simp [SuReq.work]
    · omega

theorem queued_taskEnd : (taskEnd n s).queued ≤ s.queued + 3 := by
  unfold taskEnd; dsimp only; split_ifs
  · exact queued_beginStop n _
  · exact queued_stopHere n _
  · exact queued_enterPosting n _

theorem queued_notifyPoint : (notifyPoint n s).queued ≤ s.queued + 3 := by
  unfold notifyPoint; dsimp only; split
  · split_ifs
    · simp [SuReq.work]
    · omega
  · split_ifs
    · exact queued_askStatus n s _ _ _
    · exact queued_taskEnd n s

theorem queued_goOn : (goOn n s).queued ≤ s.queued + 3 := by
  unfold goOn; dsimp only; split
  · omega
  · split
    · split
      · exact queued_prewaitPoint n s
      · exact queued_postingPoint n s
    · exact queued_fetchPoint n s
    · exact queued_notifyPoint n s
    · exact queued_readyPoint n s
    all_goals omega

theorem queued_formatFault (i : Nat) : (formatFault n i s).queued ≤ s.queued + 3 := queued_beginHalt n _ _ _

theorem queued_acceptRecord (a : PAddr) (t : Except Nat Task) : (acceptRecord n a t s).queued ≤ s.queued + 3 := by
  unfold acceptRecord; split
  · exact queued_formatFault n s _
  · simp

theorem queued_fuAnswered (j : FuJob) (g : Got 4736) : (fuAnswered j g s).queued ≤ s.queued + 3 := by
  unfold fuAnswered; dsimp only; split_ifs
  · omega
  · split
    · unfold contextAnswered; split_ifs
      · exact queued_postingPoint _ _
      · exact queued_beginHalt _ s _ _
      · exact queued_beginHalt _ s _ _
    · unfold linkAnswered; split_ifs
      · exact queued_followLink _ s _
      · exact queued_beginHalt _ s _ _
    · split
      · unfold headerAnswered; split_ifs
        · split
          · exact queued_formatFault _ s _
          · split_ifs
            · exact queued_acceptRecord _ s _ _
            · simp
        · exact queued_beginHalt _ s _ _
        · exact queued_beginHalt _ s _ _
      · omega
    · split
      · unfold bodyAnswered; split_ifs
        · split
          · exact queued_formatFault _ s _
          · exact queued_acceptRecord _ s _ _
        · exact queued_beginHalt _ s _ _
      · omega
    · split
      · unfold acceptanceAnswered; split_ifs
        · exact queued_prewaitPoint _ _
        · exact queued_beginHalt _ s _ _
      · omega
    · unfold doneAnswered; split_ifs
      · exact queued_notifyPoint _ _
      · exact queued_beginHalt _ s _ _
    · unfold doneRewriteAnswered; split_ifs
      · exact queued_taskEnd _ s
      · exact queued_beginHalt _ s _ _
    · exact queued_askSave _ s _ _
    · exact queued_enterPosting _ _
    · simp [saveAnswered]

theorem queued_waitSucceeded : (waitSucceeded n s).queued ≤ s.queued + 3 := by
  unfold waitSucceeded; dsimp only; split_ifs
  · omega
  · exact queued_prewaitPoint n _
  · exact queued_enterFetch n s

theorem queued_waitParked : (waitParked n s).queued ≤ s.queued + 5 := by
  unfold waitParked; dsimp only; split_ifs
  · omega
  · simp [SuReq.work]
  · simp

theorem queued_requestFailed (c : FaultCode) : (requestFailed n c s).queued ≤ s.queued + 3 := by
  unfold requestFailed; split_ifs
  · omega
  · exact queued_beginHalt n s _ _

theorem queued_notifyPerformed : (notifyPerformed n s).queued ≤ s.queued + 3 := by
  unfold notifyPerformed; dsimp only; split_ifs
  · omega
  · exact queued_notifyPoint n _

theorem queued_stopUndone : (stopUndone n s).queued ≤ s.queued + 3 := by
  unfold stopUndone; split_ifs
  · omega
  · exact queued_beginStop n _

theorem queued_stopUndoFailed : (stopUndoFailed n s).queued ≤ s.queued + 3 := by
  unfold stopUndoFailed; split_ifs <;> simp

theorem queued_resetDrain : (resetDrain n s).queued ≤ s.queued + 3 := by simp [resetDrain]

theorem queued_resetUndoAnswered : (resetUndoAnswered n s).queued ≤ s.queued + 3 := by
  unfold resetUndoAnswered; split_ifs
  · exact queued_resetDrain n s
  · omega

theorem queued_sliceEnded (f : Option (FaultCode × VAddr)) : (sliceEnded n f s).queued ≤ s.queued + 3 := by
  unfold sliceEnded; dsimp only; split
  · simp
  · split
    · exact queued_beginHalt n _ _ _
    · split
      · exact queued_beginHalt n _ _ _
      · split
        · exact queued_stopHere n _
        · split
          · exact queued_enterFinishing n _
          · simp

/-! ## What a reaction adds to the bound -/

/-- A reaction of a channel changes the bound by what it queues alone. -/
theorem work_ofActs {n : ChanId} {s t : State} (a : Acts n s t) : t.eventWork = s.eventWork ∧ t.unitWork = s.unitWork := by
  obtain ⟨l, f, _⟩ := a.fu
  obtain ⟨k, g, _⟩ := a.su
  obtain ⟨m, h, _⟩ := a.lb
  obtain ⟨b, i, _⟩ := a.sb
  constructor
  · simp only [State.eventWork, f, g, h, i, a.te, a.tu]
  · simp only [State.unitWork, f, g, h, a.te, a.tu, LineBuffer.work]

theorem work_acts {n : ChanId} {s t : State} {k : Nat} (a : Acts n s t) (q : t.queued ≤ s.queued + k) :
    t.work ≤ s.work + k := by
  obtain ⟨h, g⟩ := work_ofActs a
  unfold State.work
  omega

/-! ## FU, SU, LB and TU -/

theorem fuStep_work {s t : State} (h : fuStep s = some t) : t.work < s.work := by
  rcases fuStep_some h with ⟨j, g, _, hg, _, rfl⟩ | ⟨j, q, _, _, hq, rfl⟩
  · have a := work_acts (acts_fuAnswered { s with fu := { s.fu with current := none, got := none } } j g)
      (queued_fuAnswered _ j g)
    have b : ({ s with fu := { s.fu with current := none, got := none } } : State).work + 4 = s.work := by
      simp only [State.work, State.eventWork, State.queued, State.unitWork, hg, Option.isSome_some, Option.isSome_none,
        Bool.toNat_true, Bool.toNat_false]; omega
    unfold fuDeliver; omega
  · simp only [fuTake, State.work, State.eventWork, State.queued, State.unitWork, hq, List.length_cons]; omega

theorem suFailed_work (r : SuReq) (f : SuFailure) (s : State) : (suFailed r f s).work ≤ s.work + 3 := by
  cases r
  · exact work_acts (acts_requestFailed _ _ _) (queued_requestFailed _ _ _)
  · exact work_acts (acts_requestFailed _ _ _) (queued_requestFailed _ _ _)
  · exact work_acts (acts_stopUndoFailed _ _) (queued_stopUndoFailed _ _)
  · rename_i n
    have := work_acts (acts_resetUndoAnswered n (s.unpark n)) (queued_resetUndoAnswered _ _)
    have e : (s.unpark n).work = s.work := rfl
    simp only [suFailed]; omega
  · rename_i k
    have : (suFailed (.signal k) f s).work = s.work := rfl
    omega

theorem wakeOne_work (b : Bool) (k : SemId) (c : BitVec 16) (s : State) : (wakeOne b k c s).work ≤ s.work + 3 := by
  unfold wakeOne
  split
  · split
    · omega
    · rename_i x _
      have := work_acts (acts_waitSucceeded x.chan { s with su := { s.su with parked := s.su.parked.erase x } })
        (queued_waitSucceeded _ _)
      have e : ({ s with su := { s.su with parked := s.su.parked.erase x } } : State).work = s.work := rfl
      omega
  · omega

theorem offerAlert_work (k : SemId) (s : State) : (offerAlert k s).work = s.work := by
  unfold offerAlert; split_ifs <;> rfl

theorem notifyEffects_work (d : BitVec 48) (k : SemId) (c : BitVec 16) (s : State) :
    (notifyEffects d k c s).work ≤ s.work + 3 := by
  have := wakeOne_work (semLifo d) k c s
  unfold notifyEffects; dsimp only; split
  · rw [offerAlert_work]; exact this
  · exact this

theorem suPerformed_work (o : SuOp) (d : BitVec 48) (s : State) : (suPerformed o d s).work ≤ s.work + 6 := by
  unfold suPerformed
  split
  · rename_i n k _
    unfold waitPerformed; split
    · have := work_acts (acts_waitSucceeded n s) (queued_waitSucceeded _ _); omega
    · have := work_acts (acts_waitParked n { s with su := { s.su with parked := s.su.parked ++ [⟨n, k⟩] } }
        (by simp [State.isParked])) (queued_waitParked n _)
      have e : ({ s with su := { s.su with parked := s.su.parked ++ [⟨n, k⟩] } } : State).work = s.work := rfl
      omega
  · rename_i n k _
    have a := notifyEffects_work d k o.newCount s
    have b := work_acts (acts_notifyPerformed n (notifyEffects d k o.newCount s)) (queued_notifyPerformed _ _)
    omega
  · rename_i k _
    have a := notifyEffects_work d k o.newCount s
    have e : (notifyEffects d k o.newCount s).emptySignalSlot.work = (notifyEffects d k o.newCount s).work := rfl
    omega
  · rename_i n _
    have := work_acts (acts_stopUndone n (s.unpark n)) (queued_stopUndone _ _)
    have e : (s.unpark n).work = s.work := rfl
    omega
  · rename_i n _
    have := work_acts (acts_resetUndoAnswered n (s.unpark n)) (queued_resetUndoAnswered _ _)
    have e : (s.unpark n).work = s.work := rfl
    omega

theorem suStep_work {s t : State} (h : suStep s = some t) : t.work < s.work := by
  rcases suStep_some h with ⟨o, g, _, hg, _, rfl⟩ | ⟨r, q, _, _, hq, rfl⟩
  · have b : s.suFree.work + 7 = s.work := by
      simp only [State.suFree, State.work, State.eventWork, State.queued, State.unitWork, hg, Option.isSome_some,
        Option.isSome_none, Bool.toNat_true, Bool.toNat_false]; omega
    unfold suAnswered
    split
    · split
      · split
        · have := suFailed_work o.req ‹_› s.suFree; omega
        · have : (suWrite o g.data ‹_› s).work = s.suFree.work := rfl
          omega
      · have := suFailed_work o.req .memory s.suFree; omega
    · split
      · have := suPerformed_work o ‹_› s.suFree; omega
      · have := suFailed_work o.req .memory s.suFree; omega
  · have b : ({ s with su := { s.su with queue := q } } : State).work + r.work = s.work := by
      simp only [State.work, State.eventWork, State.queued, State.unitWork, hq, List.map_cons, List.sum_cons]; omega
    have pos : 1 ≤ r.work := by cases r <;> simp [SuReq.work]
    have lt : ({ s with su := { s.su with queue := q } } : State).work < s.work := by omega
    unfold suTake
    dsimp only
    split
    · cases r
      · exact lt
      · exact lt
      · rename_i n _
        exact Nat.lt_of_le_of_lt
          (work_acts (acts_goOn n { s with su := { s.su with queue := q } }) (queued_goOn _ _))
          (Nat.lt_of_lt_of_le (Nat.add_lt_add_left (by decide : 3 < 5) _) (Nat.le_of_eq b))
      · rename_i n _
        exact Nat.lt_of_le_of_lt
          (work_acts (acts_resetUndoAnswered n { s with su := { s.su with queue := q } }) (queued_resetUndoAnswered _ _))
          (Nat.lt_of_lt_of_le (Nat.add_lt_add_left (by decide : 3 < 5) _) (Nat.le_of_eq b))
      · exact lt
    · exact lt

theorem lbStep_work {s t : State} (h : lbStep s = some t) : t.work < s.work := by
  unfold lbStep at h
  split at h
  · rename_i hc
    split at h
    · rename_i r q hq
      cases h
      simp only [State.work, State.eventWork, State.queued, State.unitWork, hc, hq, List.length_cons, LineBuffer.work]
      split <;> omega
    · cases h
  · rename_i r hc
    split at h
    · rename_i hw _
      unfold lbAdvance at h
      (repeat' split at h) <;> cases h <;>
        simp only [State.lbFree, writeOut, State.work, State.eventWork, State.queued, State.unitWork, hc, hw,
          LineBuffer.work] <;> omega
    · cases h

theorem stage_work {x : TuStage} (h : x ≠ .begin) : x.work = 0 := by
  simp [TuStage.work, h]

theorem walkNext_work (q : TuReq) (x : WalkNext) (s : State) (h : ∀ r, x ≠ .ask r .begin) :
    (walkNext q x s).work ≤ s.work := by
  have aux : ∀ (u : TransUnit) (m : MemPort), u.held = s.tu.held → u.got = s.tu.got → u.stage ≠ .begin →
      ({ s with tu := u, mp := m } : State).work ≤ s.work := by
    intro u m h1 h2 h3
    simp only [State.work, State.eventWork, State.queued, State.unitWork, h1, h2, stage_work h3]
    omega
  cases x with
  | fault c => exact aux _ s.mp rfl rfl (by simp [TransUnit.walkFault])
  | done pa a m d => exact aux _ s.mp rfl rfl (by simp [TransUnit.walkDone])
  | ask r st => exact aux _ _ rfl rfl (fun e => h r (by simp only at e; rw [e]))

theorem rootStep_ask (q : TuReq) (d : BitVec 64) (r : MpReq) : rootStep q d ≠ .ask r .begin := by
  unfold rootStep; dsimp only; split_ifs <;> (try split) <;> (try split_ifs) <;> simp

theorem descriptorStep_ask (q : TuReq) (d : BitVec 64) (r : MpReq) : descriptorStep q d ≠ .ask r .begin := by
  unfold descriptorStep; split_ifs <;> (try split) <;> simp

theorem pageStep_ask (q : TuReq) (d e : BitVec 64) (r : MpReq) : pageStep q d e ≠ .ask r .begin := by
  unfold pageStep; dsimp only; split_ifs <;> (try split) <;> simp

theorem flagStep_ask (q : TuReq) (d e : BitVec 64) (b : Bool) (r : MpReq) : flagStep q d e b ≠ .ask r .begin := by
  unfold flagStep; split <;> simp

theorem tuStep_work {s t : State} (h : tuStep s = some t) : t.work < s.work := by
  unfold tuStep at h
  split at h
  · split at h
    · rename_i q _ _ _ g hg
      cases h
      have b : s.tuGotTaken.work + 1 = s.work := by
        simp only [State.tuGotTaken, State.work, State.eventWork, State.queued, State.unitWork, hg, Option.isSome_some,
          Option.isSome_none, Bool.toNat_true, Bool.toNat_false]; omega
      have w : ∀ (u : State) x, u.work = s.tuGotTaken.work → (∀ r, x ≠ .ask r .begin) → (walkNext q x u).work < s.work := by
        intro u x hu hx
        have := walkNext_work q x u hx
        omega
      unfold tuAnswered
      generalize s.tuGotTaken = u at b w
      dsimp only
      split
      · exact w _ _ rfl (by split <;> simp [rootStep_ask])
      · exact w _ _ rfl (by split <;> simp [descriptorStep_ask])
      · exact w _ _ rfl (by split <;> simp [pageStep_ask])
      · exact w _ _ rfl (flagStep_ask _ _ _ _)
      all_goals omega
    · split at h
      · rename_i hb
        cases h
        simp only [walkBegin, State.work, State.eventWork, State.queued, State.unitWork, hb]
        have : TuStage.work .begin = 1 := rfl
        have : TuStage.work .root = 0 := rfl
        omega
      · cases h
  · cases h

/-! ## TE -/

/-- The slice ends: TE has no work left, and the channel's reaction adds one request at most. -/
theorem endSlice_work {s : State} (n : ChanId) (f : Option (FaultCode × VAddr)) :
    (endSlice n f s).work + s.te.work ≤ s.work + 3 := by
  have a := work_acts
    (acts_sliceEnded n { s with te := { s.te with grant := none, counter := 0, kind := none, purgeStep := none, step := .idle } } f)
    (queued_sliceEnded n _ f)
  have b : ({ s with te := { s.te with grant := none, counter := 0, kind := none, purgeStep := none, step := .idle } } : State).work
      + s.te.work = s.work := by
    simp only [State.work, State.eventWork, State.queued, State.unitWork, Engine.work]; omega
  unfold endSlice
  omega

/-- TE's work but for the step it stands at. -/
def Engine.rest (e : Engine) : Nat := 16 * (16 - e.counter) + 15 * e.got.isSome.toNat

theorem te_work {e : Engine} {n : ChanId} (h : e.grant = some n) : e.work = Engine.rest e + e.step.work := by
  simp only [Engine.work, h, Engine.rest]; omega

theorem askTranslation_work {s : State} {n : ChanId} (hg : s.te.grant = some n) (va : VAddr) (w : Bool) (a : Access) :
    (askTranslation n va w a s).work + s.te.step.work ≤ s.work + 14 := by
  have hh : ∀ q, (s.tu.ask q).held.length ≤ s.tu.held.length + 2 := by
    intro q
    have : ((s.tu.cache[q.set]).lookup q.space q.va).failures ≤ 2 := by
      simp only [CacheSet.lookup]
      exact Nat.add_le_add (Bool.toNat_le _) (Bool.toNat_le _)
    simp only [TransUnit.ask, List.length_append, List.length_replicate]
    omega
  have := hh ⟨n, (s.chan n).space, va, w⟩
  simp only [askTranslation, State.work, State.eventWork, State.queued, State.unitWork, Engine.work, hg, TeStep.work]
  have g : (s.tu.ask ⟨n, (s.chan n).space, va, w⟩).got = none := rfl
  have : (s.tu.ask ⟨n, (s.chan n).space, va, w⟩).stage.work ≤ 1 := Bool.toNat_le _
  simp only [g, Option.isSome_none, Bool.toNat_false]
  omega

theorem startElement_work {s : State} {n : ChanId} (hg : s.te.grant = some n) (m : Move) :
    (startElement n m s).work + s.te.step.work ≤ s.work + 14 := by
  have e := fun c va => endSlice_work (s := s) n (some (c, va))
  have k := te_work hg
  unfold startElement; dsimp only; split_ifs
  · have := e .alignment (s.chan n).srcEA; unfold sliceFault; omega
  · have := e .alignment (s.chan n).dstEA; unfold sliceFault; omega
  · split <;> exact askTranslation_work hg _ _ _

theorem takeFill_work {s : State} {n : ChanId} (hg : s.te.grant = some n) (m : Move) (v : BitVec 64) :
    (takeFill n m v s).work + s.te.step.work ≤ s.work + 14 := by
  have e := fun c va => endSlice_work (s := s) n (some (c, va))
  have k := te_work hg
  unfold takeFill; split
  · have := e .rangeLoss ((s.chan n).effectiveAddr m.dst); unfold sliceFault; omega
  · exact startElement_work (s := s.modChan n _) hg m

theorem beginMove_work {s : State} {n : ChanId} (hg : s.te.grant = some n) (m : Move) :
    (beginMove n m s).work + s.te.step.work ≤ s.work + 14 := by
  have e := fun c va => endSlice_work (s := s) n (some (c, va))
  have k := te_work hg
  unfold beginMove; split
  · have := e .moveForm 0; unfold sliceFault; omega
  · split
    · exact startElement_work (s := s.modChan n _) hg m
    · exact startElement_work (s := s.modChan n _) hg m
    · split
      · exact takeFill_work hg m _
      · dsimp only; split
        · exact askTranslation_work hg _ _ _
        · have := e .alignment ((s.chan n).effectiveAddr m.src); unfold sliceFault; omega

/-- An element performed: from a step worth 5 at least, or from an answer in hand. -/
theorem elementDone_work {s : State} {n : ChanId} (hg : s.te.grant = some n) (m : Move) (x : Bool) :
    (elementDone n m x s).work + s.te.step.work < s.work + 5 := by
  have k := te_work hg
  unfold elementDone
  dsimp only
  set u : State := { s.setChan n ((s.chan n).performedElement m x) with te := { s.te with counter := s.te.counter + 1 } }
    with hu
  have ku : u.te.work = 16 * (16 - (s.te.counter + 1)) + s.te.step.work + 15 * s.te.got.isSome.toNat := by
    simp only [hu, Engine.work, hg]
  have wu : u.work + s.te.work = s.work + u.te.work := by
    simp only [hu, State.work, State.eventWork, State.queued, State.unitWork, State.setChan]; omega
  have r : s.te.work = 16 * (16 - s.te.counter) + s.te.step.work + 15 * s.te.got.isSome.toNat := by
    simp only [Engine.work, hg]
  split
  · have h1 := endSlice_work (s := u.setChan n ((((s.chan n).performedElement m x).updateCursors m).nextMove)) n none
    have h2 : (u.setChan n ((((s.chan n).performedElement m x).updateCursors m).nextMove)).work = u.work := rfl
    have h3 : (u.setChan n ((((s.chan n).performedElement m x).updateCursors m).nextMove)).te = u.te := rfl
    rw [h2, h3] at h1
    omega
  · have st : ∀ y : TeStep, (u.setTeStep y).work + s.te.step.work = u.work + y.work := by
      intro y
      simp only [State.setTeStep, hu, State.work, State.eventWork, State.queued, State.unitWork, State.setChan, Engine.work, hg]
      omega
    have st1 := st .exhausted
    have st2 := st .boundary
    have w1 : TeStep.work .exhausted = 4 := rfl
    have w2 : TeStep.work .boundary = 15 := rfl
    by_cases hc : Config.sliceElements ≤ s.te.counter + 1
    · rw [if_pos hc]; omega
    · rw [if_neg hc]
      have : s.te.counter + 1 < 16 := Nat.lt_of_not_le hc
      omega

theorem translationAnswered_work {s : State} {n : ChanId} (hg : s.te.grant = some n) (hb : s.tu.stage ≠ .begin) (m : Move)
    (a : Access) (x : TuAnswer) : (translationAnswered n m a x s).work + s.te.step.work ≤ s.work + 8 := by
  have k := te_work hg
  set u : State :=
    { s with tu := { s.tu with req := none, stage := .idle, root := none, descriptor := none, pageEntry := none } } with hu
  have wu : u.work = s.work := by
    simp only [hu, State.work, State.eventWork, State.queued, State.unitWork, stage_work hb]
    rfl
  have st : ∀ (y : TeStep) r, ((u.setTeStep y).queueLb r).work + s.te.step.work = s.work + y.work + 3 := by
    intro y r
    have a1 : ((u.setTeStep y).queueLb r).work = (u.setTeStep y).work + 3 := by
      simp only [State.queueLb, State.work, State.eventWork, State.queued, State.unitWork, List.length_append,
        List.length_singleton, LineBuffer.work]; omega
    have a2 : (u.setTeStep y).work + u.te.step.work = u.work + y.work := by
      have hg' : u.te.grant = some n := hg
      simp only [State.setTeStep, State.work, State.eventWork, State.queued, State.unitWork, Engine.work, hg']; omega
    have a3 : u.te = s.te := rfl
    rw [a3] at a2
    omega
  unfold translationAnswered
  dsimp only
  rw [← hu]
  split
  · have := endSlice_work (s := u) n (some (‹FaultCode›, a.va m (u.chan n)))
    have e : u.te = s.te := rfl
    rw [e] at this
    unfold sliceFault
    omega
  · split
    · split
      · exact (st _ .engineDrain).le.trans (by simp [TeStep.work])
      · exact (st _ (.write _ m.dst.size _ n)).le.trans (by simp [TeStep.work])
    all_goals exact (st _ (.check _)).le.trans (by simp [TeStep.work])

theorem valueRead_work {s : State} {n : ChanId} (hg : s.te.grant = some n) (hs : s.te.step.work ≤ 14) (m : Move) (a : Access)
    (v : BitVec 64) : (valueRead n m a v s).work + s.te.step.work ≤ s.work + 14 := by
  have e := fun c va => endSlice_work (s := s) n (some (c, va))
  have k := te_work hg
  unfold valueRead; dsimp only; split
  · exact takeFill_work hg m v
  · split
    · exact askTranslation_work hg _ _ _
    all_goals
      split
      · have := e .rangeLoss (s.chan n).dstEA; unfold sliceFault; omega
      · exact askTranslation_work hg _ _ _
  · have := elementDone_work hg m (‹BitVec 64› != v); omega
  · omega

/-- An answer in hand is worth 15, and TE's step at MP nothing. -/
theorem teAnswered_work {s : State} {n : ChanId} (hg : s.te.grant = some n) {g : Got 64} (hgot : s.te.got = some g)
    (hs : s.te.step.awaitsPort = true) (m : Move) : (teAnswered n m g s).work < s.work := by
  set u : State := { s with te := { s.te with got := none } } with hu
  have b : u.work + 15 = s.work := by
    simp only [hu, State.work, State.eventWork, State.queued, State.unitWork, Engine.work, hg, hgot, Option.isSome_some,
      Option.isSome_none, Bool.toNat_true, Bool.toNat_false]; omega
  have hg' : u.te.grant = some n := hg
  have e := fun c va => endSlice_work (s := u) n (some (c, va))
  unfold teAnswered
  dsimp only
  rw [← hu]
  have hstep : u.te.step = s.te.step := rfl
  rw [hstep]
  cases hst : s.te.step <;> rw [hst] at hs hstep <;> simp only [TeStep.awaitsPort, Bool.false_eq_true] at hs
  · rename_i a pa
    dsimp only
    split
    · have := valueRead_work hg' (by rw [show u.te.step = .reading a pa from hst]; simp [TeStep.work]) m a ((a.size m).low g.data)
      omega
    · have := e .readError (a.va m (u.chan n)); unfold sliceFault; omega
  · dsimp only
    split
    · have := elementDone_work hg' m false; omega
    · have := e .writeError (u.chan n).dstEA; unfold sliceFault; omega

theorem elementBoundary_work {s : State} {n : ChanId} (hg : s.te.grant = some n) :
    (elementBoundary n s).work + s.te.step.work ≤ s.work + 14 := by
  have e := endSlice_work (s := s) n none
  have k := te_work hg
  unfold elementBoundary; dsimp only; split
  · omega
  · split
    · omega
    · split
      · exact beginMove_work hg _
      · exact startElement_work hg _

theorem teStep_work {s t : State} (h : teStep s = some t) : t.work < s.work := by
  unfold teStep at h
  split at h
  · rename_i n hg _
    split at h
    · rename_i hs
      cases h
      have := elementBoundary_work hg
      rw [hs] at this
      simp only [TeStep.work] at this
      omega
    · rename_i hs
      split_ifs at h
      cases h
      have := endSlice_work (s := s) n none
      have k := te_work hg
      rw [hs] at k
      simp only [TeStep.work] at k
      omega
    · rename_i a m hs hm
      split at h
      · rename_i x hx _
        cases h
        have := translationAnswered_work hg (by rw [hx]; simp) m a x
        rw [hs] at this
        simp only [TeStep.work] at this
        omega
      · cases h
    · rename_i hs _
      split_ifs at h
      cases h
      simp only [issueRead, State.setTeStep, State.work, State.eventWork, State.queued, State.unitWork, Engine.work, hg, hs,
        TeStep.work]
      omega
    · rename_i m hs hm
      split_ifs at h
      cases h
      have := elementDone_work hg m false
      rw [hs] at this
      simp only [TeStep.work] at this
      omega
    · rename_i hs hgot _
      cases h
      exact teAnswered_work hg hgot (by rw [hs]; rfl) _
    · rename_i hs hgot _
      cases h
      exact teAnswered_work hg hgot (by rw [hs]; rfl) _
    · cases h
  · cases h

/-! ## Every internal step lowers the bound -/

theorem handOver_queue {b c : StatusBlock} {e : ErrorEvent} (h : b.handOver e = some c) :
    c.queue.length ≤ b.queue.length + 1 := by
  rcases handOver_cases h with rfl | ⟨_, _, rfl⟩ <;> simp

/-- Each internal step makes the bound smaller. -/
theorem micro_work {s t : State} (h : micro s = some t) : t.work < s.work := by
  rcases micro_cases h with h | h | h | h | h | h | h | h | h | h | h
  · obtain ⟨e, l, b, he, hb, rfl⟩ := fuHandOver_some h
    have := handOver_queue hb
    simp only [State.work, State.eventWork, State.queued, State.unitWork, he, List.length_cons]; omega
  · obtain ⟨e, l, b, he, hb, rfl⟩ := suHandOver_some h
    have := handOver_queue hb
    simp only [State.work, State.eventWork, State.queued, State.unitWork, he, List.length_cons]; omega
  · obtain ⟨e, l, b, he, hb, rfl⟩ := teHandOver_some h
    have := handOver_queue hb
    simp only [State.work, State.eventWork, State.queued, State.unitWork, Engine.work, he, List.length_cons]; omega
  · obtain ⟨e, l, b, he, hb, rfl⟩ := tuHandOver_some h
    have := handOver_queue hb
    simp only [State.work, State.eventWork, State.queued, State.unitWork, he, List.length_cons]; omega
  · obtain ⟨e, l, b, he, hb, rfl⟩ := lbHandOver_some h
    have := handOver_queue hb
    simp only [State.work, State.eventWork, State.queued, State.unitWork, he, List.length_cons,
      LineBuffer.work]; omega
  · obtain ⟨e, q, _, hq, rfl⟩ := sbStep_some h
    simp only [State.work, State.eventWork, State.queued, State.unitWork, hq, List.length_cons]; omega
  · exact fuStep_work h
  · exact suStep_work h
  · exact lbStep_work h
  · exact tuStep_work h
  · exact teStep_work h

/-- With fuel for the bound no internal step is left. -/
theorem settleFor_settled : ∀ {fuel : Nat} {s : State}, s.work ≤ fuel → (settleFor fuel s).isSettled
  | 0, s, h => by
    unfold settleFor State.isSettled
    cases hm : micro s with
    | none => rfl
    | some t => have := micro_work hm; omega
  | fuel + 1, s, h => by
    unfold settleFor
    split
    · assumption
    · rename_i t hm
      have := micro_work hm
      exact settleFor_settled (by omega)

/-- Fuel beyond the bound changes nothing. -/
theorem settleFor_stable : ∀ {fuel more : Nat} {s : State}, s.work ≤ fuel → fuel ≤ more → settleFor more s = settleFor fuel s
  | 0, more, s, h, _ => settleFor_of_none (settleFor_settled (fuel := 0) h) more
  | fuel + 1, more, s, h, k => by
    cases hm : micro s with
    | none => rw [settleFor_of_none hm, settleFor_of_none hm]
    | some t =>
      obtain ⟨more, rfl⟩ : ∃ x, more = x + 1 := ⟨more - 1, by omega⟩
      have := micro_work hm
      rw [settleFor_succ hm, settleFor_succ hm]
      exact settleFor_stable (by omega) (by omega)

/-- What comes about ends by itself: no internal step is left (log 17). -/
theorem settle_settled (s : State) : (settle s).isSettled := settleFor_settled (Nat.le_refl _)

/-- An internal step is the first of those that come about. -/
theorem settle_micro {s t : State} (h : micro s = some t) : settle s = settle t := by
  have lt := micro_work h
  unfold settle
  rw [← settleFor_stable (s := s) (more := s.work + 1) (Nat.le_refl _) (by omega), settleFor_succ h]
  exact settleFor_stable (Nat.le_refl _) (by omega)

end Sys2Proof.Laws
end

