-- ==== Sys2Proof/Laws/Delivery.lean ====
section
/-! SUPPORT. How an answer of MP reaches the unit that asked: the event it raises is handed over first, and then the unit acts
on the answer. One lemma for each of FU, SU, TE and TU says so. -/

namespace Sys2Proof.Laws

open Sys2Proof.Machine

/-- SB with room for a unit's event takes it: discarded by the level, or queued. -/
theorem handOver_room {b : StatusBlock} {e : ErrorEvent} (h : ∀ x ∈ b.queue, x.unit ≠ e.unit) :
    ∃ c, b.handOver e = some c ∧ c.level = b.level := by
  unfold StatusBlock.handOver
  have : b.queue.any (·.unit == e.unit) = false := by
    simp only [List.any_eq_false, beq_iff_eq]
    exact h
  simp only [this, Bool.false_eq_true, if_false]
  split_ifs
  · exact ⟨_, rfl, rfl⟩
  · exact ⟨_, rfl, rfl⟩

/-- The states SB's step leads to: SB and its request at MP alone. -/
theorem sbStep_frame {s t : State} (h : sbStep s = some t) :
    ∃ b q, t = { s with sb := b, mp := { s.mp with sb := q } } ∧ b.level = s.sb.level ∧ b.writing.isSome = true := by
  obtain ⟨e, q, _, _, rfl⟩ := sbStep_some h
  exact ⟨_, _, rfl, rfl, rfl⟩

/-- `s` with SB and its request at MP replaced. -/
def withSb (s : State) (b : StatusBlock) (q : Option MpReq) : State := { s with sb := b, mp := { s.mp with sb := q } }

/-- SB takes its next event if it can; then the unit whose turn it is acts. -/
theorem sb_then {s : State} (F : State → State) (k : s.noneKept)
    (act : ∀ b q, sbStep (withSb s b q) = none → micro (withSb s b q) = some (F (withSb s b q))) :
    ∃ b q, settle s = settle (F (withSb s b q)) ∧ b.level = s.sb.level := by
  obtain ⟨k1, k2, k3, k4, k5⟩ := k
  cases hs : sbStep s with
  | none => exact ⟨s.sb, s.mp.sb, settle_micro (act s.sb s.mp.sb hs), rfl⟩
  | some t =>
    have m : micro s = some t := by
      simp [micro, microSteps, fuHandOver, suHandOver, teHandOver, tuHandOver, lbHandOver, k1, k2, k3, k4, k5, hs]
    obtain ⟨b, q, rfl, hb, hw⟩ := sbStep_frame hs
    have no : sbStep (withSb s b q) = none := by
      obtain ⟨e, he⟩ := Option.isSome_iff_exists.mp hw
      simp [withSb, sbStep, he]
    exact ⟨b, q, (settle_micro m).trans (settle_micro (act b q no)), hb⟩

/-! ## Whose turn it is -/

/-- Whether FU has a step to make depends on FU alone; likewise for SU, LB and TU. -/
theorem fuStep_none {s t : State} (e : t.fu = s.fu) (h : fuStep s = none) : fuStep t = none := by
  simp only [fuStep, e] at h ⊢
  split at h
  · cases h
  · split at h <;> simp_all
  · rfl

theorem suStep_none {s t : State} (e : t.su = s.su) (h : suStep s = none) : suStep t = none := by
  simp only [suStep, e] at h ⊢
  split at h
  · cases h
  · split at h <;> simp_all
  · rfl

theorem lbStep_none {s t : State} (e : t.lb = s.lb) (h : lbStep s = none) : lbStep t = none := by
  simp only [lbStep, e] at h ⊢
  split at h
  · split at h <;> simp_all
  · split at h
    · unfold lbAdvance at *
      simp only [e] at h ⊢
      (repeat' split at h) <;> first | (cases h; rfl) | cases h
    · simp_all

theorem tuStep_none {s t : State} (e : t.tu = s.tu) (h : tuStep s = none) : tuStep t = none := by
  simp only [tuStep, e] at h ⊢
  split at h
  · split at h
    · cases h
    · split_ifs at h; simp_all
  · rfl

theorem micro_fu {s t : State} (k : s.noneKept) (b : sbStep s = none) (h : fuStep s = some t) : micro s = some t := by
  obtain ⟨k1, k2, k3, k4, k5⟩ := k
  simp [micro, microSteps, fuHandOver, suHandOver, teHandOver, tuHandOver, lbHandOver, k1, k2, k3, k4, k5, b, h]

theorem micro_su {s t : State} (k : s.noneKept) (b : sbStep s = none) (f : fuStep s = none) (h : suStep s = some t) :
    micro s = some t := by
  obtain ⟨k1, k2, k3, k4, k5⟩ := k
  simp [micro, microSteps, fuHandOver, suHandOver, teHandOver, tuHandOver, lbHandOver, k1, k2, k3, k4, k5, b, f, h]

theorem micro_tu {s t : State} (k : s.noneKept) (b : sbStep s = none) (f : fuStep s = none) (u : suStep s = none)
    (l : lbStep s = none) (h : tuStep s = some t) : micro s = some t := by
  obtain ⟨k1, k2, k3, k4, k5⟩ := k
  simp [micro, microSteps, fuHandOver, suHandOver, teHandOver, tuHandOver, lbHandOver, k1, k2, k3, k4, k5, b, f, u, l, h]

theorem micro_te {s t : State} (k : s.noneKept) (b : sbStep s = none) (f : fuStep s = none) (u : suStep s = none)
    (l : lbStep s = none) (v : tuStep s = none) (h : teStep s = some t) : micro s = some t := by
  obtain ⟨k1, k2, k3, k4, k5⟩ := k
  simp [micro, microSteps, fuHandOver, suHandOver, teHandOver, tuHandOver, lbHandOver, k1, k2, k3, k4, k5, b, f, u, l, v,
    h]

/-! ## FU -/

/-- FU hands over the event of an answer, then passes the answer on. -/
theorem fu_delivers {s : State} {j : FuJob} {g : Got 4736} {ev : List ErrorEvent} (h : s.isSettled) (k : s.noneKept)
    (room : s.hasRoom .fu) (c : s.fu.current = some j) (he : ev.length ≤ 1) (hu : ∀ e ∈ ev, e.unit = .fu) :
    ∃ b q, settle
        { s with fu := { s.fu with got := some g, held := s.fu.held ++ ev }, mp := { s.mp with fu := none } }
      = settle
        (fuDeliver j g
          (withSb { s with fu := { s.fu with got := some g, held := [] }, mp := { s.mp with fu := none } } b q))
      ∧ b.level = s.sb.level := by
  obtain ⟨h1, h2, h3, h4, h5, h6, h7, h8, h9, h10, h11⟩ := (settled_iff s).mp h
  obtain ⟨k1, k2, k3, k4, k5⟩ := k
  have go : ∀ w, w.level = s.sb.level → ∃ b q, settle
        { s with sb := w, fu := { s.fu with got := some g, held := [] }, mp := { s.mp with fu := none } }
      = settle
        (fuDeliver j g
          (withSb { s with fu := { s.fu with got := some g, held := [] }, mp := { s.mp with fu := none } } b q))
      ∧ b.level = s.sb.level := by
    intro w hc
    obtain ⟨b, q, e, hb⟩ :=
      sb_then (s := { s with sb := w, fu := { s.fu with got := some g, held := [] }, mp := { s.mp with fu := none } })
        (fuDeliver j g) (by exact ⟨rfl, k2, k3, k4, k5⟩)
        (fun b q no => micro_fu (by exact ⟨rfl, k2, k3, k4, k5⟩) no  (by simp [fuStep, withSb, c]))
    exact ⟨b, q, e, hb.trans hc⟩
  rcases ev with _ | ⟨e, _ | ⟨_, _⟩⟩
  · obtain ⟨b, q, e, hb⟩ := go s.sb rfl
    exact ⟨b, q, by simp only [k1, List.append_nil]; exact e, hb⟩
  · obtain ⟨w, hc, hl⟩ := handOver_room (b := s.sb) (e := e) (by rw [hu e (by simp)]; exact room)
    obtain ⟨b, q, e', hb⟩ := go w hl
    refine ⟨b, q, ?_, hb⟩
    rw [← e']
    refine settle_micro ?_
    simp [micro, microSteps, fuHandOver, k1, hc]
  · simp at he

/-! ## SU -/

/-- SU hands over the event of an answer, then acts on the answer. -/
theorem su_delivers {s : State} {o : SuOp} {g : Got 48} {ev : List ErrorEvent} (h : s.isSettled) (k : s.noneKept)
    (room : s.hasRoom .su) (c : s.su.current = some o) (he : ev.length ≤ 1) (hu : ∀ e ∈ ev, e.unit = .su) :
    ∃ b q, settle
        { s with su := { s.su with got := some g, held := s.su.held ++ ev }, mp := { s.mp with su := none } }
      = settle
        (suAnswered o g
          (withSb { s with su := { s.su with got := some g, held := [] }, mp := { s.mp with su := none } } b q))
      ∧ b.level = s.sb.level := by
  obtain ⟨h1, h2, h3, h4, h5, h6, h7, h8, h9, h10, h11⟩ := (settled_iff s).mp h
  obtain ⟨k1, k2, k3, k4, k5⟩ := k
  have go : ∀ w, w.level = s.sb.level → ∃ b q, settle
        { s with sb := w, su := { s.su with got := some g, held := [] }, mp := { s.mp with su := none } }
      = settle
        (suAnswered o g
          (withSb { s with su := { s.su with got := some g, held := [] }, mp := { s.mp with su := none } } b q))
      ∧ b.level = s.sb.level := by
    intro w hc
    obtain ⟨b, q, e, hb⟩ :=
      sb_then (s := { s with sb := w, su := { s.su with got := some g, held := [] }, mp := { s.mp with su := none } })
        (suAnswered o g) (by exact ⟨k1, rfl, k3, k4, k5⟩)
        (fun b q no => micro_su (by exact ⟨k1, rfl, k3, k4, k5⟩) no (fuStep_none (s := s) rfl h7) (by simp [suStep, withSb, c]))
    exact ⟨b, q, e, hb.trans hc⟩
  rcases ev with _ | ⟨e, _ | ⟨_, _⟩⟩
  · obtain ⟨b, q, e, hb⟩ := go s.sb rfl
    exact ⟨b, q, by simp only [k2, List.append_nil]; exact e, hb⟩
  · obtain ⟨w, hc, hl⟩ := handOver_room (b := s.sb) (e := e) (by rw [hu e (by simp)]; exact room)
    obtain ⟨b, q, e', hb⟩ := go w hl
    refine ⟨b, q, ?_, hb⟩
    rw [← e']
    refine settle_micro ?_
    simp [micro, microSteps, fuHandOver, suHandOver, k1, k2, hc]
  · simp at he

/-! ## TE -/

/-- TE hands over the event of an answer, then acts on the answer. -/
theorem te_delivers {s : State} {n : ChanId} {m : Move} {g : Got 64} {ev : List ErrorEvent} (h : s.isSettled) (k : s.noneKept)
    (room : s.hasRoom .te) (c : s.te.grant = some n)
    (cm : (s.chan n).currentMove = some m) (st : s.te.step.awaitsPort = true) (he : ev.length ≤ 1) (hu : ∀ e ∈ ev, e.unit = .te) :
    ∃ b q, settle
        { s with te := { s.te with got := some g, held := s.te.held ++ ev }, mp := { s.mp with te := none } }
      = settle
        (teAnswered n m g
          (withSb { s with te := { s.te with got := some g, held := [] }, mp := { s.mp with te := none } } b q))
      ∧ b.level = s.sb.level := by
  obtain ⟨h1, h2, h3, h4, h5, h6, h7, h8, h9, h10, h11⟩ := (settled_iff s).mp h
  obtain ⟨k1, k2, k3, k4, k5⟩ := k
  have go : ∀ w, w.level = s.sb.level → ∃ b q, settle
        { s with sb := w, te := { s.te with got := some g, held := [] }, mp := { s.mp with te := none } }
      = settle
        (teAnswered n m g
          (withSb { s with te := { s.te with got := some g, held := [] }, mp := { s.mp with te := none } } b q))
      ∧ b.level = s.sb.level := by
    intro w hc
    obtain ⟨b, q, e, hb⟩ :=
      sb_then (s := { s with sb := w, te := { s.te with got := some g, held := [] }, mp := { s.mp with te := none } })
        (teAnswered n m g) (by exact ⟨k1, k2, rfl, k4, k5⟩)
        (fun b q no => micro_te (by exact ⟨k1, k2, rfl, k4, k5⟩) no (fuStep_none (s := s) rfl h7) (suStep_none (s := s) rfl h8) (lbStep_none (s := s) rfl h9) (tuStep_none (s := s) rfl h10) (by simp only [teStep, withSb, c]; cases e : s.te.step <;> simp_all [TeStep.awaitsPort, State.chan]))
    exact ⟨b, q, e, hb.trans hc⟩
  rcases ev with _ | ⟨e, _ | ⟨_, _⟩⟩
  · obtain ⟨b, q, e, hb⟩ := go s.sb rfl
    exact ⟨b, q, by simp only [k3, List.append_nil]; exact e, hb⟩
  · obtain ⟨w, hc, hl⟩ := handOver_room (b := s.sb) (e := e) (by rw [hu e (by simp)]; exact room)
    obtain ⟨b, q, e', hb⟩ := go w hl
    refine ⟨b, q, ?_, hb⟩
    rw [← e']
    refine settle_micro ?_
    simp [micro, microSteps, fuHandOver, suHandOver, teHandOver, k1, k2, k3, hc]
  · simp at he

/-! ## TU -/

/-- TU hands over the event of an answer, then acts on the answer. -/
theorem tu_delivers {s : State} {r : TuReq} {g : Got 64} {ev : List ErrorEvent} (h : s.isSettled) (k : s.noneKept)
    (room : s.hasRoom .tu) (c : s.tu.req = some r) (he : ev.length ≤ 1) (hu : ∀ e ∈ ev, e.unit = .tu) :
    ∃ b q, settle
        { s with tu := { s.tu with got := some g, held := s.tu.held ++ ev }, mp := { s.mp with tu := none } }
      = settle
        (tuAnswered r g
          (withSb { s with tu := { s.tu with got := some g, held := [] }, mp := { s.mp with tu := none } } b q))
      ∧ b.level = s.sb.level := by
  obtain ⟨h1, h2, h3, h4, h5, h6, h7, h8, h9, h10, h11⟩ := (settled_iff s).mp h
  obtain ⟨k1, k2, k3, k4, k5⟩ := k
  have go : ∀ w, w.level = s.sb.level → ∃ b q, settle
        { s with sb := w, tu := { s.tu with got := some g, held := [] }, mp := { s.mp with tu := none } }
      = settle
        (tuAnswered r g
          (withSb { s with tu := { s.tu with got := some g, held := [] }, mp := { s.mp with tu := none } } b q))
      ∧ b.level = s.sb.level := by
    intro w hc
    obtain ⟨b, q, e, hb⟩ :=
      sb_then (s := { s with sb := w, tu := { s.tu with got := some g, held := [] }, mp := { s.mp with tu := none } })
        (tuAnswered r g) (by exact ⟨k1, k2, k3, rfl, k5⟩)
        (fun b q no => micro_tu (by exact ⟨k1, k2, k3, rfl, k5⟩) no (fuStep_none (s := s) rfl h7) (suStep_none (s := s) rfl h8) (lbStep_none (s := s) rfl h9) (by simp [tuStep, withSb, c]))
    exact ⟨b, q, e, hb.trans hc⟩
  rcases ev with _ | ⟨e, _ | ⟨_, _⟩⟩
  · obtain ⟨b, q, e, hb⟩ := go s.sb rfl
    exact ⟨b, q, by simp only [k4, List.append_nil]; exact e, hb⟩
  · obtain ⟨w, hc, hl⟩ := handOver_room (b := s.sb) (e := e) (by rw [hu e (by simp)]; exact room)
    obtain ⟨b, q, e', hb⟩ := go w hl
    refine ⟨b, q, ?_, hb⟩
    rw [← e']
    refine settle_micro ?_
    simp [micro, microSteps, fuHandOver, suHandOver, teHandOver, tuHandOver, k1, k2, k3, k4, hc]
  · simp at he

/-! ## The answers of MP -/

theorem readEvents_length (u : EventUnit) (n : Option ChanId) (r : Resp) (pa : PAddr) : (readEvents u n r pa).length ≤ 1 := by
  cases r <;> simp [readEvents]

theorem readEvents_unit (u : EventUnit) (n : Option ChanId) (r : Resp) (pa : PAddr) :
    ∀ e ∈ readEvents u n r pa, e.unit = u := by
  cases r <;> simp [readEvents]

theorem writeEvents_length (c : EventCode) (u : EventUnit) (n : Option ChanId) (r : WriteResp) (pa : PAddr) :
    (writeEvents c u n r pa).length ≤ 1 := by
  cases r <;> simp [writeEvents]

theorem writeEvents_unit (c : EventCode) (u : EventUnit) (n : Option ChanId) (r : WriteResp) (pa : PAddr) :
    ∀ e ∈ writeEvents c u n r pa, e.unit = u := by
  cases r <;> simp [writeEvents]

/-- Table 9-2: an answer to FU raises one event at most, of unit FU. -/
theorem fuEvents_length (k : FuKind) (n : ChanId) (r : Resp) (pa : PAddr) : (k.events n r pa).length ≤ 1 := by
  cases k <;> simp only [FuKind.events, readEvents_length] <;> split_ifs <;> simp

theorem fuEvents_unit (k : FuKind) (n : ChanId) (r : Resp) (pa : PAddr) : ∀ e ∈ k.events n r pa, e.unit = .fu := by
  cases k <;> simp only [FuKind.events] <;> first | exact readEvents_unit _ _ _ _ | (split_ifs <;> simp)

/-- FU free of its request, with SB and its request at MP replaced. -/
def fuFreed (s : State) (b : StatusBlock) (q : Option MpReq) : State :=
  { s with
    sb := b
    fu := { s.fu with current := none, got := none, held := [] }
    mp := { s.mp with fu := none, sb := q } }

/-- An answer FU awaits reaches its CC, and nothing after that reaches a channel left alone or answers requests (R49). -/
theorem fuAnswer_next {s : State} {j : FuJob} (h : s.fuAwaits j) (resp : Resp) (d : BitVec 4736) :
    ∃ b q t, fuAnswer j.kind resp d s = .next t ∧ b.level = s.sb.level
      ∧ Keeps (fuAnswered j ⟨j.req.answer resp, d⟩ (fuFreed s b q)) t
      ∧ ∀ m, s.leftAlone m → Rests m (fuAnswered j ⟨j.req.answer resp, d⟩ (fuFreed s b q)) t := by
  obtain ⟨hs, k, room, hc, hm, la, _⟩ := h
  obtain ⟨b, q, e, hb⟩ := fu_delivers (g := ⟨j.req.answer resp, d⟩) hs k room hc
    (fuEvents_length j.kind j.chan (j.req.answer resp) j.req.addr) (fuEvents_unit _ _ _ _)
  refine ⟨b, q, settle (fuAnswered j ⟨j.req.answer resp, d⟩ (fuFreed s b q)), ?_, hb, settleFor_keeps _ _,
    fun m hm' => ?_⟩
  · refine Eq.trans ?_ (congrArg Host.Outcome.next e)
    simp only [fuAnswer, hc, la.1, hm, if_true, settled]
  · refine settle_leftAlone ?_
    exact acts_leftAlone (s := fuFreed s b q) (acts_fuAnswered _ j _) ⟨rfl, hm'.2.1, hm'.2.2.1, hm'.2.2.2⟩

/-- SU with an answer taken in hand, its event handed over. -/
def suHas (s : State) (b : StatusBlock) (q : Option MpReq) (g : Got 48) : State :=
  { s with
    sb := b
    su := { s.su with got := some g, held := [] }
    mp := { s.mp with su := none, sb := q } }

/-- An answer to SU raises one event at most, unless it is CORRECTED and its record makes an undo for RESET fail. -/
theorem suReadEvents_length (r : SuReq) (resp : Resp) (d : BitVec 48) (pa : PAddr)
    (h : r.isUndoReset = true → resp ≠ .corrected ∨ ∃ c, r.decide d = .ok c) : (r.readEvents resp d pa).length ≤ 1 := by
  unfold SuReq.readEvents
  cases hr : r.isUndoReset <;> cases hd : r.decide d <;> cases resp <;> simp_all

theorem suReadEvents_unit (r : SuReq) (resp : Resp) (d : BitVec 48) (pa : PAddr) :
    ∀ e ∈ r.readEvents resp d pa, e.unit = .su := by
  unfold SuReq.readEvents
  cases r.isUndoReset <;> cases r.decide d <;> cases resp <;> simp

/-- An answer to SU's read is acted on (R51). -/
theorem suReadAnswer_next {s : State} {o : SuOp} (h : s.suAwaits o) (hr : o.record = none) (resp : Resp) (d : BitVec 48)
    (hc : o.req.isUndoReset = true → resp ≠ .corrected ∨ ∃ c, o.req.decide d = .ok c) :
    ∃ b q, suReadAnswer o.req.kind resp d s = .next (settle (suAnswered o ⟨resp, d⟩ (suHas s b q ⟨resp, d⟩)))
      ∧ b.level = s.sb.level := by
  obtain ⟨hs, k, room, hf, hg, ho, hm, _⟩ := h
  obtain ⟨req, hq⟩ := Option.isSome_iff_exists.mp hm
  obtain ⟨b, q, e, hb⟩ := su_delivers (g := ⟨resp, d⟩) hs k room ho
    (suReadEvents_length o.req resp d req.addr hc) (suReadEvents_unit _ _ _ _)
  refine ⟨b, q, ?_, hb⟩
  obtain ⟨r, k, rec, c⟩ := o
  simp only at hr
  subst hr
  refine Eq.trans ?_ (congrArg Host.Outcome.next e)
  simp only [suReadAnswer, ho, hg, hq, if_true, settled]

/-- An answer to SU's write is acted on (R51). -/
theorem suWriteAnswer_next {s : State} {o : SuOp} (h : s.suAwaits o) {x : BitVec 48} (hr : o.record = some x)
    (resp : WriteResp) :
    ∃ b q, suWriteAnswer o.req.kind resp s
        = .next (settle (suAnswered o ⟨asResp resp, 0⟩ (suHas s b q ⟨asResp resp, 0⟩)))
      ∧ b.level = s.sb.level := by
  obtain ⟨hs, k, room, hf, hg, ho, hm, _⟩ := h
  obtain ⟨req, hq⟩ := Option.isSome_iff_exists.mp hm
  obtain ⟨b, q, e, hb⟩ := su_delivers (g := ⟨asResp resp, 0⟩) (ev := o.req.writeEvents resp req.addr) hs k room ho
    (writeEvents_length _ _ _ _ _) (writeEvents_unit _ _ _ _ _)
  refine ⟨b, q, ?_, hb⟩
  obtain ⟨r, k, rec, c⟩ := o
  simp only at hr
  subst hr
  refine Eq.trans ?_ (congrArg Host.Outcome.next e)
  simp only [suWriteAnswer, ho, hg, hq, if_true, settled]

/-- TE with an answer taken in hand, its event handed over. -/
def teHas (s : State) (b : StatusBlock) (q : Option MpReq) (g : Got 64) : State :=
  { s with
    sb := b
    te := { s.te with got := some g, held := [] }
    mp := { s.mp with te := none, sb := q } }

/-- An answer to an element's read is acted on (R82). -/
theorem elementReadAnswer_next {s : State} {n : ChanId} {m : Move} (h : s.teAwaits n m) {a : Access} {pa : PAddr}
    (hr : s.te.step = .reading a pa) (resp : Resp) (d : BitVec 64) :
    ∃ b q, exec (.elementReadAnswer resp d) s
        = .next (settle (teAnswered n m ⟨resp, d⟩ (teHas s b q ⟨resp, d⟩)))
      ∧ b.level = s.sb.level := by
  obtain ⟨hs, k, room, _, _, hg, hn, hm, cm, _⟩ := h
  obtain ⟨req, hq⟩ := Option.isSome_iff_exists.mp hm
  obtain ⟨b, q, e, hb⟩ := te_delivers (g := ⟨resp, d⟩) hs k room hg cm (by rw [hr]; rfl)
    (readEvents_length _ (some n) resp req.addr) (readEvents_unit _ _ _ _)
  refine ⟨b, q, ?_, hb⟩
  refine Eq.trans ?_ (congrArg Host.Outcome.next e)
  simp only [exec, execElementReadAnswer, hg, hr, hn, hq, settled, State.teGot]

/-- An answer to a device write is acted on (R84). -/
theorem deviceWriteAnswer_next {s : State} {n : ChanId} {m : Move} (h : s.teAwaits n m) {v : BitVec 64} {pa : PAddr}
    (hr : s.te.step = .deviceWrite v pa) (resp : WriteResp) :
    ∃ b q, exec (.deviceWriteAnswer resp) s
        = .next (settle (teAnswered n m ⟨asResp resp, 0⟩ (teHas s b q ⟨asResp resp, 0⟩)))
      ∧ b.level = s.sb.level := by
  obtain ⟨hs, k, room, _, _, hg, hn, hm, cm, _⟩ := h
  obtain ⟨req, hq⟩ := Option.isSome_iff_exists.mp hm
  obtain ⟨b, q, e, hb⟩ := te_delivers (g := ⟨asResp resp, 0⟩) hs k room hg cm (by rw [hr]; rfl)
    (writeEvents_length .memWrite _ (some n) resp req.addr) (writeEvents_unit _ _ _ _ _)
  refine ⟨b, q, ?_, hb⟩
  refine Eq.trans ?_ (congrArg Host.Outcome.next e)
  simp only [exec, execDeviceWriteAnswer, hg, hr, hn, hq, settled, State.teGot]

/-- TU with an answer taken in hand, its event handed over. -/
def tuHas (s : State) (b : StatusBlock) (q : Option MpReq) (g : Got 64) : State :=
  { s with
    sb := b
    tu := { s.tu with got := some g, held := [] }
    mp := { s.mp with tu := none, sb := q } }

/-- An answer to a read of the walk is acted on (R114). -/
theorem walkReadAnswer_next {s : State} {r : TuReq} {stage : TuStage} (h : s.tuAwaits r stage) (resp : Resp)
    (d : BitVec 64) :
    ∃ b q, walkReadAnswer stage resp d s
        = .next (settle (tuAnswered r ⟨resp, d⟩ (tuHas s b q ⟨resp, d⟩)))
      ∧ b.level = s.sb.level := by
  obtain ⟨hs, k, room, hr, hst, hn, hm⟩ := h
  obtain ⟨req, hq⟩ := Option.isSome_iff_exists.mp hm
  obtain ⟨b, q, e, hb⟩ := tu_delivers (g := ⟨resp, d⟩) hs k room hr
    (readEvents_length _ (some r.chan) resp req.addr) (readEvents_unit _ _ _ _)
  refine ⟨b, q, ?_, hb⟩
  refine Eq.trans ?_ (congrArg Host.Outcome.next e)
  simp only [walkReadAnswer, hr, hn, hq, hst, if_true, settled, State.tuGot]

/-- An answer to the flag write is acted on (R122). -/
theorem flagWriteAnswer_next {s : State} {r : TuReq} (h : s.tuAwaits r .flag) (resp : WriteResp) :
    ∃ b q, exec (.flagWriteAnswer resp) s
        = .next (settle (tuAnswered r ⟨asResp resp, 0⟩ (tuHas s b q ⟨asResp resp, 0⟩)))
      ∧ b.level = s.sb.level := by
  obtain ⟨hs, k, room, hr, hst, hn, hm⟩ := h
  obtain ⟨req, hq⟩ := Option.isSome_iff_exists.mp hm
  obtain ⟨b, q, e, hb⟩ := tu_delivers (g := ⟨asResp resp, 0⟩) hs k room hr
    (writeEvents_length .busError _ (some r.chan) resp req.addr) (writeEvents_unit _ _ _ _ _)
  refine ⟨b, q, ?_, hb⟩
  refine Eq.trans ?_ (congrArg Host.Outcome.next e)
  simp only [exec, execFlagWriteAnswer, hr, hst, hn, hq, settled, State.tuGot]

end Sys2Proof.Laws
end

