-- ==== Sys2Proof/Laws/Port.lean ====
section
/-! SUPPORT. How RP decides a register write, and when a change of registers leaves the part settled. -/

namespace Sys2Proof.Laws

open Sys2Proof.Machine

/-! ## Register writes -/

/-- Out of every reset a register write acts. -/
theorem regWrite_takes {s : State} (h : s.takesWrites) (f : State → State) : s.regWrite f = f (s.replied ⟨false, 0⟩) := by
  have h1 : (s.replied ⟨false, 0⟩).resetAsserted = false := h.1
  have h2 : (s.replied ⟨false, 0⟩).resetting = false := by simp [State.resetting, State.replied, h.2]
  simp only [State.regWrite, h1, h2, Bool.false_eq_true, if_false]

/-- While reset_n is asserted it is ignored (R176). -/
theorem regWrite_asserted {s : State} (h : s.resetAsserted = true) (f : State → State) :
    s.regWrite f = s.replied ⟨false, 0⟩ := by
  have h1 : (s.replied ⟨false, 0⟩).resetAsserted = true := h
  simp only [State.regWrite, h1, if_true]

/-- During a soft reset it is refused (R190). -/
theorem regWrite_soft {s : State} (h : s.resetAsserted = false) (h' : s.soft ≠ .off) (f : State → State) :
    s.regWrite f = (s.replied ⟨false, 0⟩).refuse .resetting := by
  have h1 : (s.replied ⟨false, 0⟩).resetAsserted = false := h
  have h2 : (s.replied ⟨false, 0⟩).resetting = true := by simpa [State.resetting, State.replied] using h'
  simp only [State.regWrite, h1, h2, Bool.false_eq_true, if_true, if_false]

/-- `s` after RP has named channel `n`. -/
def named (s : State) (n : ChanId) : State := { s with rp := { s.rp with lastNamed := n, reply := ⟨false, 0⟩ } }

/-- RP decides a channel command (R182). -/
theorem exec_write {s : State} (h : s.takesWrites) (k : Command) (n : ChanId) :
    exec (k.write n) s = .next (acceptCommand n k (s.replied ⟨false, 0⟩)) := by
  cases k <;> exact congrArg Host.Outcome.next (regWrite_takes h _)

/-- With the slot empty and no reset of the channel in progress the command is taken at once (R37), and then nothing reaches
a channel left alone or answers its requests. -/
theorem exec_taken {s : State} (h : s.takesWrites) (hs : s.rp.commandSlot = none) (k : Command) (n : ChanId)
    (hr : (s.chan n).reset = .off) :
    exec (k.write n) s = .next (settle (takeChannelCommand n k (named s n)))
      ∧ ∀ m, s.leftAlone m →
        Rests m (takeChannelCommand n k (named s n)) (settle (takeChannelCommand n k (named s n))) := by
  constructor
  · rw [exec_write h]
    have h1 : (s.replied ⟨false, 0⟩).rp.commandSlot.isSome = false := by rw [show (s.replied ⟨false, 0⟩).rp.commandSlot = none from hs]; rfl
    have h2 : ((named s n).chan n).reset = .off := hr
    unfold acceptCommand
    simp only [h1, Bool.false_eq_true, if_false]
    rw [show ({ s.replied ⟨false, 0⟩ with rp := { (s.replied ⟨false, 0⟩).rp with lastNamed := n } } : State) = named s n from rfl]
    rw [h2]
    rfl
  · intro m hm
    exact settle_leftAlone (acts_leftAlone (acts_takeChannelCommand n (named s n) k) hm)

/-! ## Settled states -/

/-- Whether TE has a step to make depends on TE, TU and LB, and on the move and the reset of each channel. -/
theorem teStep_none {s t : State} (e : t.te = s.te) (u : t.tu = s.tu) (l : t.lb = s.lb)
    (hm : ∀ n, (t.chan n).currentMove = (s.chan n).currentMove) (hr : ∀ n, (t.chan n).reset = (s.chan n).reset)
    (h : teStep s = none) : teStep t = none := by
  have he : t.engineAtLb = s.engineAtLb := by simp [State.engineAtLb, l]
  unfold teStep at h ⊢
  rw [e, u]
  simp only [hm, hr, he]
  (repeat' split at h) <;> simp_all

theorem handOver_none {b c : StatusBlock} {e : ErrorEvent} (hq : c.queue = b.queue) (hl : c.level = b.level) :
    c.handOver e = none ↔ b.handOver e = none := by
  unfold StatusBlock.handOver StatusBlock.reports
  rw [hq, hl]
  split_ifs <;> simp

/-- A change that leaves the units, the moves, the resets and SB's queue leaves the part settled. -/
theorem settled_congr {s t : State} (h : s.isSettled) (e : t.te = s.te) (u : t.tu = s.tu) (l : t.lb = s.lb)
    (f : t.fu = s.fu) (g : t.su = s.su) (b1 : t.sb.queue = s.sb.queue) (b2 : t.sb.level = s.sb.level ∨ s.noneKept)
    (b3 : t.sb.writing = s.sb.writing) (hm : ∀ n, (t.chan n).currentMove = (s.chan n).currentMove)
    (hr : ∀ n, (t.chan n).reset = (s.chan n).reset) : t.isSettled := by
  obtain ⟨h1, h2, h3, h4, h5, h6, h7, h8, h9, h10, h11⟩ := (settled_iff s).mp h
  refine (settled_iff t).mpr ⟨?_, ?_, ?_, ?_, ?_, ?_, fuStep_none f h7, suStep_none g h8, lbStep_none l h9,
    tuStep_none u h10, teStep_none e u l hm hr h11⟩
  · unfold fuHandOver at *; rw [f]; rcases b2 with b2 | b2
    · split at h1 <;> simp_all [handOver_none b1 b2]
    · simp [b2.1]
  · unfold suHandOver at *; rw [g]; rcases b2 with b2 | b2
    · split at h2 <;> simp_all [handOver_none b1 b2]
    · simp [b2.2.1]
  · unfold teHandOver at *; rw [e]; rcases b2 with b2 | b2
    · split at h3 <;> simp_all [handOver_none b1 b2]
    · simp [b2.2.2.1]
  · unfold tuHandOver at *; rw [u]; rcases b2 with b2 | b2
    · split at h4 <;> simp_all [handOver_none b1 b2]
    · simp [b2.2.2.2.1]
  · unfold lbHandOver at *; rw [l]; rcases b2 with b2 | b2
    · split at h5 <;> simp_all [handOver_none b1 b2]
    · simp [b2.2.2.2.2]
  · unfold sbStep at *; rw [b1, b3]; split at h6 <;> simp_all

end Sys2Proof.Laws
end

