-- ==== Sys2Proof/Laws/Events.lean ====
section
/-! SUPPORT. What SU's steps spare: TE, TU, the lines of LB, and SB's queue and record; and that SB loses no event. -/

namespace Sys2Proof.Laws

open Sys2Proof.Machine

/-- TE, TU, LB's lines and SB's events stay; LB's queue may gain drains. -/
structure Spares (s t : State) : Prop where
  sb : ∃ x y, t.sb = { s.sb with refused := x, alertLost := y } ∧ (s.sb.refused = true → x = true)
    ∧ (s.sb.alertLost = true → y = true)
  te : t.te = s.te
  tu : t.tu = s.tu
  lb : ∃ l, t.lb = { s.lb with queue := s.lb.queue ++ l } ∧ ∀ r ∈ l, ∃ n, r = LbReq.drain n

namespace Spares

variable {s t u : State}

theorem trans (a : Spares s t) (b : Spares t u) : Spares s u where
  sb := by
    obtain ⟨x, y, h, hx, hy⟩ := a.sb
    obtain ⟨z, w, g, hz, hw⟩ := b.sb
    exact ⟨z, w, by rw [g, h], fun r => hz (by rw [h]; exact hx r), fun r => hw (by rw [h]; exact hy r)⟩
  te := b.te.trans a.te
  tu := b.tu.trans a.tu
  lb := by
    obtain ⟨l, h, hl⟩ := a.lb
    obtain ⟨m, g, hm⟩ := b.lb
    refine ⟨l ++ m, by rw [g, h]; simp, fun r hr => ?_⟩
    rcases List.mem_append.mp hr with h | h
    · exact hl r h
    · exact hm r h

theorem of (h : t.sb = s.sb) (e : t.te = s.te) (u : t.tu = s.tu) (l : t.lb = s.lb) : Spares s t where
  sb := ⟨s.sb.refused, s.sb.alertLost, h, id, id⟩
  te := e
  tu := u
  lb := ⟨[], by simp [l], by simp⟩

theorem refl (s : State) : Spares s s := of rfl rfl rfl rfl

theorem ofActs {n : ChanId} (a : Acts n s t) : Spares s t where
  sb := let ⟨b, h, hb⟩ := a.sb; ⟨b, s.sb.alertLost, h, hb, id⟩
  te := a.te
  tu := a.tu
  lb := let ⟨l, h, hl⟩ := a.lb; ⟨l, h, fun r hr => ⟨n, hl r hr⟩⟩

end Spares

theorem spares_offerAlert (k : SemId) (s : State) : Spares s (offerAlert k s) := by
  unfold offerAlert
  split_ifs
  · exact Spares.refl s
  · exact { Spares.refl s with sb := ⟨s.sb.refused, true, rfl, id, fun _ => rfl⟩ }
  · exact .of rfl rfl rfl rfl

theorem spares_wakeOne (b : Bool) (k : SemId) (c : BitVec 16) (s : State) : Spares s (wakeOne b k c s) := by
  unfold wakeOne
  split
  · split
    · exact Spares.refl s
    · refine Spares.trans (t := { s with su := { s.su with parked := _ } }) ?_ (.ofActs (acts_waitSucceeded _ _))
      exact .of rfl rfl rfl rfl
  · exact Spares.refl s

theorem spares_notifyEffects (d : BitVec 48) (k : SemId) (c : BitVec 16) (s : State) : Spares s (notifyEffects d k c s) := by
  unfold notifyEffects
  dsimp only
  split
  · exact (spares_wakeOne _ k c s).trans (spares_offerAlert k _)
  · exact spares_wakeOne _ k c s

theorem spares_suFree (s : State) : Spares s s.suFree := .of rfl rfl rfl rfl

theorem spares_unpark (s : State) (n : ChanId) : Spares s (s.unpark n) := .of rfl rfl rfl rfl

theorem spares_emptySignalSlot (s : State) : Spares s s.emptySignalSlot :=
  .of rfl rfl rfl rfl

theorem spares_suFailed (r : SuReq) (f : SuFailure) (s : State) : Spares s (suFailed r f s) := by
  cases r
  · exact .ofActs (acts_requestFailed _ _ _)
  · exact .ofActs (acts_requestFailed _ _ _)
  · exact .ofActs (acts_stopUndoFailed _ _)
  · exact (spares_unpark s _).trans (.ofActs (acts_resetUndoAnswered _ _))
  · exact (spares_emptySignalSlot s).trans (.ofActs (Acts.refuse 0 _ _))

theorem spares_waitPerformed (n : ChanId) (k : SemId) (c : BitVec 16) (s : State) : Spares s (waitPerformed n k c s) := by
  unfold waitPerformed
  split
  · exact .ofActs (acts_waitSucceeded n s)
  · refine Spares.trans (t := { s with su := { s.su with parked := _ } }) ?_ (.ofActs (acts_waitParked n _ (by simp [State.isParked])))
    exact .of rfl rfl rfl rfl

theorem spares_suPerformed (o : SuOp) (d : BitVec 48) (s : State) : Spares s (suPerformed o d s) := by
  unfold suPerformed
  split
  · exact spares_waitPerformed _ _ _ s
  · exact (spares_notifyEffects _ _ _ s).trans (.ofActs (acts_notifyPerformed _ _))
  · exact (spares_notifyEffects _ _ _ s).trans (spares_emptySignalSlot _)
  · exact (spares_unpark s _).trans (.ofActs (acts_stopUndone _ _))
  · exact (spares_unpark s _).trans (.ofActs (acts_resetUndoAnswered _ _))

theorem spares_suAnswered (o : SuOp) (g : Got 48) (s : State) : Spares s (suAnswered o g s) := by
  unfold suAnswered
  split
  · split
    · split
      · exact (spares_suFree s).trans (spares_suFailed _ _ _)
      · exact .of rfl rfl rfl rfl
    · exact (spares_suFree s).trans (spares_suFailed _ _ _)
  · split
    · exact (spares_suFree s).trans (spares_suPerformed _ _ _)
    · exact (spares_suFree s).trans (spares_suFailed _ _ _)

theorem spares_notParked (r : SuReq) (s : State) : Spares s (notParked r s) := by
  cases r
  · exact Spares.refl s
  · exact Spares.refl s
  · exact .ofActs (acts_goOn _ s)
  · exact .ofActs (acts_resetUndoAnswered _ s)
  · exact Spares.refl s

theorem spares_suTake (r : SuReq) (q : List SuReq) (s : State) : Spares s (suTake r q s) := by
  have h : Spares s { s with su := { s.su with queue := q } } := .of rfl rfl rfl rfl
  unfold suTake
  dsimp only
  split
  · exact h.trans (spares_notParked r _)
  · exact .of rfl rfl rfl rfl

/-- SU's step spares the other units and SB's events. -/
theorem suStep_spares {s t : State} (h : suStep s = some t) : Spares s t := by
  rcases suStep_some h with ⟨o, g, _, _, _, rfl⟩ | ⟨r, q, _, _, _, rfl⟩
  · exact spares_suAnswered o g s
  · exact spares_suTake r q s

/-! ## SB's events -/

/-- REFUSED and ALERT_LOST, once set, stay set through every internal step. -/
theorem micro_sticky {s t : State} (h : micro s = some t) :
    (s.sb.refused = true → t.sb.refused = true) ∧ (s.sb.alertLost = true → t.sb.alertLost = true) := by
  have hand : ∀ {c d}, s.sb.handOver d = some c →
      (s.sb.refused = true → c.refused = true) ∧ (s.sb.alertLost = true → c.alertLost = true) := by
    intro c d hc
    rcases handOver_cases hc with rfl | ⟨_, _, rfl⟩ <;> exact ⟨id, id⟩
  rcases micro_cases h with h | h | h | h | h | h | h | h | h | h | h
  · obtain ⟨d, l, b, _, hb, rfl⟩ := fuHandOver_some h; exact hand hb
  · obtain ⟨d, l, b, _, hb, rfl⟩ := suHandOver_some h; exact hand hb
  · obtain ⟨d, l, b, _, hb, rfl⟩ := teHandOver_some h; exact hand hb
  · obtain ⟨d, l, b, _, hb, rfl⟩ := tuHandOver_some h; exact hand hb
  · obtain ⟨d, l, b, _, hb, rfl⟩ := lbHandOver_some h; exact hand hb
  · obtain ⟨d, q, hw, hq, rfl⟩ := sbStep_some h; exact ⟨id, id⟩
  · rcases fuStep_some h with ⟨j, g, _, _, _, rfl⟩ | ⟨j, q, _, _, _, rfl⟩
    · obtain ⟨x, hx, hr⟩ := (acts_fuAnswered { s with fu := { s.fu with current := none, got := none } } j g).sb
      rw [fuDeliver, hx]; exact ⟨hr, id⟩
    · exact ⟨id, id⟩
  · obtain ⟨x, y, hx, hr, ha⟩ := (suStep_spares h).sb
    rw [hx]; exact ⟨hr, ha⟩
  · obtain ⟨b, q, rfl, _⟩ := lbStep_frame h; exact ⟨id, id⟩
  · obtain ⟨u, q, rfl, _⟩ := tuStep_frame h; exact ⟨id, id⟩
  · obtain ⟨n, _, g⟩ := teStep_engages h
    obtain ⟨x, hx, hr⟩ := g.sb
    rw [hx]; exact ⟨hr, id⟩

theorem settleFor_sticky (fuel : Nat) (s : State) :
    (s.sb.refused = true → (settleFor fuel s).sb.refused = true)
      ∧ (s.sb.alertLost = true → (settleFor fuel s).sb.alertLost = true) :=
  settleFor_induct
    (fun t => (s.sb.refused = true → t.sb.refused = true) ∧ (s.sb.alertLost = true → t.sb.alertLost = true))
    (fun _ _ h m => ⟨(micro_sticky m).1 ∘ h.1, (micro_sticky m).2 ∘ h.2⟩) fuel s ⟨id, id⟩

/-- SB loses no event it holds while none of its record writes is answered. -/
theorem micro_sbHas {s t : State} {e : ErrorEvent} (h : micro s = some t) (k : s.sbHas e) : t.sbHas e := by
  have hand : ∀ {c d}, s.sb.handOver d = some c → e ∈ c.queue ∨ c.writing = some e := by
    intro c d hc
    rcases handOver_cases hc with rfl | ⟨_, _, rfl⟩
    · exact k
    · exact k.imp (List.mem_append_left _) id
  rcases micro_cases h with h | h | h | h | h | h | h | h | h | h | h
  · obtain ⟨d, l, b, _, hb, rfl⟩ := fuHandOver_some h; exact hand hb
  · obtain ⟨d, l, b, _, hb, rfl⟩ := suHandOver_some h; exact hand hb
  · obtain ⟨d, l, b, _, hb, rfl⟩ := teHandOver_some h; exact hand hb
  · obtain ⟨d, l, b, _, hb, rfl⟩ := tuHandOver_some h; exact hand hb
  · obtain ⟨d, l, b, _, hb, rfl⟩ := lbHandOver_some h; exact hand hb
  · obtain ⟨d, q, hw, hq, rfl⟩ := sbStep_some h
    rcases k with k | k
    · rw [hq, List.mem_cons] at k
      exact k.elim (fun e => .inr (by rw [e])) .inl
    · rw [hw] at k; cases k
  · rcases fuStep_some h with ⟨j, g, _, _, _, rfl⟩ | ⟨j, q, _, _, _, rfl⟩
    · obtain ⟨x, hx, _⟩ := (acts_fuAnswered { s with fu := { s.fu with current := none, got := none } } j g).sb
      simp only [State.sbHas, fuDeliver, hx]; exact k
    · exact k
  · obtain ⟨x, y, hx, _⟩ := (suStep_spares h).sb
    simp only [State.sbHas, hx]; exact k
  · obtain ⟨b, q, rfl, _⟩ := lbStep_frame h; exact k
  · obtain ⟨u, q, rfl, _⟩ := tuStep_frame h; exact k
  · obtain ⟨n, _, g⟩ := teStep_engages h
    obtain ⟨x, hx, _⟩ := g.sb
    simp only [State.sbHas, hx]; exact k

theorem settleFor_sbHas {s : State} {e : ErrorEvent} (k : s.sbHas e) (fuel : Nat) : (settleFor fuel s).sbHas e :=
  settleFor_induct (fun t => t.sbHas e) (fun _ _ h m => micro_sbHas m h) fuel s k

end Sys2Proof.Laws
end

