-- ==== Sys2Proof/Laws/Arrival.lean ====
section
/-! SUPPORT. Several controllers at once: whatever the free order, each channel of the list acts once, and what one does spares
the others. -/

namespace Sys2Proof.Laws

open Sys2Proof.Machine

/-- The free order is an order of the same channels. -/
theorem arrange_perm : ∀ (fuel k : Nat) (l : List ChanId), (arrange fuel k l).Perm l
  | 0, _, _ => .refl _
  | _ + 1, _, [] => .refl _
  | _ + 1, _, [_] => .refl _
  | fuel + 1, k, a :: b :: l => by
    unfold arrange
    dsimp only
    have hi : Config.arrival k % (a :: b :: l).length < (a :: b :: l).length := Nat.mod_lt _ (by simp)
    rw [List.take_one_drop_eq_of_lt_length hi]
    refine List.Perm.trans (.cons _ (arrange_perm fuel (k + 1) _)) ?_
    exact List.getElem_cons_eraseIdx_perm hi

/-- What the channels of a list do, one after another, leads to. -/
structure ActsAll (l : List ChanId) (s t : State) : Prop where
  others : ∀ m, m ∉ l → t.chan m = s.chan m
  fu : ∃ q, t.fu = { s.fu with queue := s.fu.queue ++ q } ∧ ∀ j ∈ q, j.chan ∈ l
  su : ∃ q, t.su = { s.su with queue := s.su.queue ++ q } ∧ ∀ r ∈ q, ∃ n ∈ l, OwnRequest n s r
  lb : ∃ q, t.lb = { s.lb with queue := s.lb.queue ++ q } ∧ ∀ r ∈ q, ∃ n ∈ l, r = LbReq.drain n
  rp : ∃ x, t.rp = { s.rp with refuseReason := x }
  sb : ∃ b, t.sb = { s.sb with refused := b } ∧ (s.sb.refused = true → b = true)
  te : t.te = s.te
  tu : t.tu = s.tu
  mp : t.mp = s.mp
  soft : t.soft = s.soft
  resetAsserted : t.resetAsserted = s.resetAsserted
  arrivals : t.arrivals = s.arrivals
  pending : t.pending = s.pending

theorem acts_all (act : ChanId → State → State) (h : ∀ n s, Acts n s (act n s)) :
    ∀ (l : List ChanId) (s : State), ActsAll l s (l.foldl (fun t n => act n t) s)
  | [], s =>
    { others := fun _ _ => rfl
      fu := ⟨[], by simp, by simp⟩
      su := ⟨[], by simp, by simp⟩
      lb := ⟨[], by simp, by simp⟩
      rp := ⟨s.rp.refuseReason, rfl⟩
      sb := ⟨s.sb.refused, rfl, id⟩
      te := rfl
      tu := rfl
      mp := rfl
      soft := rfl
      resetAsserted := rfl
      arrivals := rfl
      pending := rfl }
  | n :: l, s => by
    have a := h n s
    have b := acts_all act h l (act n s)
    obtain ⟨f1, f2, f3⟩ := a.fu
    obtain ⟨f4, f5, f6⟩ := b.fu
    obtain ⟨s1, s2, s3⟩ := a.su
    obtain ⟨s4, s5, s6⟩ := b.su
    obtain ⟨l1, l2, l3⟩ := a.lb
    obtain ⟨l4, l5, l6⟩ := b.lb
    obtain ⟨x, hx⟩ := a.rp
    obtain ⟨y, hy⟩ := b.rp
    obtain ⟨z, hz, hz'⟩ := a.sb
    obtain ⟨w, hw, hw'⟩ := b.sb
    have hp : ∀ m, (act n s).isParked m = s.isParked m := fun m => by rw [State.isParked, s2]; rfl
    rw [List.foldl_cons]
    refine ⟨fun m hm => ?_, ⟨f1 ++ f4, by rw [f5, f2]; simp, fun j hj => ?_⟩, ⟨s1 ++ s4, by rw [s5, s2]; simp, fun r hr => ?_⟩,
      ⟨l1 ++ l4, by rw [l5, l2]; simp, fun r hr => ?_⟩, ⟨y, by rw [hy, hx]⟩, ⟨w, by rw [hw, hz], fun r => hw' (by rw [hz]; exact hz' r)⟩, b.te.trans a.te,
      b.tu.trans a.tu, b.mp.trans a.mp, b.soft.trans a.soft, b.resetAsserted.trans a.resetAsserted,
      b.arrivals.trans a.arrivals, b.pending.trans a.pending⟩
    · rw [List.mem_cons, not_or] at hm
      exact (b.others m hm.2).trans (a.others m hm.1)
    · rcases List.mem_append.mp hj with h | h
      · exact List.mem_cons.mpr (.inl (f3 j h))
      · exact List.mem_cons.mpr (.inr (f6 j h))
    · rcases List.mem_append.mp hr with h | h
      · exact ⟨n, by simp, s3 r h⟩
      · obtain ⟨m, hm, o⟩ := s6 r h
        exact ⟨m, List.mem_cons.mpr (.inr hm), by simpa only [OwnRequest, hp] using o⟩
    · rcases List.mem_append.mp hr with h | h
      · exact ⟨n, by simp, l3 r h⟩
      · obtain ⟨m, hm, o⟩ := l6 r h
        exact ⟨m, List.mem_cons.mpr (.inr hm), o⟩

end Sys2Proof.Laws
end

