-- ==== Sys2Proof/Laws/Formats.lean ====
section
/-! SUPPORT. What the reading of a list of a record's body gives: every entry in order, or the first that fails its check. -/

namespace Sys2Proof.Machine

/-- A list is read whole exactly when each of its entries passes its check. -/
theorem readEntries_ok_iff {α : Type} (entry : Nat → Option α) (k i : Nat) (l : List α) :
    readEntries entry k i = .ok l ↔ l.length = k ∧ ∀ j a, l[j]? = some a → entry (i + j) = some a := by
  induction k generalizing i l with
  | zero => cases l <;> simp [readEntries]
  | succ k ih =>
    rw [readEntries]
    cases h : entry i with
    | none =>
      cases l with
      | nil => simp
      | cons a l =>
        simp only [reduceCtorEq, false_iff, not_and]
        intro _ hall
        have h0 := hall 0 a rfl
        rw [Nat.add_zero, h] at h0
        exact absurd h0 (by simp)
    | some a =>
      have step := fun l' => ih (i + 1) l'
      cases hr : readEntries entry k (i + 1) with
      | error e =>
        simp only [reduceCtorEq, false_iff, not_and]
        intro hl hall
        cases l with
        | nil => simp at hl
        | cons b l =>
          have := (step l).mpr ⟨by simpa using hl, fun j c hj => by
            have := hall (j + 1) c hj
            rwa [show i + (j + 1) = i + 1 + j by omega] at this⟩
          rw [hr] at this
          exact absurd this (by simp)
      | ok l' =>
        have hl' := (step l').mp hr
        constructor
        · intro e
          obtain rfl : a :: l' = l := by simpa using e
          refine ⟨by simp [hl'.1], fun j c hj => ?_⟩
          cases j with
          | zero => simp at hj; simpa [hj] using h
          | succ j =>
            have := hl'.2 j c (by simpa using hj)
            rwa [show i + (j + 1) = i + 1 + j by omega]
        · rintro ⟨hl, hall⟩
          cases l with
          | nil => simp at hl
          | cons b l =>
            have hb := hall 0 b rfl
            have hb : a = b := by simpa [h] using hb
            have : readEntries entry k (i + 1) = .ok l := (step l).mpr ⟨by simpa using hl, fun j c hj => by
              have := hall (j + 1) c hj
              rwa [show i + (j + 1) = i + 1 + j by omega] at this⟩
            rw [hr] at this
            obtain rfl : l' = l := by simpa using this
            simp [hb]

/-- A list is refused at the index of its first entry that fails its check. -/
theorem readEntries_error_iff {α : Type} (entry : Nat → Option α) (k i e : Nat) :
    readEntries entry k i = .error e
      ↔ i ≤ e ∧ e < i + k ∧ entry e = none ∧ ∀ j, i ≤ j → j < e → entry j ≠ none := by
  induction k generalizing i with
  | zero => simp [readEntries]; omega
  | succ k ih =>
    rw [readEntries]
    cases h : entry i with
    | none =>
      constructor
      · intro x
        obtain rfl : i = e := by simpa using x
        exact ⟨(Nat.le_refl _), by omega, h, fun j _ _ => by omega⟩
      · rintro ⟨h1, -, -, h4⟩
        rcases Nat.eq_or_lt_of_le h1 with rfl | h1
        · rfl
        · exact absurd h (h4 i (Nat.le_refl _) h1)
    | some a =>
      have : (match readEntries entry k (i + 1) with
          | .error j => (.error j : Except Nat (List α))
          | .ok l => .ok (a :: l)) = .error e ↔ readEntries entry k (i + 1) = .error e := by
        cases readEntries entry k (i + 1) <;> simp
      refine this.trans ?_
      rw [ih]
      constructor
      · rintro ⟨h1, h2, h3, h4⟩
        refine ⟨by omega, by omega, h3, fun j hj1 hj2 => ?_⟩
        rcases Nat.eq_or_lt_of_le hj1 with rfl | hj1
        · simp [h]
        · exact h4 j hj1 hj2
      · rintro ⟨h1, h2, h3, h4⟩
        rcases Nat.eq_or_lt_of_le h1 with rfl | h1
        · simp [h] at h3
        · exact ⟨h1, by omega, h3, fun j hj1 hj2 => h4 j (by omega) hj2⟩

end Sys2Proof.Machine
end

