-- ==== Sys2Proof/Tests/Slice0.lean ====
section
/-! SUPPORT. Tests of the model on small states: ill-formed commands are refused, the rows do what the spec says on one
example each, and every statement with hypotheses has a state that meets them (the theorems named witness). -/

namespace Sys2Proof.Tests.Slice0

set_option Elab.async false
set_option linter.unusedSimpArgs false

open Sys2Proof Sys2Proof.Machine

/-! ## Well-formedness -/

theorem test_controlWrite_with_softReset_refused : (Instr.controlWrite 3).wellFormed = false := by decide

theorem test_softReset_without_bit_refused : (Instr.softReset 1).wellFormed = false := by decide

theorem test_invalidCommand_with_valid_code_refused : (Instr.invalidCommand 0 5).wellFormed = false := by decide

theorem test_ignoredRegisterWrite_to_control_refused : (Instr.ignoredRegisterWrite 0x04 0).wellFormed = false := by decide

theorem test_ignoredRegisterWrite_unaligned_refused : (Instr.ignoredRegisterWrite 0x25 0).wellFormed = false := by decide

theorem test_wellFormed_taken :
    (Instr.controlWrite 0x11).wellFormed && (Instr.softReset 2).wellFormed && (Instr.invalidCommand 1 6).wellFormed
      && (Instr.ignoredRegisterWrite 0x00 1).wellFormed && (Instr.ignoredRegisterWrite 0x1C 1).wellFormed
      && (Instr.ignoredRegisterWrite 0x20 1).wellFormed && (Instr.ignoredRegisterWrite 0x3C 1).wellFormed = true := by
  decide

theorem test_no_word_spells_a_command : decodeTableWord 8 0 = none := rfl

/-! ## Small states -/

/-- The part with RUN 1 and channel 3 as given. -/
def running (c : Channel) : State := { State.reset with rp := { State.reset.rp with run := true } }.setChan 3 c

/-- The part with RUN 0 and channel 3 as given. -/
def paused (c : Channel) : State := State.reset.setChan 3 c

/-- A channel with a valid context in a state, a phase and an activity. -/
def standing (st : ChState) (ph : Phase) (a : Activity) : Channel :=
  { Channel.off with contextValid := true, state := st, phase := ph, activity := a, posting := 9 }

/-- FU awaits the answer to a request of channel 3. -/
def fuWait (k : FuKind) (req : MpReq) (c : Channel) : State :=
  { running c with
    fu := { State.reset.fu with current := some ⟨3, k, req⟩ }, mp := { State.reset.mp with fu := some req } }

/-- SU awaits an answer for an operation, with a parked list. -/
def suWait (o : SuOp) (l : List Parked) (c : Channel) : State :=
  { running c with
    su := { State.reset.su with current := some o, parked := l }
    mp := { State.reset.mp with su := some (.read 0x1000 6) } }

/-- A side with displacement 0 on a cursor. -/
def side (z : Size) (k : CursorId) (update : Bool) : Side := ⟨.displaced, update, k, 0, 0, z, .inc⟩

/-- A move of one or more elements of two bytes, from C1 to C2. -/
def move (op : MoveOp) (count : BitVec 16) : Move := ⟨op, side .b2 1 true, side .b2 2 true, false, false, count, 0⟩

/-- A COPY of four bytes cut to two, range checked. -/
def narrowing : Move := ⟨.copy, side .b4 1 false, side .b2 2 false, false, true, 2, 0⟩

/-- A task with its lists and moves. -/
def task (pause : Bool) (waits notifies : List SemId) (moves : List Move) : Task :=
  ⟨0, pause, waits, notifies, [], .transfer moves⟩

/-- A channel with a current task. -/
def working (st : ChState) (ph : Phase) (a : Activity) (t : Task) : Channel :=
  { standing st ph a with current := some 0x4000, lastTask := some 0x4000, task := some t, remaining := 1 }

/-- An ACTIVE channel that executes the first of its moves. -/
def moving (moves : List Move) : Channel := working .active .move .slice (task false [] [] moves)

/-- TE stands at a step for channel 3. -/
def engineAt (x : TeStep) (c : Channel) : State :=
  { running c with te := { State.reset.te with grant := some 3, kind := some .move, step := x } }

/-- TE awaits MP's answer for channel 3. -/
def teWait (x : TeStep) (c : Channel) : State :=
  { engineAt x c with mp := { State.reset.mp with te := some (.read 0x8000 2) } }

/-- A translation request of channel 3. -/
def query : TuReq := ⟨3, 5, 0x00101000, false⟩

/-- A descriptor that is present, with code READ, and a table at physical address 0x10000. -/
def descriptor : BitVec 64 := 0x000001000_0FF0101

/-- TU awaits the answer to a step of the walk for `query`, which TE asked for the source of its element. -/
def walkWait (x : TuStage) : State :=
  { engineAt (.translating .source) (moving [move .copy 1]) with
    tu :=
      { State.reset.tu with
        req := some query, stage := x, descriptor := some descriptor, pageEntry := some 0x0000002000000001 }
    mp := { State.reset.mp with tu := some (.read 0x900 8) } }

/-- LB is at a request, with entries, one of them perhaps being written out. -/
def lbAt (r : LbReq) (entries : List LineEntry) (w : Option Line) (c : Channel) : State :=
  { running c with
    lb := { State.reset.lb with current := some r, entries := entries, writing := w }
    mp := { State.reset.mp with lb := w.map fun l => .write (lineAddr l) 1 0 } }

/-- Line 7, gathered by channel 3. -/
def entry7 : LineEntry := ⟨7, 1, 0x55, [3]⟩

/-- A read-uncorrectable event of a unit. -/
def event (u : EventUnit) : ErrorEvent := ⟨.readUncorrectable, u, some 3, .uncorrectable, 0x40⟩

/-- The next state a command leads to, if it leads to one. -/
def after (c : Instr) (s : State) : Option State :=
  match exec c s with
  | .next t => some t
  | .fault _ => none
  | .refused _ => none

/-- The fault a command stops with, if it stops with one. -/
def stops (c : Instr) (s : State) : Option Fault :=
  match exec c s with
  | .next _ => none
  | .fault f => some f
  | .refused _ => none

/-- Channel 3 after a command. -/
def chanAfter (c : Instr) (s : State) : Option Channel := (after c s).map fun t => t.chan 3

/-! ## Register port and resets -/

theorem test_ident : State.reset.readRegister 0 = 0x2D160A01 := by decide

theorem test_idle_on_empty_queue : step State.reset = .next State.reset := rfl

theorem test_step_takes_front :
    step { State.reset with pending := [.controlWrite 1, .alertRead] }
      = exec (.controlWrite 1) { State.reset with pending := [.alertRead] } := rfl

theorem test_hardReset :
    after .hardReset (running (standing .ready .move .ready)) = some { State.reset with resetAsserted := true } := by
  decide +kernel

theorem test_resetRelease : after .resetRelease { State.reset with resetAsserted := true } = some State.reset := by
  decide +kernel

theorem test_controlWrite :
    after (.controlWrite 0x1F31) State.reset
      = some { State.reset with
          rp := { State.reset.rp with run := true, reportLevel := 3, intEn := 0x1F }
          sb := { State.reset.sb with level := 3 } } := by
  decide +kernel

theorem test_anchorLoWrite :
    after (.anchorLoWrite 0xFFFFFFFF) State.reset
      = some { State.reset with rp := { State.reset.rp with anchorLo := 0x7FFFF } } := by
  decide +kernel

theorem test_anchorHiWrite_locked :
    after (.anchorHiWrite 1) (running Channel.off) = some ((running Channel.off).refuse .anchorLocked) := by
  decide +kernel

theorem test_alertRead :
    after .alertRead { State.reset with rp := { State.reset.rp with alerts := [255, 0] } }
      = some { State.reset with rp := { State.reset.rp with alerts := [0], reply := ⟨false, 0x800000FF⟩ } } := by
  decide +kernel

theorem test_statusRegisterWrite :
    after (.statusRegisterWrite 0x10) (State.reset.refuse .busy)
      = some { State.reset with rp := { State.reset.rp with refuseReason := .busy } } := by
  decide +kernel

theorem test_ignoredRegisterWrite : after (.ignoredRegisterWrite 0x24 7) State.reset = some State.reset := by
  decide +kernel

theorem test_narrowAccess : after (.narrowAccess 0 true) State.reset = some (State.reset.replied ⟨true, 0⟩) := by
  decide +kernel

theorem test_start_refused_with_run_0 : after (.start 15) State.reset
    = some ({ State.reset with rp := { State.reset.rp with lastNamed := 15 } }.refuse .notRunning) := by
  decide +kernel

theorem test_select :
    after (.select 15) State.reset = some { State.reset with rp := { State.reset.rp with lastNamed := 15 } } := by
  decide +kernel

theorem test_grantPoint_not_due : stops .grantPoint State.reset = some .eventNotDue := by decide +kernel

theorem test_answer_not_awaited : stops (.linkReadAnswer .okay 0) State.reset = some .answerNotAwaited := by
  decide +kernel

/-! ## Images -/

theorem test_error_image :
    errorImage ⟨.memWrite, .lb, none, .error, 0xFF_FFFFFFC0⟩ 7 = 0x000000FFFFFFFFC0_00000007_03FF0503 := by
  decide +kernel

theorem test_status_image : statusImage .faulted 0x11 2 1 3 4 0x01020304 = 0x01020304_00000004_00000003_01021103 := by
  decide +kernel

theorem test_move_entry :
    moveEntry 0x00000000_0010_FFFE_0003_00_30_20_05_10_01
      = some
          ⟨.copy, ⟨.displaced, false, 2, 0, 0xFFFE, .b1, .dec⟩, ⟨.displaced, false, 3, 0, 0x0010, .b2, .inc⟩, true, false, 3,
            0⟩ := by
  decide +kernel

/-! ## Conditions decided on a concrete state -/

/-- No unit keeps an event, computed. -/
def keepsNone (s : State) : Bool :=
  s.fu.held.isEmpty && s.su.held.isEmpty && s.te.held.isEmpty && s.tu.held.isEmpty && s.lb.held.isEmpty

/-- Nothing on its way reaches a channel, computed. -/
def unreached (s : State) (n : ChanId) : Bool :=
  s.fu.got.isNone && s.su.got.isNone && !s.su.queue.any (· == .undoStop n) && !s.su.queue.any (· == .undoReset n)
    && decide (s.te.grant ≠ some n)

/-- SB has the place of a unit free, computed. -/
def placeFree (s : State) (u : EventUnit) : Bool := s.sb.queue.all fun e => decide (e.unit ≠ u)

theorem takesWrites_of {s : State} (h : (!s.resetAsserted && s.soft == .off) = true) : s.takesWrites := by
  simpa [State.takesWrites] using h

theorem isSettled_of {s : State} (h : (micro s).isNone = true) : s.isSettled := Option.isNone_iff_eq_none.mp h

theorem noneKept_of {s : State} (h : keepsNone s = true) : s.noneKept := by
  simpa [State.noneKept, keepsNone, and_assoc] using h

theorem leftAlone_of {s : State} {n : ChanId} (h : unreached s n = true) : s.leftAlone n := by
  simp only [unreached, Bool.and_eq_true, Option.isNone_iff_eq_none, Bool.not_eq_true', List.any_eq_false,
    beq_iff_eq, decide_eq_true_eq] at h
  obtain ⟨⟨⟨⟨a, b⟩, c⟩, d⟩, e⟩ := h
  exact ⟨a, b, fun x => x.elim (fun y => absurd rfl (c _ y)) fun y => absurd rfl (d _ y), e⟩

theorem hasRoom_of {s : State} {u : EventUnit} (h : placeFree s u = true) : s.hasRoom u := by
  simpa [State.hasRoom, placeFree, List.all_eq_true] using h

theorem fuAwaits_of {s : State} {j : FuJob}
    (h : ((micro s).isNone && keepsNone s && placeFree s .fu && s.fu.current == some j && s.mp.fu == some j.req
      && unreached s j.chan && (s.chan j.chan).reset == .off) = true) : s.fuAwaits j := by
  simp only [Bool.and_eq_true, beq_iff_eq] at h
  obtain ⟨⟨⟨⟨⟨⟨a, b⟩, c⟩, d⟩, e⟩, f⟩, g⟩ := h
  exact ⟨isSettled_of a, noneKept_of b, hasRoom_of c, d, e, leftAlone_of f, g⟩

theorem suAwaits_of {s : State} {o : SuOp}
    (h : ((micro s).isNone && keepsNone s && placeFree s .su && s.fu.got.isNone && s.su.got.isNone
      && s.su.current == some o && s.mp.su.isSome && s.su.queue.isEmpty && s.te.grant.isNone) = true) : s.suAwaits o := by
  simp only [Bool.and_eq_true, beq_iff_eq, Option.isNone_iff_eq_none, List.isEmpty_iff] at h
  obtain ⟨⟨⟨⟨⟨⟨⟨⟨a, b⟩, c⟩, d⟩, e⟩, f⟩, g⟩, i⟩, j⟩ := h
  exact ⟨Option.isNone_iff_eq_none.mpr a |> isSettled_of, noneKept_of b, hasRoom_of c, d, e, f, g, fun n _ =>
    ⟨by simp [i], by simp [j]⟩⟩

theorem teAwaits_of {s : State} {n : ChanId} {m : Move}
    (h : ((micro s).isNone && keepsNone s && placeFree s .te && s.fu.got.isNone && s.su.got.isNone
      && s.te.grant == some n && s.te.got.isNone && s.mp.te.isSome && (s.chan n).currentMove == some m
      && (s.chan n).reset == .off && s.su.queue.isEmpty) = true) : s.teAwaits n m := by
  simp only [Bool.and_eq_true, beq_iff_eq, Option.isNone_iff_eq_none, List.isEmpty_iff] at h
  obtain ⟨⟨⟨⟨⟨⟨⟨⟨⟨⟨a, b⟩, c⟩, d⟩, e⟩, f⟩, g⟩, i⟩, j⟩, k⟩, l⟩ := h
  exact ⟨a, noneKept_of b, hasRoom_of c, d, e, f, g, i, j, k, by simp [l]⟩

theorem tuAwaits_of {s : State} {q : TuReq} {x : TuStage}
    (h : ((micro s).isNone && keepsNone s && placeFree s .tu && s.tu.req == some q && s.tu.stage == x
      && s.tu.got.isNone && s.mp.tu.isSome) = true) : s.tuAwaits q x := by
  simp only [Bool.and_eq_true, beq_iff_eq, Option.isNone_iff_eq_none] at h
  obtain ⟨⟨⟨⟨⟨⟨a, b⟩, c⟩, d⟩, e⟩, f⟩, g⟩ := h
  exact ⟨a, noneKept_of b, hasRoom_of c, d, e, f, g⟩

theorem walkAwaits_of {s : State} {q : TuReq} {x : TuStage} {m : Move} {a : Access} (ht : s.tuAwaits q x)
    (h : (s.fu.got.isNone && s.su.got.isNone && s.te.got.isNone && s.te.grant == some q.chan && s.te.step == .translating a
      && (s.chan q.chan).currentMove == some m && (s.chan q.chan).reset == .off && s.su.queue.isEmpty) = true) :
    s.walkAwaits q x m a := by
  simp only [Bool.and_eq_true, beq_iff_eq, Option.isNone_iff_eq_none, List.isEmpty_iff] at h
  obtain ⟨⟨⟨⟨⟨⟨⟨b, c⟩, j⟩, d⟩, e⟩, f⟩, g⟩, i⟩ := h
  exact ⟨ht, b, c, j, d, e, f, g, by simp [i]⟩

theorem quietUnits_of {s : State}
    (h : ((micro s).isNone && keepsNone s && s.fu.got.isNone && s.su.got.isNone && s.te.got.isNone) = true) :
    s.quietUnits := by
  simp only [Bool.and_eq_true, Option.isNone_iff_eq_none] at h
  obtain ⟨⟨⟨⟨a, b⟩, c⟩, d⟩, e⟩ := h
  exact ⟨a, noneKept_of b, c, d, e⟩

theorem noEngineQueued_of {s : State} (h : (s.lb.queue.all fun r => !r.fromEngine) = true) : s.noEngineQueued := by
  simpa [State.noEngineQueued, List.all_eq_true] using h

/-- The conditions the statements about channel commands share, computed for channel 3. -/
def portOk (s : State) : Bool :=
  !s.resetAsserted && s.soft == .off && (micro s).isNone && keepsNone s && s.rp.commandSlot.isNone
    && (s.chan 3).reset == .off && unreached s 3

theorem portOk_of {s : State} (h : portOk s = true) :
    s.takesWrites ∧ s.isSettled ∧ s.noneKept ∧ s.rp.commandSlot = none ∧ (s.chan 3).reset = .off ∧ s.leftAlone 3 := by
  simp only [portOk, Bool.and_eq_true, Bool.not_eq_true', beq_iff_eq, Option.isNone_iff_eq_none] at h
  obtain ⟨⟨⟨⟨⟨⟨a, b⟩, c⟩, d⟩, e⟩, f⟩, g⟩ := h
  exact ⟨⟨a, b⟩, c, noneKept_of d, e, f, leftAlone_of g⟩

theorem each_of {α : Type} {l : List α} {p : α → Bool} {q : α → Prop} (imp : ∀ {a}, p a = true → q a)
    (h : l.all p = true) : ∀ a ∈ l, q a := fun a m => imp (List.all_eq_true.mp h a m)

/-! ## States that meet the hypotheses of the statements: register port -/

/-- reset_n asserted; a soft reset in its clearing step; a soft reset whose channels are OFF. -/
def asserted : State := { State.reset with resetAsserted := true }
def clearing : State := { State.reset with soft := .clearing }
def channelsOff : State := { State.reset with soft := .channels }

/-- READY in MOVE. -/
def readyMove : Channel := working .ready .move .ready (task false [] [] [move .copy 1])

/-- Parked in its posting wait on semaphore 9. -/
def parkedState : State :=
  { running (standing .postwait .post .parked) with su := { State.reset.su with parked := [⟨3, 9⟩] } }

/-- An OFF channel with a START held in RP's slot. -/
def heldStart : State :=
  { running Channel.off with rp := { (running Channel.off).rp with commandSlot := some (3, .start), lastNamed := 3 } }

/-- RP's SIGNAL slot is occupied. -/
def signalled : State := { running readyMove with rp := { (running readyMove).rp with signalSlot := some 1 } }

theorem witness_StepRunsFrontCommand :
    ({ State.reset with pending := [.grantPoint] } : State).pending = .grantPoint :: [] ∧ State.reset.pending = [] :=
  ⟨rfl, rfl⟩

theorem witness_WritesDecidedByResetsAndAnchorLock :
    portWrite (.start 15) = true ∧ portWrite (.softReset 2) = true ∧ asserted.resetAsserted = true
      ∧ clearing.resetAsserted = false ∧ clearing.soft ≠ .off := by
  decide +kernel

theorem witness_ControlWriteSetsFieldsAndReleases :
    (running readyMove).takesWrites ∧ (running readyMove).isSettled ∧ (running readyMove).noneKept
      ∧ State.reset.takesWrites ∧ State.reset.isSettled ∧ State.reset.noneKept
      ∧ (running readyMove).rp.run = true ∧ softResetBit 0x1F31 = false ∧ (0x1F30 : Word).getLsbD 0 = false
      ∧ softResetBit 0x1F30 = false :=
  let a := portOk_of (s := running readyMove) (by decide +kernel)
  let b := portOk_of (s := State.reset) (by decide +kernel)
  ⟨a.1, a.2.1, a.2.2.1, b.1, b.2.1, b.2.2.1, by decide +kernel⟩

theorem witness_ControlWriteSetsFieldsAndReleases_held_wait :
    (paused (standing .postwait .post .beforeWait)).takesWrites ∧ (paused (standing .postwait .post .beforeWait)).leftAlone 3
      ∧ softResetBit 1 = false ∧ (paused (standing .postwait .post .beforeWait)).rp.run = false ∧ (1 : Word).getLsbD 0 = true
      ∧ (paused (standing .postwait .post .beforeWait)).suBusy 3 = false
      ∧ (paused (standing .postwait .post .beforeWait)).chan 3 = standing .postwait .post .beforeWait :=
  let a := portOk_of (s := paused (standing .postwait .post .beforeWait)) (by decide +kernel)
  ⟨a.1, a.2.2.2.2.2, by decide +kernel⟩

theorem witness_WritesDecidedByResetsAndAnchorLock_anchor :
    State.reset.takesWrites ∧ (running Channel.off).takesWrites ∧ (paused readyMove).takesWrites
      ∧ State.reset.rp.run = false ∧ State.reset.allOff = true ∧ (running Channel.off).rp.run = true
      ∧ (paused readyMove).allOff = false :=
  ⟨takesWrites_of (by decide +kernel), takesWrites_of (by decide +kernel), takesWrites_of (by decide +kernel), by
    decide +kernel⟩

theorem witness_StatusAlertAndIgnoredAccesses :
    (State.reset.refuse .busy).takesWrites ∧ asserted.resetAsserted = true ∧ State.reset.rp.alerts = []
      ∧ ({ State.reset with rp := { State.reset.rp with alerts := [255, 0] } } : State).rp.alerts = 255 :: [0]
      ∧ ignoredOffset 0x00 = true ∧ ignoredOffset 0x1C = true ∧ ignoredOffset 0x20 = true ∧ ignoredOffset 0x3C = true
      ∧ ignoredOffset 0x04 = false ∧ ignoredOffset 0x18 = false :=
  ⟨takesWrites_of (by decide +kernel), by decide +kernel⟩

theorem witness_IdentReadsConstant :
    State.reset.resetAsserted = false
      ∧ (after (.controlWrite 1) State.reset).map (fun t => t.resetAsserted) = some false := by
  decide +kernel

theorem witness_SoftResetBeginsAndEnds :
    (running readyMove).takesWrites ∧ (running readyMove).leftAlone 3 ∧ (running readyMove).leftAlone 15
      ∧ softResetBit 2 = true ∧ ((running readyMove).chan 3).reset = .off ∧ ((running readyMove).chan 3).state ≠ .off
      ∧ ((running readyMove).chan 15).reset = .off ∧ ((running readyMove).chan 15).state = .off :=
  ⟨takesWrites_of (by decide +kernel), leftAlone_of (by decide +kernel), leftAlone_of (by decide +kernel), by
    decide +kernel⟩

theorem witness_SoftResetBeginsAndEnds_end :
    channelsOff.soft = .channels ∧ channelsOff.allOff = true ∧ channelsOff.su.queue = [] ∧ channelsOff.su.current = none
      ∧ clearing.soft = .clearing ∧ clearing.sb.queue = [] ∧ clearing.sb.writing = none := by
  decide +kernel

theorem witness_ChannelCmdDecidedByPort :
    heldStart.takesWrites ∧ (running { readyMove with reset := .drain }).takesWrites ∧ heldStart.rp.commandSlot ≠ none
      ∧ 6 ≤ (6 : BitVec 4).toNat ∧ 6 ≤ (15 : BitVec 4).toNat
      ∧ (running { readyMove with reset := .drain }).rp.commandSlot = none
      ∧ ((running { readyMove with reset := .drain }).chan 3).reset ≠ .off :=
  ⟨takesWrites_of (by decide +kernel), takesWrites_of (by decide +kernel), by decide +kernel⟩

theorem witness_SignalDecidedByPort :
    State.reset.takesWrites ∧ signalled.takesWrites ∧ (running readyMove).takesWrites ∧ (running readyMove).isSettled
      ∧ (running readyMove).noneKept ∧ State.reset.rp.run = false ∧ signalled.rp.run = true
      ∧ signalled.rp.signalSlot ≠ none ∧ (running readyMove).rp.run = true
      ∧ (running readyMove).rp.signalSlot = none ∧ (running readyMove).su.got = none :=
  let a := portOk_of (s := running readyMove) (by decide +kernel)
  ⟨takesWrites_of (by decide +kernel), takesWrites_of (by decide +kernel), a.1, a.2.1, a.2.2.1, by decide +kernel⟩

theorem witness_StartDecidedByState :
    (∀ s ∈ [State.reset, running Channel.off, running readyMove],
        s.takesWrites ∧ s.isSettled ∧ s.noneKept ∧ s.rp.commandSlot = none ∧ (s.chan 3).reset = .off ∧ s.leftAlone 3)
      ∧ (State.reset.chan 3).state = .off ∧ State.reset.rp.run = false ∧ ((running Channel.off).chan 3).state = .off
      ∧ (running Channel.off).rp.run = true ∧ ((running readyMove).chan 3).state ≠ .off :=
  ⟨each_of portOk_of (by decide +kernel), by decide +kernel⟩

theorem witness_StopDecidedByState :
    (∀ s ∈ [running Channel.off, running (standing .stopped .post .rest), running (standing .halted .post .rest),
          running { readyMove with activity := .slice, state := .active, stopPending := true },
          running { readyMove with activity := .haltSave }, parkedState, running readyMove],
        s.takesWrites ∧ s.isSettled ∧ s.noneKept ∧ s.rp.commandSlot = none ∧ (s.chan 3).reset = .off ∧ s.leftAlone 3)
      ∧ parkedState.isParked 3 = true ∧ (parkedState.chan 3).state = .postwait
      ∧ ({ readyMove with activity := .haltSave } : Channel).inProcedure = true
      ∧ (running readyMove).isParked 3 = false ∧ (running readyMove).suBusy 3 = false
      ∧ ((running readyMove).chan 3) = readyMove ∧ readyMove.activity = .ready ∧ readyMove.stopPending = false
      ∧ readyMove.inProcedure = false ∧ readyMove.mark = false :=
  ⟨each_of portOk_of (by decide +kernel), by decide +kernel⟩

/-- STOPPED in a phase, with a wait and a notify in its task. -/
def stoppedIn (ph : Phase) : Channel := working .stopped ph .rest (task false [7] [8] [move .copy 1])

theorem witness_ResumeGoesOnInPhaseHeld :
    (∀ s ∈ (({ stoppedIn .post with contextValid := false }
            :: [.post, .fetch, .prewait, .move, .purge, .drain, .status, .notify].map stoppedIn).map running),
        s.takesWrites ∧ s.isSettled ∧ s.noneKept ∧ s.rp.commandSlot = none ∧ (s.chan 3).reset = .off ∧ s.leftAlone 3)
      ∧ (({ stoppedIn .post with contextValid := false }
            :: [.post, .fetch, .prewait, .move, .purge, .drain, .status, .notify].map stoppedIn).all fun c =>
          c.atHalt && c.state == .stopped && !(running c).suBusy 3 && (running c).rp.run && !c.stopPending && !c.mark
            && c == { (running c).chan 3 with haltedBit := false, fault := none, faultVA := 0 }) = true
      ∧ (stoppedIn .fetch).lastTask = some 0x4000 ∧ (stoppedIn .prewait).waits[(stoppedIn .prewait).listIndex]? = some 7
      ∧ (stoppedIn .status).current = some 0x4000
      ∧ (stoppedIn .notify).notifies[(stoppedIn .notify).listIndex]? = some 8 :=
  ⟨each_of portOk_of (by decide +kernel), by decide +kernel⟩

theorem witness_SkipTakenAndRefusals :
    (∀ s ∈ [running (stoppedIn .move), running readyMove, running (standing .stopped .post .rest),
          running { standing .halted .move .rest with fault := some .writeError }],
        s.takesWrites ∧ s.isSettled ∧ s.noneKept ∧ s.rp.commandSlot = none ∧ (s.chan 3).reset = .off ∧ s.leftAlone 3)
      ∧ ((running (stoppedIn .move)).chan 3).atHalt = true ∧ ((running (stoppedIn .move)).chan 3).current = some 0x4000
      ∧ ((running readyMove).chan 3).atHalt = false ∧ ((running (standing .stopped .post .rest)).chan 3).current = none
      ∧ ({ standing .halted .move .rest with fault := some .writeError } : Channel).atHalt = true :=
  ⟨each_of portOk_of (by decide +kernel), by decide +kernel⟩

theorem witness_ResetGoesOnAndHeldCommandTaken :
    (∀ s ∈ [running readyMove, running { readyMove with reset := .settling },
          parkedState.modChan 3 fun c => { c with reset := .settling }, heldStart], s.leftAlone 3)
      ∧ (running readyMove).takesWrites ∧ heldStart.takesWrites ∧ (running readyMove).rp.commandSlot = none
      ∧ ((running readyMove).chan 3).reset = .off
      ∧ (running { readyMove with reset := .settling }).requestsSettled 3 = true
      ∧ (running { readyMove with reset := .settling }).isParked 3 = false
      ∧ (parkedState.modChan 3 fun c => { c with reset := .settling }).requestsSettled 3 = true
      ∧ (parkedState.modChan 3 fun c => { c with reset := .settling }).isParked 3 = true
      ∧ heldStart.rp.commandSlot = some (3, .start) ∧ (heldStart.chan 3).reset = .off
      ∧ heldStart.rp.lastNamed = 3 ∧ heldStart.rp.reply = ⟨false, 0⟩ :=
  ⟨each_of leftAlone_of (by decide +kernel), takesWrites_of (by decide +kernel), takesWrites_of (by decide +kernel), by
    decide +kernel⟩

/-! ## States for the answers to FU -/

/-- FU awaits the context read of channel 3. -/
def contextWait : State := fuWait .context (.read 0x180 48) (standing .postwait .post .contextRead)

/-- FU awaits the LINK read of channel 3. -/
def linkWait : State := fuWait .link (.read 0x4000 8) (standing .fetching .fetch .linkRead)

/-- FU awaits the header read of channel 3. -/
def headerWait : State := fuWait .header (.read 0x4000 32) (standing .fetching .fetch (.headerRead 0x4000))

/-- A TRANSFER header with one move, PENDING. -/
def oneMove : BitVec 256 := (1 <<< 64) ||| (1 <<< 104)

/-- FU awaits the body read of channel 3. -/
def bodyWait : State := fuWait .body (.read 0x4020 16) (standing .fetching .fetch (.bodyRead 0x4000 oneMove))

/-- FU awaits the acceptance write of channel 3, whose task has the given waits. -/
def acceptWait (waits : List SemId) : State :=
  fuWait .acceptance (.write 0x4010 0xFFFF 1)
    { standing .fetching .fetch (.accepting 0x4000) with task := some (task false waits [] [move .copy 2]) }

/-- FU awaits a status write of channel 3. -/
def statusWait (k : FuKind) (pause : Bool) (notifies : List SemId) : State :=
  fuWait k (.write 0x4010 0xFFFF 2) (working .finishing .status .doneWrite (task pause [] notifies [move .copy 1]))

/-- FU awaits the save write of channel 3. -/
def saveWait (st : ChState) (a : Activity) : State :=
  fuWait .save (.write 0x1C0 (BitVec.allOnes 64) 0) (working st .move a (task false [] [] [move .copy 1]))

/-- FU awaits the SKIPPED write of channel 3. -/
def skipWait : State :=
  fuWait .skipped (.write 0x4010 1 4) (working .halted .move .skipWrite (task false [] [] [move .copy 1]))

/-- Good and bad records of each table, and a body whose first bad entry is its second preload. -/
theorem witness_RecordsReadByTables :
    contextValid 0x00FF033F = true ∧ contextValid 0x40 = false ∧ (headerOf (oneMove ||| (2 <<< 80))).isSome = true
      ∧ headerOf (3 <<< 80) = none ∧ semEntry 255 = some 255 ∧ semEntry 256 = none
      ∧ preloadEntry 0x12345678_00000007 = some ⟨7, 0x12345678⟩ ∧ preloadEntry 8 = none ∧ preloadEntry 0x100 = none
      ∧ (moveEntry 0x00000000_0010_FFFE_0003_00_30_20_05_10_01).isSome = true ∧ moveEntry 4 = none
      ∧ purgeOf 0x00101000_0000_3F_03 = some ⟨.page, 63, 0x00101000⟩ ∧ purgeOf 0x4001 = none
      ∧ (purgeOf 0x4000).isSome = true
      ∧ (match taskOf ⟨0, false, false, 0, 0, 2, 1⟩ (8 <<< 64) with | .error i => i | .ok _ => 99) = 1 := by
  decide +kernel

theorem witness_ContextAnswerLatchesFields :
    contextWait.fuAwaits ⟨3, .context, .read 0x180 48⟩ ∧ goodData ((MpReq.read 0x180 48).answer .corrected) = true
      ∧ contextWait.suBusy 3 = false ∧ contextWait.rp.run = true ∧ (contextWait.chan 3).stopPending = false
      ∧ contextValid 0x00FF033F = true ∧ contextValid 0x40 = false ∧ contextValid 0x0400 = false
      ∧ contextValid 0x01000000 = false ∧ contextValid (1 <<< 64) = false :=
  ⟨fuAwaits_of (by decide +kernel), by decide +kernel⟩

theorem witness_LinkAnswerIsFollowed :
    linkWait.fuAwaits ⟨3, .link, .read 0x4000 8⟩ ∧ goodData ((MpReq.read 0x4000 8).answer .okay) = true
      ∧ (0xFFFFFFFFC0 : BitVec 64) ≠ 0 ∧ (0xFFFFFFFFC0 : BitVec 64).toNat % 64 = 0
      ∧ (0xFFFFFFFFC0 : BitVec 64).toNat < 2 ^ 40 ∧ (0x20 : BitVec 64).toNat % 64 ≠ 0
      ∧ 2 ^ 40 ≤ (0x10000000000 : BitVec 64).toNat :=
  ⟨fuAwaits_of (by decide +kernel), by decide +kernel⟩

theorem witness_HeaderAnswerChecked :
    headerWait.fuAwaits ⟨3, .header, .read 0x4000 32⟩ ∧ goodData ((MpReq.read 0x4000 32).answer .okay) = true
      ∧ (headerWait.chan 3).activity = .headerRead 0x4000 ∧ outcomePending (1 <<< 128) = false
      ∧ outcomePending 0 = true ∧ headerOf 0 = none ∧ outcomePending oneMove = true
      ∧ (headerOf oneMove).map Header.bodyBytes = some 16 :=
  ⟨fuAwaits_of (by decide +kernel), by decide +kernel⟩

theorem witness_BodyAnswerCopiesTask :
    bodyWait.fuAwaits ⟨3, .body, .read 0x4020 16⟩ ∧ goodData ((MpReq.read 0x4020 16).answer .okay) = true
      ∧ (bodyWait.chan 3).activity = .bodyRead 0x4000 oneMove
      ∧ (headerOf oneMove).map (fun h => (taskOf h 0x00000000_0000_0000_0001_00_20_10_00_11_01).toOption.isSome) = some true
      ∧ (headerOf oneMove).map (fun h => (taskOf h 0).toOption.isSome) = some false :=
  ⟨fuAwaits_of (by decide +kernel), by decide +kernel⟩

theorem witness_AcceptanceTakesRecord :
    (acceptWait [7]).fuAwaits ⟨3, .acceptance, .write 0x4010 0xFFFF 1⟩
      ∧ (acceptWait []).fuAwaits ⟨3, .acceptance, .write 0x4010 0xFFFF 1⟩ ∧ (acceptWait [7]).rp.run = true
      ∧ (acceptWait [7]).suBusy 3 = false ∧ ((acceptWait [7]).chan 3).activity = .accepting 0x4000
      ∧ ((acceptWait [7]).chan 3).task = some (task false [7] [] [move .copy 2])
      ∧ ((acceptWait [7]).chan 3).stopPending = false ∧ ((acceptWait []).chan 3).activity = .accepting 0x4000
      ∧ ((acceptWait []).chan 3).task = some (task false [] [] [move .copy 2]) ∧ ((acceptWait []).chan 3).mark = false :=
  ⟨fuAwaits_of (by decide +kernel), fuAwaits_of (by decide +kernel), by decide +kernel⟩

theorem witness_DoneAnswersGoOn :
    (statusWait .done false [8]).fuAwaits ⟨3, .done, .write 0x4010 0xFFFF 2⟩
      ∧ (statusWait .done false []).fuAwaits ⟨3, .done, .write 0x4010 0xFFFF 2⟩
      ∧ (statusWait .doneRewrite true []).fuAwaits ⟨3, .doneRewrite, .write 0x4010 0xFFFF 2⟩
      ∧ (statusWait .done false [8]).suBusy 3 = false ∧ (statusWait .done false [8]).rp.run = true
      ∧ ((statusWait .done false [8]).chan 3).notifies = 8 :: []
      ∧ ((statusWait .done false []).chan 3).task = some (task false [] [] [move .copy 1])
      ∧ ((statusWait .done false []).chan 3).resumedNotify = false
      ∧ ((statusWait .doneRewrite true []).chan 3).task = some (task true [] [] [move .copy 1]) :=
  ⟨fuAwaits_of (by decide +kernel), fuAwaits_of (by decide +kernel), fuAwaits_of (by decide +kernel),
    by decide +kernel⟩

theorem witness_HaltAndSaveAnswersEndProcedures :
    (statusWait .haltStatus false []).fuAwaits ⟨3, .haltStatus, .write 0x4010 0xFFFF 2⟩
      ∧ (saveWait .ready .haltSave).fuAwaits ⟨3, .save, .write 0x1C0 (BitVec.allOnes 64) 0⟩
      ∧ (saveWait .ready .stopSave).fuAwaits ⟨3, .save, .write 0x1C0 (BitVec.allOnes 64) 0⟩
      ∧ ((saveWait .ready .haltSave).chan 3).activity = .haltSave
      ∧ ((saveWait .ready .stopSave).chan 3).activity = .stopSave :=
  ⟨fuAwaits_of (by decide +kernel), fuAwaits_of (by decide +kernel), fuAwaits_of (by decide +kernel),
    by decide +kernel⟩

theorem witness_SkippedAnswerGoesToPosting :
    skipWait.fuAwaits ⟨3, .skipped, .write 0x4010 1 4⟩ ∧ skipWait.suBusy 3 = false ∧ skipWait.rp.run = true
      ∧ (skipWait.chan 3).stopPending = false :=
  ⟨fuAwaits_of (by decide +kernel), by decide +kernel⟩

theorem witness_FailedRecordReadsHalt :
    contextWait.fuAwaits ⟨3, .context, .read 0x180 48⟩ ∧ linkWait.fuAwaits ⟨3, .link, .read 0x4000 8⟩
      ∧ headerWait.fuAwaits ⟨3, .header, .read 0x4000 32⟩ ∧ bodyWait.fuAwaits ⟨3, .body, .read 0x4020 16⟩
      ∧ goodData ((MpReq.read 0x180 48).answer .error) = false
      ∧ goodData ((MpReq.read 0xFFFFFFFFE0 592).answer .okay) = false :=
  ⟨fuAwaits_of (by decide +kernel), fuAwaits_of (by decide +kernel), fuAwaits_of (by decide +kernel),
    fuAwaits_of (by decide +kernel), by decide +kernel⟩

theorem witness_FuEventsReachStatusBlock :
    linkWait.fuAwaits ⟨3, .link, .read 0x4000 8⟩
      ∧ ({ linkWait with sb := { linkWait.sb with level := 3 } } : State).fuAwaits ⟨3, .link, .read 0x4000 8⟩
      ∧ (statusWait .done false []).fuAwaits ⟨3, .done, .write 0x4010 0xFFFF 2⟩
      ∧ (saveWait .ready .haltSave).fuAwaits ⟨3, .save, .write 0x1C0 (BitVec.allOnes 64) 0⟩
      ∧ linkWait.sb.level.toNat ≥ 1 ∧ (MpReq.read 0x4000 8).answer .error = .error
      ∧ (MpReq.read 0x4000 8).answer .corrected = .corrected ∧ (MpReq.read 0x4000 8).answer .okay = .okay
      ∧ (MpReq.write 0x4010 0xFFFF 2).answer .error = .error :=
  ⟨fuAwaits_of (by decide +kernel), fuAwaits_of (by decide +kernel), fuAwaits_of (by decide +kernel),
    fuAwaits_of (by decide +kernel), by decide +kernel⟩

theorem witness_OtherChannelsLeftAsTheyWere :
    linkWait.leftAlone 5 ∧ linkWait.fuAwaits ⟨3, .link, .read 0x4000 8⟩ ∧ (5 : ChanId) ≠ 3 :=
  ⟨leftAlone_of (by decide +kernel), fuAwaits_of (by decide +kernel), by decide +kernel⟩

/-! ## States for the answers to SU -/

/-- SU awaits the read of a record. -/
def readWait (r : SuReq) (c : Channel) : State := suWait ⟨r, 9, none, 0⟩ [] c

/-- A live FIFO record with ALERT 1 and the given COUNT. -/
def record (count : BitVec 16) : BitVec 48 := count ++ (0x00 : Byte) ++ (1 : Byte) ++ (0 : Byte) ++ (1 : Byte)

/-- A live LIFO record with ALERT 0. -/
def lifoRecord : BitVec 48 := 0xFFFF00000101

/-- The value of an answer that is good. -/
def value {α β : Type} : Except α β → Option β
  | .ok b => some b
  | .error _ => none

/-- The failure of an answer that is not. -/
def failure {α β : Type} : Except α β → Option α
  | .ok _ => none
  | .error a => some a

theorem witness_CountStaysInRange :
    value ((SuReq.wait 3 9).decide (record (-15))) = some (-16)
      ∧ value ((SuReq.wait 3 9).decide (record 32767)) = some 32766
      ∧ value ((SuReq.signal 9).decide (record (-16))) = some (-15)
      ∧ value ((SuReq.notify 3 9).decide (record 32766)) = some 32767
      ∧ failure ((SuReq.wait 3 9).decide (record (-16))) = some .invalid
      ∧ failure ((SuReq.notify 3 9).decide (record 32767)) = some .overflow
      ∧ failure ((SuReq.signal 9).decide (record 32767)) = some .overflow
      ∧ failure ((SuReq.signal 9).decide (record 0 + 0x100)) = none
      ∧ failure ((SuReq.signal 9).decide (record 0 + 0x200)) = some .invalid ∧ semCount (record (-16)) < -15 ∧ semCount (record (-17)) < -16
      ∧ semCount (record 32767) = 32767 ∧ failure ((SuReq.undoStop 3).decide (record 32767)) = some .invalid := by
  decide +kernel

theorem witness_SemaphoreReadIssuesWrite :
    (∀ r ∈ [SuReq.wait 3 9, .notify 3 9, .undoStop 3, .undoReset 3, .signal 9],
        (readWait r (standing .postwait .post .waiting)).suAwaits ⟨r, 9, none, 0⟩)
      ∧ ([SuReq.wait 3 9, .notify 3 9, .undoStop 3, .undoReset 3, .signal 9].all fun r =>
          (value (r.decide (record 0))).isSome) = true
      ∧ goodData .corrected = true :=
  ⟨each_of suAwaits_of (by decide +kernel), by decide +kernel⟩

/-- SU awaits the read of an undo for RESET while SB, at a level, writes a record. -/
def undoWhileRecording (level : BitVec 2) : State :=
  { readWait (.undoReset 3) { standing .postwait .post .parked with reset := .undo } with
    sb := { State.reset.sb with writing := some (event .te), level := level }
    mp := { State.reset.mp with su := some (.read 0x1000 6), sb := some (.write 0x1800 (BitVec.allOnes 64) 0) } }

theorem witness_SemaphoreReadNotPerformed :
    (∀ r ∈ [SuReq.wait 3 9, .notify 3 9, .undoStop 3, .signal 9],
        (readWait r (standing .postwait .post .waiting)).suAwaits ⟨r, 9, none, 0⟩)
      ∧ (readWait (.undoReset 3) { standing .postwait .post .parked with reset := .undo }).suAwaits ⟨.undoReset 3, 9, none, 0⟩
      ∧ (∀ l ∈ [(2 : BitVec 2), 3], (undoWhileRecording l).suAwaits ⟨.undoReset 3, 9, none, 0⟩)
      ∧ ([SuReq.wait 3 9, .notify 3 9, .undoStop 3, .undoReset 3, .signal 9].all fun r =>
          (failure (r.decide 0)).isSome) = true
      ∧ (readWait (.undoReset 3) { standing .postwait .post .parked with reset := .undo }).sb.writing = none
      ∧ goodData .error = false ∧ goodData .corrected = true ∧ (undoWhileRecording 3).mp.su = some (.read 0x1000 6)
      ∧ (undoWhileRecording 3).sb.writing ≠ none ∧ (undoWhileRecording 3).sb.level = 3 ∧ (undoWhileRecording 2).sb.level ≠ 3 :=
  ⟨each_of suAwaits_of (by decide +kernel), suAwaits_of (by decide +kernel), each_of suAwaits_of (by decide +kernel), by
    decide +kernel⟩

/-- SU awaits the write of a record. -/
def writeWait (r : SuReq) (count : BitVec 16) (d : BitVec 48) (l : List Parked) (c : Channel) : State :=
  suWait ⟨r, 9, some d, count⟩ l c

theorem witness_WaitWriteSucceedsOrParks :
    (∀ c ∈ [{ readyMove with phase := .post, activity := .waiting },
          working .prewait .prewait .waiting (task false [7, 9] [] [move .copy 1])],
        (writeWait (.wait 3 9) 0 (record 1) [] c).suAwaits ⟨.wait 3 9, 9, some (record 1), 0⟩)
      ∧ (writeWait (.wait 3 9) (-1) (record 0) [] (standing .postwait .post .waiting)).suAwaits
        ⟨.wait 3 9, 9, some (record 0), -1⟩
      ∧ ({ readyMove with phase := .post } : Channel).lastTask = some 0x4000
      ∧ (working .prewait .prewait .waiting (task false [7, 9] [] [move .copy 1])).waits[0 + 1]? = some 9
      ∧ 0 ≤ (0 : BitVec 16).toInt ∧ (-1 : BitVec 16).toInt < 0 :=
  ⟨each_of suAwaits_of (by decide +kernel), suAwaits_of (by decide +kernel), by decide +kernel⟩

theorem witness_NotifyWakesAndAlerts :
    (∀ p ∈ [((0 : BitVec 16), record (-1)), (0, lifoRecord), (1, record 0)],
        (writeWait (.notify 3 9) p.1 p.2 [⟨4, 8⟩, ⟨5, 9⟩, ⟨6, 9⟩]
            (working .finishing .notify .notifying (task false [] [9, 7] [move .copy 1]))).suAwaits
          ⟨.notify 3 9, 9, some p.2, p.1⟩)
      ∧ (∀ p ∈ [((0 : BitVec 16), record (-1)), (0, lifoRecord), (1, record 0)],
        (writeWait (.signal 9) p.1 p.2 [⟨4, 8⟩] Channel.off).suAwaits ⟨.signal 9, 9, some p.2, p.1⟩)
      ∧ semLifo (record (-1)) = false ∧ semLifo lifoRecord = true ∧ semAlert (record (-1)) = true
      ∧ semAlert lifoRecord = false ∧ (0 : BitVec 16).toInt ≤ 0 ∧ 0 < (1 : BitVec 16).toInt
      ∧ (working .finishing .notify .notifying (task false [] [9, 7] [move .copy 1])).notifies[0 + 1]? = some 7
      ∧ ([⟨4, 8⟩, ⟨5, 9⟩, ⟨6, 9⟩] : List Parked).Nodup :=
  ⟨each_of suAwaits_of (by decide +kernel), each_of suAwaits_of (by decide +kernel), by decide +kernel⟩

theorem witness_NotifyWakesAndAlerts_list_full :
    (9 : SemId) ∉ (List.finRange 256).drop 100 ∧ 32 ≤ ((List.finRange 256).drop 100).length := by
  decide +kernel

/-- Parked in its wait list, at a wait of a task with the given waits. -/
def listParked (waits : List SemId) : Channel :=
  working .prewait .prewait .parked (task false waits [] [move .copy 1])

/-- A wake of channel 3 by a SIGNAL, or by a notify of channel 5. -/
def waking (r : SuReq) (p : RegPort) (c : Channel) : State :=
  { writeWait r 0 (record (-1)) [⟨3, 9⟩] c with rp := p }

theorem witness_WakeIsSuccessOfWait :
    (∀ p ∈ [State.reset.rp, (running Channel.off).rp],
        (waking (.signal 9) p (standing .postwait .post .parked)).suAwaits ⟨.signal 9, 9, some (record (-1)), 0⟩)
      ∧ (∀ c ∈ [standing .postwait .post .parked, listParked [9], listParked [9, 7]],
        (waking (.notify 5 9) (running Channel.off).rp c).suAwaits ⟨.notify 5 9, 9, some (record (-1)), 0⟩)
      ∧ (0 : BitVec 16).toInt ≤ 0 ∧ State.reset.rp.run = false
      ∧ chooseParked (semLifo (record (-1))) 9 [⟨3, 9⟩] = some ⟨3, 9⟩ ∧ (5 : ChanId) ≠ 3
      ∧ (listParked [9, 7]).waits[(listParked [9, 7]).listIndex + 1]? = some 7
      ∧ (listParked [9]).waits[(listParked [9]).listIndex + 1]? = none ∧ (listParked [9]).mark = false
      ∧ (listParked [9]).task = some (task false [9] [] [move .copy 1])
      ∧ ({ readyMove with phase := .post } : Channel).lastTask = some 0x4000 :=
  ⟨each_of suAwaits_of (by decide +kernel), each_of suAwaits_of (by decide +kernel), by decide +kernel⟩

theorem test_notify_wakes_wait_list_waiter :
    (after (.notifyWriteAnswer .okay) (waking (.notify 5 9) (running Channel.off).rp (listParked [9, 7]))).map
        (fun t => ((t.chan 3).listIndex, (t.chan 3).activity, t.su.parked))
      = some (1, .waiting, []) := by
  decide +kernel

theorem witness_UndoAnswersReleaseChannel :
    (writeWait (.undoStop 3) 0 (record (-1)) [⟨3, 9⟩] { standing .postwait .post .parked with stopPending := true }).suAwaits
        ⟨.undoStop 3, 9, some (record (-1)), 0⟩
      ∧ (writeWait (.undoReset 3) 0 (record (-1)) [⟨3, 9⟩] { standing .postwait .post .parked with reset := .undo }).suAwaits
        ⟨.undoReset 3, 9, some (record (-1)), 0⟩ :=
  ⟨suAwaits_of (by decide +kernel), suAwaits_of (by decide +kernel)⟩

/-! ## States for TE -/

/-- A channel READY in PURGE with a descriptor for one page of space 5. -/
def readyPurge : Channel :=
  { standing .ready .purge .ready with
    current := some 0x4000, task := some ⟨0, false, [], [], [], .purge ⟨.page, 5, 0x00101000⟩⟩ }

theorem witness_GrantGoesToWinner :
    (running readyMove).quietUnits ∧ (running readyMove).atGrantPoint = true
      ∧ ((running readyMove).chan 3).currentMove ≠ none ∧ ((running readyMove).chan 3).phase = .move
      ∧ ({ running readyMove with pending := [.reset 3] } : State).atGrantPoint = true
      ∧ ({ running readyMove with pending := [.reset 3] } : State).resetComes 3 = true
      ∧ (running readyMove).resetComes 3 = false ∧ (engineAt .boundary (moving [move .copy 1])).te.grant = some 3
      ∧ (engineAt .boundary (moving [move .copy 1])).te.held = []
      ∧ (engineAt .boundary (moving [move .copy 1])).rp.commandSlot = none
      ∧ ((engineAt .boundary (moving [move .copy 1])).chan 3).reset = .off
      ∧ (!(engineAt .boundary (moving [move .copy 1])).resetAsserted
        && (engineAt .boundary (moving [move .copy 1])).soft == .off) = true :=
  ⟨quietUnits_of (by decide +kernel), by decide +kernel⟩

theorem witness_PurgeGrantInvalidatesMatches :
    (running readyPurge).isSettled ∧ (running readyPurge).noneKept ∧ (running readyPurge).atGrantPoint = true
      ∧ (running readyPurge).winner = some 3 ∧ ((running readyPurge).chan 3).phase = .purge
      ∧ ((running readyPurge).chan 3).task = some ⟨0, false, [], [], [], .purge ⟨.page, 5, 0x00101000⟩⟩ :=
  ⟨isSettled_of (by decide +kernel), noneKept_of (by decide +kernel), by decide +kernel⟩

theorem witness_SliceCountEndsSlice :
    ∀ c ∈ [moving [move .copy 40], { moving [move .copy 40] with mark := true },
        { moving [move .copy 40] with stopPending := true }],
      (engineAt .exhausted c).te.grant = some 3 ∧ (engineAt .exhausted c).te.step = .exhausted
        ∧ ((engineAt .exhausted c).chan 3).reset = .off ∧ ((engineAt .exhausted c).chan 3).phase = .move
        ∧ (engineAt .exhausted c).fu.got = none ∧ (engineAt .exhausted c).su.got = none
        ∧ (engineAt .exhausted c).suBusy 3 = false := by
  decide +kernel

theorem witness_ConversionFollowsSizes :
    (0xFF : BitVec 64).toNat < 2 ^ (8 * Size.b1.bytes) ∧ Size.b1.bytes < Size.b2.bytes
      ∧ (0xFFFFFFFFFFFFFFFF : BitVec 64).toNat < 2 ^ (8 * Size.b8.bytes) ∧ Size.b4.bytes < Size.b8.bytes := by
  decide

/-- A move at the first of its moves' elements, with displacements. -/
def placed (m : Move) (src dst : BitVec 16) : Move :=
  { m with src := { m.src with disp := src }, dst := { m.dst with disp := dst } }

/-- A channel READY for the first slice of its move. -/
def fresh (m : Move) : Channel :=
  { working .ready .move .ready (task false [] [] [m]) with firstFlag := true, remaining := m.total }

/-- A FILL from the immediate, of the given source size. -/
def filling (z : Size) (imm : Word) : Move :=
  { narrowing with op := .fill, src := { side z 0 false with form := .immediate }, imm := imm }

/-- A FILL from memory. -/
def fillRead : Move := { narrowing with op := .fill }

/-- What the statement about the beginning of a move asks of its state, computed for channel 3 and one move. -/
def beginsAt (m : Move) : Bool :=
  (running (fresh m)).atGrantPoint && (running (fresh m)).winner == some 3 && !(running (fresh m)).resetComes 3
    && (running (fresh m)).chan 3 == fresh m && (fresh m).currentMove == some m

theorem witness_MovesBeginAtTheirAddresses :
    (∀ m ∈ [{ move .copy 1 with dst := side .b2 1 true }, placed narrowing 2 0, placed narrowing 0 1, narrowing,
          placed fillRead 2 0, fillRead, filling .b4 0x10000, placed (filling .b4 5) 0 1, filling .b4 0xFFFF],
        (running (fresh m)).quietUnits)
      ∧ ([{ move .copy 1 with dst := side .b2 1 true }, placed narrowing 2 0, placed narrowing 0 1, narrowing,
          placed fillRead 2 0, fillRead, filling .b4 0x10000, placed (filling .b4 5) 0 1, filling .b4 0xFFFF].all
            beginsAt) = true
      ∧ Move.badForm { move .copy 1 with dst := side .b2 1 true } = true ∧ narrowing.badForm = false
      ∧ fillRead.badForm = false ∧ (filling .b4 5).badForm = false
      ∧ (fresh (placed narrowing 2 0)).effectiveAddr (placed narrowing 2 0).src = 2
      ∧ (fresh (placed narrowing 0 1)).effectiveAddr (placed narrowing 0 1).dst = 1 ∧ Size.b4.aligned 2 = false
      ∧ Size.b2.aligned 1 = false ∧ Size.b4.aligned 0 = true ∧ Size.b2.aligned 0 = true
      ∧ (filling .b4 0x10000).convert 0x10000 = none ∧ (filling .b4 0xFFFF).convert 0xFFFF = some 0xFFFF
      ∧ (running (fresh narrowing)).tu.cache[0] = CacheSet.invalid
      ∧ CacheSet.invalid.way0.matchesKey 0 0 = false ∧ CacheSet.invalid.way1.matchesKey 0 0 = false :=
  ⟨each_of quietUnits_of (by decide +kernel), by decide +kernel⟩

theorem witness_MovesBeginAtTheirAddresses_fill_read :
    (teWait (.reading .fillSource 0x8000) (moving [fillRead])).teAwaits 3 fillRead
      ∧ (teWait (.reading .fillSource 0x8000) (moving [placed fillRead 0 1])).teAwaits 3 (placed fillRead 0 1)
      ∧ fillRead.op = .fill ∧ fillRead.convert (fillRead.src.size.low 0x10000) = none
      ∧ fillRead.convert (fillRead.src.size.low 0xFFFF) = some 0xFFFF ∧ goodData .corrected = true
      ∧ goodData .uncorrectable = false :=
  ⟨teAwaits_of (by decide +kernel), teAwaits_of (by decide +kernel), by decide +kernel⟩

/-- The part with one cache entry, for page 0 of space 0. -/
def cached (access : AccessCode) (modified parity : Bool) (s : State) : State :=
  { s with
    tu := { s.tu with
      cache := s.tu.cache.set 0
        ⟨⟨true, 0, 0, 0, 0, 5, access, modified, access.device, false, parity⟩, CacheEntry.invalid, .way0⟩ } }

/-- TE awaits the source read of a narrowing COPY, its last element. -/
def copyWait : State := teWait (.reading .source 0x8000) (moving [narrowing])

theorem witness_CopySourceReadGoesOn :
    (∀ s ∈ [copyWait, cached .read true true copyWait, cached .readWrite false true copyWait,
          cached .readWrite true true copyWait, cached .deviceReadWrite true true copyWait,
          cached .readWrite true false copyWait], s.teAwaits 3 narrowing)
      ∧ narrowing.op = .copy ∧ narrowing.convert (narrowing.src.size.low 0xFFFF) = some 0xFFFF
      ∧ narrowing.convert (narrowing.src.size.low 0x10000) = none ∧ goodData .error = false
      ∧ CacheSet.invalid.way0.matchesKey 0 0 = false ∧ CacheSet.invalid.way1.matchesKey 0 0 = false
      ∧ copyWait.tu.cache[0] = CacheSet.invalid ∧ AccessCode.read.allows true = false
      ∧ AccessCode.readWrite.allows true = true ∧ AccessCode.deviceReadWrite.allows true = true
      ∧ AccessCode.deviceReadWrite.device = true ∧ (moving [narrowing]).dstEA = 0 :=
  ⟨each_of teAwaits_of (by decide +kernel), by decide +kernel⟩

theorem witness_CopySourceReadGoesOn_hits :
    (cached .read true true copyWait).finds 0 0 .way0
        ⟨true, 0, 0, 0, 0, 5, .read, true, false, false, true⟩
      ∧ (cached .readWrite true true copyWait).waitsAfter 3 narrowing (.writeDest 0xFFFF) 0x5000 false
      ∧ (cached .deviceReadWrite true true copyWait).waitsAfter 3 narrowing (.writeDest 0xFFFF) 0x5000 true
      ∧ (cached .readWrite true false copyWait).hasRoom .tu :=
  ⟨⟨by decide +kernel, by decide +kernel, by decide +kernel⟩,
    .inr ⟨⟨rfl, rfl, rfl⟩, ⟨by decide +kernel, by decide +kernel, rfl, rfl⟩, by decide +kernel⟩, .inl rfl,
    hasRoom_of (by decide +kernel)⟩

/-- A state whose line buffer holds the given lines, the first of them line 1. -/
def holding (first : Line) (s : State) : State :=
  { s with lb := { s.lb with entries := ⟨first, 1, 0x55, [5]⟩ :: (List.range 7).map fun i => ⟨BitVec.ofNat 34 (i + 2), 1, 0, [5]⟩ } }

/-- TE awaits the source read of a VERIFY. -/
def verifyWait : State := cached .read false true (teWait (.reading .source 0x8000) (moving [move .verify 1]))

theorem witness_ElementWritesGatherInLines_issued :
    (holding 1 (cached .readWrite true true copyWait)).teAwaits 3 narrowing ∧ verifyWait.teAwaits 3 (move .verify 1)
      ∧ (holding 0x140 verifyWait).teAwaits 3 (move .verify 1) ∧ (move .verify 1).op = .verify
      ∧ (holding 1 (cached .readWrite true true copyWait)).lbIdle ∧ verifyWait.lbIdle
      ∧ verifyWait.finds 0 0 .way0 ⟨true, 0, 0, 0, 0, 5, .read, false, false, false, true⟩
      ∧ AccessCode.read.allows false = true ∧ (0x5000 : PAddr).extractLsb' 6 34 = 0x140
      ∧ (holding 1 copyWait).lb.entries.length = 8
      ∧ (∀ z ∈ (holding 1 copyWait).lb.entries, z.line ≠ (0x5000 : PAddr).extractLsb' 6 34)
      ∧ (holding 0x140 verifyWait).lb.entries.find? (·.line == (0x5000 : PAddr).extractLsb' 6 34)
        = some ⟨0x140, 1, 0x55, [5]⟩ :=
  ⟨teAwaits_of (by decide +kernel), teAwaits_of (by decide +kernel), teAwaits_of (by decide +kernel), rfl,
    ⟨rfl, rfl, rfl⟩, ⟨rfl, rfl, rfl⟩, ⟨by decide +kernel, by decide +kernel, by decide +kernel⟩, by decide +kernel⟩

theorem test_eviction_issued :
    (after (.elementReadAnswer .okay 0xFFFF) (holding 1 (cached .readWrite true true copyWait))).map
        (fun t => (t.te.step, t.mp.lb))
      = some (.placing 0xFFFF 0x5000, some (.write 0x40 1 0x55)) := by
  decide +kernel

theorem test_line_check_issued :
    (after (.elementReadAnswer .okay 0xFFFF) (holding 0x140 verifyWait)).map (fun t => (t.te.step, t.mp.lb))
      = some (.lineCheck (.verifyDest 0xFFFF) 0x5000, some (.write 0x5000 1 0x55)) := by
  decide +kernel

theorem witness_VerifyMismatchCompletesMove :
    (teWait (.reading (.verifyDest 1) 0x8000) (moving [move .verify 3, move .copy 0])).teAwaits 3 (move .verify 3)
      ∧ (move .verify 3).op = .verify ∧ (1 : BitVec 64) ≠ (move .verify 3).dst.size.low 0x10002
      ∧ (moving [move .verify 3, move .copy 0]).moves[0 + 1]? = some (move .copy 0)
      ∧ (moving [move .verify 3, move .copy 0]).stopPending = false
      ∧ (moving [move .verify 3, move .copy 0]).mark = false ∧ (moving [move .verify 3, move .copy 0]).phase = .move :=
  ⟨teAwaits_of (by decide +kernel), by decide +kernel⟩

/-- TE awaits the device write of an element of a longer move, as the slice's given element. -/
def deviceWait (counter : Nat) : State :=
  let s := teWait (.deviceWrite 5 0x8000) { moving [move .copy 40] with remaining := 2 }
  { s with te := { s.te with counter := counter } }

theorem witness_DeviceWriteAnswerEndsElement :
    (teWait (.deviceWrite 5 0x8000) (moving [move .copy 1])).teAwaits 3 (move .copy 1)
      ∧ (deviceWait 14).teAwaits 3 (move .copy 40) ∧ (deviceWait 15).teAwaits 3 (move .copy 40)
      ∧ (moving [move .copy 1]).atLastElement ∧ 2 ≤ ((deviceWait 14).chan 3).remaining
      ∧ (deviceWait 14).te.counter < 15 ∧ (deviceWait 15).te.counter = 15
      ∧ ((deviceWait 14).chan 3).firstFlag = false ∧ (move .copy 40).op ≠ .fill :=
  ⟨teAwaits_of (by decide +kernel), teAwaits_of (by decide +kernel), teAwaits_of (by decide +kernel),
    ⟨by decide +kernel, by decide +kernel, rfl, rfl⟩, by decide +kernel⟩

/-! ## States for TU -/

/-- A root of KIND TABLE, limit 1023, base 0x200. -/
def tableRoot : BitVec 64 := 0x00000200_03FF_00_01

theorem witness_WalkStepsAskForNextEntry :
    (∀ x ∈ [TuStage.root, .descriptor, .pageEntry], (walkWait x).tuAwaits query x) ∧ goodData .okay = true
      ∧ byteAt tableRoot 0 = 1 ∧ (halfAt tableRoot 2).toNat ≤ 1023 ∧ (wordAt tableRoot 4).extractLsb' 0 5 = 0
      ∧ (vaSegment query.va).toNat ≤ (halfAt tableRoot 2).toNat ∧ (byteAt descriptor 0).getLsbD 0 = true
      ∧ accessOf ((byteAt descriptor 1).extractLsb' 0 3) = some .read ∧ (wordAt descriptor 4).extractLsb' 0 3 = 0
      ∧ (vaPage query.va).toNat ≤ (byteAt descriptor 2).toNat ∧ AccessCode.read.allows query.isWrite = true
      ∧ (walkWait .pageEntry).tu.descriptor = some descriptor
      ∧ (byteAt (0x0000002000000001 : BitVec 64) 0).getLsbD 0 = true
      ∧ (byteAt (0x0000002000000001 : BitVec 64) 1).getLsbD 0 = false :=
  ⟨each_of tuAwaits_of (by decide +kernel), by decide +kernel⟩

/-- The same walk for the write of the last element of channel 3. -/
def writeWalk (x : TuStage) (upgrade : Option Way) : State :=
  let s := walkWait x
  { s with
    te := { s.te with step := .translating (.writeDest 5) }
    tu := { s.tu with
      req := some { query with isWrite := true }, descriptor := some (descriptor + 0x100), upgrade := upgrade } }

/-- A DIRECT root with code READ WRITE. -/
def directRoot : BitVec 64 := 0x00400000_0000_02_02

theorem witness_WalkFillsCacheAndGoesOn :
    (walkWait .pageEntry).walkAwaits query .pageEntry (move .copy 1) .source
      ∧ (walkWait .flag).walkAwaits query .flag (move .copy 1) .source
      ∧ (walkWait .root).walkAwaits query .root (move .copy 1) .source
      ∧ (writeWalk .flag (some .way1)).walkAwaits { query with isWrite := true } .flag (move .copy 1) (.writeDest 5)
      ∧ (walkWait .root).waitsAfter 3 (move .copy 1) .source 0 false
      ∧ (writeWalk .flag (some .way1)).waitsAfter 3 (move .copy 1) (.writeDest 5) 0x20000 false
      ∧ (walkWait .flag).tu.pageEntry = some 0x0000002000000001
      ∧ (walkWait .pageEntry).tu.descriptor = some descriptor ∧ query.isWrite = false
      ∧ accessOf ((byteAt (descriptor + 0x100) 1).extractLsb' 0 3) = some .readWrite
      ∧ (byteAt (0x0000002000000101 : BitVec 64) 0).getLsbD 0 = true
      ∧ (byteAt (0x0000002000000101 : BitVec 64) 1).getLsbD 0 = true ∧ byteAt directRoot 0 = 2
      ∧ (wordAt directRoot 4).extractLsb' 0 22 = 0
      ∧ accessOf ((byteAt directRoot 1).extractLsb' 0 3) = some .readWrite :=
  ⟨walkAwaits_of (tuAwaits_of (by decide +kernel)) (by decide +kernel),
    walkAwaits_of (tuAwaits_of (by decide +kernel)) (by decide +kernel),
    walkAwaits_of (tuAwaits_of (by decide +kernel)) (by decide +kernel),
    walkAwaits_of (tuAwaits_of (by decide +kernel)) (by decide +kernel), trivial,
    .inr ⟨⟨rfl, rfl, rfl⟩, ⟨by decide +kernel, by decide +kernel, rfl, rfl⟩, by decide +kernel⟩, by decide +kernel⟩

theorem witness_WalkFaultEndsSlice :
    (walkWait .root).walkAwaits query .root (move .copy 1) .source
      ∧ (walkWait .descriptor).walkAwaits query .descriptor (move .copy 1) .source
      ∧ (walkWait .pageEntry).walkAwaits query .pageEntry (move .copy 1) .source
      ∧ (walkWait .flag).walkAwaits query .flag (move .copy 1) .source
      ∧ (writeWalk .pageEntry (some .way0)).walkAwaits { query with isWrite := true } .pageEntry (move .copy 1) (.writeDest 5)
      ∧ goodData .okay = true ∧ goodData .uncorrectable = false :=
  ⟨walkAwaits_of (tuAwaits_of (by decide +kernel)) (by decide +kernel),
    walkAwaits_of (tuAwaits_of (by decide +kernel)) (by decide +kernel),
    walkAwaits_of (tuAwaits_of (by decide +kernel)) (by decide +kernel),
    walkAwaits_of (tuAwaits_of (by decide +kernel)) (by decide +kernel),
    walkAwaits_of (tuAwaits_of (by decide +kernel)) (by decide +kernel), by decide +kernel⟩

/-- Each clause about a root, a descriptor and a page entry, on one word each. -/
theorem witness_WalkFaultEndsSlice_words :
    byteAt (0 : BitVec 64) 0 = 0 ∧ 3 ≤ (byteAt (3 : BitVec 64) 0).toNat ∧ 1023 < (halfAt (0x04000001 : BitVec 64) 2).toNat
      ∧ (wordAt (0x1_0000_0001 : BitVec 64) 4).extractLsb' 0 5 ≠ 0
      ∧ (halfAt (1 : BitVec 64) 2).toNat < (vaSegment query.va).toNat
      ∧ (byteAt (0x0302 : BitVec 64) 1).extractLsb' 0 3 = 3 ∧ (byteAt (0x0402 : BitVec 64) 1).extractLsb' 0 3 = 4
      ∧ (byteAt (0x0702 : BitVec 64) 1).extractLsb' 0 3 = 7 ∧ (wordAt (0x1_0000_0102 : BitVec 64) 4).extractLsb' 0 22 ≠ 0
      ∧ (byteAt (0x0102 : BitVec 64) 1).extractLsb' 0 3 = 1 ∧ (byteAt (0x0502 : BitVec 64) 1).extractLsb' 0 3 = 5
      ∧ (byteAt (0x0002 : BitVec 64) 1).extractLsb' 0 3 = 0 ∧ (byteAt (0x0101 : BitVec 64) 0).getLsbD 0 = true
      ∧ (wordAt (0x1_0000_0101 : BitVec 64) 4).extractLsb' 0 3 ≠ 0
      ∧ (byteAt (0x0101 : BitVec 64) 2).toNat < (vaPage query.va).toNat ∧ (byteAt (0 : BitVec 64) 0).getLsbD 0 = false := by
  decide +kernel

/-- SU, TE and TU await answers while SB, at level 3, is free. -/
def reporting (s : State) : State := { s with sb := { s.sb with level := 3 } }

theorem witness_UnitEventsReachStatusBlock :
    (∀ r ∈ [SuReq.wait 3 9, .notify 3 9, .undoStop 3, .undoReset 3, .signal 9],
        (reporting (readWait r (standing .postwait .post .waiting))).suAwaits ⟨r, 9, none, 0⟩)
      ∧ (∀ r ∈ [SuReq.wait 3 9, .notify 3 9, .undoStop 3, .undoReset 3, .signal 9],
        (reporting (writeWait r 0 (record (-1)) [⟨3, 9⟩] (standing .postwait .post .waiting))).suAwaits
          ⟨r, 9, some (record (-1)), 0⟩)
      ∧ (reporting copyWait).teAwaits 3 narrowing ∧ (reporting (deviceWait 0)).teAwaits 3 (move .copy 40)
      ∧ (∀ x ∈ [TuStage.root, .descriptor, .pageEntry, .flag], (reporting (walkWait x)).tuAwaits query x)
      ∧ (reporting copyWait).sb.level.toNat ≥ 3 ∧ (reporting copyWait).mp.te = some (.read 0x8000 2)
      ∧ (reporting (walkWait .root)).mp.tu = some (.read 0x900 8)
      ∧ (reporting (readWait (.signal 9) Channel.off)).mp.su = some (.read 0x1000 6)
      ∧ (reporting copyWait).sb.writing = none ∧ failure ((SuReq.undoReset 3).decide 0) = some .invalid
      ∧ value ((SuReq.undoReset 3).decide (record (-1))) = some 0 :=
  ⟨each_of suAwaits_of (by decide +kernel), each_of suAwaits_of (by decide +kernel), teAwaits_of (by decide +kernel),
    teAwaits_of (by decide +kernel), each_of tuAwaits_of (by decide +kernel), by decide +kernel⟩

theorem test_walk_error_raises_event :
    (after (.rootReadAnswer .error 0) (walkWait .root)).map (fun t => t.sb.writing)
      = some (some ⟨.busError, .tu, some 3, .error, 0x900⟩) := by
  decide +kernel

theorem witness_CacheFillOrder :
    CacheSet.invalid.way0.valid = false ∧ ({ CacheEntry.invalid with valid := true } : CacheEntry).valid = true := by
  decide

/-! ## States for LB and SB -/

/-- Lines 1 to 8, each gathered by channel 5. -/
def eightLines : List LineEntry := (List.range 8).map fun i => ⟨BitVec.ofNat 34 (i + 1), 1, 0, [5]⟩

/-- LB writes out its oldest line before it places an element of channel 3 in line 0x200. -/
def evicting : State :=
  let s := engineAt (.placing 5 0x8000) (moving [move .copy 1])
  { s with
    lb := { s.lb with current := some (.write 0x8000 .b2 5 3), entries := eightLines, writing := some 1 }
    mp := { s.mp with lb := some (.write 0x40 1 0) } }

/-- LB writes out the line that TE is about to read. -/
def checking : State :=
  let s := engineAt (.lineCheck .source 0x80) (moving [move .copy 1])
  { s with
    lb := { s.lb with current := some (.check 0x80), entries := eightLines, writing := some 2 }
    mp := { s.mp with lb := some (.write 0x80 1 0) } }

theorem witness_ElementWritesGatherInLines :
    (∀ s ∈ [evicting, checking], s.quietUnits) ∧ (∀ s ∈ [evicting, checking], s.noEngineQueued)
      ∧ (∀ s ∈ [evicting, checking], s.hasRoom .lb) ∧ evicting.lb.entries = ⟨1, 1, 0, [5]⟩ :: eightLines.tail
      ∧ eightLines.tail.length = 7 ∧ (∀ x ∈ eightLines.tail, x.line ≠ 1)
      ∧ (∀ x ∈ eightLines, x.line ≠ (0x8000 : PAddr).extractLsb' 6 34)
      ∧ (moving [move .copy 1]).currentMove = some (move .copy 1) ∧ (move .copy 1).op ≠ .fill
      ∧ (0x80 : PAddr).extractLsb' 6 34 = 2 ∧ (0x8038 : PAddr).toNat % Size.b8.bytes = 0
      ∧ (placeElement eightLines 0x8000 .b2 5 3).isSome = false
      ∧ (placeElement eightLines.tail 0x8000 .b2 5 3).isSome = true
      ∧ (placeElement eightLines 0x40 .b2 5 3).isSome = true :=
  ⟨each_of quietUnits_of (by decide +kernel), each_of noEngineQueued_of (by decide +kernel), each_of hasRoom_of (by
    decide +kernel), by decide +kernel⟩

/-- An ACTIVE channel whose slice goes on while a drain of another channel writes out its line. -/
def markedMeanwhile : State :=
  let s := teWait (.reading .source 0x8000) (moving [move .copy 1])
  { s with
    lb := { s.lb with current := some (.drain 5), entries := [⟨7, 1, 0x55, [3, 5]⟩, ⟨8, 1, 0, [5]⟩], writing := some 7 }
    mp := { s.mp with lb := some (.write (lineAddr 7) 1 0x55) } }

theorem witness_LineWriteOutAnswered_active :
    markedMeanwhile.quietUnits ∧ markedMeanwhile.te.grant = some 3 ∧ (markedMeanwhile.chan 3).state = .active
      ∧ (markedMeanwhile.chan 3).activity = .slice ∧ markedMeanwhile.lb.held = []
      ∧ markedMeanwhile.lb.find 7 = some ⟨7, 1, 0x55, [3, 5]⟩
      ∧ (markedMeanwhile.lb.entries.filter (·.line != 7)).find? (·.chans.contains 5) = some ⟨8, 1, 0, [5]⟩
      ∧ (markedMeanwhile.lb.entries.filter (·.line != 7)).head? = some ⟨8, 1, 0, [5]⟩ :=
  ⟨quietUnits_of (by decide +kernel), by decide +kernel⟩

theorem witness_LineWriteOutAnswered_stopping_and_halting :
    ∀ c ∈ [{ readyMove with activity := .stopDrain }, { readyMove with activity := .haltDrain },
        { readyMove with activity := .haltSave }], (lbAt (.drain 3) [entry7] (some 7) c).leftAlone 3 :=
  each_of leftAlone_of (by decide +kernel)

theorem witness_LineWriteOutAnswered :
    (∀ s ∈ [lbAt (.drain 3) [entry7] (some 7) (working .finishing .drain .finishDrain (task false [] [] [])),
          lbAt (.drain 3) [entry7] (some 7) readyMove], s.noneKept)
      ∧ (∀ s ∈ [lbAt (.drain 3) [entry7] (some 7) (working .finishing .drain .finishDrain (task false [] [] [])),
          lbAt (.drain 3) [entry7] (some 7) readyMove], s.hasRoom .lb)
      ∧ (∀ s ∈ [lbAt (.drain 3) [entry7] (some 7) (working .finishing .drain .finishDrain (task false [] [] [])),
          lbAt (.drain 3) [entry7] (some 7) readyMove], s.leftAlone 3)
      ∧ (lbAt (.drain 3) [entry7] (some 7) readyMove).leftAlone 5
      ∧ (lbAt (.drain 3) [entry7] (some 7) readyMove).lb.writing = some 7
      ∧ (lbAt (.drain 3) [entry7] (some 7) readyMove).mp.lb = some (.write (lineAddr 7) 1 0)
      ∧ (lbAt (.drain 3) [entry7] (some 7) readyMove).lb.current = some (.drain 3)
      ∧ (lbAt (.drain 3) [entry7] (some 7) readyMove).lb.find 7 = some entry7
      ∧ (lbAt (.drain 3) [entry7] (some 7) readyMove).sb.reports entry7.failed = true
      ∧ ((lbAt (.drain 3) [entry7] (some 7) readyMove).chan 5).mark = false
      ∧ 3 ∈ entry7.chans ∧ (5 : ChanId) ∉ entry7.chans ∧ readyMove.state = .ready ∧ readyMove.activity = .ready
      ∧ readyMove.reset = .off :=
  ⟨each_of noneKept_of (by decide +kernel), each_of hasRoom_of (by decide +kernel), each_of leftAlone_of (by
    decide +kernel), leftAlone_of (by decide +kernel), by decide +kernel⟩

theorem witness_ChannelDrainAnswered :
    (∀ c ∈ [{ working .finishing .drain .finishDrain (task false [] [] []) with mark := true },
        working .finishing .drain .finishDrain (task false [] [] []), { readyMove with activity := .stopDrain },
        { readyMove with activity := .haltDrain, mark := true }, { readyMove with reset := .drain }],
      (lbAt (.drain 3) [] none c).leftAlone 3)
      ∧ ([{ working .finishing .drain .finishDrain (task false [] [] []) with mark := true },
        working .finishing .drain .finishDrain (task false [] [] []), { readyMove with activity := .stopDrain },
        { readyMove with activity := .haltDrain, mark := true }, { readyMove with reset := .drain }].all fun c =>
          (lbAt (.drain 3) [] none c).drainOver (.drain 3) && (lbAt (.drain 3) [] none c).chan 3 == c
            && c.current == some 0x4000) = true
      ∧ (lbAt (.drain 3) [] none readyMove).lb.current = some (.drain 3) :=
  ⟨each_of leftAlone_of (by decide +kernel), by decide +kernel⟩

theorem witness_ChannelDrainAnswered_halt_without_task :
    (lbAt (.drain 3) [] none (standing .fetching .fetch .haltDrain)).leftAlone 3
      ∧ (lbAt (.drain 3) [] none (standing .fetching .fetch .haltDrain)).drainOver (.drain 3) = true
      ∧ (standing .fetching .fetch .haltDrain).current = none ∧ (standing .fetching .fetch .haltDrain).reset = .off :=
  ⟨leftAlone_of (by decide +kernel), by decide +kernel⟩

/-- TE waits for its full drain, which has nothing left to write out. -/
def drainedFor (x : TeStep) (c : Channel) : State :=
  { engineAt x c with lb := { State.reset.lb with current := some .engineDrain } }

/-- The soft reset's drain has nothing left to write out. -/
def softDraining : State :=
  { State.reset with soft := .draining, lb := { State.reset.lb with current := some .softDrain } }

theorem witness_FullDrainAnswered :
    (drainedFor .purgeDrain { readyPurge with state := .active, activity := .slice }).isSettled
      ∧ (drainedFor .purgeDrain { readyPurge with state := .active, activity := .slice }).noneKept
      ∧ (drainedFor (.deviceDrain 5 0x8000) (moving [move .copy 1])).isSettled
      ∧ (drainedFor (.deviceDrain 5 0x8000) (moving [move .copy 1])).noneKept ∧ softDraining.isSettled
      ∧ softDraining.noneKept
      ∧ (drainedFor .purgeDrain { readyPurge with state := .active, activity := .slice }).drainOver .engineDrain = true
      ∧ (drainedFor .purgeDrain { readyPurge with state := .active, activity := .slice }).te.grant = some 3
      ∧ (drainedFor .purgeDrain { readyPurge with state := .active, activity := .slice }).suBusy 3 = false
      ∧ (drainedFor (.deviceDrain 5 0x8000) (moving [move .copy 1])).drainOver .engineDrain = true
      ∧ (moving [move .copy 1]).currentMove = some (move .copy 1) ∧ softDraining.drainOver .softDrain = true
      ∧ softDraining.soft = .draining ∧ (drainedFor (.deviceDrain 5 0x8000) (moving [move .copy 1])).te.got = none :=
  ⟨isSettled_of (by decide +kernel), noneKept_of (by decide +kernel), isSettled_of (by decide +kernel),
    noneKept_of (by decide +kernel), isSettled_of (by decide +kernel), noneKept_of (by decide +kernel),
    by decide +kernel⟩

theorem witness_EventsReportedAndRecorded :
    State.reset.sb.level.toNat = 1 ∧ 1 < 2 ∧ (∀ x ∈ State.reset.sb.queue, x.unit ≠ .fu)
      ∧ ∃ x ∈ ({ State.reset.sb with queue := [event .fu] } : StatusBlock).queue, x.unit = (event .fu).unit := by
  decide +kernel

/-- SB writes a record, with events waiting. -/
def recording (l : List ErrorEvent) : State :=
  { State.reset with
    sb := { State.reset.sb with writing := some (event .te), queue := l }
    mp := { State.reset.mp with sb := some (.write 0x1800 (BitVec.allOnes 64) 0) } }

theorem witness_EventsReportedAndRecorded_record :
    (recording []).isSettled ∧ (recording [event .fu, event .lb]).isSettled
      ∧ (recording [event .fu, event .lb]).sb.writing = some (event .te)
      ∧ (recording [event .fu, event .lb]).mp.sb = some (.write 0x1800 (BitVec.allOnes 64) 0) :=
  ⟨isSettled_of (by decide +kernel), isSettled_of (by decide +kernel), by decide +kernel⟩

theorem witness_ControlsKeptByOtherCommands :
    (after .grantPoint (running readyPurge)).isSome = true ∧ (after .softResetClearing clearing).isSome = true
      ∧ (after .alertRead State.reset).isSome = true ∧ (after (.controlWrite 1) State.reset).isSome = true
      ∧ (after .hardReset State.reset).isSome = true := by
  decide +kernel

theorem witness_ListsStayWithinBounds : State.reset.alertsOk ∧ (step State.reset = .next State.reset) :=
  ⟨⟨by decide, by decide⟩, rfl⟩

theorem witness_ListsStayWithinBounds_lines :
    (lbAt (.drain 3) [entry7] (some 7) readyMove).linesOk
      ∧ (after (.lineWriteOutAnswer .okay) (lbAt (.drain 3) [entry7] (some 7) readyMove)).isSome = true := by
  simp only [State.linesOk]; decide +kernel

theorem witness_ListsStayWithinBounds_events :
    (recording [event .fu, event .lb]).eventsOk
      ∧ (after (.errorRecordWriteAnswer .okay) (recording [event .fu, event .lb])).isSome = true := by
  simp only [State.eventsOk]; decide +kernel

theorem witness_CacheKeysStayDistinct :
    (∀ i : Fin 32, (walkWait .flag).tu.cache[i].distinct i)
      ∧ (match (walkWait .flag).tu.req with | some q => (walkWait .flag).tu.keyFree q | none => True)
      ∧ (after (.flagWriteAnswer .okay) (walkWait .flag)).isSome = true := by
  simp only [CacheSet.distinct]
  exact ⟨by decide +kernel, ⟨by decide +kernel, by decide +kernel⟩, by decide +kernel⟩

theorem witness_StepLeavesPartSettled :
    State.reset.isSettled ∧ ({ running readyMove with pending := [.grantPoint, .reset 3] } : State).isSettled
      ∧ ({ engineAt .boundary (moving [move .copy 1]) with pending := [.reset 3] } : State).resetWindow
      ∧ State.reset.answersOk ∧ copyWait.answersOk :=
  ⟨isSettled_of (by decide +kernel), isSettled_of (by decide +kernel),
    ⟨3, by decide +kernel, by decide +kernel, by decide +kernel⟩, ⟨by decide, by decide, by decide, by decide, nofun⟩,
    ⟨by decide +kernel, by decide +kernel, by decide +kernel, by decide +kernel, nofun⟩⟩

theorem witness_ChannelsKeepOneRequestEach : linkWait.flowOk := by
  have j : ∀ n, linkWait.jobsOf n = if n = 3 then [⟨3, .link, .read 0x4000 8⟩] else [] := by decide +kernel
  have a : ∀ n, linkWait.asksOf n = [] := by decide +kernel
  have c : ∀ n, linkWait.chan n = if n = 3 then standing .fetching .fetch .linkRead else Channel.off := by decide +kernel
  have g : linkWait.te.grant = none ∧ linkWait.su.current = none ∧ linkWait.su.parked = [] := by decide +kernel
  refine ⟨fun n => ?_, by simp [g.2.2], by simp [g.2.2]⟩
  by_cases h : n = 3 <;>
    simp [State.flowAt, State.flowFits, State.isParked, j, a, c, g, h, FuKind.fits, standing, Channel.off]

theorem witness_SliceAndSoftResetModesStay :
    (engineAt .exhausted (moving [move .copy 40])).counterOk ∧ clearing.softResetOk
      ∧ (after .sliceCountExhausted (engineAt .exhausted (moving [move .copy 40]))).isSome = true := by
  simp only [State.counterOk, State.softResetOk]; decide +kernel

/-! ## One step of each family -/

theorem test_start :
    (after (.start 3) (running Channel.off)).map (fun t => (t.chan 3, t.mp.fu))
      = some ({ Channel.off with state := .postwait, activity := .contextRead }, some (.read 0x180 48)) := by
  decide +kernel

theorem test_stop_in_ready :
    (after (.stop 3) (running readyMove)).map (fun t => (t.chan 3, t.lb.current))
      = some ({ readyMove with stopPending := true, activity := .stopDrain }, some (.drain 3)) := by
  decide +kernel

theorem test_stop_of_parked_asks_undo :
    (after (.stop 3) parkedState).map (fun t => (t.su.current.map SuOp.req, t.mp.su))
      = some (some (.undoStop 3), some (.read 0x1048 6)) := by
  decide +kernel

theorem test_resume_in_notify :
    (after (.resume 3) (running (stoppedIn .notify))).map (fun t => (t.chan 3, t.mp.su))
      = some ({ stoppedIn .notify with state := .finishing, resumedNotify := true, activity := .notifying },
          some (.read 0x1040 6)) := by
  decide +kernel

theorem test_resume_not_resumable :
    (after (.resume 3) (running { stoppedIn .move with state := .halted, fault := some .writeError })).map
        (fun t => (t.sb.refused, t.rp.refuseReason))
      = some (true, .notResumable) := by
  decide +kernel

theorem test_skip :
    (after (.skip 3) (running (stoppedIn .move))).map (fun t => t.mp.fu) = some (some (.write 0x4010 1 4)) := by
  decide +kernel

theorem test_reset_of_ready :
    chanAfter (.reset 3) (running readyMove) = some { readyMove with reset := .settling } := by
  decide +kernel

theorem test_pendingCommandTake :
    (after .pendingCommandTake heldStart).map (fun t => ((t.chan 3).state, t.rp.commandSlot)) = some (.postwait, none) := by
  decide +kernel

theorem test_resetRequestsSettled_of_parked :
    (after (.resetRequestsSettled 3) (parkedState.modChan 3 fun c => { c with reset := .settling })).map
        (fun t => ((t.chan 3).reset, t.su.current.map SuOp.req))
      = some (.undo, some (.undoReset 3)) := by
  decide +kernel

theorem test_signal :
    (after (.signal 0xFFFFFFFF) (running Channel.off)).map (fun t => (t.rp.signalSlot, t.mp.su))
      = some (some 255, some (.read 0x17F8 6)) := by
  decide +kernel

theorem test_context_latched :
    (chanAfter (.contextReadAnswer .okay (0x00FF033F ||| (7 <<< 128))) contextWait).map
        (fun c => (c.space.toNat, c.priority, c.posting, c.cursors[0], c.activity))
      = some (63, 3, 255, 7, .waiting) := by
  decide +kernel

theorem test_link_broken :
    (chanAfter (.linkReadAnswer .okay 0) linkWait).map (fun c => (c.fault, c.activity))
      = some (some .chainBroken, .haltDrain) := by
  decide +kernel

theorem test_header_asks_body :
    (after (.headerReadAnswer .okay oneMove) headerWait).map (fun t => t.mp.fu) = some (some (.read 0x4020 16)) := by
  decide +kernel

theorem test_body_format :
    (chanAfter (.bodyReadAnswer .okay 0) bodyWait).map (fun c => (c.fault, c.listIndex)) = some (some .format, 0) := by
  decide +kernel

theorem test_acceptance_without_waits :
    (chanAfter (.acceptanceWriteAnswer .okay) (acceptWait [])).map (fun c => (c.state, c.remaining, c.firstFlag))
      = some (.ready, 2, true) := by
  decide +kernel

theorem test_done_ends_task :
    (chanAfter (.doneWriteAnswer .okay) (statusWait .done false [])).map (fun c => (c.state, c.current, c.lastTask))
      = some (.postwait, none, some 0x4000) := by
  decide +kernel

theorem test_doneRewrite_pauses :
    (chanAfter (.doneRewriteAnswer .okay) (statusWait .doneRewrite true [])).map (fun c => (c.phase, c.activity))
      = some (.post, .stopDrain) := by
  decide +kernel

theorem test_haltStatus_then_save :
    (after (.haltStatusWriteAnswer .error) (statusWait .haltStatus false [])).map
        (fun t => ((t.chan 3).activity, t.mp.fu.map MpReq.addr, t.sb.errorEvent))
      = some (.haltSave, some 0x1C0, true) := by
  decide +kernel

theorem test_save_halts :
    (after (.saveWriteAnswer .okay) (saveWait .ready .haltSave)).map (fun t => (t.haltedValue, (t.chan 3).state))
      = some (8, .halted) := by
  decide +kernel

theorem test_skipped_goes_to_posting :
    (chanAfter (.skippedWriteAnswer .error) skipWait).map (fun c => (c.state, c.activity, c.current))
      = some (.postwait, .waiting, none) := by
  decide +kernel

theorem test_wait_read_issues_write :
    (after (.waitReadAnswer .okay (record 1)) (readWait (.wait 3 9) (standing .postwait .post .waiting))).map
        (fun t => t.mp.su)
      = some (some (.write 0x104B 7 0)) := by
  decide +kernel

theorem test_wait_parks :
    (after (.waitWriteAnswer .okay) (writeWait (.wait 3 9) (-1) (record 0) [] (standing .postwait .post .waiting))).map
        (fun t => t.su.parked)
      = some [⟨3, 9⟩] := by
  decide +kernel

theorem test_notify_read_overflow :
    (chanAfter (.notifyReadAnswer .okay (record 32767)) (readWait (.notify 3 9) (standing .finishing .notify .notifying))).map
        (fun c => c.fault)
      = some (some .semOverflow) := by
  decide +kernel

theorem test_notify_wakes_newest_under_lifo :
    (after (.notifyWriteAnswer .okay)
        (writeWait (.notify 3 9) 0 lifoRecord [⟨5, 9⟩, ⟨6, 9⟩]
          (working .finishing .notify .notifying (task false [] [9, 7] [move .copy 1])))).map (fun t => t.su.parked)
      = some [⟨5, 9⟩] := by
  decide +kernel

theorem test_undoStop_read_failure :
    (after (.undoStopReadAnswer .error 0)
        (suWait ⟨.undoStop 3, 9, none, 0⟩ [⟨3, 9⟩] { standing .postwait .post .parked with stopPending := true })).map
        (fun t => ((t.chan 3).stopPending, t.rp.refuseReason, t.su.parked))
      = some (false, .semaphoreError, [⟨3, 9⟩]) := by
  decide +kernel

theorem test_undoStop_write :
    (after (.undoStopWriteAnswer .okay)
        (writeWait (.undoStop 3) 0 (record (-1)) [⟨3, 9⟩] { standing .postwait .post .parked with stopPending := true })).map
        (fun t => ((t.chan 3).activity, t.su.parked))
      = some (.stopDrain, []) := by
  decide +kernel

theorem test_undoReset_read_invalid_still_drains :
    (after (.undoResetReadAnswer .okay 0)
        (readWait (.undoReset 3) { standing .postwait .post .parked with reset := .undo })).map
        (fun t => ((t.chan 3).reset, t.sb.writing.map ErrorEvent.code))
      = some (.drain, some .undoLost) := by
  decide +kernel

theorem test_undoReset_write_error_still_drains :
    (chanAfter (.undoResetWriteAnswer .error)
        (writeWait (.undoReset 3) 0 (record (-1)) [⟨3, 9⟩] { standing .postwait .post .parked with reset := .undo })).map
        (fun c => c.reset)
      = some .drain := by
  decide +kernel

theorem test_signal_read_memory :
    (after (.signalReadAnswer .uncorrectable 0) (readWait (.signal 9) Channel.off)).map
        (fun t => (t.rp.refuseReason, t.sb.writing.map ErrorEvent.code))
      = some (.memory, some .signalMemory) := by
  decide +kernel

theorem test_signal_write_alerts :
    (after (.signalWriteAnswer .okay) (writeWait (.signal 9) 0 (record (-1)) [⟨3, 9⟩] (standing .postwait .post .parked))).map
        (fun t => ((t.chan 3).state, t.rp.alerts, t.su.parked))
      = some (.fetching, [9], []) := by
  decide +kernel

theorem test_grantPoint :
    (after .grantPoint (running readyMove)).map (fun t => (t.te.grant, t.te.rotor, (t.chan 3).state, t.mp.tu))
      = some (some 3, 3, .active, some (.read 0x800 8)) := by
  decide +kernel

theorem test_reset_taken_before_first_boundary :
    ((after .grantPoint { running readyMove with pending := [.reset 3] }).bind fun t =>
        after (.reset 3) { t with pending := [] }).map (fun t => (t.te.grant, t.te.rotor, t.mp.tu, t.chan 3))
      = some (none, 3, none, { readyMove with reset := .settling }) := by
  decide +kernel

theorem test_elementRead_goes_on_to_destination :
    (after (.elementReadAnswer .okay 0x15678) (teWait (.reading .source 0x8000) (moving [move .copy 1]))).map
        (fun t => (t.te.step, t.tu.stage))
      = some (.translating (.writeDest 0x5678), .root) := by
  decide +kernel

theorem test_elementRead_range_loss :
    (chanAfter (.elementReadAnswer .okay 0x15678) (teWait (.reading .source 0x8000) (moving [narrowing]))).map
        (fun c => c.fault)
      = some (some .rangeLoss) := by
  decide +kernel

theorem test_deviceWrite_finishes :
    (chanAfter (.deviceWriteAnswer .okay) (teWait (.deviceWrite 5 0x8000) (moving [move .copy 1]))).map
        (fun c => (c.state, c.phase, c.performed, c.cursors[1], c.cursors[2]))
      = some (.finishing, .drain, 1, 2, 2) := by
  decide +kernel

theorem test_root_table :
    (after (.rootReadAnswer .okay tableRoot) (walkWait .root)).map (fun t => (t.tu.stage, t.mp.tu))
      = some (.descriptor, some (.read 0x20008 8)) := by
  decide +kernel

theorem test_descriptor :
    (after (.descriptorReadAnswer .okay descriptor) (walkWait .descriptor)).map (fun t => (t.tu.stage, t.mp.tu))
      = some (.pageEntry, some (.read 0x10008 8)) := by
  decide +kernel

theorem test_pageEntry_writes_used :
    (after (.pageEntryReadAnswer .okay 0x0000002000000001) (walkWait .pageEntry)).map (fun t => (t.tu.stage, t.mp.tu))
      = some (.flag, some (.write 0x10009 1 1)) := by
  decide +kernel

theorem test_flagWrite_fills :
    (after (.flagWriteAnswer .okay) (walkWait .flag)).map (fun t => (t.mp.te, t.tu.cache[0].way0.frame))
      = some (some (.read 0x20000 2), 0x20) := by
  decide +kernel

theorem test_lineWriteOut_error_marks :
    (after (.lineWriteOutAnswer .error) (lbAt (.drain 3) [entry7] (some 7) readyMove)).map
        (fun t => ((t.chan 3).fault, t.sb.writing.map ErrorEvent.code, t.lb.entries))
      = some (some .writeError, some .memWrite, []) := by
  decide +kernel

theorem test_channelDrain_then_done :
    (after .channelDrainComplete
        (lbAt (.drain 3) [] none (working .finishing .drain .finishDrain (task false [] [] [])))).map (fun t => t.mp.fu)
      = some (some (.write 0x4010 0xFFFF 2)) := by
  decide +kernel

theorem test_fullDrain_ends_purge :
    (chanAfter .fullDrainComplete (drainedFor .purgeDrain { readyPurge with state := .active, activity := .slice })).map
        (fun c => (c.state, c.phase))
      = some (.finishing, .drain) := by
  decide +kernel

theorem test_sliceCountExhausted :
    (after .sliceCountExhausted (engineAt .exhausted (moving [move .copy 40]))).map
        (fun t => (t.te.grant, t.te.counter, (t.chan 3).state))
      = some (none, 0, .ready) := by
  decide +kernel

theorem test_event_kept_while_place_taken :
    (({ State.reset.sb with queue := [event .fu], level := 0 } : StatusBlock).handOver (event .fu)).isNone = true
      ∧ ({ State.reset.sb with level := 0 } : StatusBlock).handOver (event .fu) = some { State.reset.sb with level := 0 } := by
  decide

theorem test_soft_drain_clears_at_once :
    (after .fullDrainComplete
        { softDraining with
          rp := { softDraining.rp with alerts := [9] }, te := { softDraining.te with rotor := 3 }
          sb := (recording [event .lb]).sb, mp := (recording []).mp }).map
        (fun t => (t.soft, t.rp.alerts, t.te.rotor, t.sb.queue))
      = some (.clearing, [], 15, [event .lb]) := by
  decide +kernel

theorem test_errorRecordWrite_next :
    (after (.errorRecordWriteAnswer .error) (recording [event .fu])).map
        (fun t => (t.sb.recordFailed, t.sb.counter, t.sb.writing.map ErrorEvent.unit))
      = some (true, 1, some .fu) := by
  decide +kernel

theorem test_softReset :
    (after (.softReset 2) (running readyMove)).map (fun t => ((t.chan 3).reset, t.rp.run, t.soft))
      = some (.settling, false, .channels) := by
  decide +kernel

theorem test_softResetDrain :
    (after .softResetDrain channelsOff).map (fun t => (t.soft, t.lb.current)) = some (.draining, some .softDrain) := by
  decide +kernel

theorem test_softResetClearing : (after .softResetClearing clearing).map (fun t => t.soft) = some .off := by
  decide +kernel

end Sys2Proof.Tests.Slice0
end

section
/-! SUPPORT. The images the part writes, field by field: what a field put into an image reads as, then each image. -/

namespace Sys2Proof.Records

open Sys2Proof Sys2Proof.Machine

/-! ## Fields of an image the part writes -/

/-- A field read where it was put. -/
theorem extract_put_same {w start m off : Nat} (x : BitVec w) (h : start = 8 * off) (hm : start + m ≤ 512) :
    (put off x).extractLsb' start m = x.setWidth m := by
  subst h
  refine BitVec.eq_of_getLsbD_eq fun i hi => ?_
  simp only [put, BitVec.getLsbD_extractLsb', BitVec.getLsbD_shiftLeft, BitVec.getLsbD_setWidth]
  simp [hi, show 8 * off + i < 512 by omega, show i < 512 by omega]

/-- A field put beside the bits read leaves them 0. -/
theorem extract_put_disjoint {w start m off : Nat} (x : BitVec w) (h : start + m ≤ 8 * off ∨ 8 * off + w ≤ start) :
    (put off x).extractLsb' start m = 0 := by
  refine BitVec.eq_of_getLsbD_eq fun i hi => ?_
  simp only [put, BitVec.getLsbD_extractLsb', BitVec.getLsbD_shiftLeft, BitVec.getLsbD_setWidth]
  rcases h with h | h
  · simp [show start + i < 8 * off by omega]
  · simp [BitVec.getLsbD_of_ge x (start + i - 8 * off) (by omega)]

theorem statusImage_fields (o : OutcomeCode) (fault index mismatch element moved : Nat) (va : VAddr) :
    byteAt (statusImage o fault index mismatch element moved va) 0 = BitVec.ofNat 8 o.code
      ∧ byteAt (statusImage o fault index mismatch element moved va) 1 = BitVec.ofNat 8 fault
      ∧ byteAt (statusImage o fault index mismatch element moved va) 2 = BitVec.ofNat 8 index
      ∧ byteAt (statusImage o fault index mismatch element moved va) 3 = BitVec.ofNat 8 mismatch
      ∧ wordAt (statusImage o fault index mismatch element moved va) 4 = BitVec.ofNat 32 element
      ∧ wordAt (statusImage o fault index mismatch element moved va) 8 = BitVec.ofNat 32 moved
      ∧ wordAt (statusImage o fault index mismatch element moved va) 12 = va := by
  simp (disch := omega) [statusImage, byteAt, wordAt, putByte, BitVec.extractLsb'_or, extract_put_same,
    extract_put_disjoint]

/-- The status block of the DONE write, field by field (R9). -/
theorem doneImage_fields (c : Channel) :
    byteAt c.doneImage 0 = 2 ∧ byteAt c.doneImage 1 = 0
      ∧ byteAt c.doneImage 2 = BitVec.ofNat 8 (c.mismatch.map Prod.fst |>.getD 0)
      ∧ byteAt c.doneImage 3 = (if c.mismatch.isSome then 1 else 0)
      ∧ wordAt c.doneImage 4 = BitVec.ofNat 32 (c.mismatch.map Prod.snd |>.getD 0)
      ∧ wordAt c.doneImage 8 = BitVec.ofNat 32 c.performed ∧ wordAt c.doneImage 12 = 0 := by
  obtain ⟨h0, h1, h2, h3, h4, h8, h12⟩ := statusImage_fields .done 0 (c.mismatch.getD (0, 0)).1 c.mismatchBit
    (c.mismatch.getD (0, 0)).2 c.performed 0
  refine ⟨h0, h1, h2.trans ?_, h3.trans ?_, h4.trans ?_, h8, h12⟩ <;> cases h : c.mismatch <;> simp [Channel.mismatchBit, h]

/-- The index of the next element within its move, 0 without a move (R93). -/
theorem elementIndex_eq (c : Channel) : c.elementIndex = (c.currentMove.map (fun m => m.total - c.remaining) |>.getD 0) := by
  unfold Channel.elementIndex
  cases c.currentMove <;> rfl

/-- The status block of a halt: its fields depend on the phase (R9, R42). -/
theorem haltImage_eq (c : Channel) :
    c.haltImage
      = statusImage (if c.phase = .notify then .notifyFault else .faulted) (faultByte c.fault)
          (if c.phase = .prewait ∨ c.phase = .notify then c.listIndex else if c.phase = .move then c.moveIndex else 0)
          c.mismatchBit (if c.phase = .move then c.elementIndex else 0) c.performed
          (if c.phase = .move then c.faultVA else 0) := by
  unfold Channel.haltImage
  cases c.phase <;> simp

theorem haltImage_fields (c : Channel) :
    byteAt c.haltImage 0 = (if c.phase = .notify then 5 else 3)
      ∧ byteAt c.haltImage 1 = BitVec.ofNat 8 (c.fault.map FaultCode.code |>.getD 0)
      ∧ byteAt c.haltImage 2
        = (if c.phase = .prewait ∨ c.phase = .notify then BitVec.ofNat 8 c.listIndex
            else if c.phase = .move then BitVec.ofNat 8 c.moveIndex else 0)
      ∧ byteAt c.haltImage 3 = (if c.mismatch.isSome then 1 else 0)
      ∧ wordAt c.haltImage 4
        = (if c.phase = .move then
            BitVec.ofNat 32 (c.currentMove.map (fun m => m.total - c.remaining) |>.getD 0) else 0)
      ∧ wordAt c.haltImage 8 = BitVec.ofNat 32 c.performed
      ∧ wordAt c.haltImage 12 = (if c.phase = .move then c.faultVA else 0) := by
  rw [haltImage_eq]
  obtain ⟨h0, h1, h2, h3, h4, h8, h12⟩ := statusImage_fields (if c.phase = .notify then .notifyFault else .faulted)
    (faultByte c.fault)
    (if c.phase = .prewait ∨ c.phase = .notify then c.listIndex else if c.phase = .move then c.moveIndex else 0)
    c.mismatchBit (if c.phase = .move then c.elementIndex else 0) c.performed (if c.phase = .move then c.faultVA else 0)
  refine ⟨h0.trans ?_, h1, h2.trans ?_, h3.trans ?_, h4.trans ?_, h8, h12⟩
  · split_ifs <;> rfl
  · split_ifs <;> rfl
  · cases h : c.mismatch <;> simp [Channel.mismatchBit, h]
  · rw [elementIndex_eq]; split_ifs <;> rfl

/-- LIST_INDEX of the save block by phase (R5). -/
theorem savedIndex_eq (c : Channel) :
    BitVec.ofNat 8 c.savedIndex
      = (if c.phase = .prewait ∨ c.phase = .notify then BitVec.ofNat 8 c.listIndex
          else if c.phase = .move then BitVec.ofNat 8 c.moveIndex
          else if c.phase = .fetch ∧ c.fault = some .format then BitVec.ofNat 8 c.listIndex else 0) := by
  unfold Channel.savedIndex
  cases c.phase
  case fetch => by_cases h : c.fault = some .format <;> simp [h]
  all_goals simp

/-- The save block, field by field (Table 1-3). -/
theorem saveImage_fields (c : Channel) (st : ChState) :
    byteAt (c.saveImage st) 0 = BitVec.ofNat 8 st.code ∧ byteAt (c.saveImage st) 1 = BitVec.ofNat 8 c.phase.code
      ∧ byteAt (c.saveImage st) 2 = BitVec.ofNat 8 (if st = .stopped then 0 else faultByte c.fault)
      ∧ byteAt (c.saveImage st) 3 = BitVec.ofNat 8 c.savedIndex
      ∧ wordAt (c.saveImage st) 4 = BitVec.ofNat 32 (if c.phase == .move then c.remaining else 0)
      ∧ longAt (c.saveImage st) 8 = (c.lastTask.getD 0).setWidth 64
      ∧ longAt (c.saveImage st) 16 = (c.current.getD 0).setWidth 64
      ∧ (∀ k : Fin 8, wordAt (c.saveImage st) (24 + 4 * k.val) = c.cursors[k])
      ∧ wordAt (c.saveImage st) 56 = (if c.phase == .move then c.srcEA else 0)
      ∧ wordAt (c.saveImage st) 60 = (if c.phase == .move then c.dstEA else 0) := by
  refine ⟨?_, ?_, ?_, ?_, ?_, ?_, ?_, fun k => ?_, ?_, ?_⟩
  case refine_8 =>
    fin_cases k <;>
      simp (disch := omega) [Channel.saveImage, wordAt, putByte, putAddr, BitVec.extractLsb'_or, extract_put_same,
        extract_put_disjoint]
  all_goals
    simp (disch := omega) [Channel.saveImage, byteAt, wordAt, longAt, putByte, putAddr, BitVec.extractLsb'_or,
      extract_put_same, extract_put_disjoint]

/-- The error record, field by field, 0 past its fields (Table 1-18). -/
theorem errorImage_fields (e : ErrorEvent) (events : Word) :
    byteAt (errorImage e events) 0 = BitVec.ofNat 8 e.code.code ∧ byteAt (errorImage e events) 1 = BitVec.ofNat 8 e.unit.code
      ∧ byteAt (errorImage e events) 2 = BitVec.ofNat 8 ((e.channel.map Fin.val).getD 255)
      ∧ byteAt (errorImage e events) 3 = BitVec.ofNat 8 (respCode e.resp)
      ∧ wordAt (errorImage e events) 4 = events ∧ longAt (errorImage e events) 8 = e.pa.setWidth 64
      ∧ ∀ i, 16 ≤ i → i < 64 → byteAt (errorImage e events) i = 0 := by
  refine ⟨?_, ?_, ?_, ?_, ?_, ?_, fun i h16 h64 => ?_⟩ <;>
    simp (disch := omega) [errorImage, byteAt, wordAt, longAt, putByte, BitVec.extractLsb'_or, extract_put_same,
      extract_put_disjoint]

/-- Settles O17: each image by its field lemma, the codes by their tables. -/
theorem imagesWrittenByTables : Obligations.ImagesWrittenByTables := by
  unfold Obligations.ImagesWrittenByTables
  refine ⟨doneImage_fields, haltImage_fields, fun c st hst => ?_, fun e events => ?_, rfl, rfl, rfl, rfl, rfl, rfl⟩
  · obtain ⟨h0, h1, h2, h3, h4, h8, h16, h24, h56, h60⟩ := saveImage_fields c st
    refine ⟨h0.trans ?_, ?_, h2.trans ?_, h3.trans (savedIndex_eq c), h4.trans ?_, h8, h16, h24, h56.trans ?_,
      h60.trans ?_⟩
    · rcases hst with rfl | rfl <;> rfl
    · rw [h1]; cases c.phase <;> rfl
    · split_ifs <;> rfl
    all_goals cases c.phase <;> rfl
  · obtain ⟨h0, h1, h2, h3, h4, h8, hrest⟩ := errorImage_fields e events
    refine ⟨?_, ?_, h2.trans ?_, h3.trans ?_, h4, h8, hrest⟩
    · rw [h0]; cases e.code <;> rfl
    · rw [h1]; cases e.unit <;> rfl
    · cases e.channel <;> rfl
    · cases e.resp <;> rfl

end Sys2Proof.Records
end

section
/-! SUPPORT. The records the part reads: when each is good, and what it then gives. -/

namespace Sys2Proof.Records

open Sys2Proof Sys2Proof.Machine

/-! ## Fields the part reads -/

/-- A field of a field is a field of the record. -/
theorem extract_extract {w : Nat} (d : BitVec w) {start len s l : Nat} (h : s + l ≤ len) :
    (d.extractLsb' start len).extractLsb' s l = d.extractLsb' (start + s) l := by
  refine BitVec.eq_of_getLsbD_eq fun i hi => ?_
  simp [hi, show s + i < len by omega, Nat.add_assoc]

/-- A bit of a field is a bit of the record. -/
theorem getLsbD_extract {w : Nat} (d : BitVec w) {start len i : Nat} (h : i < len) :
    (d.extractLsb' start len).getLsbD i = d.getLsbD (start + i) := by
  simp [h]

/-- An address on a line of the physical space: bits 5-0 and 63-40 are zero. -/
theorem lineAddress_iff (x : BitVec 64) :
    x.extractLsb' 0 6 = 0 ∧ x.extractLsb' 40 24 = 0 ↔ x.toNat % 64 = 0 ∧ x.toNat < 2 ^ 40 := by
  simp only [← BitVec.toNat_inj, BitVec.extractLsb'_toNat, Nat.shiftRight_eq_div_pow, BitVec.ofNat_eq_ofNat,
    BitVec.toNat_ofNat]
  omega

/-- A context is valid exactly when its fields are in range (Table 1-2, R3). -/
theorem contextValid_iff (d : BitVec 384) :
    contextValid d = true ↔
      (byteAt d 0).toNat ≤ 63 ∧ (byteAt d 1).toNat ≤ 3 ∧ (halfAt d 2).toNat ≤ 255
        ∧ (longAt d 8 = 0 ∨ ((longAt d 8).toNat % 64 = 0 ∧ (longAt d 8).toNat < 2 ^ 40)) := by
  simp only [contextValid, Bool.and_eq_true, Bool.or_eq_true, decide_eq_true_eq, beq_iff_eq, lineAddress_iff, and_assoc]

/-- FLAGS with bits 7-1 zero is 0 or 1 (Table 1-5). -/
theorem flags_iff (x : BitVec 8) : x.extractLsb' 1 7 = 0 ↔ x.toNat ≤ 1 := by
  simp only [← BitVec.toNat_inj, BitVec.extractLsb'_toNat, Nat.shiftRight_eq_div_pow, BitVec.ofNat_eq_ofNat,
    BitVec.toNat_ofNat]
  omega

theorem flag_eq {x : BitVec 8} (h : x.toNat ≤ 1) : x.getLsbD 0 = decide (x = 1) := by
  have : x = 0 ∨ x = 1 := by
    simp only [← BitVec.toNat_inj, BitVec.ofNat_eq_ofNat, BitVec.toNat_ofNat]
    omega
  rcases this with rfl | rfl <;> rfl

/-- The move count a header may give: 32 at most for a TRANSFER, none for a PURGE (R6). -/
theorem moveCount_iff {kind moves : BitVec 8} (h : kind = 1 ∨ kind = 2) :
    (if kind = 1 then decide (moves.toNat ≤ 32) else moves.toNat == 0) = true
      ↔ (kind = 1 → moves.toNat ≤ 32) ∧ (kind = 2 → moves = 0) := by
  rcases h with rfl | rfl
  · simp
  · simp [← BitVec.toNat_inj]

/-- A header is good exactly when its fields are in range, and gives its fields (Table 1-5, R6). -/
theorem headerOf_eq_some_iff (d : BitVec 256) (h : Header) :
    headerOf d = some h ↔
      (byteAt d 8 = 1 ∨ byteAt d 8 = 2) ∧ (byteAt d 9).toNat ≤ 1 ∧ (byteAt d 10).toNat ≤ 2 ∧ (byteAt d 11).toNat ≤ 4
        ∧ (byteAt d 12).toNat ≤ 8 ∧ (byteAt d 8 = 1 → (byteAt d 13).toNat ≤ 32) ∧ (byteAt d 8 = 2 → byteAt d 13 = 0)
        ∧ halfAt d 14 = 0
        ∧ h = ⟨longAt d 0, decide (byteAt d 8 = 2), decide (byteAt d 9 = 1), (byteAt d 10).toNat, (byteAt d 11).toNat,
            (byteAt d 12).toNat, (byteAt d 13).toNat⟩ := by
  simp only [headerOf, Option.ite_none_right_eq_some, Bool.and_eq_true, Bool.or_eq_true, beq_iff_eq, decide_eq_true_eq,
    flags_iff, and_assoc, Option.some.injEq]
  refine and_congr_right fun hk => and_congr_right fun hf => ?_
  rw [moveCount_iff hk, flag_eq hf, and_assoc, eq_comm (b := h)]
  rfl

/-- The lists of a body stand one after another, each on 8 bytes (R7). -/
theorem layout_of_counts {h : Header} (hw : h.waits ≤ 2) (hn : h.notifies ≤ 4) :
    h.notifyAt = (if h.waits = 0 then 0 else 8) ∧ h.preloadAt = h.notifyAt + (if h.notifies = 0 then 0 else 8)
      ∧ h.workAt = h.preloadAt + 8 * h.preloads ∧ h.bodyBytes = h.workAt + (if h.purge then 8 else 16 * h.moves) := by
  refine ⟨?_, ?_, rfl, rfl⟩
  · simp only [Header.notifyAt, semListBytes]; split_ifs <;> omega
  · simp only [Header.preloadAt, semListBytes]; split_ifs <;> omega

/-! ## Codes -/

theorem semEntry_eq_some_iff (x : BitVec 16) (k : SemId) : semEntry x = some k ↔ x.toNat = k.val := by
  unfold semEntry
  split_ifs with h
  · simp [Fin.ext_iff]
  · simp; omega

theorem cursorOf_eq_some_iff (x : BitVec 4) (k : CursorId) : cursorOf x = some k ↔ x.toNat = k.val := by
  unfold cursorOf
  split_ifs with h
  · simp [Fin.ext_iff]
  · simp; omega

theorem sizeOf_eq_some_iff (x : BitVec 4) (z : Size) : Machine.sizeOf x = some z ↔ x.toNat = z.code := by
  cases z <;> revert x <;> decide

theorem dirOf_eq_some_iff (x : BitVec 2) (k : Dir) : dirOf x = some k ↔ x.toNat = k.code := by
  cases k <;> revert x <;> decide

theorem formOf_eq_some_iff (x : BitVec 2) (f : Form) : formOf x = some f ↔ x.toNat = f.code := by
  cases f <;> revert x <;> decide

theorem opOf_eq_some_iff (x : BitVec 8) (o : MoveOp) : opOf x = some o ↔ x.toNat = o.code := by
  cases o <;> revert x <;> decide

theorem scopeOf_eq_some_iff (x : BitVec 8) (k : Scope) : scopeOf x = some k ↔ x.toNat = k.code := by
  cases k <;> revert x <;> decide

/-! ## Entries -/

/-- Bytes 1 to 3 of an entry are zero. -/
theorem bytes1to3_iff (x : BitVec 64) : x.extractLsb' 8 24 = 0 ↔ byteAt x 1 = 0 ∧ halfAt x 2 = 0 := by
  simp only [byteAt, halfAt, ← BitVec.toNat_inj, BitVec.extractLsb'_toNat, Nat.shiftRight_eq_div_pow, BitVec.ofNat_eq_ofNat,
    BitVec.toNat_ofNat]
  omega

/-- A preload entry names a cursor and gives its value, its bytes 1 to 3 zero (Table 1-10). -/
theorem preloadEntry_eq_some_iff (x : BitVec 64) (p : Preload) :
    preloadEntry x = some p ↔
      (byteAt x 0).toNat = p.cursor.val ∧ byteAt x 1 = 0 ∧ halfAt x 2 = 0 ∧ wordAt x 4 = p.value := by
  obtain ⟨cursor, value⟩ := p
  simp only [preloadEntry, bytes1to3_iff]
  split_ifs with hc hz
  · simp [Fin.ext_iff, hz]
  · simp; tauto
  · simp; omega

/-- One side of a move is good exactly when its codes name its fields and its reserved bits are zero (Table 1-11). -/
theorem sideOf_eq_some_iff (form : BitVec 8) (index : BitVec 4) (disp : BitVec 16) (size : BitVec 4) (dir : BitVec 2)
    (x : Side) :
    sideOf form index disp size dir = some x ↔
      formOf (form.extractLsb' 0 2) = some x.form ∧ cursorOf index = some x.index ∧ Machine.sizeOf size = some x.size
        ∧ dirOf dir = some x.dir ∧ form.getLsbD 3 = false ∧ form.getLsbD 7 = false ∧ form.getLsbD 2 = x.update
        ∧ (form.extractLsb' 4 3).toNat = x.base.val ∧ disp = x.disp := by
  obtain ⟨xForm, xUpdate, xBase, xIndex, xDisp, xSize, xDir⟩ := x
  unfold sideOf
  split
  next f i z k hf hi hz hk =>
    simp only [hf, hi, hz, hk, Option.ite_none_left_eq_some, Option.some.injEq, Side.mk.injEq, Bool.or_eq_true, not_or,
      Bool.not_eq_true, Fin.ext_iff]
    constructor
    · rintro ⟨⟨h3, h7⟩, rfl, rfl, hbase, hindex, rfl, rfl, rfl⟩
      exact ⟨rfl, hindex, rfl, rfl, h3, h7, rfl, hbase, rfl⟩
    · rintro ⟨rfl, hindex, rfl, rfl, h3, h7, rfl, hbase, rfl⟩
      exact ⟨⟨h3, h7⟩, rfl, rfl, hbase, hindex, rfl, rfl, rfl⟩
  next hno =>
    simp only [reduceCtorEq, false_iff]
    rintro ⟨hf, hi, hz, hk, -⟩
    exact hno _ _ _ _ hf hi hz hk

/-- R11's checks that join fields. -/
theorem refused_eq_false_iff (m : Move) :
    m.refused = false ↔
      m.dst.form ≠ .immediate ∧ (m.src.form = .immediate → m.op = .fill ∧ m.src.size ≠ .b8 ∧ m.src.update = false)
        ∧ (m.op = .verify → m.src.size = m.dst.size) := by
  simp only [Move.refused, Bool.or_eq_false_iff, Bool.and_eq_false_imp, beq_iff_eq, beq_eq_false_iff_ne,
    bne_eq_false_iff_eq, and_assoc]

/-- A move entry is good exactly when its operation and its two sides are, and its checks pass (R11). -/
theorem moveEntry_eq_some_iff (e : BitVec 128) (m : Move) :
    moveEntry e = some m ↔
      opOf (byteAt e 0) = some m.op
        ∧ sideOf (byteAt e 3) (e.extractLsb' 40 4) (halfAt e 8) (e.extractLsb' 8 4) ((byteAt e 2).extractLsb' 2 2) = some m.src
        ∧ sideOf (byteAt e 4) (e.extractLsb' 44 4) (halfAt e 10) (e.extractLsb' 12 4) ((byteAt e 2).extractLsb' 4 2)
          = some m.dst
        ∧ (byteAt e 2).getLsbD 0 = m.signed ∧ (byteAt e 2).getLsbD 1 = m.narrowChecked ∧ halfAt e 6 = m.count
        ∧ wordAt e 12 = m.imm ∧ (byteAt e 2).extractLsb' 6 2 = 0 ∧ m.refused = false := by
  obtain ⟨op, src, dst, sg, nc, ct, im⟩ := m
  unfold moveEntry
  dsimp only
  split
  next op' src' dst' ho hs hd =>
    simp only [ho, hs, hd, Option.ite_none_left_eq_some, Option.some.injEq, Move.mk.injEq]
    constructor
    · rintro ⟨hc, rfl, rfl, rfl, rfl, rfl, rfl, rfl⟩
      simpa using hc
    · rintro ⟨rfl, rfl, rfl, rfl, rfl, rfl, rfl, hm, hr⟩
      simpa using ⟨hm, hr⟩
  next hno =>
    simp only [reduceCtorEq, false_iff]
    rintro ⟨ho, hs, hd, -⟩
    exact hno _ _ _ ho hs hd

/-- A purge descriptor is good exactly when its scope is, its space fits unless the scope is ALL, and bytes 2 and 3 are zero
(Table 1-12, R12). -/
theorem purgeOf_eq_some_iff (x : BitVec 64) (d : PurgeDescriptor) :
    purgeOf x = some d ↔
      (byteAt x 0).toNat = d.scope.code ∧ (d.scope ≠ .all → (byteAt x 1).toNat ≤ 63) ∧ halfAt x 2 = 0
        ∧ d.space = x.extractLsb' 8 6 ∧ d.va = wordAt x 4 := by
  obtain ⟨scope, space, va⟩ := d
  rw [← scopeOf_eq_some_iff]
  unfold purgeOf
  cases scopeOf (byteAt x 0) with
  | none => simp
  | some k =>
    simp only [Option.ite_none_left_eq_some, Option.some.injEq, PurgeDescriptor.mk.injEq]
    constructor
    · rintro ⟨hc, rfl, rfl, rfl⟩
      simpa using hc
    · rintro ⟨rfl, hs, hz, rfl, rfl⟩
      simpa [hz] using hs

/-! ## Bodies -/

section Lists

variable {α : Type} {entry : Nat → Option α} {good : Nat → Prop}

/-- A list read from its start is read whole exactly when each entry passes its check. -/
theorem readList_eq_ok_iff (entry : Nat → Option α) (k : Nat) (l : List α) :
    readEntries entry k 0 = .ok l ↔ l.length = k ∧ ∀ i a, l[i]? = some a → entry i = some a := by
  simpa only [Nat.zero_add] using readEntries_ok_iff entry k 0 l

/-- A list read from its start is refused at its first bad entry. -/
theorem readList_eq_error_iff (hgood : ∀ j, good j ↔ entry j ≠ none) (k i : Nat) :
    readEntries entry k 0 = .error i ↔ firstBad good k i := by
  simp only [readEntries_error_iff, firstBad, hgood, Nat.zero_le, Nat.zero_add, true_and, forall_true_left, not_not]

/-- A list either has one first bad entry, at which it is refused, or is read whole with none bad. -/
theorem readList_cases (hgood : ∀ j, good j ↔ entry j ≠ none) (k : Nat) :
    (∃ e, readEntries entry k 0 = .error e ∧ (∀ i, firstBad good k i ↔ e = i) ∧ ¬∀ j < k, good j)
      ∨ ∃ l, readEntries entry k 0 = .ok l ∧ (∀ i, ¬firstBad good k i) ∧ ∀ j < k, good j := by
  have bad := readList_eq_error_iff hgood k
  cases h : readEntries entry k 0 with
  | error e =>
    simp only [h, Except.error.injEq] at bad
    obtain ⟨hlt, hbad, -⟩ := (bad e).mp rfl
    exact .inl ⟨e, rfl, fun i => (bad i).symm, fun all => hbad (all e hlt)⟩
  | ok l =>
    obtain ⟨hlen, hall⟩ := (readList_eq_ok_iff entry k l).mp h
    simp only [h, reduceCtorEq, false_iff] at bad
    refine .inr ⟨l, rfl, bad, fun j hj => (hgood j).mpr ?_⟩
    simp [hall j _ (List.getElem?_eq_getElem (hlen.symm ▸ hj))]

end Lists

/-- The work of a body is a list of moves exactly for a TRANSFER whose every move is good (R7). -/
theorem workOf_eq_transfer_iff (h : Header) (b : BitVec 4736) (l : List Move) :
    workOf h b = .ok (.transfer l) ↔
      h.purge = false ∧ l.length = h.moves
        ∧ ∀ i m, l[i]? = some m → moveEntry (b.extractLsb' (8 * (h.workAt + 16 * i)) 128) = some m := by
  rw [← readList_eq_ok_iff]
  unfold workOf
  cases hp : h.purge with
  | true => cases purgeOf (longAt b h.workAt) <;> simp
  | false =>
    cases readEntries (fun i => moveEntry (b.extractLsb' (8 * (h.workAt + 16 * i)) 128)) h.moves 0 <;> simp

/-- The work of a body is a purge descriptor exactly for a PURGE whose descriptor is good (R7). -/
theorem workOf_eq_purge_iff (h : Header) (b : BitVec 4736) (d : PurgeDescriptor) :
    workOf h b = .ok (.purge d) ↔ h.purge = true ∧ purgeOf (longAt b h.workAt) = some d := by
  unfold workOf
  cases hp : h.purge with
  | true => cases purgeOf (longAt b h.workAt) <;> simp
  | false =>
    cases readEntries (fun i => moveEntry (b.extractLsb' (8 * (h.workAt + 16 * i)) 128)) h.moves 0 <;> simp

/-- A body is refused at its first bad move, or with 255 at a bad purge descriptor (R26). -/
theorem workOf_eq_error_iff (h : Header) (b : BitVec 4736) (i : Nat) {M : Nat → Prop}
    (hM : ∀ j, M j ↔ moveEntry (b.extractLsb' (8 * (h.workAt + 16 * j)) 128) ≠ none) :
    workOf h b = .error i ↔
      (h.purge = false ∧ firstBad M h.moves i) ∨ (h.purge = true ∧ purgeOf (longAt b h.workAt) = none ∧ i = 255) := by
  unfold workOf
  cases hp : h.purge with
  | true =>
    simp only [if_true]
    cases purgeOf (longAt b h.workAt) <;> simp [eq_comm]
  | false =>
    rcases readList_cases hM h.moves with ⟨e, he, hfirst, -⟩ | ⟨l, hl, hnone, -⟩
    · simp [he, hfirst]
    · simp [hl, hnone]

/-- A record gives the task whose lists are its header's lists and whose work is its body's. -/
theorem taskOf_eq_ok_iff (h : Header) (b : BitVec 4736) (t : Task) :
    taskOf h b = .ok t ↔
      t.link = h.link ∧ t.pauseAfter = h.pauseAfter
        ∧ readEntries (fun i => semEntry (halfAt b (2 * i))) h.waits 0 = .ok t.waits
        ∧ readEntries (fun i => semEntry (halfAt b (h.notifyAt + 2 * i))) h.notifies 0 = .ok t.notifies
        ∧ readEntries (fun i => preloadEntry (longAt b (h.preloadAt + 8 * i))) h.preloads 0 = .ok t.preloads
        ∧ workOf h b = .ok t.work := by
  obtain ⟨link, pauseAfter, waits, notifies, preloads, work⟩ := t
  unfold taskOf
  cases readEntries (fun i => semEntry (halfAt b (2 * i))) h.waits 0 with
  | error e => simp
  | ok l1 =>
    cases readEntries (fun i => semEntry (halfAt b (h.notifyAt + 2 * i))) h.notifies 0 with
    | error e => simp
    | ok l2 =>
      cases readEntries (fun i => preloadEntry (longAt b (h.preloadAt + 8 * i))) h.preloads 0 with
      | error e => simp
      | ok l3 => cases workOf h b <;> simp [eq_comm]

/-- A record is refused at its first bad entry in body order (R26). -/
theorem taskOf_eq_error_iff (h : Header) (b : BitVec 4736) (i : Nat) {W N P M : Nat → Prop}
    (hW : ∀ j, W j ↔ semEntry (halfAt b (2 * j)) ≠ none) (hN : ∀ j, N j ↔ semEntry (halfAt b (h.notifyAt + 2 * j)) ≠ none)
    (hP : ∀ j, P j ↔ preloadEntry (longAt b (h.preloadAt + 8 * j)) ≠ none)
    (hM : ∀ j, M j ↔ moveEntry (b.extractLsb' (8 * (h.workAt + 16 * j)) 128) ≠ none) :
    taskOf h b = .error i ↔
      firstBad W h.waits i ∨ ((∀ j < h.waits, W j) ∧ (firstBad N h.notifies i ∨ ((∀ j < h.notifies, N j)
        ∧ (firstBad P h.preloads i ∨ ((∀ j < h.preloads, P j)
          ∧ ((h.purge = false ∧ firstBad M h.moves i)
            ∨ (h.purge = true ∧ purgeOf (longAt b h.workAt) = none ∧ i = 255))))))) := by
  rw [← workOf_eq_error_iff h b i hM]
  unfold taskOf
  rcases readList_cases hW h.waits with ⟨e, he, hfirst, hbad⟩ | ⟨l, hl, hnone, hall⟩
  · simp only [he, hfirst, hbad, Except.error.injEq, false_and, or_false]
  simp only [hl, hnone, eq_true hall, true_and, false_or]
  rcases readList_cases hN h.notifies with ⟨e, he, hfirst, hbad⟩ | ⟨l, hl, hnone, hall⟩
  · simp only [he, hfirst, hbad, Except.error.injEq, false_and, or_false]
  simp only [hl, hnone, eq_true hall, true_and, false_or]
  rcases readList_cases hP h.preloads with ⟨e, he, hfirst, hbad⟩ | ⟨l, hl, hnone, hall⟩
  · simp only [he, hfirst, hbad, Except.error.injEq, false_and, or_false]
  simp only [hl, hnone, eq_true hall, true_and, false_or]
  cases workOf h b <;> simp

/-- The fields of a move entry, each at its bits (Table 1-11). -/
theorem moveEntry_fields (e : BitVec 128) (m : Move) :
    moveEntry e = some m ↔
      ((byteAt e 0).toNat = m.op.code ∧ (e.extractLsb' 8 4).toNat = m.src.size.code
        ∧ (e.extractLsb' 12 4).toNat = m.dst.size.code ∧ e.getLsbD 16 = m.signed ∧ e.getLsbD 17 = m.narrowChecked
        ∧ (e.extractLsb' 18 2).toNat = m.src.dir.code ∧ (e.extractLsb' 20 2).toNat = m.dst.dir.code
        ∧ e.extractLsb' 22 2 = 0)
      ∧ ((e.extractLsb' 24 2).toNat = m.src.form.code ∧ e.getLsbD 26 = m.src.update ∧ e.getLsbD 27 = false
        ∧ (e.extractLsb' 28 3).toNat = m.src.base.val ∧ e.getLsbD 31 = false)
      ∧ ((e.extractLsb' 32 2).toNat = m.dst.form.code ∧ e.getLsbD 34 = m.dst.update ∧ e.getLsbD 35 = false
        ∧ (e.extractLsb' 36 3).toNat = m.dst.base.val ∧ e.getLsbD 39 = false)
      ∧ ((e.extractLsb' 40 4).toNat = m.src.index.val ∧ (e.extractLsb' 44 4).toNat = m.dst.index.val
        ∧ halfAt e 6 = m.count ∧ halfAt e 8 = m.src.disp ∧ halfAt e 10 = m.dst.disp ∧ wordAt e 12 = m.imm)
      ∧ m.dst.form ≠ .immediate
      ∧ (m.src.form = .immediate → m.op = .fill ∧ m.src.size ≠ .b8 ∧ m.src.update = false)
      ∧ (m.op = .verify → m.src.size = m.dst.size) := by
  have bit (k i : Nat) (hi : i < 8) : (byteAt e k).getLsbD i = e.getLsbD (8 * k + i) := getLsbD_extract e hi
  have bits (k s l : Nat) (hl : s + l ≤ 8) : (byteAt e k).extractLsb' s l = e.extractLsb' (8 * k + s) l :=
    extract_extract e hl
  simp (disch := omega) only [moveEntry_eq_some_iff, sideOf_eq_some_iff, opOf_eq_some_iff, formOf_eq_some_iff,
    cursorOf_eq_some_iff, sizeOf_eq_some_iff, dirOf_eq_some_iff, refused_eq_false_iff, bit, bits, Nat.reduceMul,
    Nat.reduceAdd]
  constructor
  · rintro ⟨op, ⟨srcForm, srcIndex, srcSize, srcDir, src3, src7, srcUpdate, srcBase, srcDisp⟩,
      ⟨dstForm, dstIndex, dstSize, dstDir, dst3, dst7, dstUpdate, dstBase, dstDisp⟩, signed, narrow, count, imm,
      zero, checks⟩
    exact ⟨⟨op, srcSize, dstSize, signed, narrow, srcDir, dstDir, zero⟩, ⟨srcForm, srcUpdate, src3, srcBase, src7⟩,
      ⟨dstForm, dstUpdate, dst3, dstBase, dst7⟩, ⟨srcIndex, dstIndex, count, srcDisp, dstDisp, imm⟩, checks⟩
  · rintro ⟨⟨op, srcSize, dstSize, signed, narrow, srcDir, dstDir, zero⟩, ⟨srcForm, srcUpdate, src3, srcBase, src7⟩,
      ⟨dstForm, dstUpdate, dst3, dstBase, dst7⟩, ⟨srcIndex, dstIndex, count, srcDisp, dstDisp, imm⟩, checks⟩
    exact ⟨op, ⟨srcForm, srcIndex, srcSize, srcDir, src3, src7, srcUpdate, srcBase, srcDisp⟩,
      ⟨dstForm, dstIndex, dstSize, dstDir, dst3, dst7, dstUpdate, dstBase, dstDisp⟩, signed, narrow, count, imm,
      zero, checks⟩

/-- Settles O16: each record by the lemma that says when it is good and what it gives. -/
theorem recordsReadByTables : Obligations.RecordsReadByTables := by
  unfold Obligations.RecordsReadByTables
  refine ⟨contextValid_iff, headerOf_eq_some_iff, fun h hw hn => layout_of_counts hw hn, semEntry_eq_some_iff,
    preloadEntry_eq_some_iff, moveEntry_fields, purgeOf_eq_some_iff, fun h b t => ?_,
    fun h b i W N P M hW hN hP hM => taskOf_eq_error_iff h b i hW hN hP hM⟩
  obtain ⟨link, pauseAfter, waits, notifies, preloads, work⟩ := t
  cases work with
  | transfer l => simp only [taskOf_eq_ok_iff, readList_eq_ok_iff, workOf_eq_transfer_iff]
  | purge d => simp only [taskOf_eq_ok_iff, readList_eq_ok_iff, workOf_eq_purge_iff]

end Sys2Proof.Records
end

section
/-! SUPPORT. The decision SU takes on a semaphore record: which COUNT it writes, or why it writes none. -/

namespace Sys2Proof.Records

open Sys2Proof Sys2Proof.Machine

/-! ## The decision on a semaphore record -/

/-- A record is live when LIVE is 1 and DISCIPLINE and ALERT are 0 or 1 (R15). -/
theorem semLive_iff (d : BitVec 48) :
    semLive d = true ↔ byteAt d 0 = 1 ∧ (byteAt d 1 = 0 ∨ byteAt d 1 = 1) ∧ (byteAt d 2 = 0 ∨ byteAt d 2 = 1) := by
  simp only [semLive, Bool.and_eq_true, Bool.or_eq_true, beq_iff_eq, and_assoc]

theorem lowers_iff (r : SuReq) : r.lowers = true ↔ ∃ n k, r = .wait n k := by
  cases r <;> simp [SuReq.lowers]

theorem limitFailure_eq_overflow_iff (r : SuReq) :
    r.limitFailure = .overflow ↔ (∃ n k, r = .notify n k) ∨ ∃ k, r = .signal k := by
  cases r <;> simp [SuReq.limitFailure]

theorem limitFailure_of_lowers {r : SuReq} (h : r.lowers = true) : r.limitFailure = .invalid := by
  cases r
  case wait => rfl
  all_goals cases h

theorem semCount_bounds (d : BitVec 48) : -32768 ≤ semCount d ∧ semCount d ≤ 32767 := by
  have hlo := (halfAt d 4).le_toInt
  have hhi := (halfAt d 4).toInt_lt
  simp only [semCount]
  omega

/-- COUNT lowered by one, where it does not wrap. -/
theorem toInt_lowered (d : BitVec 48) (h : -16 ≤ semCount d) : (halfAt d 4 - 1).toInt = semCount d - 1 := by
  have := semCount_bounds d
  simp only [semCount] at *
  rw [BitVec.toInt_sub, show (1 : BitVec 16).toInt = 1 from rfl]
  exact Int.bmod_eq_of_le (by omega) (by omega)

/-- COUNT raised by one, where it does not wrap. -/
theorem toInt_raised (d : BitVec 48) (h : semCount d ≠ 32767) : (halfAt d 4 + 1).toInt = semCount d + 1 := by
  have := semCount_bounds d
  simp only [semCount] at *
  rw [BitVec.toInt_add, show (1 : BitVec 16).toInt = 1 from rfl]
  exact Int.bmod_eq_of_le (by omega) (by omega)

/-- The COUNT a wait is to write: a live record's, above -16, lowered by one (R54). -/
theorem decide_eq_ok_of_lowers {r : SuReq} (hr : r.lowers = true) (d : BitVec 48) (count : BitVec 16) :
    r.decide d = .ok count ↔ semLive d = true ∧ -15 ≤ semCount d ∧ count = halfAt d 4 - 1 := by
  unfold SuReq.decide
  simp only [hr, if_true, Bool.and_eq_true, decide_eq_true_eq]
  split_ifs with h hlim
  · simp [hlim]
  · simp only [Except.ok.injEq, h.1, true_and, show -15 ≤ semCount d by omega, eq_comm]
  · simp only [false_iff]
    rintro ⟨hl, hc, -⟩
    exact h ⟨hl, by omega⟩

/-- The COUNT any other request is to write: a live record's, from -16 and below 32767, raised by one (R56, R61, R62). -/
theorem decide_eq_ok_of_raises {r : SuReq} (hr : r.lowers = false) (d : BitVec 48) (count : BitVec 16) :
    r.decide d = .ok count ↔
      semLive d = true ∧ (-16 ≤ semCount d ∧ semCount d ≤ 32766) ∧ count = halfAt d 4 + 1 := by
  have hb := semCount_bounds d
  unfold SuReq.decide
  simp only [hr, Bool.false_eq_true, if_false, Bool.and_eq_true, decide_eq_true_eq]
  split_ifs with h hlim
  · simp [hlim]
  · simp only [Except.ok.injEq, h, true_and, show semCount d ≤ 32766 by omega, eq_comm]
  · simp only [false_iff]
    rintro ⟨hl, ⟨hc, -⟩, -⟩
    exact h ⟨hl, hc⟩

/-- An operation not performed fails with SEM_OVERFLOW for a notify or SIGNAL at 32767, else with SEM_INVALID (R56, R61). -/
theorem overflow_iff_of_decide_eq_error {r : SuReq} {d : BitVec 48} {f : SuFailure} (h : r.decide d = .error f) :
    f = .overflow ↔ semLive d = true ∧ semCount d = 32767 ∧ ((∃ n k, r = .notify n k) ∨ ∃ k, r = .signal k) := by
  rw [← limitFailure_eq_overflow_iff]
  unfold SuReq.decide at h
  split_ifs at h with hlive hr hlim hlim
  · cases h
    simp [limitFailure_of_lowers hr]
  · cases h
    simp_all
  · cases h
    simp only [reduceCtorEq, false_iff]
    rintro ⟨hl, hc, -⟩
    simp [hl, hc] at hlive

theorem invalid_iff_of_decide_eq_error {r : SuReq} {d : BitVec 48} {f : SuFailure} (h : r.decide d = .error f) :
    f = .invalid ↔ f ≠ .overflow := by
  unfold SuReq.decide at h
  split_ifs at h
  all_goals
    cases h
    cases r <;> simp [SuReq.limitFailure]

/-- Settles O30: waits and other requests by their ranges, failures by the limit at which they arise. -/
theorem countStaysInRange : Obligations.CountStaysInRange := by
  unfold Obligations.CountStaysInRange
  intro r d live isWait hlive hwait
  rw [← semLive_iff] at hlive
  rw [← lowers_iff] at hwait
  have hb := semCount_bounds d
  refine ⟨rfl, by simp [semLifo], by simp [semAlert], fun count h => ?_, ?_, fun f h => ?_⟩
  · cases hr : r.lowers with
    | true =>
      obtain ⟨-, hlo, rfl⟩ := (decide_eq_ok_of_lowers hr d count).mp h
      rw [toInt_lowered d (by omega)]
      have hw : isWait := hwait.mpr hr
      exact ⟨by omega, by omega, fun _ => ⟨hlo, rfl, by omega⟩, fun hno => absurd hw hno⟩
    | false =>
      obtain ⟨-, ⟨hlo, hhi⟩, rfl⟩ := (decide_eq_ok_of_raises hr d count).mp h
      rw [toInt_raised d (by omega)]
      have hw : ¬isWait := fun hw => by simp [hwait.mp hw] at hr
      exact ⟨by omega, by omega, fun hyes => absurd hyes hw, fun _ => ⟨hhi, rfl, by omega⟩⟩
  · cases hr : r.lowers with
    | true => simp [decide_eq_ok_of_lowers hr, hlive, hwait, hr]
    | false => simp [decide_eq_ok_of_raises hr, hlive, hwait, hr]
  · rw [invalid_iff_of_decide_eq_error h, ne_eq, overflow_iff_of_decide_eq_error h, hlive]
    exact ⟨Iff.rfl, Iff.rfl⟩

end Sys2Proof.Records
end

section
/-! SUPPORT. MP's answers to FU's reads of contexts and task records and to the writes of the halt and stop procedures: what the
channel holds then, and what it has asked for. -/

namespace Sys2Proof.Records

open Sys2Proof Sys2Proof.Machine Sys2Proof.Laws

/-! ## What a reaction leaves in its channel and asks for -/

section Reactions

variable (n : ChanId) (s : State)

@[simp] theorem chan_beginHalt (code : FaultCode) (va : VAddr) :
    (beginHalt n code va s).chan n = (s.chan n).halting code va := by
  simp [beginHalt, Channel.halting]

theorem drain_mem_beginHalt (code : FaultCode) (va : VAddr) : LbReq.drain n ∈ (beginHalt n code va s).lbRequests := by
  simp [beginHalt, State.lbRequests, State.queueLb]

@[simp] theorem chan_askFu (k : FuKind) (q : MpReq) (a : Activity) :
    (s.askFu n k q a).chan n = { s.chan n with activity := a } := by
  simp [State.askFu]

theorem job_mem_askFu (k : FuKind) (q : MpReq) (a : Activity) : (⟨n, k, q⟩ : FuJob) ∈ (s.askFu n k q a).fuJobs := by
  simp [State.askFu, State.fuJobs, State.queueFu]

@[simp] theorem chan_formatFault (i : Nat) :
    (formatFault n i s).chan n = { (s.chan n).halting .format 0 with listIndex := i } := by
  simp [formatFault, Channel.halting]

theorem drain_mem_formatFault (i : Nat) : LbReq.drain n ∈ (formatFault n i s).lbRequests :=
  drain_mem_beginHalt n _ _ _

/-- At the posting point a channel changes its activity at most. -/
theorem chan_postingPoint : ∃ a, (postingPoint n s).chan n = { s.chan n with activity := a } := by
  unfold postingPoint stopHere beginStop
  dsimp only
  split_ifs
  · exact ⟨(s.chan n).activity, rfl⟩
  · exact ⟨.stopDrain, by simp⟩
  · exact ⟨.waiting, by simp⟩
  · exact ⟨(s.chan n).activity, rfl⟩

variable {n s}

/-- With RUN 1, nothing of the channel at SU and no stop pending, the posting wait is queued (R24). -/
theorem postingPoint_of_run (hstop : (s.chan n).stopPending = false) (hrun : s.rp.run = true) (hbusy : s.suBusy n = false) :
    postingPoint n s = (s.setActivity n .waiting).queueSu (.wait n (s.chan n).posting) := by
  simp [postingPoint, hstop, hrun, hbusy]

end Reactions

/-! ## What FU's answer leads to -/

section Answers

variable {n : ChanId} {s t : State} {req : MpReq}

@[simp] theorem chan_fuFreed (b : StatusBlock) (q : Option MpReq) (m : ChanId) : (fuFreed s b q).chan m = s.chan m := rfl

/-- An answer FU awaits reaches the channel of its request, in a state that differs in SB and FU alone; then nothing more
reaches that channel or answers its requests (R49). -/
theorem fuAnswer_reaches {k : FuKind} (h : s.fuAwaits ⟨n, k, req⟩) (resp : Resp) (d : BitVec 4736) :
    ∃ b q t, fuAnswer k resp d s = .next t ∧ ((fuFreed s b q).chan n).reset = .off
      ∧ Rests n (fuAnswered ⟨n, k, req⟩ ⟨req.answer resp, d⟩ (fuFreed s b q)) t := by
  obtain ⟨b, q, t, ht, -, -, rests⟩ := fuAnswer_next h resp d
  obtain ⟨-, -, -, -, -, alone, hreset⟩ := h
  exact ⟨b, q, t, ht, hreset, rests _ alone⟩

/-- A channel that has begun to halt stays so, with its drain at LB. -/
theorem halt_of_rests {code : FaultCode} {va : VAddr} (h : Rests n (beginHalt n code va s) t) :
    t.chan n = (s.chan n).halting code va ∧ LbReq.drain n ∈ t.lbRequests :=
  ⟨h.chan.trans (chan_beginHalt n s code va), h.drains n (drain_mem_beginHalt n s code va)⟩

/-- A channel that has met FORMAT stays so, with its drain at LB. -/
theorem format_of_rests {i : Nat} (h : Rests n (formatFault n i s) t) :
    t.chan n = { (s.chan n).halting .format 0 with listIndex := i } ∧ LbReq.drain n ∈ t.lbRequests :=
  ⟨h.chan.trans (chan_formatFault n s i), h.drains n (drain_mem_formatFault n s i)⟩

/-- A channel that has asked FU waits so, with its request at FU. -/
theorem ask_of_rests {k : FuKind} {q : MpReq} {a : Activity} (h : Rests n (s.askFu n k q a) t) :
    t.chan n = { s.chan n with activity := a } ∧ (⟨n, k, q⟩ : FuJob) ∈ t.fuJobs :=
  ⟨h.chan.trans (chan_askFu n s k q a), h.fuJobs _ (job_mem_askFu n s k q a)⟩

/-- A channel at its posting point differs in its activity at most; with RUN 1, nothing of it at SU and no stop pending, its
posting wait is at SU (R24). -/
theorem posting_of_rests (h : Rests n (postingPoint n s) t) :
    (∃ a, t.chan n = { s.chan n with activity := a })
      ∧ ((s.chan n).stopPending = false → s.rp.run = true → s.suBusy n = false →
        (t.chan n).activity = .waiting ∧ SuReq.wait n (t.chan n).posting ∈ t.suRequests) := by
  obtain ⟨a, ha⟩ := chan_postingPoint n s
  refine ⟨⟨a, h.chan.trans ha⟩, fun hstop hrun hbusy => ?_⟩
  rw [postingPoint_of_run hstop hrun hbusy] at h
  have hchan : t.chan n = { s.chan n with activity := .waiting } := h.chan.trans (by simp)
  rw [hchan]
  exact ⟨rfl, h.suRequests _ (by simp [State.suRequests, State.queueSu]) (by simp [State.suTarget])⟩

/-- A record whose every entry is good is copied, and its acceptance write is at FU (R27). -/
theorem accept_of_rests {a : PAddr} {task : Task} (h : Rests n (acceptRecord n a (.ok task) s) t) :
    t.chan n = { s.chan n with task := some task, activity := .accepting a }
      ∧ (⟨n, .acceptance, .write (a + 16) 0xFFFF 1⟩ : FuJob) ∈ t.fuJobs := by
  have himage : activeImage = 1 := by simp [activeImage, statusImage, putByte, put, OutcomeCode.code]
  obtain ⟨hchan, hjob⟩ := ask_of_rests (s := s.modChan n fun c => { c with task := some task }) h
  rw [statusWrite, himage] at hjob
  exact ⟨by simpa using hchan, hjob⟩

theorem fuAnswered_context {g : Got 4736} (h : (s.chan n).reset = .off) :
    fuAnswered ⟨n, .context, req⟩ g s = contextAnswered n g.resp (g.data.setWidth 384) s := by
  simp [fuAnswered, h]

theorem fuAnswered_header {g : Got 4736} {a : PAddr} (h : (s.chan n).reset = .off) (ha : (s.chan n).activity = .headerRead a) :
    fuAnswered ⟨n, .header, req⟩ g s = headerAnswered n a g.resp (g.data.setWidth 256) s := by
  simp [fuAnswered, h, ha]

theorem fuAnswered_body {g : Got 4736} {a : PAddr} {hd : BitVec 256} (h : (s.chan n).reset = .off)
    (ha : (s.chan n).activity = .bodyRead a hd) :
    fuAnswered ⟨n, .body, req⟩ g s = bodyAnswered n a hd g.resp g.data s := by
  simp [fuAnswered, h, ha]

theorem fuAnswered_haltStatus {g : Got 4736} (h : (s.chan n).reset = .off) :
    fuAnswered ⟨n, .haltStatus, req⟩ g s = haltStatusAnswered n s := by
  simp [fuAnswered, h]

theorem fuAnswered_save {g : Got 4736} (h : (s.chan n).reset = .off) :
    fuAnswered ⟨n, .save, req⟩ g s = saveAnswered n s := by
  simp [fuAnswered, h]

end Answers

/-! ## The context answer -/

/-- A valid context is latched field by field (Table 1-2, R3). -/
theorem latch_fields (c : Channel) {d : BitVec 384} (h : contextValid d = true) :
    (c.latch d).contextValid = true ∧ (c.latch d).space.toNat = (byteAt d 0).toNat
      ∧ (c.latch d).priority.val = (byteAt d 1).toNat ∧ (c.latch d).posting.val = (halfAt d 2).toNat
      ∧ (c.latch d).firstLink.toNat = (longAt d 8).toNat
      ∧ ∀ k : Fin 8, (c.latch d).cursors[k] = wordAt d (16 + 4 * k.val) := by
  obtain ⟨hspace, hpriority, hposting, hlink⟩ := (contextValid_iff d).mp h
  have hlink : (longAt d 8).toNat < 2 ^ 40 := by
    rcases hlink with h0 | ⟨-, hlt⟩
    · simp [h0]
    · exact hlt
  refine ⟨rfl, ?_, ?_, ?_, ?_, fun k => ?_⟩
  · simp only [byteAt, BitVec.extractLsb'_toNat, Channel.latch] at *
    omega
  · exact Nat.mod_eq_of_lt (by omega)
  · exact Nat.mod_eq_of_lt (by omega)
  · simp only [longAt, BitVec.extractLsb'_toNat, Channel.latch] at *
    omega
  · simp [Channel.latch]

/-- Settles O18: a valid context is latched and the posting point follows; an invalid one begins the halt. -/
theorem contextAnswerLatchesFields : Obligations.ContextAnswerLatchesFields := by
  unfold Obligations.ContextAnswerLatchesFields
  intro n req resp d s h hgood hbusy
  obtain ⟨b, q, t, ht, hreset, rests⟩ := fuAnswer_reaches h resp (d.setWidth 4736)
  rw [fuAnswered_context hreset, BitVec.setWidth_setWidth_of_le _ (by omega), BitVec.setWidth_eq] at rests
  refine ⟨t, ht, fun hvalid => ?_, fun hinvalid => ?_⟩
  · simp only [contextAnswered, hgood, hvalid, if_true] at rests
    obtain ⟨⟨a, hchan⟩, hwait⟩ := posting_of_rests rests
    rw [chan_modChan, chan_fuFreed] at hchan hwait
    obtain ⟨hctx, hspace, hpriority, hposting, hlink, hcursors⟩ := latch_fields (s.chan n) hvalid
    refine ⟨?_, ?_, ?_, ?_, ?_, ?_, fun hrun hstop => hwait hstop hrun hbusy⟩
    all_goals rw [hchan]; assumption
  · simp only [contextAnswered, hgood, hinvalid, if_true, Bool.false_eq_true, if_false] at rests
    exact halt_of_rests (s := fuFreed s b q) rests

/-! ## The header and body answers -/

/-- Settles O20: the checks of a header in their order, each ending in its halt or in the body read. -/
theorem headerAnswerChecked : Obligations.HeaderAnswerChecked := by
  unfold Obligations.HeaderAnswerChecked
  intro n a req resp d s h hgood ha
  obtain ⟨b, q, t, ht, hreset, rests⟩ := fuAnswer_reaches h resp (d.setWidth 4736)
  rw [fuAnswered_header hreset ha, BitVec.setWidth_setWidth_of_le _ (by omega), BitVec.setWidth_eq] at rests
  refine ⟨t, ht, fun hstale => ?_, fun hpending hbad => ?_, fun hd hpending hhd hbody => ?_⟩
  · simp only [headerAnswered, hgood, hstale, if_true, Bool.false_eq_true, if_false] at rests
    exact halt_of_rests (s := fuFreed s b q) rests
  · simp only [headerAnswered, hgood, hpending, hbad, if_true] at rests
    exact format_of_rests (s := fuFreed s b q) rests
  · simp only [headerAnswered, hgood, hpending, hhd, hbody, if_true, if_false] at rests
    exact ask_of_rests (s := fuFreed s b q) rests

/-- Settles O21: a task without a bad entry goes on to its acceptance write, a bad entry to FORMAT. -/
theorem bodyAnswerCopiesTask : Obligations.BodyAnswerCopiesTask := by
  unfold Obligations.BodyAnswerCopiesTask
  intro n a hd hdr req resp d s h hgood ha hhd
  obtain ⟨b, q, t, ht, hreset, rests⟩ := fuAnswer_reaches h resp d
  rw [fuAnswered_body hreset ha] at rests
  simp only [bodyAnswered, hgood, hhd, if_true] at rests
  refine ⟨t, ht, fun task htask => ?_, fun i herror => ?_⟩
  · rw [htask] at rests
    exact accept_of_rests (s := fuFreed s b q) rests
  · rw [herror] at rests
    exact format_of_rests (s := fuFreed s b q) rests

/-! ## The answers of the halt and stop procedures -/

/-- Settles O24: the status write's answer asks for the save block, the save write's ends the procedure. -/
theorem haltAndSaveAnswersEndProcedures : Obligations.HaltAndSaveAnswersEndProcedures := by
  unfold Obligations.HaltAndSaveAnswersEndProcedures
  intro n req resp s
  refine ⟨fun h => ?_, fun h ha => ?_, fun h ha => ?_⟩
  · obtain ⟨b, q, t, ht, hreset, rests⟩ := fuAnswer_reaches h (asResp resp) 0
    rw [fuAnswered_haltStatus hreset] at rests
    exact ⟨t, ht, ask_of_rests (s := fuFreed s b q) rests⟩
  · obtain ⟨b, q, t, ht, hreset, rests⟩ := fuAnswer_reaches h (asResp resp) 0
    rw [fuAnswered_save hreset] at rests
    exact ⟨t, ht, rests.chan.trans (by simp [saveAnswered, ha])⟩
  · obtain ⟨b, q, t, ht, hreset, rests⟩ := fuAnswer_reaches h (asResp resp) 0
    rw [fuAnswered_save hreset] at rests
    exact ⟨t, ht, rests.chan.trans (by simp [saveAnswered, ha])⟩

end Sys2Proof.Records
end

section
/-! SUPPORT. A good read of a semaphore record: SU issues its write, and every other unit but SB waits. -/

namespace Sys2Proof.Records

open Sys2Proof Sys2Proof.Machine Sys2Proof.Laws

/-! ## SU's read answered well -/

/-- Where no unit but SB has a step to make, what comes about within a command changes SB and its request at MP alone. -/
theorem settle_sbAlone {s : State} (kept : s.noneKept) (hfu : fuStep s = none) (hsu : suStep s = none)
    (hlb : lbStep s = none) (htu : tuStep s = none) (hte : teStep s = none) : ∃ b q, settle s = withSb s b q := by
  refine settle_induct (fun t => ∃ b q, t = withSb s b q) ?_ ⟨s.sb, s.mp.sb, rfl⟩
  rintro _ u ⟨b, q, rfl⟩ hu
  obtain ⟨k1, k2, k3, k4, k5⟩ := kept
  have fu : fuStep (withSb s b q) = none := fuStep_none (s := s) rfl hfu
  have su : suStep (withSb s b q) = none := suStep_none (s := s) rfl hsu
  have lb : lbStep (withSb s b q) = none := lbStep_none (s := s) rfl hlb
  have tu : tuStep (withSb s b q) = none := tuStep_none (s := s) rfl htu
  have te : teStep (withSb s b q) = none := teStep_none (s := s) rfl rfl rfl (fun _ => rfl) (fun _ => rfl) hte
  have hsb : sbStep (withSb s b q) = some u := by
    rcases micro_cases hu with h | h | h | h | h | h | h | h | h | h | h
    · simp [fuHandOver, withSb, k1] at h
    · simp [suHandOver, withSb, k2] at h
    · simp [teHandOver, withSb, k3] at h
    · simp [tuHandOver, withSb, k4] at h
    · simp [lbHandOver, withSb, k5] at h
    · exact h
    · simp [fu] at h
    · simp [su] at h
    · simp [lb] at h
    · simp [tu] at h
    · simp [te] at h
  obtain ⟨b', q', rfl, -, -⟩ := sbStep_frame hsb
  exact ⟨b', q', rfl⟩

/-- The row that answers a request's read is SU's read answer of its kind. -/
theorem exec_readAnswerOf (r : SuReq) (resp : Resp) (d : BitVec 48) (s : State) :
    exec (readAnswerOf r resp d) s = suReadAnswer r.kind resp d s := by
  cases r <;> rfl

/-- A good record that allows the operation has SU issue its write (R51). -/
theorem suAnswered_of_decide {o : SuOp} {resp : Resp} {d : BitVec 48} {count : BitVec 16} (hr : o.record = none)
    (hgood : goodData resp = true) (hd : o.req.decide d = .ok count) (s : State) :
    suAnswered o ⟨resp, d⟩ s = suWrite o d count s := by
  simp [suAnswered, hr, hgood, hd]

/-- With its write issued SU waits, and so does every unit that waited before. -/
theorem settle_suWrite {s : State} {o : SuOp} (h : s.suAwaits o) (d : BitVec 48) (count : BitVec 16) (b : StatusBlock)
    (q : Option MpReq) (g : Got 48) :
    ∃ b' q', settle (suWrite o d count (suHas s b q g)) = withSb (suWrite o d count (suHas s b q g)) b' q' := by
  obtain ⟨settled, ⟨k1, -, k3, k4, k5⟩, -⟩ := h
  obtain ⟨-, -, -, -, -, -, fu, -, lb, tu, te⟩ := (settled_iff s).mp settled
  exact settle_sbAlone ⟨k1, rfl, k3, k4, k5⟩ (fuStep_none (s := s) rfl fu) (by simp [suStep, suWrite, suHas])
    (lbStep_none (s := s) rfl lb) (tuStep_none (s := s) rfl tu)
    (teStep_none (s := s) rfl rfl rfl (fun _ => rfl) (fun _ => rfl) te)

/-- Settles O31: SU issues the write, and SB alone has then anything to do. -/
theorem semaphoreReadIssuesWrite : Obligations.SemaphoreReadIssuesWrite := by
  unfold Obligations.SemaphoreReadIssuesWrite
  intro o resp d count last s h hr hgood hd hlast
  obtain ⟨b, q, he, -⟩ := suReadAnswer_next h hr resp d fun _ => .inr ⟨count, hd⟩
  rw [suAnswered_of_decide hr hgood hd] at he
  obtain ⟨b', q', hs⟩ := settle_suWrite h d count b q ⟨resp, d⟩
  have hn : o.req.notifier d = last := by rw [hlast]; cases o.req <;> rfl
  refine ⟨_, (exec_readAnswerOf o.req resp d s).trans he, ?_⟩
  rw [hs, ← hn]
  exact ⟨rfl, rfl, rfl, rfl, fun _ => rfl⟩

end Sys2Proof.Records
end

section
/-! SUPPORT. What a command can do: one lemma for all of them says which state is left, or from which state the internal steps
go on. -/

namespace Sys2Proof.Flow

open Sys2Proof Sys2Proof.Machine Sys2Proof.Laws

/-- The state a hard reset leaves (R188). -/
def hardReset (s : State) : State :=
  { State.reset with resetAsserted := true, arrivals := s.arrivals, pending := s.pending }

/-- From `s` to `t` only registers, sticky bits and the reset pin have changed. -/
def PortOnly (s t : State) : Prop :=
  ∃ r b x, t = { s with rp := r, sb := b, resetAsserted := x } ∧ b.queue = s.sb.queue ∧ b.level = s.sb.level
    ∧ b.writing = s.sb.writing

/-- The window of log 32: the winner `n` of a grant point is granted, and its RESET or a soft reset comes next. -/
def WindowGrant (n : ChanId) (s t : State) : Prop :=
  s.te.grant = none ∧ (s.chan n).eligible = true ∧ s.resetComes n = true ∧ t = grantTo n s

/-- What a command does before the internal steps that belong to it. -/
inductive Effect (s : State) : State → Prop where
  | control (v : Word) : Effect s (setControl v (s.replied ⟨false, 0⟩))
  | softReset : Effect s (beginSoftReset (s.replied ⟨false, 0⟩))
  | softDrain : Effect s ({ s with soft := .draining }.queueLb .softDrain)
  | signal (r : RegPort) (k : SemId) : Effect s ({ s with rp := r }.queueSu (.signal k))
  | command (r : RegPort) (n : ChanId) (k : Command) (h : (s.chan n).reset = .off) :
      Effect s (takeChannelCommand n k { s with rp := r })
  | resetStep (n : ChanId) (h : (s.chan n).reset = .settling) (h' : s.requestsSettled n = true) : Effect s (resetGoesOn n s)
  | fuAnswer (j : FuJob) (g : Got 4736) (l : List ErrorEvent) (h : s.fu.current = some j) :
      Effect s { s with fu := { s.fu with got := some g, held := l }, mp := { s.mp with fu := none } }
  | suAnswer (o : SuOp) (g : Got 48) (l : List ErrorEvent) (h : s.su.current = some o) :
      Effect s { s with su := { s.su with got := some g, held := l }, mp := { s.mp with su := none } }
  | teAnswer (n : ChanId) (g : Got 64) (l : List ErrorEvent) (h : s.te.grant = some n)
      (h' : s.te.step.awaitsPort = true) : Effect s (s.teGot g l)
  | tuAnswer (q : TuReq) (g : Got 64) (l : List ErrorEvent) (h : s.tu.req = some q)
      (h' : s.tu.stage = .root ∨ s.tu.stage = .descriptor ∨ s.tu.stage = .pageEntry ∨ s.tu.stage = .flag) :
      Effect s (s.tuGot g l)
  | grant (n : ChanId) (h : s.te.grant = none) (h' : (s.chan n).eligible = true) : Effect s (grantTo n s)
  | count (n : ChanId) (h : s.te.grant = some n) (h' : s.te.step = .exhausted) : Effect s (endSlice n none s)
  | lineWritten (l : Line) (resp : WriteResp) : Effect s (writeOutAnswered l resp s)
  | drained (n : ChanId) (h : s.lb.current = some (.drain n)) : Effect s (drainAnswered n s.lbFree)
  | engineDrained (h : s.lb.current = some .engineDrain) : Effect s (engineDrained s.lbFree)
  | softDrained (h : s.lb.current = some .softDrain) : Effect s (softDrained s.lbFree)
  | recorded (b : StatusBlock) : Effect s { s with sb := b, mp := { s.mp with sb := none } }

/-- What a command leaves: its own state where no internal step belongs to it, else a settled one. -/
inductive Outcome (s : State) : State → Prop where
  | hardReset : Outcome s (hardReset s)
  | port {t : State} (h : PortOnly s t) : Outcome s t
  | clearing : Outcome s (clearPart s)
  | window {t : State} (n : ChanId) (h : WindowGrant n s t) : Outcome s t
  | settled {u : State} (h : Effect s u) : Outcome s (settle u)

/-! ## Register writes -/

theorem portOnly_replied (s : State) (r : Reply) : PortOnly s (s.replied r) := ⟨_, _, _, rfl, rfl, rfl, rfl⟩

theorem portOnly_refused (s : State) (r : Reply) (x : Reason) : PortOnly s ((s.replied r).refuse x) :=
  ⟨_, _, _, rfl, rfl, rfl, rfl⟩

/-- A register write replies, refuses, or acts (R176, R190). -/
theorem outcome_regWrite {s : State} {act : State → State} (h : Outcome s (act (s.replied ⟨false, 0⟩))) :
    Outcome s (s.regWrite act) := by
  unfold State.regWrite
  dsimp only
  split_ifs
  · exact .port (portOnly_replied s _)
  · exact .port (portOnly_refused s _ _)
  · exact h

theorem outcome_writeControl {s t : State} {v : Word} (h : writeControl v s = .next t) : Outcome s t := by
  cases h
  refine outcome_regWrite ?_
  split
  · exact .settled .softReset
  · exact .settled (.control v)

theorem outcome_writeAnchor {s t : State} {f : RegPort → RegPort} (h : writeAnchor f s = .next t) : Outcome s t := by
  cases h
  refine outcome_regWrite (.port ?_)
  split
  · exact ⟨_, _, _, rfl, rfl, rfl, rfl⟩
  · exact portOnly_refused s _ _

theorem outcome_signal {s t : State} {v : Word} (h : execSignal v s = .next t) : Outcome s t := by
  cases h
  refine outcome_regWrite ?_
  unfold acceptSignal
  dsimp only
  split_ifs
  · exact .port (portOnly_refused s _ _)
  · exact .port (portOnly_refused s _ _)
  · exact .settled (.signal _ _)

theorem outcome_acceptCommand (s : State) (n : ChanId) (k : Command) :
    Outcome s (acceptCommand n k (s.replied ⟨false, 0⟩)) := by
  unfold acceptCommand
  dsimp only
  split
  · exact .port (portOnly_refused s _ _)
  · split
    · exact .port ⟨_, _, _, rfl, rfl, rfl, rfl⟩
    · rename_i h
      exact .settled (.command _ n k (not_not.mp (mt bne_iff_ne.mpr h)))

theorem outcome_writeChannelCmd {s t : State} {n : ChanId} {code : BitVec 4} (h : writeChannelCmd n code s = .next t) :
    Outcome s t := by
  cases h
  refine outcome_regWrite ?_
  dsimp only
  split
  · exact .port ⟨_, _, _, rfl, rfl, rfl, rfl⟩
  · exact outcome_acceptCommand s n .start
  · exact outcome_acceptCommand s n .stop
  · exact outcome_acceptCommand s n .resume
  · exact outcome_acceptCommand s n .skip
  · exact outcome_acceptCommand s n .reset
  · exact .port (portOnly_refused s _ _)

theorem outcome_statusWrite {s t : State} {v : Word} (h : execStatusRegisterWrite v s = .next t) : Outcome s t := by
  cases h
  exact outcome_regWrite (.port ⟨_, _, _, rfl, rfl, rfl, rfl⟩)

theorem outcome_alertRead {s t : State} (h : execAlertRead s = .next t) : Outcome s t := by
  unfold execAlertRead at h
  split at h <;> cases h <;> exact .port ⟨_, _, _, rfl, rfl, rfl, rfl⟩

/-! ## Answers and events -/

theorem outcome_pendingCommandTake {s t : State} (h : execPendingCommandTake s = .next t) : Outcome s t := by
  unfold execPendingCommandTake at h
  split at h
  · split at h
    · cases h; exact .settled (.command _ _ _ ‹_›)
    · cases h
  · cases h

theorem outcome_fuAnswer {s t : State} {k : FuKind} {resp : Resp} {d : BitVec 4736}
    (h : Machine.fuAnswer k resp d s = .next t) : Outcome s t := by
  unfold Machine.fuAnswer at h
  split at h
  · split at h
    · cases h; exact .settled (.fuAnswer _ _ _ ‹_›)
    · cases h
  · cases h

theorem outcome_suReadAnswer {s t : State} {k : SuKind} {resp : Resp} {d : BitVec 48}
    (h : suReadAnswer k resp d s = .next t) : Outcome s t := by
  unfold suReadAnswer at h
  split at h
  · split at h
    · cases h; exact .settled (.suAnswer _ _ _ ‹_›)
    · cases h
  · cases h

theorem outcome_suWriteAnswer {s t : State} {k : SuKind} {resp : WriteResp}
    (h : suWriteAnswer k resp s = .next t) : Outcome s t := by
  unfold suWriteAnswer at h
  split at h
  · split at h
    · cases h; exact .settled (.suAnswer _ _ _ ‹_›)
    · cases h
  · cases h

/-- The winner of a grant point is eligible (R100). -/
theorem eligible_of_winner {s : State} {n : ChanId} (h : s.winner = some n) : (s.chan n).eligible = true :=
  (List.mem_filter.mp (List.mem_of_find?_eq_some h)).2

theorem outcome_grantPoint {s t : State} (h : execGrantPoint s = .next t) : Outcome s t := by
  unfold execGrantPoint at h
  split at h
  · rename_i hp
    have free : s.te.grant = none := by
      simp only [State.atGrantPoint, Bool.and_eq_true, Option.isNone_iff_eq_none] at hp
      exact hp.1.1
    split at h
    · rename_i n hw
      split at h
      · cases h; exact .window n ⟨free, eligible_of_winner hw, ‹_›, rfl⟩
      · cases h; exact .settled (.grant n free (eligible_of_winner hw))
    · cases h
  · cases h

theorem outcome_sliceCountExhausted {s t : State} (h : execSliceCountExhausted s = .next t) : Outcome s t := by
  unfold execSliceCountExhausted at h
  split at h
  · cases h; exact .settled (.count _ ‹_› ‹_›)
  · cases h

theorem outcome_elementReadAnswer {s t : State} {resp : Resp} {d : BitVec 64} (h : execElementReadAnswer resp d s = .next t) :
    Outcome s t := by
  unfold execElementReadAnswer at h
  split at h
  · rename_i hg hs _ _
    cases h; exact .settled (.teAnswer _ _ _ hg (by rw [hs]; rfl))
  · cases h

theorem outcome_deviceWriteAnswer {s t : State} {resp : WriteResp} (h : execDeviceWriteAnswer resp s = .next t) :
    Outcome s t := by
  unfold execDeviceWriteAnswer at h
  split at h
  · rename_i hg hs _ _
    cases h; exact .settled (.teAnswer _ _ _ hg (by rw [hs]; rfl))
  · cases h

theorem outcome_walkReadAnswer {s t : State} {x : TuStage} {resp : Resp} {d : BitVec 64}
    (hx : x = .root ∨ x = .descriptor ∨ x = .pageEntry ∨ x = .flag) (h : walkReadAnswer x resp d s = .next t) :
    Outcome s t := by
  unfold walkReadAnswer at h
  split at h
  · split at h
    · rename_i hs
      cases h; exact .settled (.tuAnswer _ _ _ ‹_› (hs ▸ hx))
    · cases h
  · cases h

theorem outcome_flagWriteAnswer {s t : State} {resp : WriteResp} (h : execFlagWriteAnswer resp s = .next t) :
    Outcome s t := by
  unfold execFlagWriteAnswer at h
  split at h
  · rename_i hs _ _
    cases h; exact .settled (.tuAnswer _ _ _ ‹_› (.inr (.inr (.inr hs))))
  · cases h

theorem outcome_lineWriteOutAnswer {s t : State} {resp : WriteResp} (h : execLineWriteOutAnswer resp s = .next t) :
    Outcome s t := by
  unfold execLineWriteOutAnswer at h
  split at h
  · cases h; exact .settled (.lineWritten _ _)
  · cases h

theorem outcome_channelDrainComplete {s t : State} (h : execChannelDrainComplete s = .next t) : Outcome s t := by
  unfold execChannelDrainComplete at h
  split at h
  · split at h
    · cases h; exact .settled (.drained _ ‹_›)
    · cases h
  · cases h

theorem outcome_fullDrainComplete {s t : State} (h : execFullDrainComplete s = .next t) : Outcome s t := by
  unfold execFullDrainComplete at h
  split at h
  · split at h
    · cases h; exact .settled (.engineDrained ‹_›)
    · cases h
  · split at h
    · cases h; exact .settled (.softDrained ‹_›)
    · cases h
  · cases h

theorem outcome_errorRecordWriteAnswer {s t : State} {resp : WriteResp} (h : execErrorRecordWriteAnswer resp s = .next t) :
    Outcome s t := by
  unfold execErrorRecordWriteAnswer at h
  split at h
  · cases h; exact .settled (.recorded _)
  · cases h

theorem outcome_resetRequestsSettled {s t : State} {n : ChanId} (h : execResetRequestsSettled n s = .next t) :
    Outcome s t := by
  unfold execResetRequestsSettled at h
  split at h
  · rename_i hc
    simp only [Bool.and_eq_true, decide_eq_true_eq] at hc
    cases h; exact .settled (.resetStep n hc.1 hc.2)
  · cases h

theorem outcome_softResetDrain {s t : State} (h : execSoftResetDrain s = .next t) : Outcome s t := by
  unfold execSoftResetDrain at h
  split at h
  · cases h; exact .settled .softDrain
  · cases h

theorem outcome_softResetClearing {s t : State} (h : execSoftResetClearing s = .next t) : Outcome s t := by
  unfold execSoftResetClearing at h
  split at h
  · cases h; exact .clearing
  · cases h

/-! ## Every command -/

/-- What a command leaves, whichever it is. -/
theorem exec_outcome {c : Instr} {s t : State} (h : exec c s = .next t) : Outcome s t := by
  cases c with
  | hardReset => cases h; exact .hardReset
  | resetRelease => cases h; exact .port ⟨_, _, _, rfl, rfl, rfl, rfl⟩
  | controlWrite v => exact outcome_writeControl h
  | softReset v => exact outcome_writeControl h
  | anchorLoWrite v => exact outcome_writeAnchor (f := fun p => { p with anchorLo := v.extractLsb' 13 19 }) h
  | anchorHiWrite v => exact outcome_writeAnchor (f := fun p => { p with anchorHi := v.extractLsb' 0 8 }) h
  | signal v => exact outcome_signal h
  | select n => exact outcome_writeChannelCmd (code := 0) h
  | start n => exact outcome_writeChannelCmd (code := 1) h
  | stop n => exact outcome_writeChannelCmd (code := 2) h
  | resume n => exact outcome_writeChannelCmd (code := 3) h
  | skip n => exact outcome_writeChannelCmd (code := 4) h
  | reset n => exact outcome_writeChannelCmd (code := 5) h
  | invalidCommand n code => exact outcome_writeChannelCmd h
  | pendingCommandTake => exact outcome_pendingCommandTake h
  | statusRegisterWrite v => exact outcome_statusWrite h
  | alertRead => exact outcome_alertRead h
  | ignoredRegisterWrite off v => cases h; exact .port (portOnly_replied s _)
  | narrowAccess off w => cases h; exact .port (portOnly_replied s _)
  | contextReadAnswer r d => exact outcome_fuAnswer h
  | linkReadAnswer r d => exact outcome_fuAnswer h
  | headerReadAnswer r d => exact outcome_fuAnswer h
  | bodyReadAnswer r d => exact outcome_fuAnswer h
  | acceptanceWriteAnswer r => exact outcome_fuAnswer h
  | doneWriteAnswer r => exact outcome_fuAnswer h
  | doneRewriteAnswer r => exact outcome_fuAnswer h
  | haltStatusWriteAnswer r => exact outcome_fuAnswer h
  | skippedWriteAnswer r => exact outcome_fuAnswer h
  | saveWriteAnswer r => exact outcome_fuAnswer h
  | waitReadAnswer r d => exact outcome_suReadAnswer h
  | waitWriteAnswer r => exact outcome_suWriteAnswer h
  | notifyReadAnswer r d => exact outcome_suReadAnswer h
  | notifyWriteAnswer r => exact outcome_suWriteAnswer h
  | undoStopReadAnswer r d => exact outcome_suReadAnswer h
  | undoStopWriteAnswer r => exact outcome_suWriteAnswer h
  | undoResetReadAnswer r d => exact outcome_suReadAnswer h
  | undoResetWriteAnswer r => exact outcome_suWriteAnswer h
  | signalReadAnswer r d => exact outcome_suReadAnswer h
  | signalWriteAnswer r => exact outcome_suWriteAnswer h
  | grantPoint => exact outcome_grantPoint h
  | elementReadAnswer r d => exact outcome_elementReadAnswer h
  | deviceWriteAnswer r => exact outcome_deviceWriteAnswer h
  | rootReadAnswer r d => exact outcome_walkReadAnswer (.inl rfl) h
  | descriptorReadAnswer r d => exact outcome_walkReadAnswer (.inr (.inl rfl)) h
  | pageEntryReadAnswer r d => exact outcome_walkReadAnswer (.inr (.inr (.inl rfl))) h
  | flagWriteAnswer r => exact outcome_flagWriteAnswer h
  | lineWriteOutAnswer r => exact outcome_lineWriteOutAnswer h
  | channelDrainComplete => exact outcome_channelDrainComplete h
  | fullDrainComplete => exact outcome_fullDrainComplete h
  | sliceCountExhausted => exact outcome_sliceCountExhausted h
  | errorRecordWriteAnswer r => exact outcome_errorRecordWriteAnswer h
  | resetRequestsSettled n => exact outcome_resetRequestsSettled h
  | softResetDrain => exact outcome_softResetDrain h
  | softResetClearing => exact outcome_softResetClearing h

/-- A step idles, or leaves what the front command leaves on the queue's rest. -/
theorem step_outcome {s t : State} (h : step s = .next t) : t = s ∨ ∃ l, Outcome { s with pending := l } t := by
  unfold step at h
  split at h
  · cases h; exact .inl rfl
  · exact .inr ⟨_, exec_outcome h⟩

end Sys2Proof.Flow
end

section
/-! SUPPORT. An answer is in hand only where its request was in progress, and a step leaves the part settled but in the window
of log 32. -/

namespace Sys2Proof.Flow

open Sys2Proof Sys2Proof.Machine Sys2Proof.Laws

/-! ## The answers in hand, unit by unit -/

/-- TE has an answer in hand only at a step that awaits MP, and stands at a step only with the grant (R98). -/
def EngineOk (e : Engine) : Prop :=
  (e.got.isSome = true → e.step.awaitsPort = true) ∧ (e.grant = none → e.step = .idle)

/-- TU has an answer in hand only at a step of a walk whose request is at MP (R113). -/
def WalkOk (u : TransUnit) : Prop :=
  u.got.isSome = true → u.req.isSome = true ∧ u.stage ≠ .idle ∧ u.stage ≠ .begin ∧ ∀ a, u.stage ≠ .reply a

theorem answersOk_iff (s : State) :
    s.answersOk ↔ (s.fu.got.isSome = true → s.fu.current.isSome = true)
      ∧ (s.su.got.isSome = true → s.su.current.isSome = true) ∧ EngineOk s.te ∧ WalkOk s.tu := by
  simp only [State.answersOk, EngineOk, WalkOk, and_assoc]

/-- Units that agree in what they serve and have in hand. -/
theorem answersOk_congr {s t : State} (h : s.answersOk) (hf : t.fu.got = s.fu.got) (hf' : t.fu.current = s.fu.current)
    (hs : t.su.got = s.su.got) (hs' : t.su.current = s.su.current) (te : EngineOk t.te) (tu : WalkOk t.tu) : t.answersOk := by
  obtain ⟨fu, su, -, -⟩ := (answersOk_iff s).mp h
  exact (answersOk_iff t).mpr ⟨by rwa [hf, hf'], by rwa [hs, hs'], te, tu⟩

theorem engineOk_of_free {e : Engine} (h : e.got = none) (hs : e.step = .idle) : EngineOk e :=
  ⟨by simp [h], fun _ => hs⟩

theorem walkOk_of_free {u : TransUnit} (h : u.got = none) : WalkOk u := by simp [WalkOk, h]

/-- The reaction of a channel takes no answer and gives none. -/
theorem answersOk_ofActs {n : ChanId} {s t : State} (a : Acts n s t) (h : s.answersOk) : t.answersOk := by
  obtain ⟨l, hf, -⟩ := a.fu
  obtain ⟨k, hs, -⟩ := a.su
  obtain ⟨-, -, te, tu⟩ := (answersOk_iff s).mp h
  exact answersOk_congr h (by rw [hf]) (by rw [hf]) (by rw [hs]) (by rw [hs]) (a.te ▸ te) (a.tu ▸ tu)

theorem answersOk_ofActsAll {l : List ChanId} {s t : State} (a : ActsAll l s t) (h : s.answersOk) : t.answersOk := by
  obtain ⟨q, hf, -⟩ := a.fu
  obtain ⟨k, hs, -⟩ := a.su
  obtain ⟨-, -, te, tu⟩ := (answersOk_iff s).mp h
  exact answersOk_congr h (by rw [hf]) (by rw [hf]) (by rw [hs]) (by rw [hs]) (a.te ▸ te) (a.tu ▸ tu)

theorem answersOk_inArrivalOrder {act : ChanId → State → State} (acts : ∀ n s, Acts n s (act n s)) (l : List ChanId)
    {s : State} (h : s.answersOk) : (s.inArrivalOrder l act).answersOk := by
  have foldl := answersOk_ofActsAll (acts_all act acts (arrange l.length s.arrivals l) s) h
  exact foldl

/-! ## TE's steps -/

/-- The state with an element of channel `n` counted as performed (R93, R103). -/
def counted (n : ChanId) (m : Move) (x : Bool) (s : State) : State :=
  { s.setChan n ((s.chan n).performedElement m x) with te := { s.te with counter := s.te.counter + 1 } }

/-- After an element the slice ends, or TE stands at its next boundary or at the end of its count (R95, R103). -/
theorem elementDone_cases (n : ChanId) (m : Move) (x : Bool) (s : State) :
    elementDone n m x s
        = endSlice n none ((counted n m x s).setChan n ((((s.chan n).performedElement m x).updateCursors m).nextMove))
      ∨ ∃ y, elementDone n m x s = (counted n m x s).setTeStep y ∧ (y = .exhausted ∨ y = .boundary) := by
  unfold elementDone
  dsimp only
  split_ifs
  · exact .inl rfl
  · exact .inr ⟨_, rfl, .inl rfl⟩
  · exact .inr ⟨_, rfl, .inr rfl⟩

/-- TE works for channel `n`, with no answer in hand. -/
structure Works (n : ChanId) (s : State) : Prop where
  grant : s.te.grant = some n
  got : s.te.got = none
  walk : WalkOk s.tu

/-- What TE and TU have in hand fits the steps they stand at. -/
def Poised (s : State) : Prop := EngineOk s.te ∧ WalkOk s.tu

section Engine

variable {n : ChanId} {s : State}

theorem Works.poised (h : Works n s) : Poised s :=
  ⟨⟨by simp [h.got], by simp [h.grant]⟩, h.walk⟩

theorem poised_endSlice (got : s.te.got = none) (walk : WalkOk s.tu) (f : Option (FaultCode × VAddr)) :
    Poised (endSlice n f s) := by
  have a := acts_sliceEnded n
    { s with te := { s.te with grant := none, counter := 0, kind := none, purgeStep := none, step := .idle } } f
  unfold endSlice
  refine ⟨?_, ?_⟩
  · rw [a.te]; exact engineOk_of_free got rfl
  · rw [a.tu]; exact walk

theorem Works.endSlice (h : Works n s) (f : Option (FaultCode × VAddr)) : Poised (endSlice n f s) :=
  poised_endSlice h.got h.walk f

theorem Works.askTranslation (h : Works n s) (va : VAddr) (w : Bool) (a : Access) :
    Works n (askTranslation n va w a s) := ⟨h.grant, h.got, walkOk_of_free rfl⟩

theorem Works.startElement (h : Works n s) (m : Move) : Poised (startElement n m s) := by
  unfold Machine.startElement; dsimp only; split_ifs
  · exact h.endSlice _
  · exact h.endSlice _
  · split <;> exact (h.askTranslation _ _ _).poised

theorem Works.moveBegun (h : Works n s) (m : Move) (f : Option (BitVec 64)) : Poised (moveBegun n m f s) :=
  Works.startElement (s := s.modChan n _) ⟨h.grant, h.got, h.walk⟩ m

theorem Works.takeFill (h : Works n s) (m : Move) (v : BitVec 64) : Poised (takeFill n m v s) := by
  unfold Machine.takeFill; split
  · exact h.endSlice _
  · exact h.moveBegun m _

theorem Works.beginMove (h : Works n s) (m : Move) : Poised (beginMove n m s) := by
  unfold Machine.beginMove; split
  · exact h.endSlice _
  · split
    · exact h.moveBegun m _
    · exact h.moveBegun m _
    · split
      · exact h.takeFill m _
      · dsimp only; split
        · exact (h.askTranslation _ _ _).poised
        · exact h.endSlice _

theorem Works.elementBoundary (h : Works n s) : Poised (elementBoundary n s) := by
  unfold Machine.elementBoundary; dsimp only; split
  · exact h.endSlice _
  · split
    · exact h.endSlice _
    · split
      · exact h.beginMove _
      · exact h.startElement _

theorem Works.elementDone (h : Works n s) (m : Move) (x : Bool) : Poised (elementDone n m x s) := by
  have w : Works n (counted n m x s) := ⟨h.grant, h.got, h.walk⟩
  rcases elementDone_cases n m x s with hc | ⟨y, hy, -⟩
  · rw [hc]; exact Works.endSlice (s := (counted n m x s).setChan n _) ⟨w.grant, w.got, w.walk⟩ none
  · rw [hy]; exact Works.poised (n := n) (s := (counted n m x s).setTeStep y) ⟨w.grant, w.got, w.walk⟩

theorem Works.translationAnswered (h : Works n s) (free : s.tu.got = none) (m : Move) (a : Access) (x : TuAnswer) :
    Poised (translationAnswered n m a x s) := by
  have w : Works n
      { s with tu := { s.tu with req := none, stage := .idle, root := none, descriptor := none, pageEntry := none } } :=
    ⟨h.grant, h.got, walkOk_of_free free⟩
  have asks : ∀ y r, Poised ((State.setTeStep
      { s with tu := { s.tu with req := none, stage := .idle, root := none, descriptor := none, pageEntry := none } }
      y).queueLb r) :=
    fun y r => Works.poised (n := n) ⟨w.grant, w.got, w.walk⟩
  unfold Machine.translationAnswered; dsimp only; split
  · exact w.endSlice _
  · split
    · split <;> exact asks _ _
    all_goals exact asks _ _

theorem Works.valueRead (h : Works n s) (m : Move) (a : Access) (v : BitVec 64) : Poised (valueRead n m a v s) := by
  unfold Machine.valueRead; dsimp only; split
  · exact h.takeFill m v
  · split
    · exact (h.askTranslation _ _ _).poised
    all_goals
      split
      · exact h.endSlice _
      · exact (h.askTranslation _ _ _).poised
  · exact h.elementDone m _
  · exact h.poised

theorem poised_teAnswered (grant : s.te.grant = some n) (walk : WalkOk s.tu) (m : Move) (g : Got 64) :
    Poised (teAnswered n m g s) := by
  have w : Works n { s with te := { s.te with got := none } } := ⟨grant, rfl, walk⟩
  unfold teAnswered; dsimp only; split
  · split
    · exact w.valueRead m _ _
    · exact w.endSlice _
  · split
    · exact w.elementDone m _
    · exact w.endSlice _
  · exact w.poised

end Engine

/-- TE's step leaves TE and TU with what fits the steps they stand at. -/
theorem teStep_poised {s t : State} (te : EngineOk s.te) (tu : WalkOk s.tu) (h : teStep s = some t) : Poised t := by
  have none_of : s.te.step.awaitsPort = false → s.te.got = none := by
    intro e
    have := te.1
    rw [e] at this
    simpa using this
  unfold teStep at h
  split at h
  · rename_i n hg _
    have works : ∀ x, s.te.step = x → x.awaitsPort = false → Works n s := fun x e hx => ⟨hg, none_of (e ▸ hx), tu⟩
    split at h
    · rename_i hs
      cases h; exact (works _ hs rfl).elementBoundary
    · rename_i hs
      split at h
      · cases h; exact (works _ hs rfl).endSlice _
      · cases h
    · rename_i hs _
      split at h
      · rename_i hr _
        cases h
        refine (works _ hs rfl).translationAnswered ?_ _ _ _
        by_contra hne
        exact (tu (Option.isSome_iff_ne_none.mpr hne)).2.2.2 _ hr
      · cases h
    · rename_i hs _
      split at h
      · cases h
      · cases h
        exact ⟨⟨fun _ => rfl, fun e => by cases hg.symm.trans e⟩, tu⟩
    · rename_i hs _
      split at h
      · cases h
      · cases h; exact (works _ hs rfl).elementDone _ _
    · cases h; exact poised_teAnswered hg tu _ _
    · cases h; exact poised_teAnswered hg tu _ _
    · cases h
  · cases h

/-! ## The other units' steps -/

/-- TU acts on its answer and has none in hand then. -/
theorem tuAnswered_got (q : TuReq) (g : Got 64) (s : State) : (tuAnswered q g s).tu.got = none := by
  have walk : ∀ x (s : State), s.tu.got = none → (walkNext q x s).tu.got = none := by
    intro x s h
    cases x <;> exact h
  unfold tuAnswered
  dsimp only
  split
  · exact walk _ _ rfl
  · exact walk _ _ rfl
  · exact walk _ _ rfl
  · exact walk _ _ rfl
  all_goals rfl

theorem tuStep_walkOk {s t : State} (h : tuStep s = some t) : WalkOk t.tu := by
  unfold tuStep at h
  split at h
  · split at h
    · cases h; exact walkOk_of_free (tuAnswered_got _ _ _)
    · split at h
      · cases h; exact walkOk_of_free ‹_›
      · cases h
  · cases h

theorem answersOk_fuStep {s t : State} (h : s.answersOk) (m : fuStep s = some t) : t.answersOk := by
  obtain ⟨-, su, te, tu⟩ := (answersOk_iff s).mp h
  rcases fuStep_some m with ⟨j, g, -, -, -, rfl⟩ | ⟨j, q, -, -, -, rfl⟩
  · refine answersOk_ofActs (acts_fuAnswered _ j g) ((answersOk_iff _).mpr ⟨by simp, su, te, tu⟩)
  · exact (answersOk_iff _).mpr ⟨fun _ => rfl, su, te, tu⟩

/-! ## SU's steps -/

theorem answersOk_suFree {s : State} (h : s.answersOk) : s.suFree.answersOk := by
  obtain ⟨fu, -, te, tu⟩ := (answersOk_iff s).mp h
  exact (answersOk_iff _).mpr ⟨fu, by simp, te, tu⟩

theorem answersOk_notifyEffects (d : BitVec 48) (k : SemId) (c : BitVec 16) {s : State} (h : s.answersOk) :
    (notifyEffects d k c s).answersOk := by
  have wake : (wakeOne (semLifo d) k c s).answersOk := by
    unfold wakeOne
    split
    · split
      · exact h
      · exact answersOk_ofActs (acts_waitSucceeded _ _) h
    · exact h
  unfold notifyEffects offerAlert
  dsimp only
  split_ifs <;> exact wake

theorem answersOk_suFailed (r : SuReq) (f : SuFailure) {s : State} (h : s.answersOk) : (suFailed r f s).answersOk := by
  cases r with
  | wait n k => exact answersOk_ofActs (acts_requestFailed _ _ _) h
  | notify n k => exact answersOk_ofActs (acts_requestFailed _ _ _) h
  | undoStop n => exact answersOk_ofActs (acts_stopUndoFailed _ _) h
  | undoReset n => exact answersOk_ofActs (acts_resetUndoAnswered _ (s.unpark n)) h
  | signal k => exact h

theorem answersOk_suPerformed (o : SuOp) (d : BitVec 48) {s : State} (h : s.answersOk) :
    (suPerformed o d s).answersOk := by
  unfold suPerformed
  split
  · unfold waitPerformed
    split
    · exact answersOk_ofActs (acts_waitSucceeded _ _) h
    · exact answersOk_ofActs (acts_waitParked _ _ (by simp [State.isParked])) h
  · exact answersOk_ofActs (acts_notifyPerformed _ _) (answersOk_notifyEffects _ _ _ h)
  · exact answersOk_notifyEffects _ _ _ h
  · exact answersOk_ofActs (acts_stopUndone _ (s.unpark _)) h
  · exact answersOk_ofActs (acts_resetUndoAnswered _ (s.unpark _)) h

theorem answersOk_suAnswered (o : SuOp) (g : Got 48) {s : State} (h : s.answersOk) : (suAnswered o g s).answersOk := by
  have free := answersOk_suFree h
  unfold suAnswered
  split
  · split
    · split
      · exact answersOk_suFailed _ _ free
      · obtain ⟨fu, -, te, tu⟩ := (answersOk_iff s).mp h
        exact (answersOk_iff _).mpr ⟨fu, fun _ => rfl, te, tu⟩
    · exact answersOk_suFailed _ _ free
  · split
    · exact answersOk_suPerformed _ _ free
    · exact answersOk_suFailed _ _ free

theorem answersOk_suTake (r : SuReq) (q : List SuReq) {s : State} (h : s.answersOk) : (suTake r q s).answersOk := by
  have taken : ({ s with su := { s.su with queue := q } } : State).answersOk := h
  unfold suTake
  dsimp only
  split
  · cases r with
    | wait n k => exact taken
    | notify n k => exact taken
    | undoStop n => exact answersOk_ofActs (acts_goOn _ _) taken
    | undoReset n => exact answersOk_ofActs (acts_resetUndoAnswered _ _) taken
    | signal k => exact taken
  · obtain ⟨fu, -, te, tu⟩ := (answersOk_iff s).mp h
    exact (answersOk_iff _).mpr ⟨fu, fun _ => rfl, te, tu⟩

/-! ## Every internal step -/

theorem micro_answersOk {s t : State} (h : s.answersOk) (m : micro s = some t) : t.answersOk := by
  obtain ⟨fu, su, te, tu⟩ := (answersOk_iff s).mp h
  rcases micro_cases m with m | m | m | m | m | m | m | m | m | m | m
  · obtain ⟨e, l, b, -, -, rfl⟩ := fuHandOver_some m; exact h
  · obtain ⟨e, l, b, -, -, rfl⟩ := suHandOver_some m; exact h
  · obtain ⟨e, l, b, -, -, rfl⟩ := teHandOver_some m; exact h
  · obtain ⟨e, l, b, -, -, rfl⟩ := tuHandOver_some m; exact h
  · obtain ⟨e, l, b, -, -, rfl⟩ := lbHandOver_some m; exact h
  · obtain ⟨e, q, -, -, rfl⟩ := sbStep_some m; exact h
  · exact answersOk_fuStep h m
  · rcases suStep_some m with ⟨o, g, -, -, -, rfl⟩ | ⟨r, q, -, -, -, rfl⟩
    · exact answersOk_suAnswered o g h
    · exact answersOk_suTake r q h
  · obtain ⟨b, q, rfl, -⟩ := lbStep_frame m; exact h
  · have walk := tuStep_walkOk m
    obtain ⟨u, q, rfl, -⟩ := tuStep_frame m
    exact answersOk_congr h rfl rfl rfl rfl te walk
  · obtain ⟨te', tu'⟩ := teStep_poised te tu m
    obtain ⟨n, -, e⟩ := teStep_engages m
    obtain ⟨l, hf, -⟩ := e.fu
    obtain ⟨k, hs, -⟩ := e.su
    exact answersOk_congr h (by rw [hf]) (by rw [hf]) (by rw [hs]) (by rw [hs]) te' tu'

theorem settle_answersOk {s : State} (h : s.answersOk) : (settle s).answersOk :=
  settle_induct State.answersOk (fun _ _ h m => micro_answersOk h m) h

/-! ## Every command -/

/-- A grant gives TE the channel, and leaves FU, SU and TU's request as they are (R99). -/
theorem grantTo_units (n : ChanId) (s : State) :
    ((grantTo n s).te.grant = some n ∧ (grantTo n s).te.got = s.te.got) ∧ (grantTo n s).fu = s.fu ∧ (grantTo n s).su = s.su
      ∧ (WalkOk s.tu → WalkOk (grantTo n s).tu) := by
  unfold grantTo
  dsimp only
  split <;> exact ⟨⟨rfl, rfl⟩, rfl, rfl, id⟩

/-- The channel granted is ACTIVE, in its slice (R99). -/
theorem chan_grantTo (n : ChanId) (s : State) :
    (grantTo n s).chan n = { s.chan n with state := .active, activity := .slice } := by
  have active : ∀ e : Engine,
      (({ s with te := e } : State).modChan n fun c => { c with state := .active, activity := .slice }).chan n
        = { s.chan n with state := .active, activity := .slice } := fun e => chan_modChan _ _ _
  unfold grantTo
  dsimp only
  split
  · refine (chan_setActivity _ n _).trans ?_
    exact congrArg (fun c : Channel => { c with activity := .slice }) (active _)
  · exact active _

/-- A grant finds TE with no answer in hand, and leaves it so. -/
theorem answersOk_grantTo {n : ChanId} {s : State} (h : s.answersOk) (free : s.te.grant = none) :
    (grantTo n s).answersOk := by
  obtain ⟨fu, su, te, tu⟩ := (answersOk_iff s).mp h
  have got : s.te.got = none := by
    have hg := te.1
    rw [te.2 free] at hg
    simpa [TeStep.awaitsPort] using hg
  obtain ⟨e, hfu, hsu, htu⟩ := grantTo_units n s
  refine (answersOk_iff _).mpr ⟨by rwa [hfu], by rwa [hsu], ⟨fun hs => ?_, fun hs => ?_⟩, htu tu⟩
  · rw [e.2, got] at hs; cases hs
  · rw [e.1] at hs; cases hs

theorem answersOk_endSlice {n : ChanId} {s : State} (h : s.answersOk) (hs : s.te.step.awaitsPort = false) :
    (endSlice n none s).answersOk := by
  obtain ⟨fu, su, te, tu⟩ := (answersOk_iff s).mp h
  have got : s.te.got = none := by
    have hg := te.1
    rw [hs] at hg
    simpa using hg
  obtain ⟨te', tu'⟩ := poised_endSlice (n := n) got tu none
  have e := engages_endSlice n s none
  obtain ⟨l, hf, -⟩ := e.fu
  obtain ⟨k, hs, -⟩ := e.su
  exact answersOk_congr h (by rw [hf]) (by rw [hf]) (by rw [hs]) (by rw [hs]) te' tu'

theorem answersOk_engineDrained {s : State} (h : s.answersOk) : (engineDrained s).answersOk := by
  obtain ⟨fu, su, te, tu⟩ := (answersOk_iff s).mp h
  unfold engineDrained
  split
  · rename_i n hg hs
    exact answersOk_endSlice (s := s.modChan n fun c => { c with phase := .drain }) h (by rw [te_modChan, hs]; rfl)
  · rename_i n v pa hg hs
    split
    · exact (answersOk_iff _).mpr ⟨fu, su, ⟨fun _ => rfl, fun e => by cases hg.symm.trans e⟩, tu⟩
    · exact h
  · exact h

theorem answersOk_writeOutAnswered (l : Line) (resp : WriteResp) {s : State} (h : s.answersOk) :
    (writeOutAnswered l resp s).answersOk := by
  unfold writeOutAnswered
  dsimp only
  split
  · unfold markChannels
    dsimp only
    refine answersOk_inArrivalOrder acts_goOn _ ?_
    exact answersOk_ofActsAll (acts_all setMark acts_setMark _ _) h
  · exact h
  · exact h

theorem answersOk_effect {s u : State} (h : s.answersOk) (e : Effect s u) : u.answersOk := by
  obtain ⟨fu, su, te, tu⟩ := (answersOk_iff s).mp h
  cases e with
  | control v =>
    unfold setControl
    dsimp only
    split
    · exact answersOk_inArrivalOrder acts_goOn _ h
    · exact h
  | softReset => exact h
  | softDrain => exact h
  | signal r k => exact h
  | command r n k _ => exact answersOk_ofActs (acts_takeChannelCommand n _ k) h
  | resetStep n _ _ => exact answersOk_ofActs (acts_resetGoesOn n s) h
  | fuAnswer j g l hj => exact (answersOk_iff _).mpr ⟨fun _ => by simp [hj], su, te, tu⟩
  | suAnswer o g l ho => exact (answersOk_iff _).mpr ⟨fu, fun _ => by simp [ho], te, tu⟩
  | teAnswer n g l hg hs => exact (answersOk_iff _).mpr ⟨fu, su, ⟨fun _ => hs, te.2⟩, tu⟩
  | tuAnswer q g l hq hs =>
    refine (answersOk_iff _).mpr ⟨fu, su, te, fun _ => ⟨by simp [State.tuGot, hq], ?_⟩⟩
    rcases hs with hs | hs | hs | hs <;> simp [State.tuGot, hs]
  | grant n hg _ => exact answersOk_grantTo h hg
  | count n _ hs => exact answersOk_endSlice h (by rw [hs]; rfl)
  | lineWritten l resp => exact answersOk_writeOutAnswered l resp h
  | drained n _ => exact answersOk_ofActs (acts_drainAnswered n s.lbFree) h
  | engineDrained _ => exact answersOk_engineDrained (s := s.lbFree) h
  | softDrained _ => exact h
  | recorded b => exact h

theorem answersOk_outcome {s t : State} (h : s.answersOk) (o : Outcome s t) : t.answersOk := by
  cases o with
  | hardReset => simp [State.answersOk, hardReset, State.reset]
  | port hp => obtain ⟨r, b, x, rfl, -, -, -⟩ := hp; exact h
  | clearing => exact h
  | window n hw => obtain ⟨hg, -, -, rfl⟩ := hw; exact answersOk_grantTo h hg
  | settled e => exact settle_answersOk (answersOk_effect h e)

theorem step_answersOk {s t : State} (h : s.answersOk) (m : step s = .next t) : t.answersOk := by
  rcases step_outcome m with rfl | ⟨l, o⟩
  · exact h
  · exact answersOk_outcome (s := { s with pending := l }) h o

/-! ## Settled states -/

/-- A hard reset leaves no unit anything to do. -/
theorem hardReset_settled (s : State) : (hardReset s).isSettled := by
  simp [settled_iff, hardReset, State.reset, fuHandOver, suHandOver, teHandOver, tuHandOver, lbHandOver, sbStep, fuStep,
    suStep, lbStep, tuStep, teStep]

theorem portOnly_settled {s t : State} (h : s.isSettled) (p : PortOnly s t) : t.isSettled := by
  obtain ⟨r, b, x, rfl, hq, hl, hw⟩ := p
  exact settled_congr h rfl rfl rfl rfl rfl hq (.inl hl) hw (fun _ => rfl) (fun _ => rfl)

/-- The clearing step of a soft reset touches nothing on which a unit's step depends. -/
theorem clearPart_settled {s : State} (h : s.isSettled) : (clearPart s).isSettled := by
  obtain ⟨h1, h2, h3, h4, h5, h6, h7, h8, h9, h10, h11⟩ := (settled_iff s).mp h
  have hand : ∀ e, (clearPart s).sb.handOver e = none ↔ s.sb.handOver e = none := fun e => handOver_none rfl rfl
  have chan : ∀ n, (clearPart s).chan n = { s.chan n with haltedBit := false } := by
    intro n; simp [clearPart, State.chan]
  have engine : teStep (clearPart s) = none := by
    have cm : ∀ n, ((clearPart s).chan n).currentMove = (s.chan n).currentMove := fun n => by rw [chan]; rfl
    have rs : ∀ n, ((clearPart s).chan n).reset = (s.chan n).reset := fun n => by rw [chan]
    have lb : (clearPart s).engineAtLb = s.engineAtLb := rfl
    unfold teStep at h11 ⊢
    simp only [cm, rs, lb]
    simp only [clearPart] at *
    (repeat' split at h11) <;> simp_all
  have walk : tuStep (clearPart s) = none := by
    unfold tuStep at h10 ⊢
    simp only [clearPart]
    (repeat' split at h10) <;> simp_all
  refine (settled_iff _).mpr ⟨?_, ?_, ?_, ?_, ?_, ?_, fuStep_none (s := s) rfl h7, suStep_none (s := s) rfl h8,
    lbStep_none (s := s) rfl h9, walk, engine⟩
  · unfold fuHandOver at *; split at h1 <;> simp_all [clearPart]
  · unfold suHandOver at *; split at h2 <;> simp_all [clearPart]
  · unfold teHandOver at *; split at h3 <;> simp_all [clearPart]
  · unfold tuHandOver at *; split at h4 <;> simp_all [clearPart]
  · unfold lbHandOver at *; split at h5 <;> simp_all [clearPart]
  · unfold sbStep at *; split at h6 <;> simp_all [clearPart]

/-- A grant with a RESET of the winner next, or a soft reset, leaves the window of log 32. -/
theorem windowGrant_window {n : ChanId} {s t : State} (h : WindowGrant n s t) : t.resetWindow := by
  obtain ⟨-, he, hr, rfl⟩ := h
  have reset : (s.chan n).reset = .off := by
    simp only [Channel.eligible, Bool.and_eq_true, beq_iff_eq] at he
    exact he.2
  refine ⟨n, (grantTo_units n s).1.1, ?_, ?_⟩
  · rw [← hr]
    unfold grantTo
    dsimp only
    split <;> rfl
  · rw [chan_grantTo]; exact reset

/-- From a settled state every command leaves a settled one, but the grant of log 32. -/
theorem outcome_settled {s t : State} (h : s.isSettled) (o : Outcome s t) : t.isSettled ∨ t.resetWindow := by
  cases o with
  | hardReset => exact .inl (hardReset_settled s)
  | port hp => exact .inl (portOnly_settled h hp)
  | clearing => exact .inl (clearPart_settled h)
  | window n hw => exact .inr (windowGrant_window hw)
  | settled e => exact .inl (settle_settled _)

/-- The command that ends the window is taken and leaves the part settled. -/
theorem window_settled {s t : State} (h : s.resetWindow) (m : step s = .next t) : t.isSettled := by
  obtain ⟨n, -, hc, hr⟩ := h
  simp only [State.resetComes, Bool.and_eq_true, Bool.not_eq_true', State.resetting, bne_eq_false_iff_eq] at hc
  obtain ⟨⟨asserted, soft⟩, next⟩ := hc
  have takes : ∀ l, ({ s with pending := l } : State).takesWrites := fun _ => ⟨asserted, soft⟩
  have control : ∀ v l, softResetBit v = true → writeControl v { s with pending := l } = .next t → t.isSettled := by
    intro v l hv e
    rw [writeControl, regWrite_takes (takes l), if_pos hv] at e
    cases e
    exact settle_settled _
  unfold step at m
  split at next
  · rename_i k l hp
    simp only [Bool.and_eq_true, beq_iff_eq, Option.isNone_iff_eq_none] at next
    obtain ⟨rfl, slot⟩ := next
    rw [hp] at m
    cases (exec_taken (takes l) slot .reset k hr).1.symm.trans m
    exact settle_settled _
  · rename_i v l hp
    rw [hp] at m
    exact control v l next m
  · rename_i v l hp
    rw [hp] at m
    exact control v l next m
  · cases next

/-- Settles O58: the answers in hand command by command, and the settled part by what each command leaves. -/
theorem stepLeavesPartSettled : Obligations.StepLeavesPartSettled := by
  unfold Obligations.StepLeavesPartSettled
  intro s t answers m
  refine ⟨step_answersOk answers m, ?_⟩
  rintro (settled | window)
  · rcases step_outcome m with rfl | ⟨l, o⟩
    · exact .inl settled
    · have queue : ({ s with pending := l } : State).isSettled :=
        settled_congr settled rfl rfl rfl rfl rfl rfl (.inl rfl) rfl (fun _ => rfl) (fun _ => rfl)
      exact outcome_settled queue o
  · exact .inl (window_settled window m)

end Sys2Proof.Flow
end

section
/-! SUPPORT. What a channel has asked for: how the requests of one channel change, and the states from which its next reaction
keeps it to one request at FU and one at SU. -/

namespace Sys2Proof.Flow

open Sys2Proof Sys2Proof.Machine Sys2Proof.Laws

/-! ## The requests of one channel -/

@[simp] theorem jobsOf_setChan (s : State) (n m : ChanId) (c : Channel) : (s.setChan n c).jobsOf m = s.jobsOf m := rfl
@[simp] theorem jobsOf_queueSu (s : State) (r : SuReq) (m : ChanId) : (s.queueSu r).jobsOf m = s.jobsOf m := rfl
@[simp] theorem jobsOf_queueLb (s : State) (r : LbReq) (m : ChanId) : (s.queueLb r).jobsOf m = s.jobsOf m := rfl
@[simp] theorem asksOf_setChan (s : State) (n m : ChanId) (c : Channel) : (s.setChan n c).asksOf m = s.asksOf m := rfl
@[simp] theorem asksOf_queueFu (s : State) (j : FuJob) (m : ChanId) : (s.queueFu j).asksOf m = s.asksOf m := rfl
@[simp] theorem asksOf_queueLb (s : State) (r : LbReq) (m : ChanId) : (s.queueLb r).asksOf m = s.asksOf m := rfl
@[simp] theorem isParked_setChan (s : State) (n m : ChanId) (c : Channel) : (s.setChan n c).isParked m = s.isParked m := rfl
@[simp] theorem isParked_queueFu (s : State) (j : FuJob) (m : ChanId) : (s.queueFu j).isParked m = s.isParked m := rfl
@[simp] theorem isParked_queueSu (s : State) (r : SuReq) (m : ChanId) : (s.queueSu r).isParked m = s.isParked m := rfl

/-- A request that joins FU's queue is its channel's. -/
theorem jobsOf_queueFu (s : State) (j : FuJob) : (s.queueFu j).jobsOf j.chan = s.jobsOf j.chan ++ [j] := by
  simp [State.jobsOf, State.fuJobs, State.queueFu, List.filter_append]

/-- A request that joins SU's queue is its channel's. -/
theorem asksOf_queueSu {r : SuReq} {n : ChanId} (h : r.chan = some n) (s : State) :
    (s.queueSu r).asksOf n = s.asksOf n ++ [r] := by
  simp [State.asksOf, State.suRequests, State.queueSu, List.filter_append, h]

theorem mem_asksOf {s : State} {n : ChanId} {r : SuReq} : r ∈ s.asksOf n ↔ r ∈ s.suRequests ∧ r.chan = some n := by
  simp [State.asksOf]

/-- A channel with nothing at SU has asked SU for nothing. -/
theorem asksOf_of_not_suBusy {s : State} {n : ChanId} (h : s.suBusy n = false) : s.asksOf n = [] := by
  refine List.eq_nil_iff_forall_not_mem.mpr fun r hr => ?_
  obtain ⟨hm, hc⟩ := mem_asksOf.mp hr
  simp only [State.suBusy, Bool.or_eq_false_iff, List.any_eq_false, beq_iff_eq] at h
  simp only [State.suRequests, List.mem_append, Option.mem_toList, Option.map_eq_some_iff] at hm
  rcases hm with ⟨o, ho, rfl⟩ | hm
  · simp [ho, hc] at h
  · exact h.1 r hm hc

/-- The request in progress at SU is its channel's. -/
theorem mem_asksOf_current {s : State} {o : SuOp} {n : ChanId} (h : s.su.current = some o) (hc : o.req.chan = some n) :
    o.req ∈ s.asksOf n := mem_asksOf.mpr ⟨by simp [State.suRequests, h], hc⟩

/-- A channel with no place in the parked list. -/
theorem isParked_eq_false {s : State} {n : ChanId} : s.isParked n = false ↔ n ∉ s.su.parked.map Parked.chan := by
  simp [State.isParked]

theorem isParked_unpark (s : State) (n : ChanId) : (s.unpark n).isParked n = false := by
  simp [State.isParked, State.unpark]

theorem isParked_unpark_ne (s : State) {n m : ChanId} (h : m ≠ n) : (s.unpark n).isParked m = s.isParked m := by
  rw [Bool.eq_iff_iff]
  simp only [State.isParked, State.unpark, List.any_filter, List.any_eq_true, Bool.and_eq_true, bne_iff_ne, beq_iff_eq]
  constructor
  · rintro ⟨e, he, -, hm⟩; exact ⟨e, he, hm⟩
  · rintro ⟨e, he, hm⟩; exact ⟨e, he, by rw [hm]; exact h, hm⟩

/-! ## The parts of the invariant -/

/-- Channel `n` has one request at FU and one at SU at most, no wait at SU while parked, and is parked while its undo is in
progress (R49, R50). -/
structure Single (n : ChanId) (s : State) : Prop where
  job : (s.jobsOf n).length ≤ 1
  ask : (s.asksOf n).length ≤ 1
  wait : ∀ k, SuReq.wait n k ∈ s.asksOf n → s.isParked n = false
  undo : ∀ o, s.su.current = some o → o.req = .undoStop n ∨ o.req = .undoReset n → s.isParked n = true

theorem flowAt_single {n : ChanId} {s : State} (h : s.flowAt n) : Single n s := by
  obtain ⟨job, ask, wait, undo, -⟩ := h
  exact ⟨job, ask, wait, undo⟩

theorem flowAt_fits {n : ChanId} {s : State} (h : s.flowAt n) (hr : (s.chan n).reset = .off) : s.flowFits n := by
  obtain ⟨-, -, -, -, fits, -⟩ := h
  exact fits hr

theorem flowAt_undo {n : ChanId} {s : State} (h : s.flowAt n) (hr : (s.chan n).reset = .undo) :
    s.jobsOf n = [] ∧ s.te.grant ≠ some n ∧ ∀ r ∈ s.asksOf n, r = .undoReset n := by
  obtain ⟨-, -, -, -, -, undo, -⟩ := h
  exact undo hr

theorem flowAt_drain {n : ChanId} {s : State} (h : s.flowAt n) (hr : (s.chan n).reset = .drain) :
    s.jobsOf n = [] ∧ s.te.grant ≠ some n ∧ s.asksOf n = [] ∧ s.isParked n = false := by
  obtain ⟨-, -, -, -, -, -, drain⟩ := h
  exact drain hr

/-- A channel out of reset keeps to its flow where its requests fit it. -/
theorem flowAt_off {n : ChanId} {s : State} (h : Single n s) (hr : (s.chan n).reset = .off) (f : s.flowFits n) :
    s.flowAt n :=
  ⟨h.job, h.ask, h.wait, h.undo, fun _ => f, fun e => by simp [hr] at e, fun e => by simp [hr] at e⟩

/-- In the first step of its reset a channel has its last requests at FU and SU. -/
theorem flowAt_settling {n : ChanId} {s : State} (h : Single n s) (hr : (s.chan n).reset = .settling) : s.flowAt n :=
  ⟨h.job, h.ask, h.wait, h.undo, fun e => by simp [hr] at e, fun e => by simp [hr] at e, fun e => by simp [hr] at e⟩

/-- A channel that holds the grant is out of reset, or in the first step of its reset. -/
theorem reset_of_grant {n : ChanId} {s : State} (h : s.flowAt n) (hg : s.te.grant = some n) :
    (s.chan n).reset = .off ∨ (s.chan n).reset = .settling := by
  cases hr : (s.chan n).reset with
  | off => exact .inl rfl
  | settling => exact .inr rfl
  | undo => exact absurd hg (flowAt_undo h hr).2.1
  | drain => exact absurd hg (flowAt_drain h hr).2.1

/-! ## States with fewer requests -/

/-- In `t` the units hold nothing of channel `n` that they do not hold in `s`. -/
structure Less (n : ChanId) (s t : State) : Prop where
  jobs : (t.jobsOf n).Sublist (s.jobsOf n)
  asks : (t.asksOf n).Sublist (s.asksOf n)
  parked : t.isParked n = true → s.isParked n = true
  undo : ∀ o, t.su.current = some o → o.req = .undoStop n ∨ o.req = .undoReset n → t.isParked n = true
  grant : t.te.grant = some n → s.te.grant = some n

namespace Less

variable {n : ChanId} {s t : State}

theorem single (l : Less n s t) (h : Single n s) : Single n t where
  job := l.jobs.length_le.trans h.job
  ask := l.asks.length_le.trans h.ask
  wait k hk := by
    have := h.wait k (l.asks.subset hk)
    by_contra hp
    rw [l.parked (by simpa using hp)] at this
    cases this
  undo := l.undo

/-- Where the reset is as it was, the flow alone is left to look at. -/
theorem flowAt (l : Less n s t) (h : s.flowAt n) (hr : (t.chan n).reset = (s.chan n).reset)
    (f : (t.chan n).reset = .off → t.flowFits n) : t.flowAt n := by
  have one := l.single (flowAt_single h)
  refine ⟨one.job, one.ask, one.wait, one.undo, f, fun e => ?_, fun e => ?_⟩
  · obtain ⟨jobs, grant, asks⟩ := flowAt_undo h (hr ▸ e)
    exact ⟨List.sublist_nil.mp (jobs ▸ l.jobs), fun g => grant (l.grant g), fun r hr => asks r (l.asks.subset hr)⟩
  · obtain ⟨jobs, grant, asks, parked⟩ := flowAt_drain h (hr ▸ e)
    refine ⟨List.sublist_nil.mp (jobs ▸ l.jobs), fun g => grant (l.grant g), List.sublist_nil.mp (asks ▸ l.asks), ?_⟩
    by_contra hp
    rw [l.parked (by simpa using hp)] at parked
    cases parked

/-- A channel that does not change itself keeps to its flow. -/
theorem flowAt_same (l : Less n s t) (h : s.flowAt n) (hc : t.chan n = s.chan n)
    (hstep : t.te.grant = some n → t.te.step = s.te.step) : t.flowAt n := by
  refine l.flowAt h (by rw [hc]) fun hr => ?_
  obtain ⟨jobs, asks, parked, grant, state, stop⟩ := flowAt_fits h (by rw [← hc]; exact hr)
  unfold State.flowFits
  rw [hc]
  refine ⟨fun j hj => jobs j (l.jobs.subset hj), fun r hr => asks r (l.asks.subset hr), fun hp => parked (l.parked hp),
    fun hg => ?_, state, fun hu hp => stop (l.asks.subset hu) (l.parked hp)⟩
  rw [hstep hg]
  exact grant (l.grant hg)

end Less

/-- Units that hold the same of channel `n`. -/
theorem less_of_eq {n : ChanId} {s t : State} (h : s.flowAt n) (hf : t.jobsOf n = s.jobsOf n) (ha : t.asksOf n = s.asksOf n)
    (hp : t.isParked n = s.isParked n) (hc : t.su.current = s.su.current) (hg : t.te.grant = some n → s.te.grant = some n) :
    Less n s t where
  jobs := by rw [hf]
  asks := by rw [ha]
  parked := by rw [hp]; exact id
  undo := by rw [hc, hp]; exact (flowAt_single h).undo
  grant := hg

/-- The reaction of a channel leaves what the units hold of every other. -/
theorem acts_same {n m : ChanId} {s t : State} (a : Acts m s t) (hm : n ≠ m) :
    t.jobsOf n = s.jobsOf n ∧ t.asksOf n = s.asksOf n ∧ t.isParked n = s.isParked n ∧ t.su.current = s.su.current := by
  obtain ⟨lf, hf, hlf⟩ := a.fu
  obtain ⟨ls, hs, hls⟩ := a.su
  have jobs : lf.filter (·.chan == n) = [] :=
    List.filter_eq_nil_iff.mpr fun j hj => by rw [hlf j hj]; simpa using hm.symm
  have asks : ls.filter (·.chan == some n) = [] :=
    List.filter_eq_nil_iff.mpr fun r hr => by rw [(hls r hr).1]; simpa using hm.symm
  refine ⟨?_, ?_, ?_, by rw [hs]⟩
  · simp [State.jobsOf, State.fuJobs, hf, List.filter_append, jobs]
  · simp [State.asksOf, State.suRequests, hs, List.filter_append, asks]
  · rw [State.isParked, hs]; rfl

/-- The reaction of a channel leaves every other at its place. -/
theorem flowAt_ofActs {n m : ChanId} {s t : State} (a : Acts m s t) (hm : n ≠ m) (h : s.flowAt n) : t.flowAt n := by
  obtain ⟨jobs, asks, parked, current⟩ := acts_same a hm
  exact (less_of_eq h jobs asks parked current (by rw [a.te]; exact id)).flowAt_same h (a.others n hm)
    (fun _ => by rw [a.te])

/-! ## A channel that has asked for nothing -/

/-- Channel `n` is out of reset and has asked for nothing but an undo that has come too late; it is not parked and does not
hold the grant. -/
structure Unasked (n : ChanId) (s : State) : Prop where
  jobs : s.jobsOf n = []
  asks : ∀ r ∈ s.asksOf n, r = .undoStop n
  ask : (s.asksOf n).length ≤ 1
  undo : ∀ o, s.su.current = some o → o.req ≠ .undoStop n
  parked : s.isParked n = false
  grant : s.te.grant ≠ some n
  reset : (s.chan n).reset = .off

namespace Unasked

variable {n : ChanId} {s : State}

/-- A change of the channel alone that leaves it out of reset. -/
theorem setChan (h : Unasked n s) {c : Channel} (hr : c.reset = .off) : Unasked n (s.setChan n c) where
  jobs := h.jobs
  asks := h.asks
  ask := h.ask
  undo := h.undo
  parked := h.parked
  grant := h.grant
  reset := by rw [chan_setChan]; exact hr

theorem modChan (h : Unasked n s) {f : Channel → Channel} (hr : (f (s.chan n)).reset = .off) : Unasked n (s.modChan n f) :=
  h.setChan hr

theorem setActivity (h : Unasked n s) (a : Activity) : Unasked n (s.setActivity n a) := h.setChan h.reset

theorem queueLb (h : Unasked n s) (r : LbReq) : Unasked n (s.queueLb r) :=
  ⟨h.jobs, h.asks, h.ask, h.undo, h.parked, h.grant, h.reset⟩

theorem single (h : Unasked n s) : Single n s where
  job := by simp [h.jobs]
  ask := h.ask
  wait _ _ := h.parked
  undo o ho := by
    rintro (e | e)
    · exact absurd e (h.undo o ho)
    · exact absurd (h.asks _ (mem_asksOf_current ho (by rw [e]; rfl))) (by rw [e]; simp)

/-- The reaction of another channel leaves it so. -/
theorem ofActs {m : ChanId} {t : State} (h : Unasked n s) (a : Acts m s t) (hm : n ≠ m) : Unasked n t := by
  obtain ⟨jobs, asks, parked, current⟩ := acts_same a hm
  exact ⟨jobs ▸ h.jobs, asks ▸ h.asks, asks ▸ h.ask, current ▸ h.undo, parked ▸ h.parked, a.te ▸ h.grant,
    by rw [a.others n hm]; exact h.reset⟩

/-- It keeps to its flow wherever it stands, with activity rest in OFF. -/
theorem flowAt (h : Unasked n s) (hs : (s.chan n).state = .off → (s.chan n).activity = .rest) : s.flowAt n := by
  refine flowAt_off h.single h.reset ⟨?_, ?_, ?_, fun hg => absurd hg h.grant, hs, ?_⟩
  · simp [h.jobs]
  · intro r hr; rw [h.asks r hr]; rfl
  · simp [h.parked]
  · simp [h.parked]

/-- It keeps to its flow when it asks FU for what its activity waits for (R49). -/
theorem askFu (h : Unasked n s) (hs : (s.chan n).state ≠ .off) {k : FuKind} {a : Activity} (hk : k.fits a = true)
    (q : MpReq) : (s.askFu n k q a).flowAt n := by
  have u := h.setActivity a
  have jobs : (s.askFu n k q a).jobsOf n = [⟨n, k, q⟩] := by
    have := jobsOf_queueFu (s.setActivity n a) ⟨n, k, q⟩
    rwa [u.jobs] at this
  have chan : (s.askFu n k q a).chan n = { s.chan n with activity := a } := by simp [State.askFu]
  have one := u.single
  refine flowAt_off ⟨by simp [jobs], one.ask, one.wait, one.undo⟩ (by rw [chan]; exact h.reset)
    ⟨?_, ?_, ?_, fun hg => absurd hg u.grant, ?_, ?_⟩
  · simp [jobs, chan, hk]
  · intro r hr; rw [u.asks r hr]; rfl
  · intro hp; rw [show (s.askFu n k q a).isParked n = s.isParked n from rfl, h.parked] at hp; cases hp
  · rw [chan]; exact fun e => absurd e hs
  · intro _ hp; rw [show (s.askFu n k q a).isParked n = s.isParked n from rfl, h.parked] at hp; cases hp

/-- It keeps to its flow when, with nothing of it at SU, it asks SU for what its activity waits for (R50). -/
theorem queueSu (h : Unasked n s) (hs : (s.chan n).state ≠ .off) (hb : s.suBusy n = false) {r : SuReq} {a : Activity}
    (hc : r.chan = some n) (hr : r.fits a = true) : ((s.setActivity n a).queueSu r).flowAt n := by
  have u := h.setActivity a
  have asks : ((s.setActivity n a).queueSu r).asksOf n = [r] := by
    rw [asksOf_queueSu hc]
    exact congrArg (· ++ [r]) (asksOf_of_not_suBusy hb)
  have parked : ((s.setActivity n a).queueSu r).isParked n = false := u.parked
  have chan : ((s.setActivity n a).queueSu r).chan n = { s.chan n with activity := a } := by simp
  refine flowAt_off ⟨u.single.job, by simp [asks], fun _ _ => parked, u.single.undo⟩ (by rw [chan]; exact h.reset)
    ⟨?_, ?_, ?_, fun hg => absurd hg u.grant, ?_, ?_⟩
  · rw [show ((s.setActivity n a).queueSu r).jobsOf n = [] from u.jobs]; simp
  · simp [asks, chan, hr]
  · simp [parked]
  · rw [chan]; exact fun e => absurd e hs
  · simp [parked]

end Unasked

end Sys2Proof.Flow
end

section
/-! SUPPORT. The reactions of a channel: each leaves it with one request at FU and one at SU at most, of the kind it then waits
for. -/

namespace Sys2Proof.Flow

open Sys2Proof Sys2Proof.Machine Sys2Proof.Laws

/-! ## From a channel that has asked for nothing -/

namespace Unasked

variable {n : ChanId} {s : State}

theorem beginHalt (h : Unasked n s) (hs : (s.chan n).state ≠ .off) (code : FaultCode) (va : VAddr) :
    (beginHalt n code va s).flowAt n := by
  have u := (h.modChan (f := fun c => { c with
    fault := some code, faultVA := va, stopPending := false, mark := false, activity := .haltDrain }) h.reset).queueLb (.drain n)
  exact u.flowAt fun e => absurd e (by simpa using hs)

theorem beginStop (h : Unasked n s) (hs : (s.chan n).state ≠ .off) : (beginStop n s).flowAt n :=
  ((h.setActivity .stopDrain).queueLb (.drain n)).flowAt fun e => absurd e (by simpa using hs)

theorem stays (h : Unasked n s) (hs : (s.chan n).state ≠ .off) : s.flowAt n := h.flowAt fun e => absurd e hs

theorem stopHere (h : Unasked n s) (hs : (s.chan n).state ≠ .off) : (stopHere n s).flowAt n := by
  unfold Machine.stopHere
  split
  · exact h.stays hs
  · exact h.beginStop hs

theorem queueWait (h : Unasked n s) (hs : (s.chan n).state ≠ .off) (hb : s.suBusy n = false) (k : SemId) :
    ((s.setActivity n .waiting).queueSu (.wait n k)).flowAt n := h.queueSu hs hb rfl rfl

theorem queueNotify (h : Unasked n s) (hs : (s.chan n).state ≠ .off) (hb : s.suBusy n = false) (k : SemId) :
    ((s.setActivity n .notifying).queueSu (.notify n k)).flowAt n := h.queueSu hs hb rfl rfl

/-- The test before a wait or notify: RUN is 1 and the channel has nothing at SU. -/
theorem not_suBusy_of {b : Bool} (h : (b && !s.suBusy n) = true) : s.suBusy n = false := by
  simp only [Bool.and_eq_true, Bool.not_eq_true'] at h
  exact h.2

theorem postingPoint (h : Unasked n s) (hs : (s.chan n).state ≠ .off) : (postingPoint n s).flowAt n := by
  unfold Machine.postingPoint
  dsimp only
  split_ifs with _ hb
  · exact h.stopHere hs
  · exact h.queueWait hs (not_suBusy_of hb) _
  · exact h.stays hs

theorem enterPosting (h : Unasked n s) : (enterPosting n s).flowAt n :=
  (h.modChan h.reset).postingPoint (by simp)

theorem followLink (h : Unasked n s) (hs : (s.chan n).state ≠ .off) (l : BitVec 64) : (followLink n l s).flowAt n := by
  unfold Machine.followLink
  split
  · exact h.beginHalt hs _ _
  · exact h.askFu hs rfl _

theorem fetchPoint (h : Unasked n s) (hs : (s.chan n).state ≠ .off) : (fetchPoint n s).flowAt n := by
  unfold Machine.fetchPoint
  dsimp only
  split_ifs
  · exact h.stopHere hs
  · split
    · exact h.followLink hs _
    · exact h.askFu hs rfl _
  · exact h.stays hs

theorem enterFetch (h : Unasked n s) : (enterFetch n s).flowAt n := (h.modChan h.reset).fetchPoint (by simp)

theorem readyPoint (h : Unasked n s) (hs : (s.chan n).state ≠ .off) : (readyPoint n s).flowAt n := by
  unfold Machine.readyPoint
  dsimp only
  split_ifs
  · exact h.beginHalt hs _ _
  · exact h.stopHere hs
  · exact h.stays hs

theorem enterFinishing (h : Unasked n s) : (enterFinishing n s).flowAt n := by
  have u := (h.modChan (f := fun c => { c with
    state := .finishing, phase := .drain, listIndex := 0, activity := .finishDrain }) h.reset).queueLb (.drain n)
  exact u.stays (by simp)

theorem enterWork (h : Unasked n s) (hs : (s.chan n).state ≠ .off) : (enterWork n s).flowAt n := by
  unfold Machine.enterWork
  split
  · exact h.stays hs
  · rename_i t _
    have loaded := h.modChan (f := fun c => { c with cursors := applyPreloads c.cursors t.preloads, listIndex := 0 }) h.reset
    dsimp only
    split
    · exact loaded.enterFinishing
    · exact (loaded.modChan loaded.reset).readyPoint (by simp [Channel.prepareMove])
    · exact (loaded.modChan loaded.reset).readyPoint (by simp)

theorem prewaitPoint (h : Unasked n s) (hs : (s.chan n).state ≠ .off) : (prewaitPoint n s).flowAt n := by
  unfold Machine.prewaitPoint
  dsimp only
  split
  · exact h.enterWork hs
  · split_ifs with _ hb
    · exact h.stopHere hs
    · exact h.queueWait hs (not_suBusy_of hb) _
    · exact h.stays hs

theorem taskEnd (h : Unasked n s) (hs : (s.chan n).state ≠ .off) : (taskEnd n s).flowAt n := by
  have ended := h.setChan
    (c := { (s.chan n).clearTask with phase := .post, listIndex := 0, activity := .beforeWait }) h.reset
  unfold Machine.taskEnd
  dsimp only
  split_ifs
  · exact ended.beginStop (by simpa [Channel.clearTask] using hs)
  · exact ended.stopHere (by simpa [Channel.clearTask] using hs)
  · exact ended.enterPosting

theorem askStatus (h : Unasked n s) (hs : (s.chan n).state ≠ .off) {k : FuKind} {a : Activity} (hk : k.fits a = true)
    (i : BitVec 512) : (askStatus n k i a s).flowAt n := h.askFu hs hk _

theorem notifyPoint (h : Unasked n s) (hs : (s.chan n).state ≠ .off) : (notifyPoint n s).flowAt n := by
  unfold Machine.notifyPoint
  dsimp only
  split
  · split_ifs with hb
    · exact h.queueNotify hs (not_suBusy_of hb) _
    · exact h.stays hs
  · split_ifs
    · exact h.askStatus hs rfl _
    · exact h.taskEnd hs

theorem formatFault (h : Unasked n s) (hs : (s.chan n).state ≠ .off) (i : Nat) : (formatFault n i s).flowAt n :=
  (h.modChan h.reset).beginHalt (by simpa using hs) _ _

theorem acceptRecord (h : Unasked n s) (hs : (s.chan n).state ≠ .off) (a : PAddr) (t : Except Nat Task) :
    (acceptRecord n a t s).flowAt n := by
  unfold Machine.acceptRecord
  split
  · exact h.formatFault hs _
  · exact (h.modChan h.reset).askFu (by simpa using hs) rfl _

theorem contextAnswered (h : Unasked n s) (hs : (s.chan n).state ≠ .off) (r : Resp) (d : BitVec 384) :
    (contextAnswered n r d s).flowAt n := by
  unfold Machine.contextAnswered
  split_ifs
  · exact (h.modChan h.reset).postingPoint (by simpa [Channel.latch] using hs)
  · exact h.beginHalt hs _ _
  · exact h.beginHalt hs _ _

theorem linkAnswered (h : Unasked n s) (hs : (s.chan n).state ≠ .off) (r : Resp) (d : BitVec 64) :
    (linkAnswered n r d s).flowAt n := by
  unfold Machine.linkAnswered
  split_ifs
  · exact h.followLink hs _
  · exact h.beginHalt hs _ _

theorem headerAnswered (h : Unasked n s) (hs : (s.chan n).state ≠ .off) (a : PAddr) (r : Resp) (d : BitVec 256) :
    (headerAnswered n a r d s).flowAt n := by
  unfold Machine.headerAnswered
  split_ifs
  · split
    · exact h.formatFault hs _
    · split_ifs
      · exact h.acceptRecord hs _ _
      · exact h.askFu hs rfl _
  · exact h.beginHalt hs _ _
  · exact h.beginHalt hs _ _

theorem bodyAnswered (h : Unasked n s) (hs : (s.chan n).state ≠ .off) (a : PAddr) (hd : BitVec 256) (r : Resp)
    (d : BitVec 4736) : (bodyAnswered n a hd r d s).flowAt n := by
  unfold Machine.bodyAnswered
  split_ifs
  · split
    · exact h.formatFault hs _
    · exact h.acceptRecord hs _ _
  · exact h.beginHalt hs _ _

theorem acceptanceAnswered (h : Unasked n s) (hs : (s.chan n).state ≠ .off) (a : PAddr) (ok : Bool) :
    (acceptanceAnswered n a ok s).flowAt n := by
  unfold Machine.acceptanceAnswered
  split_ifs
  · exact (h.modChan h.reset).prewaitPoint (by simp)
  · exact h.beginHalt hs _ _

theorem doneAnswered (h : Unasked n s) (hs : (s.chan n).state ≠ .off) (ok : Bool) : (doneAnswered n ok s).flowAt n := by
  unfold Machine.doneAnswered
  split_ifs
  · exact (h.modChan h.reset).notifyPoint (by simpa using hs)
  · exact h.beginHalt hs _ _

theorem doneRewriteAnswered (h : Unasked n s) (hs : (s.chan n).state ≠ .off) (ok : Bool) :
    (doneRewriteAnswered n ok s).flowAt n := by
  unfold Machine.doneRewriteAnswered
  split_ifs
  · exact h.taskEnd hs
  · exact h.beginHalt hs _ _

theorem askSave (h : Unasked n s) (hs : (s.chan n).state ≠ .off) (st : ChState) {a : Activity}
    (ha : FuKind.save.fits a = true) : (askSave n st a s).flowAt n := h.askFu hs ha _

theorem skippedAnswered (h : Unasked n s) : (skippedAnswered n s).flowAt n := (h.modChan h.reset).enterPosting

theorem saveAnswered (h : Unasked n s) : (saveAnswered n s).flowAt n := by
  unfold Machine.saveAnswered
  refine (h.modChan ?_).flowAt ?_
  · split <;> exact h.reset
  · rw [chan_modChan]; split <;> exact fun _ => rfl

theorem resumeFrom (h : Unasked n s) : (resumeFrom n s).flowAt n := by
  have go : ∀ c : Channel, c.reset = (s.chan n).reset → c.state ≠ .off →
      Unasked n (s.setChan n c) ∧ ((s.setChan n c).chan n).state ≠ .off :=
    fun c hc on => ⟨h.setChan (hc.trans h.reset), by rwa [chan_setChan]⟩
  unfold Machine.resumeFrom
  dsimp only
  split
  · obtain ⟨u, on⟩ := go { s.chan n with state := .postwait, phase := .post, listIndex := 0 } rfl (by simp)
    exact u.askFu on rfl _
  · split
    · exact h.enterPosting
    · exact h.enterFetch
    · obtain ⟨u, on⟩ := go { s.chan n with state := .prewait, activity := .beforeWait } rfl (by simp)
      exact u.prewaitPoint on
    · obtain ⟨u, on⟩ := go { s.chan n with state := .ready, activity := .ready } rfl (by simp)
      exact u.stays on
    · obtain ⟨u, on⟩ := go { s.chan n with state := .ready, activity := .ready } rfl (by simp)
      exact u.stays on
    · exact h.enterFinishing
    · obtain ⟨u, on⟩ := go { s.chan n with state := .finishing, resumedNotify := false } rfl (by simp)
      exact u.askStatus on rfl _
    · obtain ⟨u, on⟩ :=
        go { s.chan n with state := .finishing, resumedNotify := true, activity := .beforeNotify } rfl (by simp)
      exact u.notifyPoint on

/-- A drain of a channel out of reset, at the place where it waits for it (R32, R41, R42). -/
theorem drainAnswered (h : Unasked n s) (hs : (s.chan n).state = .off → (s.chan n).activity = .rest) :
    (drainAnswered n s).flowAt n := by
  have on : (s.chan n).activity ≠ .rest → (s.chan n).state ≠ .off := fun ha e => ha (hs e)
  unfold Machine.drainAnswered
  simp only [h.reset]
  split
  · have := on (by simp [*])
    split
    · exact h.beginHalt this _ _
    · exact (h.modChan h.reset).askStatus (by simpa using this) rfl _
  · have := on (by simp [*])
    split
    · exact h.beginHalt this _ _
    · exact h.askSave this _ rfl
  · have := on (by simp [*])
    split
    · exact (h.modChan h.reset).askStatus (by simpa using this) rfl _
    · exact (h.modChan h.reset).askSave (by simpa using this) _ rfl
  · exact h.flowAt hs

end Unasked

/-! ## Where a channel stands -/

/-- An activity in which a channel has a request of its own at SU, stands parked or holds the grant. -/
def engaged : Activity → Bool
  | .waiting | .notifying | .parked | .slice => true
  | _ => false

/-- An activity in which a channel waits for FU. -/
def atFu : Activity → Bool
  | .contextRead | .linkRead | .headerRead _ | .bodyRead _ _ | .accepting _ | .doneWrite | .doneRewrite | .haltStatus
  | .skipWrite | .stopSave | .haltSave => true
  | _ => false

theorem atFu_of_fits {k : FuKind} {a : Activity} (h : k.fits a = true) : atFu a = true := by
  cases k with
  | context | link | done | doneRewrite | haltStatus | skipped => rw [beq_iff_eq.mp h]; rfl
  | header | body | acceptance =>
    simp only [FuKind.fits] at h
    split at h
    · rfl
    · cases h
  | save =>
    rcases Bool.or_eq_true_iff.mp h with e | e
    · rw [beq_iff_eq.mp e]; rfl
    · rw [beq_iff_eq.mp e]; rfl

theorem not_engaged_of_atFu {a : Activity} (h : atFu a = true) : engaged a = false := by
  cases a with
  | waiting | notifying | parked | slice => cases h
  | _ => rfl

section Standing

variable {n : ChanId} {s : State}

/-- A channel that does not wait for FU has nothing there. -/
theorem jobsOf_eq_nil (f : s.flowFits n) (h : atFu (s.chan n).activity = false) : s.jobsOf n = [] := by
  obtain ⟨jobs, -⟩ := f
  refine List.eq_nil_iff_forall_not_mem.mpr fun j hj => ?_
  rw [atFu_of_fits (jobs j hj)] at h
  cases h

/-- A channel that waits for no wait or notify of its own has nothing at SU but an undo for STOP. -/
theorem asksOf_eq_undo (f : s.flowFits n) (hw : (s.chan n).activity ≠ .waiting) (hn : (s.chan n).activity ≠ .notifying) :
    ∀ r ∈ s.asksOf n, r = .undoStop n := by
  obtain ⟨-, asks, -⟩ := f
  intro r hr
  have fit := asks r hr
  have own := (mem_asksOf.mp hr).2
  cases r with
  | wait m k => exact absurd (beq_iff_eq.mp fit) hw
  | notify m k => exact absurd (beq_iff_eq.mp fit) hn
  | undoStop m => rw [Option.some.inj own]
  | undoReset m => cases fit
  | signal k => cases own

/-- A channel that does not stand parked has no place in the parked list (R55). -/
theorem isParked_eq_false_of (f : s.flowFits n) (h : (s.chan n).activity ≠ .parked) : s.isParked n = false := by
  obtain ⟨-, -, parked, -⟩ := f
  by_contra hp
  exact h (parked (by simpa using hp))

/-- A channel not in its slice does not hold the grant (R99). -/
theorem grant_ne_of (f : s.flowFits n) (h : (s.chan n).activity ≠ .slice) : s.te.grant ≠ some n := by
  obtain ⟨-, -, -, grant, -⟩ := f
  exact fun hg => h (grant hg).1

/-- A channel with no undo of its own in progress, for it is not parked. -/
theorem undo_ne_of (o : Single n s) (h : s.isParked n = false) : ∀ x, s.su.current = some x → x.req ≠ .undoStop n := by
  intro x hx e
  rw [o.undo x hx (.inl e)] at h
  cases h

/-- A channel out of OFF where it does not rest. -/
theorem state_ne_off_of (f : s.flowFits n) (h : (s.chan n).activity ≠ .rest) : (s.chan n).state ≠ .off := by
  obtain ⟨-, -, -, -, state, -⟩ := f
  exact fun e => h (state e)

/-- A channel engaged with no unit, and with nothing at FU, has asked for nothing. -/
theorem unasked_of (h : s.flowAt n) (hr : (s.chan n).reset = .off) (hj : s.jobsOf n = [])
    (ha : engaged (s.chan n).activity = false) : Unasked n s := by
  have f := flowAt_fits h hr
  have ne : ∀ a, engaged a = true → (s.chan n).activity ≠ a := by
    rintro a he rfl
    rw [he] at ha
    cases ha
  have parked := isParked_eq_false_of f (ne _ rfl)
  exact ⟨hj, asksOf_eq_undo f (ne _ rfl) (ne _ rfl), (flowAt_single h).ask, undo_ne_of (flowAt_single h) parked, parked,
    grant_ne_of f (ne _ rfl), hr⟩

/-- A channel that waits for no unit has asked for nothing. -/
theorem unasked_of_free (h : s.flowAt n) (hr : (s.chan n).reset = .off) (hf : atFu (s.chan n).activity = false)
    (ha : engaged (s.chan n).activity = false) : Unasked n s :=
  unasked_of h hr (jobsOf_eq_nil (flowAt_fits h hr) hf) ha

end Standing

/-! ## Reactions of a channel that keeps to its flow -/

section Kept

variable {n : ChanId} {s : State}

theorem flowAt_goOn (h : s.flowAt n) : (goOn n s).flowAt n := by
  unfold goOn
  dsimp only
  split
  · exact h
  · rename_i hr
    have hr : (s.chan n).reset = .off := not_not.mp (mt bne_iff_ne.mpr hr)
    have f := flowAt_fits h hr
    have free : ∀ {a}, (s.chan n).activity = a → atFu a = false → engaged a = false → a ≠ .rest →
        Unasked n s ∧ (s.chan n).state ≠ .off := by
      rintro a rfl hf he hne
      exact ⟨unasked_of_free h hr hf he, state_ne_off_of f hne⟩
    split
    · obtain ⟨u, on⟩ := free ‹_› rfl rfl (by simp)
      split
      · exact u.prewaitPoint on
      · exact u.postingPoint on
    · obtain ⟨u, on⟩ := free ‹_› rfl rfl (by simp)
      exact u.fetchPoint on
    · obtain ⟨u, on⟩ := free ‹_› rfl rfl (by simp)
      exact u.notifyPoint on
    · obtain ⟨u, on⟩ := free ‹_› rfl rfl (by simp)
      exact u.readyPoint on
    all_goals exact h

/-- FU's answer, once FU is free of it, finds the channel with nothing there (R49). -/
theorem flowAt_fuAnswered {j : FuJob} (h : s.flowAt j.chan) (hj : (s.chan j.chan).reset = .off → s.jobsOf j.chan = [])
    (hk : (s.chan j.chan).reset = .off → j.kind.fits (s.chan j.chan).activity = true) (g : Got 4736) :
    (fuAnswered j g s).flowAt j.chan := by
  unfold fuAnswered
  dsimp only
  split
  · exact h
  · rename_i hr
    have hr : (s.chan j.chan).reset = .off := not_not.mp (mt bne_iff_ne.mpr hr)
    have waits := atFu_of_fits (hk hr)
    have u := unasked_of h hr (hj hr) (not_engaged_of_atFu waits)
    have on : (s.chan j.chan).state ≠ .off :=
      state_ne_off_of (flowAt_fits h hr) (by intro e; rw [e] at waits; cases waits)
    split
    · exact u.contextAnswered on _ _
    · exact u.linkAnswered on _ _
    · split
      · exact u.headerAnswered on _ _ _
      · exact h
    · split
      · exact u.bodyAnswered on _ _ _ _
      · exact h
    · split
      · exact u.acceptanceAnswered on _ _
      · exact h
    · exact u.doneAnswered on _
    · exact u.doneRewriteAnswered on _
    · exact u.askSave on _ rfl
    · exact u.skippedAnswered
    · exact u.saveAnswered

theorem flowAt_drainAnswered (h : s.flowAt n) : (drainAnswered n s).flowAt n := by
  cases hr : (s.chan n).reset with
  | drain =>
    obtain ⟨jobs, grant, asks, parked⟩ := flowAt_drain h hr
    have off : drainAnswered n s = s.setChan n Channel.off := by simp [drainAnswered, hr]
    have u : Unasked n (s.setChan n Channel.off) :=
      ⟨jobs, by rw [asksOf_setChan, asks]; simp, by rw [asksOf_setChan, asks]; simp,
        undo_ne_of ⟨by simp [jobs], by simp [asks], by simp [asks], (flowAt_single h).undo⟩ parked, parked, grant,
        by rw [chan_setChan]; rfl⟩
    rw [off]
    exact u.flowAt fun _ => by rw [chan_setChan]; rfl
  | settling => simpa [drainAnswered, hr] using h
  | undo => simpa [drainAnswered, hr] using h
  | off =>
    have f := flowAt_fits h hr
    have stays : (∀ a, (s.chan n).activity = a → a ≠ .finishDrain ∧ a ≠ .stopDrain ∧ a ≠ .haltDrain) →
        drainAnswered n s = s := by
      intro ha
      obtain ⟨h1, h2, h3⟩ := ha _ rfl
      unfold drainAnswered
      simp only [hr]
    by_cases he : engaged (s.chan n).activity = true ∨ atFu (s.chan n).activity = true
    · rw [stays]
      · exact h
      · rintro a rfl
        rcases he with he | he <;> refine ⟨?_, ?_, ?_⟩ <;> intro e <;> rw [e] at he <;> cases he
    · simp only [not_or, Bool.not_eq_true] at he
      obtain ⟨-, -, -, -, state, -⟩ := f
      exact (unasked_of_free h hr he.2 he.1).drainAnswered state

end Kept

end Sys2Proof.Flow
end

section
/-! SUPPORT. Commands and SU's answers keep every channel to one request at FU and one at SU, and none in the parked list
twice. -/

namespace Sys2Proof.Flow

open Sys2Proof Sys2Proof.Machine Sys2Proof.Laws

/-! ## Channel commands -/

section Commands

variable {n : ChanId} {s : State}

/-- A channel at rest has asked for nothing. -/
theorem unasked_of_rest (h : s.flowAt n) (hr : (s.chan n).reset = .off) (ha : (s.chan n).activity = .rest) : Unasked n s :=
  unasked_of_free h hr (by rw [ha]; rfl) (by rw [ha]; rfl)

theorem flowAt_takeStart (h : s.flowAt n) (hr : (s.chan n).reset = .off) : (takeStart n s).flowAt n := by
  unfold takeStart
  split
  · rename_i hs
    split
    · obtain ⟨-, -, -, -, state, -⟩ := flowAt_fits h hr
      have u := (unasked_of_rest h hr (state hs)).setChan (c := { Channel.off with state := .postwait }) rfl
      exact u.askFu (by simp) rfl _
    · exact h
  · exact h

/-- A pending stop changes nothing of what the channel has asked for. -/
theorem flowAt_stopPending (h : s.flowAt n) : (s.setChan n { s.chan n with stopPending := true }).flowAt n := by
  have same : Less n s (s.setChan n { s.chan n with stopPending := true }) := less_of_eq h rfl rfl rfl rfl id
  refine same.flowAt h (by simp) fun hr => ?_
  rw [chan_setChan] at hr
  obtain ⟨jobs, asks, parked, grant, state, -⟩ := flowAt_fits h hr
  unfold State.flowFits
  rw [chan_setChan]
  exact ⟨jobs, asks, parked, grant, state, fun _ _ => rfl⟩

/-- A parked channel with a stop pending and nothing at SU asks for its undo (R40). -/
theorem flowAt_queueUndo (h : s.flowAt n) (hr : (s.chan n).reset = .off)
    (hstop : (s.chan n).stopPending = true) (ha : s.asksOf n = []) : (s.queueSu (.undoStop n)).flowAt n := by
  have asks : (s.queueSu (.undoStop n)).asksOf n = [.undoStop n] := by
    rw [asksOf_queueSu (r := .undoStop n) rfl, ha]; rfl
  have one := flowAt_single h
  obtain ⟨jobs, -, parked, grant, state, -⟩ := flowAt_fits h hr
  refine flowAt_off ⟨one.job, by simp [asks], fun k hk => ?_, one.undo⟩ hr
    ⟨jobs, fun r hr => ?_, parked, grant, state, fun _ _ => hstop⟩
  · rw [asks] at hk; simp at hk
  · rw [asks, List.mem_singleton] at hr; rw [hr]; rfl

/-- A parked channel with no stop pending has nothing at SU. -/
theorem asksOf_of_parked (h : s.flowAt n) (hr : (s.chan n).reset = .off) (hp : s.isParked n = true)
    (hstop : (s.chan n).stopPending = false) : s.asksOf n = [] := by
  have f := flowAt_fits h hr
  obtain ⟨-, -, parked, -, -, stop⟩ := flowAt_fits h hr
  have ha := parked hp
  refine List.eq_nil_iff_forall_not_mem.mpr fun r hr => ?_
  have := asksOf_eq_undo f (by simp [ha]) (by simp [ha]) r hr
  rw [stop (this ▸ hr) hp] at hstop
  cases hstop

theorem flowAt_takeStop (h : s.flowAt n) (hr : (s.chan n).reset = .off) : (takeStop n s).flowAt n := by
  have marked := flowAt_stopPending h
  unfold takeStop
  dsimp only
  split
  · exact h
  · split
    · exact h
    · rename_i hc
      simp only [Bool.or_eq_true, not_or, Bool.not_eq_true] at hc
      split
      · rename_i hp
        have asks : s.asksOf n = [] := asksOf_of_parked h hr hp hc.1
        exact flowAt_queueUndo marked (by simpa using hr) (by simp) asks
      · exact flowAt_goOn marked

theorem flowAt_takeResume (h : s.flowAt n) (hr : (s.chan n).reset = .off) : (takeResume n s).flowAt n := by
  unfold takeResume
  dsimp only
  split
  · rename_i ha
    simp only [Channel.atHalt, Bool.and_eq_true, beq_iff_eq] at ha
    split
    · exact h
    · have u := (unasked_of_rest h hr ha.2).setChan
        (c := { s.chan n with haltedBit := false, fault := none, faultVA := 0 }) hr
      exact u.resumeFrom
  · exact h

theorem flowAt_takeSkip (h : s.flowAt n) (hr : (s.chan n).reset = .off) : (takeSkip n s).flowAt n := by
  unfold takeSkip
  dsimp only
  split
  · split
    · rename_i ha
      simp only [Channel.atHalt, Bool.and_eq_true, Bool.or_eq_true, beq_iff_eq] at ha
      refine (unasked_of_rest h hr ha.2).askFu ?_ rfl _
      rcases ha.1 with e | e <;> simp [e]
    · exact h
  · exact h

theorem flowAt_takeReset (h : s.flowAt n) : (takeReset n s).flowAt n := by
  obtain ⟨job, ask, wait, undo⟩ := flowAt_single h
  exact flowAt_settling ⟨job, ask, wait, undo⟩ (by simp [takeReset])

theorem flowAt_takeChannelCommand (h : s.flowAt n) (hr : (s.chan n).reset = .off) (k : Command) :
    (takeChannelCommand n k s).flowAt n := by
  cases k with
  | start => exact flowAt_takeStart h hr
  | stop => exact flowAt_takeStop h hr
  | resume => exact flowAt_takeResume h hr
  | skip => exact flowAt_takeSkip h hr
  | reset => exact flowAt_takeReset h

/-! ## The steps of a reset -/

/-- The channel's reset goes on to its drain once the units hold nothing of it (R48). -/
theorem flowAt_resetDrain (o : Single n s) (hj : s.jobsOf n = []) (ha : s.asksOf n = []) (hp : s.isParked n = false)
    (hg : s.te.grant ≠ some n) : (resetDrain n s).flowAt n := by
  have reset : ((resetDrain n s).chan n).reset = .drain := by simp [resetDrain]
  exact ⟨o.job, o.ask, o.wait, o.undo, fun e => by simp [reset] at e, fun e => by simp [reset] at e,
    fun _ => ⟨hj, hg, ha, hp⟩⟩

theorem flowAt_resetGoesOn (h : s.flowAt n) (hq : s.requestsSettled n = true) : (resetGoesOn n s).flowAt n := by
  obtain ⟨⟨⟨fu, su⟩, -⟩, grant⟩ := by
    simpa only [State.requestsSettled, Bool.and_eq_true, Bool.not_eq_true', bne_iff_ne] using hq
  have jobs : s.jobsOf n = [] := by
    simp only [State.fuBusy, Bool.or_eq_false_iff] at fu
    cases hc : s.fu.current <;> simp_all [State.jobsOf, State.fuJobs]
  have asks := asksOf_of_not_suBusy su
  have one := flowAt_single h
  unfold resetGoesOn
  split
  · rename_i hp
    have reset : (((s.modChan n fun c => { c with reset := .undo }).queueSu (.undoReset n)).chan n).reset = .undo := by simp
    have undo : ((s.modChan n fun c => { c with reset := .undo }).queueSu (.undoReset n)).asksOf n = [.undoReset n] := by
      rw [asksOf_queueSu (r := .undoReset n) rfl]
      exact congrArg (· ++ _) asks
    exact ⟨one.job, by simp [undo], by simp [undo], one.undo, fun e => absurd (reset.symm.trans e) (by simp),
      fun _ => ⟨jobs, grant, by simp [undo]⟩, fun e => absurd (reset.symm.trans e) (by simp)⟩
  · rename_i hp
    exact flowAt_resetDrain one jobs asks (by simpa using hp) grant

end Commands

/-! ## The whole part -/

theorem flowOk_iff {s : State} : s.flowOk ↔ (∀ n, s.flowAt n) ∧ (s.su.parked.map Parked.chan).Nodup := by
  refine ⟨fun ⟨flow, nodup, _⟩ => ⟨flow, nodup⟩, fun ⟨flow, nodup⟩ => ⟨flow, nodup, ?_⟩⟩
  simpa using nodup.length_le_card

/-- The reaction of channel `n` keeps every channel to its flow where it keeps its own. -/
theorem flowOk_ofActs {n : ChanId} {s t : State} (a : Acts n s t) (others : ∀ m, m ≠ n → s.flowAt m)
    (nodup : (s.su.parked.map Parked.chan).Nodup) (own : t.flowAt n) : t.flowOk := by
  refine flowOk_iff.mpr ⟨fun m => ?_, ?_⟩
  · by_cases e : m = n
    · exact e ▸ own
    · exact flowAt_ofActs a e (others m e)
  · obtain ⟨l, hl, -⟩ := a.su
    rw [hl]; exact nodup

/-- The same where every channel kept to its flow before. -/
theorem flowOk_acts {n : ChanId} {s t : State} (h : s.flowOk) (a : Acts n s t) (own : t.flowAt n) : t.flowOk :=
  flowOk_ofActs a (fun m _ => (flowOk_iff.mp h).1 m) (flowOk_iff.mp h).2 own

theorem flowOk_goOn {n : ChanId} {s : State} (h : s.flowOk) : (goOn n s).flowOk :=
  flowOk_acts h (acts_goOn n s) (flowAt_goOn ((flowOk_iff.mp h).1 n))

/-- Reactions that each keep every channel to its flow do so one after another, in any order. -/
theorem flowOk_foldl {act : ChanId → State → State} (step : ∀ n s, s.flowOk → (act n s).flowOk) :
    ∀ (l : List ChanId) {s : State}, s.flowOk → (l.foldl (fun t n => act n t) s).flowOk
  | [], _, h => h
  | n :: l, s, h => flowOk_foldl step l (step n s h)

theorem flowOk_inArrivalOrder {act : ChanId → State → State} (step : ∀ n s, s.flowOk → (act n s).flowOk)
    (l : List ChanId) {s : State} (h : s.flowOk) : (s.inArrivalOrder l act).flowOk := by
  have folded := flowOk_foldl step (arrange l.length s.arrivals l) h
  exact folded

/-! ## SU's answers -/

section Answers

variable {n : ChanId} {s : State}

theorem suRequests_of_current {o : SuOp} (h : s.su.current = some o) : s.suRequests = o.req :: s.su.queue := by
  simp [State.suRequests, h]

/-- SU free of its operation holds no more of any channel. -/
theorem less_suFree (n : ChanId) (s : State) : Less n s s.suFree where
  jobs := .refl _
  asks := by
    simp only [State.asksOf, State.suRequests, State.suFree, Option.map_none, Option.toList_none, List.nil_append,
      List.filter_append]
    exact List.sublist_append_right _ _
  parked := id
  undo o ho := by cases ho
  grant := id

theorem flowAt_suFree (h : s.flowAt n) : s.suFree.flowAt n := (less_suFree n s).flowAt_same h rfl fun _ => rfl

/-- The channel whose operation has ended has nothing else at SU. -/
theorem asksOf_suFree {o : SuOp} (h : s.flowAt n) (ho : s.su.current = some o) (hc : o.req.chan = some n) :
    s.suFree.asksOf n = [] := by
  have one := (flowAt_single h).ask
  simp only [State.asksOf, suRequests_of_current ho, List.filter_cons, hc, beq_self_eq_true, if_true,
    List.length_cons] at one
  have : (s.su.queue.filter (·.chan == some n)).length = 0 := by omega
  simpa [State.asksOf, State.suRequests] using this

/-- A channel whose wait or notify has ended has asked for nothing. -/
theorem unasked_suFree {o : SuOp} (h : s.flowAt n) (hr : (s.chan n).reset = .off) (ho : s.su.current = some o)
    (hc : o.req.chan = some n) (ha : (s.chan n).activity = .waiting ∨ (s.chan n).activity = .notifying) :
    Unasked n s.suFree ∧ (s.suFree.chan n).state ≠ .off := by
  have f := flowAt_fits h hr
  have asks := asksOf_suFree h ho hc
  have ne : ∀ a, a ≠ .waiting → a ≠ .notifying → (s.chan n).activity ≠ a := by
    rintro a h1 h2 rfl
    exact ha.elim h1 h2
  have jobs : s.jobsOf n = [] := jobsOf_eq_nil f (by rcases ha with e | e <;> rw [e] <;> rfl)
  have parked : s.isParked n = false := isParked_eq_false_of f (ne _ (by simp) (by simp))
  have grant : s.te.grant ≠ some n := grant_ne_of f (ne _ (by simp) (by simp))
  have on : (s.chan n).state ≠ .off := state_ne_off_of f (ne _ (by simp) (by simp))
  exact ⟨⟨jobs, by simp [asks], by simp [asks], fun x hx => (by cases hx), parked, grant, hr⟩, on⟩

theorem waiting_of_current {o : SuOp} {k : SemId} (h : s.flowAt n) (hr : (s.chan n).reset = .off)
    (ho : s.su.current = some o) (he : o.req = .wait n k) : (s.chan n).activity = .waiting := by
  obtain ⟨-, asks, -⟩ := flowAt_fits h hr
  have fit := asks _ (mem_asksOf_current ho (by rw [he]; rfl))
  rw [he] at fit
  exact beq_iff_eq.mp fit

theorem notifying_of_current {o : SuOp} {k : SemId} (h : s.flowAt n) (hr : (s.chan n).reset = .off)
    (ho : s.su.current = some o) (he : o.req = .notify n k) : (s.chan n).activity = .notifying := by
  obtain ⟨-, asks, -⟩ := flowAt_fits h hr
  have fit := asks _ (mem_asksOf_current ho (by rw [he]; rfl))
  rw [he] at fit
  exact beq_iff_eq.mp fit

/-- With SU free, a channel taken out of the parked list leaves every channel at its place. -/
theorem less_unpark (m : ChanId) (hc : s.su.current = none) : Less n s (s.unpark m) where
  jobs := .refl _
  asks := .refl _
  parked hp := by
    by_cases e : n = m
    · rw [e, isParked_unpark] at hp; cases hp
    · rwa [isParked_unpark_ne s e] at hp
  undo o ho := by rw [show (s.unpark m).su.current = none from hc] at ho; cases ho
  grant := id

theorem flowAt_unpark (m : ChanId) (hc : s.su.current = none) (h : s.flowAt n) : (s.unpark m).flowAt n :=
  (less_unpark m hc).flowAt_same h rfl fun _ => rfl

theorem nodup_unpark (m : ChanId) (h : (s.su.parked.map Parked.chan).Nodup) :
    ((s.unpark m).su.parked.map Parked.chan).Nodup :=
  h.sublist (List.Sublist.map _ List.filter_sublist)

theorem flowOk_suFree (h : s.flowOk) : s.suFree.flowOk :=
  flowOk_iff.mpr ⟨fun m => flowAt_suFree ((flowOk_iff.mp h).1 m), (flowOk_iff.mp h).2⟩

theorem flowOk_unpark (m : ChanId) (hc : s.su.current = none) (h : s.flowOk) : (s.unpark m).flowOk :=
  flowOk_iff.mpr ⟨fun n => flowAt_unpark m hc ((flowOk_iff.mp h).1 n), nodup_unpark m (flowOk_iff.mp h).2⟩

theorem flowAt_requestFailed (h : s.flowAt n) (c : FaultCode)
    (hu : (s.chan n).reset = .off → Unasked n s ∧ (s.chan n).state ≠ .off) : (requestFailed n c s).flowAt n := by
  unfold requestFailed
  split
  · exact h
  · rename_i hr
    obtain ⟨u, on⟩ := hu (not_not.mp (mt bne_iff_ne.mpr hr))
    exact u.beginHalt on _ _

theorem flowAt_waitSucceeded (h : s.flowAt n)
    (hu : (s.chan n).reset = .off → Unasked n s ∧ (s.chan n).state ≠ .off) : (waitSucceeded n s).flowAt n := by
  unfold waitSucceeded
  dsimp only
  split
  · exact h
  · rename_i hr
    obtain ⟨u, on⟩ := hu (not_not.mp (mt bne_iff_ne.mpr hr))
    split
    · have next := u.setChan
        (c := { s.chan n with listIndex := (s.chan n).listIndex + 1, activity := .beforeWait }) u.reset
      exact next.prewaitPoint (by simpa using on)
    · exact u.enterFetch

theorem flowAt_notifyPerformed (h : s.flowAt n)
    (hu : (s.chan n).reset = .off → Unasked n s ∧ (s.chan n).state ≠ .off) : (notifyPerformed n s).flowAt n := by
  unfold notifyPerformed
  dsimp only
  split
  · exact h
  · rename_i hr
    obtain ⟨u, on⟩ := hu (not_not.mp (mt bne_iff_ne.mpr hr))
    have next := u.setChan
      (c := { s.chan n with listIndex := (s.chan n).listIndex + 1, activity := .beforeNotify }) u.reset
    exact next.notifyPoint (by simpa using on)

theorem flowAt_stopUndone (h : s.flowAt n)
    (hu : (s.chan n).reset = .off → Unasked n s ∧ (s.chan n).state ≠ .off) : (stopUndone n s).flowAt n := by
  unfold stopUndone
  split
  · exact h
  · rename_i hr
    obtain ⟨u, on⟩ := hu (not_not.mp (mt bne_iff_ne.mpr hr))
    exact (u.setActivity .beforeWait).beginStop (by simpa using on)

theorem flowAt_stopUndoFailed (h : s.flowAt n) (ha : s.asksOf n = []) : (stopUndoFailed n s).flowAt n := by
  unfold stopUndoFailed
  split
  · exact h
  · have same : Less n s ((s.modChan n fun c => { c with stopPending := false }).refuse .semaphoreError) :=
      less_of_eq h rfl rfl rfl rfl id
    refine same.flowAt h (by simp) fun hr => ?_
    have hr : (s.chan n).reset = .off := by simpa using hr
    obtain ⟨jobs, asks, parked, grant, state, -⟩ := flowAt_fits h hr
    unfold State.flowFits
    rw [chan_refuse, chan_modChan]
    refine ⟨jobs, asks, parked, grant, state, fun hu _ => ?_⟩
    rw [show ((s.modChan n _).refuse _).asksOf n = s.asksOf n from rfl, ha] at hu
    cases hu

theorem flowAt_resetUndoAnswered (h : s.flowAt n) (ha : (s.chan n).reset = .undo → s.asksOf n = [] ∧ s.isParked n = false) :
    (resetUndoAnswered n s).flowAt n := by
  unfold resetUndoAnswered
  split
  · rename_i hr
    obtain ⟨jobs, grant, -⟩ := flowAt_undo h hr
    obtain ⟨asks, parked⟩ := ha hr
    exact flowAt_resetDrain (flowAt_single h) jobs asks parked grant
  · exact h

theorem flowOk_suFailed {o : SuOp} (h : s.flowOk) (ho : s.su.current = some o) (f : SuFailure) :
    (suFailed o.req f s.suFree).flowOk := by
  have free := flowOk_suFree h
  obtain ⟨flow, -⟩ := flowOk_iff.mp h
  cases hq : o.req with
  | wait n k =>
    refine flowOk_acts free (acts_requestFailed _ _ _) (flowAt_requestFailed (flowAt_suFree (flow n)) _ fun hr => ?_)
    exact unasked_suFree (flow n) hr ho (by rw [hq]; rfl) (.inl (waiting_of_current (flow n) hr ho hq))
  | notify n k =>
    refine flowOk_acts free (acts_requestFailed _ _ _) (flowAt_requestFailed (flowAt_suFree (flow n)) _ fun hr => ?_)
    exact unasked_suFree (flow n) hr ho (by rw [hq]; rfl) (.inr (notifying_of_current (flow n) hr ho hq))
  | undoStop n =>
    have asks : s.suFree.asksOf n = [] := asksOf_suFree (flow n) ho (by rw [hq]; rfl)
    exact flowOk_acts free (acts_stopUndoFailed _ _) (flowAt_stopUndoFailed (flowAt_suFree (flow n)) asks)
  | undoReset n =>
    refine flowOk_acts (flowOk_unpark n rfl free) (acts_resetUndoAnswered _ _)
      (flowAt_resetUndoAnswered (flowAt_unpark n rfl (flowAt_suFree (flow n))) fun _ => ?_)
    have asks : s.suFree.asksOf n = [] := asksOf_suFree (flow n) ho (by rw [hq]; rfl)
    exact ⟨asks, isParked_unpark _ n⟩
  | signal k => exact free

end Answers

end Sys2Proof.Flow
end

section
/-! SUPPORT. Operations performed by SU, requests taken by SU and FU, and TE's steps keep every channel to its flow; so does every
step of the part. -/

namespace Sys2Proof.Flow

open Sys2Proof Sys2Proof.Machine Sys2Proof.Laws

/-! ## Operations performed -/

section Performed

variable {n : ChanId} {s : State}

/-- An entry of a list without channels held twice leaves its channel without one. -/
theorem not_mem_erase {l : List Parked} {e : Parked} (h : (l.map Parked.chan).Nodup) (he : e ∈ l) :
    e.chan ∉ (l.erase e).map Parked.chan := by
  have perm := (List.perm_cons_erase he).map Parked.chan
  exact (List.nodup_cons.mp (perm.nodup_iff.mp h)).1

/-- The state with an entry taken out of the parked list. -/
def woken (e : Parked) (s : State) : State := { s with su := { s.su with parked := s.su.parked.erase e } }

/-- A notify wakes nobody, or a channel of the parked list (R57). -/
theorem wakeOne_cases (lifo : Bool) (k : SemId) (c : BitVec 16) (s : State) :
    wakeOne lifo k c s = s ∨ ∃ e ∈ s.su.parked, wakeOne lifo k c s = waitSucceeded e.chan (woken e s) := by
  unfold wakeOne
  split
  · split
    · exact .inl rfl
    · rename_i e he
      refine .inr ⟨e, ?_, rfl⟩
      unfold chooseParked at he
      split at he
      · exact List.mem_reverse.mp (List.mem_of_find?_eq_some he)
      · exact List.mem_of_find?_eq_some he
  · exact .inl rfl

theorem less_woken (n : ChanId) (e : Parked) (hc : s.su.current = none) : Less n s (woken e s) where
  jobs := .refl _
  asks := .refl _
  parked := by
    simp only [State.isParked, woken, List.any_eq_true]
    rintro ⟨x, hx, hn⟩
    exact ⟨x, List.mem_of_mem_erase hx, hn⟩
  undo o ho := by rw [show (woken e s).su.current = none from hc] at ho; cases ho
  grant := id

/-- A channel woken, out of reset, has asked for nothing but an undo that has come too late (R40). -/
theorem unasked_woken {e : Parked} (h : s.flowOk) (hc : s.su.current = none) (he : e ∈ s.su.parked)
    (hr : (s.chan e.chan).reset = .off) : Unasked e.chan (woken e s) ∧ ((woken e s).chan e.chan).state ≠ .off := by
  obtain ⟨flow, nodup⟩ := flowOk_iff.mp h
  have f := flowAt_fits (flow e.chan) hr
  obtain ⟨-, -, parked, -⟩ := flowAt_fits (flow e.chan) hr
  have ha : (s.chan e.chan).activity = .parked := parked (by simpa [State.isParked] using ⟨e, he, rfl⟩)
  have jobs : s.jobsOf e.chan = [] := jobsOf_eq_nil f (by rw [ha]; rfl)
  have asks : ∀ r ∈ s.asksOf e.chan, r = .undoStop e.chan := asksOf_eq_undo f (by simp [ha]) (by simp [ha])
  have grant : s.te.grant ≠ some e.chan := grant_ne_of f (by simp [ha])
  have on : (s.chan e.chan).state ≠ .off := state_ne_off_of f (by simp [ha])
  have current : (woken e s).su.current = none := hc
  exact ⟨⟨jobs, asks, (flowAt_single (flow e.chan)).ask, fun x hx => absurd (current.symm.trans hx) (by simp),
    isParked_eq_false.mpr (not_mem_erase nodup he), grant, hr⟩, on⟩

theorem flowOk_wakeOne (lifo : Bool) (k : SemId) (c : BitVec 16) (h : s.flowOk) (hc : s.su.current = none) :
    (wakeOne lifo k c s).flowOk := by
  obtain ⟨flow, nodup⟩ := flowOk_iff.mp h
  rcases wakeOne_cases lifo k c s with e | ⟨e, he, eq⟩
  · rw [e]; exact h
  · rw [eq]
    have left : ∀ m, (woken e s).flowAt m := fun m => (less_woken m e hc).flowAt_same (flow m) rfl fun _ => rfl
    exact flowOk_ofActs (acts_waitSucceeded _ _) (fun m _ => left m)
      (nodup.sublist (List.Sublist.map _ List.erase_sublist))
      (flowAt_waitSucceeded (left _) fun hr => unasked_woken h hc he hr)

theorem flowOk_notifyEffects (d : BitVec 48) (k : SemId) (c : BitVec 16) (h : s.flowOk) (hc : s.su.current = none) :
    (notifyEffects d k c s).flowOk := by
  have wake := flowOk_wakeOne (semLifo d) k c h hc
  unfold notifyEffects offerAlert
  dsimp only
  split_ifs <;> exact wake

theorem chan_notifyEffects {d : BitVec 48} {k : SemId} {c : BitVec 16}
    (h : (wakeOne (semLifo d) k c s).chan n = s.chan n) : (notifyEffects d k c s).chan n = s.chan n := by
  unfold notifyEffects offerAlert
  dsimp only
  split_ifs <;> exact h

/-- A channel in reset takes no wake (R47). -/
theorem chan_notifyEffects_of_reset (d : BitVec 48) (k : SemId) (c : BitVec 16) (hr : (s.chan n).reset ≠ .off) :
    (notifyEffects d k c s).chan n = s.chan n := by
  refine chan_notifyEffects ?_
  rcases wakeOne_cases (semLifo d) k c s with e | ⟨e, -, eq⟩
  · rw [e]
  · rw [eq]
    by_cases ne : n = e.chan
    · subst ne
      have reset : ((woken e s).chan e.chan).reset ≠ .off := hr
      simp only [waitSucceeded, bne_iff_ne, ne_eq, reset, not_false_eq_true, if_true]
      rfl
    · exact (acts_waitSucceeded e.chan (woken e s)).others n ne

/-- The effects of a notify leave a channel that is not parked as it was. -/
theorem unasked_notifyEffects (d : BitVec 48) (k : SemId) (c : BitVec 16) (u : Unasked n s) :
    Unasked n (notifyEffects d k c s) ∧ (notifyEffects d k c s).chan n = s.chan n := by
  have wake : Unasked n (wakeOne (semLifo d) k c s) ∧ (wakeOne (semLifo d) k c s).chan n = s.chan n := by
    rcases wakeOne_cases (semLifo d) k c s with e | ⟨e, he, eq⟩
    · rw [e]; exact ⟨u, rfl⟩
    · have ne : n ≠ e.chan := by
        rintro rfl
        exact isParked_eq_false.mp u.parked (List.mem_map_of_mem he)
      have u' : Unasked n (woken e s) := by
        refine ⟨u.jobs, u.asks, u.ask, u.undo, isParked_eq_false.mpr fun hm => ?_, u.grant, u.reset⟩
        obtain ⟨x, hx, hn⟩ := List.mem_map.mp hm
        exact isParked_eq_false.mp u.parked (List.mem_map.mpr ⟨x, List.mem_of_mem_erase hx, hn⟩)
      have a := acts_waitSucceeded e.chan (woken e s)
      rw [eq]
      exact ⟨u'.ofActs a ne, a.others n ne⟩
  obtain ⟨u', hn⟩ := wake
  refine ⟨?_, chan_notifyEffects hn⟩
  unfold notifyEffects offerAlert
  dsimp only
  split_ifs <;> exact ⟨u'.jobs, u'.asks, u'.ask, u'.undo, u'.parked, u'.grant, u'.reset⟩

/-- The state with channel `n` at the end of the parked list (R54, R55). -/
def joined (n : ChanId) (k : SemId) (s : State) : State :=
  { s with su := { s.su with parked := s.su.parked ++ [⟨n, k⟩] } }

theorem isParked_joined (n m : ChanId) (k : SemId) (s : State) : (joined n k s).isParked m = (s.isParked m || n == m) := by
  simp [State.isParked, joined]

theorem flowAt_joined_ne {m : ChanId} (k : SemId) (h : s.flowAt m) (hm : m ≠ n) : (joined n k s).flowAt m := by
  have parked : (joined n k s).isParked m = s.isParked m := by simp [isParked_joined, hm.symm]
  have same : Less m s (joined n k s) := less_of_eq h rfl rfl parked rfl id
  exact same.flowAt_same h rfl fun _ => rfl

theorem nodup_joined (k : SemId) (h : (s.su.parked.map Parked.chan).Nodup) (hp : s.isParked n = false) :
    ((joined n k s).su.parked.map Parked.chan).Nodup := by
  have new := isParked_eq_false.mp hp
  have ends : (s.su.parked.map Parked.chan ++ [n]).Nodup :=
    List.nodup_append.mpr ⟨h, by simp, fun a ha b hb e => new (by rw [← List.mem_singleton.mp hb, ← e]; exact ha)⟩
  rw [joined, List.map_append]
  exact ends

/-- A channel that its wait has parked, out of reset, stands so and asks for its undo where a stop is pending (R39, R40). -/
theorem flowAt_waitParked (o : Single n s) (ha : s.asksOf n = [])
    (hr : (s.chan n).reset = .settling
      ∨ (s.chan n).reset = .off ∧ s.jobsOf n = [] ∧ s.te.grant ≠ some n ∧ (s.chan n).state ≠ .off) :
    (waitParked n s).flowAt n := by
  unfold waitParked
  dsimp only
  rcases hr with hr | ⟨hr, hj, hg, hs⟩
  · simp only [hr]
    exact flowAt_settling o hr
  · have parks : (s.setActivity n .parked).flowAt n := by
      refine flowAt_off ⟨o.job, o.ask, o.wait, o.undo⟩ (by simpa using hr)
        ⟨?_, ?_, fun _ => by simp, fun g => absurd g hg, fun e => absurd (by rwa [chan_setActivity] at e) hs, ?_⟩
      · rw [show (s.setActivity n .parked).jobsOf n = [] from hj]; simp
      · rw [show (s.setActivity n .parked).asksOf n = [] from ha]; simp
      · rw [show (s.setActivity n .parked).asksOf n = [] from ha]; simp
    simp only [hr, bne_self_eq_false, Bool.false_eq_true, if_false]
    split
    · exact flowAt_queueUndo parks (by simpa using hr) (by simpa using ‹_›) ha
    · exact parks

/-- A wait that succeeds, or parks its channel, keeps every channel to its flow (R54). -/
theorem flowOk_waitPerformed {o : SuOp} {k : SemId} (h : s.flowOk) (ho : s.su.current = some o) (hq : o.req = .wait n k)
    (c : BitVec 16) : (waitPerformed n k c s.suFree).flowOk := by
  obtain ⟨flow, nodup⟩ := flowOk_iff.mp h
  have own : o.req.chan = some n := by rw [hq]; rfl
  have mem : SuReq.wait n k ∈ s.asksOf n := hq ▸ mem_asksOf_current ho own
  have asks : s.suFree.asksOf n = [] := asksOf_suFree (flow n) ho own
  unfold waitPerformed
  split
  · exact flowOk_acts (flowOk_suFree h) (acts_waitSucceeded _ _) (flowAt_waitSucceeded (flowAt_suFree (flow n)) fun hr =>
      unasked_suFree (flow n) hr ho own (.inl (waiting_of_current (flow n) hr ho hq)))
  · have one : Single n (joined n k s.suFree) :=
      ⟨(flowAt_single (flow n)).job, by rw [show (joined n k s.suFree).asksOf n = [] from asks]; simp,
        by rw [show (joined n k s.suFree).asksOf n = [] from asks]; simp, fun x hx => (by cases hx)⟩
    refine flowOk_ofActs (acts_waitParked n (joined n k s.suFree) (by simp [isParked_joined]))
      (fun m hm => flowAt_joined_ne k (flowAt_suFree (flow m)) hm)
      (nodup_joined k nodup ((flowAt_single (flow n)).wait k mem)) (flowAt_waitParked one asks ?_)
    have stands : (s.chan n).reset = .settling
        ∨ (s.chan n).reset = .off ∧ s.jobsOf n = [] ∧ s.te.grant ≠ some n ∧ (s.chan n).state ≠ .off := by
      cases hr : (s.chan n).reset with
      | undo =>
        obtain ⟨-, -, only⟩ := flowAt_undo (flow n) hr
        exact absurd (only _ mem) (by simp)
      | drain =>
        obtain ⟨-, -, none, -⟩ := flowAt_drain (flow n) hr
        rw [none] at mem; cases mem
      | settling => exact .inl rfl
      | off =>
        have f := flowAt_fits (flow n) hr
        have ha := waiting_of_current (flow n) hr ho hq
        have jobs : s.jobsOf n = [] := jobsOf_eq_nil f (by rw [ha]; rfl)
        exact .inr ⟨rfl, jobs, grant_ne_of f (by simp [ha]), state_ne_off_of f (by simp [ha])⟩
    exact stands

theorem flowOk_suPerformed {o : SuOp} (h : s.flowOk) (ho : s.su.current = some o) (d : BitVec 48) :
    (suPerformed o d s.suFree).flowOk := by
  have free := flowOk_suFree h
  obtain ⟨flow, -⟩ := flowOk_iff.mp h
  unfold suPerformed
  split
  · exact flowOk_waitPerformed h ho ‹_› _
  · rename_i n k hq
    have all := flowOk_notifyEffects d k o.newCount free rfl
    refine flowOk_acts all (acts_notifyPerformed _ _) ?_
    refine flowAt_notifyPerformed ((flowOk_iff.mp all).1 n) fun hr => ?_
    have hr : (s.chan n).reset = .off := by
      by_contra hne
      rw [chan_notifyEffects_of_reset (s := s.suFree) d k o.newCount hne] at hr
      exact hne hr
    obtain ⟨u, on⟩ := unasked_suFree (flow n) hr ho (by rw [hq]; rfl) (.inr (notifying_of_current (flow n) hr ho hq))
    obtain ⟨u', hn⟩ := unasked_notifyEffects d k o.newCount u
    exact ⟨u', by rw [hn]; exact on⟩
  · exact flowOk_notifyEffects d _ o.newCount free rfl
  · rename_i n hq
    refine flowOk_acts (flowOk_unpark n rfl free) (acts_stopUndone _ _)
      (flowAt_stopUndone (flowAt_unpark n rfl (flowAt_suFree (flow n))) fun hr => ?_)
    have hr : (s.chan n).reset = .off := hr
    have f := flowAt_fits (flow n) hr
    obtain ⟨-, -, parked, -⟩ := flowAt_fits (flow n) hr
    have ha : (s.chan n).activity = .parked := parked ((flowAt_single (flow n)).undo o ho (.inl hq))
    have jobs : s.jobsOf n = [] := jobsOf_eq_nil f (by rw [ha]; rfl)
    have asks : s.suFree.asksOf n = [] := asksOf_suFree (flow n) ho (by rw [hq]; rfl)
    have asks : (s.suFree.unpark n).asksOf n = [] := asks
    have grant : s.te.grant ≠ some n := grant_ne_of f (by simp [ha])
    have on : (s.chan n).state ≠ .off := state_ne_off_of f (by simp [ha])
    exact ⟨⟨jobs, by simp [asks], by simp [asks], fun x hx => (by cases hx), isParked_unpark _ n, grant, hr⟩, on⟩
  · rename_i n hq
    refine flowOk_acts (flowOk_unpark n rfl free) (acts_resetUndoAnswered _ _)
      (flowAt_resetUndoAnswered (flowAt_unpark n rfl (flowAt_suFree (flow n))) fun _ => ?_)
    have asks : s.suFree.asksOf n = [] := asksOf_suFree (flow n) ho (by rw [hq]; rfl)
    exact ⟨asks, isParked_unpark _ n⟩

theorem flowOk_suAnswered {o : SuOp} (h : s.flowOk) (ho : s.su.current = some o) (g : Got 48) :
    (suAnswered o g s).flowOk := by
  unfold suAnswered
  split
  · split
    · split
      · exact flowOk_suFailed h ho _
      · obtain ⟨flow, nodup⟩ := flowOk_iff.mp h
        refine flowOk_iff.mpr ⟨fun n => ?_, nodup⟩
        have asks : (suWrite o g.data ‹_› s).asksOf n = s.asksOf n := by
          simp only [State.asksOf, suRequests_of_current ho]
          rfl
        have same : Less n s (suWrite o g.data ‹_› s) :=
          { jobs := .refl _
            asks := by rw [asks]
            parked := id
            undo := fun x hx => by
              obtain rfl := Option.some.inj hx
              exact (flowAt_single (flow n)).undo o ho
            grant := id }
        exact same.flowAt_same (flow n) rfl fun _ => rfl
    · exact flowOk_suFailed h ho _
  · split
    · exact flowOk_suPerformed h ho _
    · exact flowOk_suFailed h ho _

/-! ## Requests taken -/

/-- An undo whose record SU finds is of a parked channel (R62, R63). -/
theorem isParked_of_suTarget {r : SuReq} {k : SemId} (ht : s.suTarget r = some k) (hr : r = .undoStop n ∨ r = .undoReset n) :
    s.isParked n = true := by
  have found : (s.su.parked.find? (·.chan == n)).map Parked.sem = some k := by
    rcases hr with rfl | rfl <;> exact ht
  obtain ⟨e, he, -⟩ := Option.map_eq_some_iff.mp found
  exact List.any_eq_true.mpr ⟨e, List.mem_of_find?_eq_some he, by simpa using List.find?_some he⟩

/-- An undo for which SU finds no record is of a channel that is not parked. -/
theorem isParked_of_suTarget_none (ht : s.suTarget (.undoReset n) = none) : s.isParked n = false := by
  by_contra hp
  exact (suTarget_undo (by simpa using hp)).2 ht

theorem flowOk_suTake {r : SuReq} {q : List SuReq} (h : s.flowOk) (hc : s.su.current = none) (hq : s.su.queue = r :: q) :
    (suTake r q s).flowOk := by
  obtain ⟨flow, nodup⟩ := flowOk_iff.mp h
  have requests : s.suRequests = r :: q := by simp [State.suRequests, hc, hq]
  unfold suTake
  dsimp only
  split
  · rename_i ht
    have left : ∀ n, Less n s { s with su := { s.su with queue := q } } := fun n =>
      { jobs := .refl _
        asks := by
          simp only [State.asksOf, requests]
          simp only [State.suRequests, hc, Option.map_none, Option.toList_none, List.nil_append]
          exact (List.sublist_cons_self r q).filter _
        parked := id
        undo := fun o ho => by rw [hc] at ho; cases ho
        grant := id }
    have rest : ({ s with su := { s.su with queue := q } } : State).flowOk :=
      flowOk_iff.mpr ⟨fun n => (left n).flowAt_same (flow n) rfl fun _ => rfl, nodup⟩
    cases r with
    | wait n k => exact rest
    | notify n k => exact rest
    | undoStop n => exact flowOk_goOn rest
    | undoReset n =>
      refine flowOk_acts rest (acts_resetUndoAnswered _ _)
        (flowAt_resetUndoAnswered ((flowOk_iff.mp rest).1 n) fun _ => ⟨?_, isParked_of_suTarget_none ht⟩)
      have one := (flowAt_single (flow n)).ask
      have own : (SuReq.undoReset n).chan = some n := rfl
      simp only [State.asksOf, requests, List.filter_cons, own, beq_self_eq_true, if_true, List.length_cons] at one
      have none : (q.filter (·.chan == some n)).length = 0 := by omega
      simpa [State.asksOf, State.suRequests, hc] using none
    | signal k => exact rest
  · rename_i k ht
    refine flowOk_iff.mpr ⟨fun n => ?_, nodup⟩
    set t : State := { s with
      su := { s.su with queue := q, current := some ⟨r, k, none, 0⟩ }, mp := { s.mp with su := _ } } with htake
    have asks : t.asksOf n = s.asksOf n := by
      simp only [State.asksOf, requests]
      rfl
    have same : Less n s t :=
      { jobs := .refl _
        asks := by rw [asks]
        parked := id
        undo := fun x hx => by
          obtain rfl := Option.some.inj hx
          exact isParked_of_suTarget ht
        grant := id }
    exact same.flowAt_same (flow n) rfl fun _ => rfl

theorem flowOk_fuStep {t : State} (h : s.flowOk) (m : fuStep s = some t) : t.flowOk := by
  obtain ⟨flow, nodup⟩ := flowOk_iff.mp h
  rcases fuStep_some m with ⟨j, g, hc, -, -, rfl⟩ | ⟨j, q, hc, -, hq, rfl⟩
  · have left : ∀ n, Less n s { s with fu := { s.fu with current := none, got := none } } := fun n =>
      { jobs := by
          simp only [State.jobsOf, State.fuJobs, Option.toList_none, List.nil_append, List.filter_append]
          exact List.sublist_append_right _ _
        asks := .refl _
        parked := id
        undo := (flowAt_single (flow n)).undo
        grant := id }
    have rest : ∀ n, ({ s with fu := { s.fu with current := none, got := none } } : State).flowAt n :=
      fun n => (left n).flowAt_same (flow n) rfl fun _ => rfl
    have job : s.jobsOf j.chan = j :: s.fu.queue.filter (·.chan == j.chan) := by
      simp [State.jobsOf, State.fuJobs, hc]
    refine flowOk_ofActs (acts_fuAnswered _ j g) (fun n _ => rest n) nodup
      (flowAt_fuAnswered (rest j.chan) (fun _ => ?_) (fun hr => ?_) g)
    · have one := (flowAt_single (flow j.chan)).job
      rw [job, List.length_cons] at one
      have none : (s.fu.queue.filter (·.chan == j.chan)).length = 0 := by omega
      simpa [State.jobsOf, State.fuJobs] using none
    · obtain ⟨jobs, -⟩ := flowAt_fits (flow j.chan) hr
      exact jobs j (by rw [job]; exact List.mem_cons_self)
  · refine flowOk_iff.mpr ⟨fun n => ?_, nodup⟩
    have jobs : (fuTake j q s).jobsOf n = s.jobsOf n := by
      simp [State.jobsOf, State.fuJobs, fuTake, hc, hq]
    have same : Less n s (fuTake j q s) := less_of_eq (flow n) jobs rfl rfl rfl id
    exact same.flowAt_same (flow n) rfl fun _ => rfl

end Performed

/-! ## TE's steps -/

section Engine

variable {n : ChanId} {s : State}

/-- A slice that ends leaves its channel with nothing asked for (R103, R31). -/
theorem flowAt_endSlice (h : s.flowAt n) (hg : s.te.grant = some n) (f : Option (FaultCode × VAddr)) :
    (endSlice n f s).flowAt n := by
  unfold endSlice
  set t : State := { s with te := { s.te with grant := none, counter := 0, kind := none, purgeStep := none, step := .idle } }
  have free : Less n s t := less_of_eq h rfl rfl rfl rfl (by rintro ⟨⟩)
  have kept : t.flowAt n := free.flowAt_same h rfl (by rintro ⟨⟩)
  have chan : (t.modChan n fun c => { c with state := .ready, activity := .ready }).chan n
      = { s.chan n with state := .ready, activity := .ready } := chan_modChan _ _ _
  unfold sliceEnded
  dsimp only
  rw [chan]
  rcases reset_of_grant h hg with hr | hr
  · have fits := flowAt_fits h hr
    obtain ⟨-, -, -, grant, -⟩ := flowAt_fits h hr
    have ha := (grant hg).1
    have jobs : s.jobsOf n = [] := jobsOf_eq_nil fits (by rw [ha]; rfl)
    have asks : ∀ r ∈ s.asksOf n, r = .undoStop n := asksOf_eq_undo fits (by simp [ha]) (by simp [ha])
    have parked : s.isParked n = false := isParked_eq_false_of fits (by simp [ha])
    have undo : ∀ x, s.su.current = some x → x.req ≠ .undoStop n := undo_ne_of (flowAt_single h) parked
    have u : Unasked n t := ⟨jobs, asks, (flowAt_single h).ask, undo, parked, by rintro ⟨⟩, hr⟩
    have ready := u.modChan (f := fun c => { c with state := .ready, activity := .ready }) hr
    have on : ((t.modChan n fun c => { c with state := .ready, activity := .ready }).chan n).state ≠ .off := by simp
    simp only [hr, bne_self_eq_false, Bool.false_eq_true, if_false]
    split
    · exact ready.beginHalt on _ _
    · split_ifs
      · exact ready.beginHalt on _ _
      · exact ready.stopHere on
      · exact ready.enterFinishing
      · exact ready.stays on
  · simp only [hr, show (ResetStep.settling != ResetStep.off) = true from rfl, if_true]
    obtain ⟨job, ask, wait, undo⟩ := flowAt_single kept
    exact flowAt_settling ⟨job, ask, wait, undo⟩ (by rw [chan]; exact hr)

/-- The slice ends the same wherever TE stands in it. -/
theorem flowAt_endSlice_of_idle (h : (s.setTeStep .idle).flowAt n) (hg : s.te.grant = some n)
    (f : Option (FaultCode × VAddr)) : (endSlice n f s).flowAt n :=
  flowAt_endSlice (s := s.setTeStep .idle) h hg f

/-- In the slice of channel `n` only the first flag and TE's step matter for its flow (R74). -/
theorem flowAt_inSlice {t : State} (h : s.flowAt n) (hf : t.fu = s.fu) (hs : t.su = s.su) (hg : t.te.grant = s.te.grant)
    (hr : (t.chan n).reset = (s.chan n).reset) (ha : (t.chan n).activity = (s.chan n).activity)
    (hst : (t.chan n).state = (s.chan n).state) (hstop : (t.chan n).stopPending = (s.chan n).stopPending)
    (hi : (s.chan n).reset = .off → t.te.step.inElement = true → (t.chan n).firstFlag = false) : t.flowAt n := by
  have jobs : t.jobsOf n = s.jobsOf n := by simp only [State.jobsOf, State.fuJobs, hf]
  have asks : t.asksOf n = s.asksOf n := by simp only [State.asksOf, State.suRequests, hs]
  have parked : t.isParked n = s.isParked n := by simp only [State.isParked, hs]
  have same : Less n s t := less_of_eq h jobs asks parked (by rw [hs]) (by rw [hg]; exact id)
  refine same.flowAt h hr fun e => ?_
  have off : (s.chan n).reset = .off := hr ▸ e
  obtain ⟨fjobs, fasks, fparked, grant, state, stop⟩ := flowAt_fits h off
  unfold State.flowFits
  rw [jobs, asks, parked, ha, hst, hstop, hg]
  exact ⟨fjobs, fasks, fparked, fun g => ⟨(grant g).1, hi off⟩, state, stop⟩

/-- Within an element of the slice the first flag is 0. -/
theorem firstFlag_of (h : s.flowAt n) (hg : s.te.grant = some n) (hi : s.te.step.inElement = true) :
    (s.chan n).reset = .off → (s.chan n).firstFlag = false := by
  intro hr
  obtain ⟨-, -, -, grant, -⟩ := flowAt_fits h hr
  exact (grant hg).2 hi

theorem flowAt_askTranslation (h : s.flowAt n) {a : Access}
    (hi : a.ofElement = true → (s.chan n).reset = .off → (s.chan n).firstFlag = false) (va : VAddr) (w : Bool) :
    (askTranslation n va w a s).flowAt n :=
  flowAt_inSlice h rfl rfl rfl rfl rfl rfl rfl fun hr ha => hi ha hr

theorem flowAt_startElement (h : s.flowAt n) (hg : s.te.grant = some n)
    (hi : (s.chan n).reset = .off → (s.chan n).firstFlag = false) (m : Move) : (startElement n m s).flowAt n := by
  unfold startElement
  dsimp only
  split_ifs
  · exact flowAt_endSlice h hg _
  · exact flowAt_endSlice h hg _
  · split <;> exact flowAt_askTranslation h (fun _ => hi) _ _

theorem flowAt_moveBegun (h : s.flowAt n) (hg : s.te.grant = some n) (m : Move) (f : Option (BitVec 64)) :
    (moveBegun n m f s).flowAt n := by
  unfold moveBegun
  refine flowAt_startElement (s := s.modChan n _) ?_ hg (fun _ => by rw [chan_modChan]) m
  refine flowAt_inSlice h rfl rfl rfl ?_ ?_ ?_ ?_ fun _ _ => ?_
  all_goals rw [chan_modChan]

theorem flowAt_takeFill (h : s.flowAt n) (hg : s.te.grant = some n) (m : Move) (v : BitVec 64) :
    (takeFill n m v s).flowAt n := by
  unfold takeFill
  split
  · exact flowAt_endSlice h hg _
  · exact flowAt_moveBegun h hg m _

theorem flowAt_beginMove (h : s.flowAt n) (hg : s.te.grant = some n) (m : Move) : (beginMove n m s).flowAt n := by
  unfold beginMove
  split
  · exact flowAt_endSlice h hg _
  · split
    · exact flowAt_moveBegun h hg m _
    · exact flowAt_moveBegun h hg m _
    · split
      · exact flowAt_takeFill h hg m _
      · dsimp only
        split
        · exact flowAt_askTranslation h (fun e => by cases e) _ _
        · exact flowAt_endSlice h hg _

theorem flowAt_elementBoundary (h : s.flowAt n) (hg : s.te.grant = some n) : (elementBoundary n s).flowAt n := by
  unfold elementBoundary
  dsimp only
  split
  · exact flowAt_endSlice h hg _
  · split
    · exact flowAt_endSlice h hg _
    · split
      · exact flowAt_beginMove h hg _
      · rename_i hf
        exact flowAt_startElement h hg (fun _ => Bool.eq_false_of_not_eq_true hf) _

/-- What the CC prepares after a move leaves the channel in its slice. -/
theorem nextMove_keeps (c : Channel) :
    c.nextMove.reset = c.reset ∧ c.nextMove.activity = c.activity ∧ c.nextMove.state = c.state
      ∧ c.nextMove.stopPending = c.stopPending := by
  unfold Channel.nextMove
  split <;> exact ⟨rfl, rfl, rfl, rfl⟩

theorem flowAt_elementDone (h : s.flowAt n) (hg : s.te.grant = some n) (m : Move) (x : Bool) :
    (elementDone n m x s).flowAt n := by
  have chan : (counted n m x s).chan n = (s.chan n).performedElement m x := chan_setChan s n _
  rcases elementDone_cases n m x s with e | ⟨y, e, hy⟩
  · obtain ⟨hr, ha, hst, hstop⟩ := nextMove_keeps (((s.chan n).performedElement m x).updateCursors m)
    rw [e]
    refine flowAt_endSlice_of_idle (s := (counted n m x s).setChan n _)
      (flowAt_inSlice h rfl rfl rfl ?_ ?_ ?_ ?_ fun _ hi => by cases hi) hg none
    all_goals rw [chan_setTeStep, chan_setChan]
    · exact hr
    · exact ha
    · exact hst
    · exact hstop
  · rw [e]
    refine flowAt_inSlice h rfl rfl rfl ?_ ?_ ?_ ?_ fun _ hi => ?_
    · rw [chan_setTeStep, chan]; rfl
    · rw [chan_setTeStep, chan]; rfl
    · rw [chan_setTeStep, chan]; rfl
    · rw [chan_setTeStep, chan]; rfl
    · rcases hy with rfl | rfl <;> cases hi

/-- The state with TU free of the translation it has answered (R113). -/
def tuReleased (s : State) : State :=
  { s with tu := { s.tu with req := none, stage := .idle, root := none, descriptor := none, pageEntry := none } }

theorem flowAt_translationAnswered (h : s.flowAt n) (hg : s.te.grant = some n) {a : Access}
    (hs : s.te.step = .translating a) (m : Move) (x : TuAnswer) : (translationAnswered n m a x s).flowAt n := by
  have first : a.ofElement = true → (s.chan n).reset = .off → (s.chan n).firstFlag = false := fun ha =>
    firstFlag_of h hg (by rw [hs]; exact ha)
  have kept : (tuReleased s).flowAt n := h
  have goes : ∀ y r, (y.inElement = true → (s.chan n).reset = .off → (s.chan n).firstFlag = false) →
      (((tuReleased s).setTeStep y).queueLb r).flowAt n :=
    fun y r hy => flowAt_inSlice h rfl rfl rfl rfl rfl rfl rfl fun hr ha => hy ha hr
  unfold translationAnswered
  dsimp only
  split
  · exact flowAt_endSlice kept hg _
  · split
    · split <;> exact goes _ _ fun _ => first rfl
    all_goals exact goes _ _ first

theorem flowAt_valueRead (h : s.flowAt n) (hg : s.te.grant = some n) {a : Access}
    (first : a.ofElement = true → (s.chan n).reset = .off → (s.chan n).firstFlag = false) (m : Move) (v : BitVec 64) :
    (valueRead n m a v s).flowAt n := by
  unfold valueRead
  dsimp only
  split
  · exact flowAt_takeFill h hg m v
  · split
    · exact flowAt_askTranslation h (fun _ => first rfl) _ _
    all_goals
      split
      · exact flowAt_endSlice h hg _
      · exact flowAt_askTranslation h (fun _ => first rfl) _ _
  · exact flowAt_elementDone h hg m _
  · exact h

theorem flowAt_teAnswered (h : s.flowAt n) (hg : s.te.grant = some n) (m : Move) (g : Got 64) :
    (teAnswered n m g s).flowAt n := by
  have taken : ({ s with te := { s.te with got := none } } : State).flowAt n := h
  unfold teAnswered
  dsimp only
  split
  · rename_i a pa hs
    split
    · exact flowAt_valueRead taken hg (fun ha => firstFlag_of h hg (by rw [hs]; exact ha)) m _
    · exact flowAt_endSlice taken hg _
  · split
    · exact flowAt_elementDone taken hg m _
    · exact flowAt_endSlice taken hg _
  · exact taken

/-- TE's step keeps the channel that holds the grant to its flow. -/
theorem flowAt_teStep {t : State} (h : s.flowAt n) (hg : s.te.grant = some n) (m : teStep s = some t) : t.flowAt n := by
  unfold teStep at m
  split at m
  · rename_i k hk _
    obtain rfl : n = k := Option.some.inj (hg.symm.trans hk)
    split at m
    · cases m; exact flowAt_elementBoundary h hg
    · split at m
      · cases m; exact flowAt_endSlice h hg _
      · cases m
    · rename_i hs _
      split at m
      · cases m; exact flowAt_translationAnswered h hg hs _ _
      · cases m
    · rename_i a pa mv hs _
      split at m
      · cases m
      · cases m
        exact flowAt_inSlice h rfl rfl rfl rfl rfl rfl rfl fun hr ha => firstFlag_of (s := s) h hg (by rw [hs]; exact ha) hr
    · split at m
      · cases m
      · cases m; exact flowAt_elementDone h hg _ _
    · cases m; exact flowAt_teAnswered h hg _ _
    · cases m; exact flowAt_teAnswered h hg _ _
    · cases m
  · cases m

end Engine

/-- TE's work leaves the channels that do not hold the grant at their places. -/
theorem flowAt_ofEngages {n m : ChanId} {s t : State} (e : Engages m s t) (hg : s.te.grant = some m) (hm : n ≠ m)
    (h : s.flowAt n) : t.flowAt n := by
  obtain ⟨lf, hf, hlf⟩ := e.fu
  obtain ⟨ls, hs, hls⟩ := e.su
  have nojobs : lf.filter (·.chan == n) = [] :=
    List.filter_eq_nil_iff.mpr fun j hj => by rw [hlf j hj]; simpa using hm.symm
  have noasks : ls.filter (·.chan == some n) = [] :=
    List.filter_eq_nil_iff.mpr fun r hr => by rw [(hls r hr).1]; simpa using hm.symm
  have jobs : t.jobsOf n = s.jobsOf n := by simp [State.jobsOf, State.fuJobs, hf, List.filter_append, nojobs]
  have asks : t.asksOf n = s.asksOf n := by simp [State.asksOf, State.suRequests, hs, List.filter_append, noasks]
  have parked : t.isParked n = s.isParked n := by rw [State.isParked, hs]; rfl
  have grant : t.te.grant ≠ some n := by
    rcases e.grant with g | g
    · rw [g, hg]; simpa using hm.symm
    · rw [g]; simp
  have same : Less n s t := less_of_eq h jobs asks parked (by rw [hs]) fun g => absurd g grant
  exact same.flowAt_same h (e.others n hm) fun g => absurd g grant

/-! ## Every internal step -/

theorem flowOk_engages {n : ChanId} {s t : State} (h : s.flowOk) (hg : s.te.grant = some n) (e : Engages n s t)
    (own : t.flowAt n) : t.flowOk := by
  obtain ⟨flow, nodup⟩ := flowOk_iff.mp h
  refine flowOk_iff.mpr ⟨fun m => ?_, ?_⟩
  · by_cases hm : m = n
    · exact hm ▸ own
    · exact flowAt_ofEngages e hg hm (flow m)
  · obtain ⟨l, hs, -⟩ := e.su
    rw [hs]; exact nodup

theorem micro_flowOk {s t : State} (h : s.flowOk) (m : micro s = some t) : t.flowOk := by
  rcases micro_cases m with m | m | m | m | m | m | m | m | m | m | m
  · obtain ⟨e, l, b, -, -, rfl⟩ := fuHandOver_some m; exact h
  · obtain ⟨e, l, b, -, -, rfl⟩ := suHandOver_some m; exact h
  · obtain ⟨e, l, b, -, -, rfl⟩ := teHandOver_some m; exact h
  · obtain ⟨e, l, b, -, -, rfl⟩ := tuHandOver_some m; exact h
  · obtain ⟨e, l, b, -, -, rfl⟩ := lbHandOver_some m; exact h
  · obtain ⟨e, q, -, -, rfl⟩ := sbStep_some m; exact h
  · exact flowOk_fuStep h m
  · rcases suStep_some m with ⟨o, g, ho, -, -, rfl⟩ | ⟨r, q, hc, -, hq, rfl⟩
    · exact flowOk_suAnswered h ho g
    · exact flowOk_suTake h hc hq
  · obtain ⟨b, q, rfl, -⟩ := lbStep_frame m; exact h
  · obtain ⟨u, q, rfl, -⟩ := tuStep_frame m; exact h
  · obtain ⟨n, hg, e⟩ := teStep_engages m
    exact flowOk_engages h hg e (flowAt_teStep ((flowOk_iff.mp h).1 n) hg m)

theorem settle_flowOk {s : State} (h : s.flowOk) : (settle s).flowOk :=
  settle_induct State.flowOk (fun _ _ h m => micro_flowOk h m) h

end Sys2Proof.Flow
end

section
/-! SUPPORT. Every command keeps each channel to one request at FU and one at SU. -/

namespace Sys2Proof.Flow

open Sys2Proof Sys2Proof.Machine Sys2Proof.Laws

/-! ## Grants -/

/-- A grant gives TE the channel at a step outside any element, and leaves the other channels (R99). -/
theorem grantTo_step (n : ChanId) (s : State) :
    (grantTo n s).te.step.inElement = false ∧ ∀ m, m ≠ n → (grantTo n s).chan m = s.chan m := by
  have other : ∀ (e : Engine) m, m ≠ n →
      (({ s with te := e } : State).modChan n fun c => { c with state := .active, activity := .slice }).chan m = s.chan m :=
    fun e m hm => chan_modChan_ne { s with te := e } n m _ hm
  unfold grantTo
  dsimp only
  split
  · exact ⟨rfl, fun m hm => (chan_setActivity_ne _ n m _ hm).trans (other _ m hm)⟩
  · exact ⟨rfl, other _⟩

/-- A grant to an eligible channel begins its slice (R99). -/
theorem flowOk_grantTo {n : ChanId} {s : State} (h : s.flowOk) (he : (s.chan n).eligible = true) :
    (grantTo n s).flowOk := by
  obtain ⟨flow, nodup⟩ := flowOk_iff.mp h
  obtain ⟨⟨grant, -⟩, fu, su, -⟩ := grantTo_units n s
  obtain ⟨step, others⟩ := grantTo_step n s
  have jobs : ∀ m, (grantTo n s).jobsOf m = s.jobsOf m := fun m => by simp only [State.jobsOf, State.fuJobs, fu]
  have asks : ∀ m, (grantTo n s).asksOf m = s.asksOf m := fun m => by simp only [State.asksOf, State.suRequests, su]
  have parked : ∀ m, (grantTo n s).isParked m = s.isParked m := fun m => by simp only [State.isParked, su]
  refine flowOk_iff.mpr ⟨fun m => ?_, by rwa [su]⟩
  by_cases hm : m = n
  · subst hm
    simp only [Channel.eligible, Bool.and_eq_true, beq_iff_eq] at he
    obtain ⟨⟨⟨⟨-, ready⟩, -⟩, -⟩, reset⟩ := he
    have u := unasked_of_free (flow m) reset (by rw [ready]; rfl) (by rw [ready]; rfl)
    have one := u.single
    have chan := chan_grantTo m s
    refine flowAt_off ⟨by rw [jobs]; exact one.job, by rw [asks]; exact one.ask, fun k hk => ?_, fun o ho hr => ?_⟩
      (by rw [chan]; exact reset) ⟨?_, ?_, ?_, ?_, ?_, ?_⟩
    · rw [parked]; exact u.parked
    · rw [parked]; rw [su] at ho; exact one.undo o ho hr
    · rw [jobs, u.jobs]; simp
    · rw [asks]; intro r hr; rw [u.asks r hr]; rfl
    · rw [parked, u.parked]; simp
    · rw [chan, step]; exact fun _ => ⟨rfl, by simp⟩
    · rw [chan]; intro e; cases e
    · rw [parked, u.parked]; simp
  · have other : (grantTo n s).te.grant ≠ some m := by rw [grant]; simpa using Ne.symm hm
    have same : Less m s (grantTo n s) := less_of_eq (flow m) (jobs m) (asks m) (parked m) (by rw [su]) fun g => absurd g other
    exact same.flowAt_same (flow m) (others m hm) fun g => absurd g other

/-! ## Drains and line writes -/

/-- A mark changes nothing of what the channel has asked for (R126). -/
theorem flowOk_setMark {n : ChanId} {s : State} (h : s.flowOk) : (setMark n s).flowOk := by
  refine flowOk_acts h (acts_setMark n s) ?_
  have flow := (flowOk_iff.mp h).1 n
  unfold setMark
  dsimp only
  split
  · exact flow
  · have same : Less n s (s.setChan n { s.chan n with mark := true }) := less_of_eq flow rfl rfl rfl rfl id
    refine same.flowAt flow (by rw [chan_setChan]) fun hr => ?_
    rw [chan_setChan] at hr
    have fits := flowAt_fits flow hr
    unfold State.flowFits
    rw [chan_setChan]
    exact fits

theorem flowOk_writeOutAnswered (l : Line) (resp : WriteResp) {s : State} (h : s.flowOk) :
    (writeOutAnswered l resp s).flowOk := by
  unfold writeOutAnswered
  dsimp only
  split
  · rename_i e _
    unfold markChannels
    dsimp only
    refine flowOk_inArrivalOrder (fun n s h => flowOk_goOn h) _ ?_
    exact flowOk_foldl (fun n s h => flowOk_setMark h) e.chans h
  · exact h
  · exact h

/-- The full drain that TE waits for ends the purge slice, or lets the device write go out (R110, R83). -/
theorem flowOk_engineDrained {s : State} (h : s.flowOk) : (engineDrained s).flowOk := by
  obtain ⟨flow, nodup⟩ := flowOk_iff.mp h
  unfold engineDrained
  split
  · rename_i n hg hs
    have drains : (s.modChan n fun c => { c with phase := .drain }).flowAt n := by
      refine flowAt_inSlice (flow n) rfl rfl rfl ?_ ?_ ?_ ?_ fun _ hi => ?_
      · rw [chan_modChan]
      · rw [chan_modChan]
      · rw [chan_modChan]
      · rw [chan_modChan]
      · rw [te_modChan, hs] at hi; cases hi
    exact flowOk_engages h hg ((Engages.modChan n s _).trans (engages_endSlice n _ none))
      (flowAt_endSlice (s := s.modChan n _) drains hg none)
  · rename_i n v pa hg hs
    split
    · rename_i m _
      have first := firstFlag_of (flow n) hg (by rw [hs]; rfl)
      have issues : Engages n s (issueDeviceWrite m v pa s) :=
        Engages.units n s { s.te with step := .deviceWrite v pa } s.tu _ (.inl rfl) rfl rfl
      exact flowOk_engages h hg issues (flowAt_inSlice (flow n) rfl rfl rfl rfl rfl rfl rfl fun hr _ => first hr)
    · exact h
  · exact h

/-! ## A soft reset -/

/-- A soft reset leaves a channel where it is, or puts it into the first step of its reset (R192). -/
theorem softReset_cases (c : Channel) : c.softReset = c ∨ c.softReset.reset = .settling := by
  unfold Channel.softReset
  split
  · exact .inr rfl
  · exact .inl rfl

theorem flowOk_beginSoftReset {s : State} (h : s.flowOk) : (beginSoftReset s).flowOk := by
  obtain ⟨flow, nodup⟩ := flowOk_iff.mp h
  refine flowOk_iff.mpr ⟨fun n => ?_, nodup⟩
  have chan : (beginSoftReset s).chan n = (s.chan n).softReset := by simp [beginSoftReset, State.chan]
  have asks : (beginSoftReset s).asksOf n = s.asksOf n := by
    simp only [State.asksOf, State.suRequests, beginSoftReset, List.filter_append, List.filter_filter]
    refine congrArg _ (List.filter_congr fun r _ => ?_)
    cases r.chan <;> simp
  have same : Less n s (beginSoftReset s) := less_of_eq (flow n) rfl asks rfl rfl id
  rcases softReset_cases (s.chan n) with e | e
  · exact same.flowAt_same (flow n) (chan.trans e) fun _ => rfl
  · exact flowAt_settling (same.single (flowAt_single (flow n))) (by rw [chan, e])

/-- The last step of a soft reset clears the halted bits and leaves what the channels have asked for (R193). -/
theorem flowOk_clearPart {s : State} (h : s.flowOk) : (clearPart s).flowOk := by
  obtain ⟨flow, nodup⟩ := flowOk_iff.mp h
  refine flowOk_iff.mpr ⟨fun n => ?_, nodup⟩
  have chan : (clearPart s).chan n = { s.chan n with haltedBit := false } := by simp [clearPart, State.chan]
  have same : Less n s (clearPart s) := less_of_eq (flow n) rfl rfl rfl rfl id
  refine same.flowAt (flow n) (by rw [chan]) fun hr => ?_
  rw [chan] at hr
  have fits := flowAt_fits (flow n) hr
  unfold State.flowFits
  rw [chan]
  exact fits

/-! ## Every command -/

theorem flowOk_effect {s u : State} (h : s.flowOk) (e : Effect s u) : u.flowOk := by
  obtain ⟨flow, nodup⟩ := flowOk_iff.mp h
  cases e with
  | control v =>
    unfold setControl
    dsimp only
    split
    · exact flowOk_inArrivalOrder (fun n s h => flowOk_goOn h) _ h
    · exact h
  | softReset => exact flowOk_beginSoftReset (s := s.replied _) h
  | softDrain => exact h
  | signal r k =>
    refine flowOk_iff.mpr ⟨fun n => ?_, nodup⟩
    have asks : ((({ s with rp := r } : State).queueSu (.signal k)).asksOf n) = s.asksOf n := by
      simp only [State.asksOf, State.suRequests, State.queueSu, List.filter_append]
      simp [SuReq.chan]
    have same : Less n s (({ s with rp := r } : State).queueSu (.signal k)) := less_of_eq (flow n) rfl asks rfl rfl id
    exact same.flowAt_same (flow n) rfl fun _ => rfl
  | command r n k hr =>
    have kept : ({ s with rp := r } : State).flowOk := h
    exact flowOk_acts kept (acts_takeChannelCommand n _ k) (flowAt_takeChannelCommand ((flowOk_iff.mp kept).1 n) hr k)
  | resetStep n _ hq => exact flowOk_acts h (acts_resetGoesOn n s) (flowAt_resetGoesOn (flow n) hq)
  | fuAnswer j g l _ => exact h
  | suAnswer o g l _ => exact h
  | teAnswer n g l _ _ => exact h
  | tuAnswer q g l _ _ => exact h
  | grant n _ he => exact flowOk_grantTo h he
  | count n hg _ => exact flowOk_engages h hg (engages_endSlice n s none) (flowAt_endSlice (flow n) hg none)
  | lineWritten l resp => exact flowOk_writeOutAnswered l resp h
  | drained n _ =>
    have kept : s.lbFree.flowOk := h
    exact flowOk_acts kept (acts_drainAnswered n _) (flowAt_drainAnswered ((flowOk_iff.mp kept).1 n))
  | engineDrained _ => exact flowOk_engineDrained (s := s.lbFree) h
  | softDrained _ => exact h
  | recorded b => exact h

/-- After a hard reset every channel is OFF and no unit holds anything. -/
theorem flowOk_hardReset (s : State) : (hardReset s).flowOk := by
  refine flowOk_iff.mpr ⟨fun n => ?_, List.nodup_nil⟩
  have chan : (hardReset s).chan n = Channel.off := by simp [hardReset, State.reset, State.chan]
  have u : Unasked n (hardReset s) :=
    ⟨rfl, fun r hr => (by cases hr), Nat.zero_le _, fun o ho => (by cases ho), rfl, fun g => (by cases g), by rw [chan]; rfl⟩
  exact u.flowAt fun _ => by rw [chan]; rfl

theorem flowOk_outcome {s t : State} (h : s.flowOk) (o : Outcome s t) : t.flowOk := by
  cases o with
  | hardReset => exact flowOk_hardReset s
  | port hp => obtain ⟨r, b, x, rfl, -, -, -⟩ := hp; exact h
  | clearing => exact flowOk_clearPart h
  | window n hw => obtain ⟨-, he, -, rfl⟩ := hw; exact flowOk_grantTo h he
  | settled e => exact settle_flowOk (flowOk_effect h e)

/-- Settles O59: what a channel asks of the units fits what it waits for, reaction by reaction and unit by unit. -/
theorem channelsKeepOneRequestEach : Obligations.ChannelsKeepOneRequestEach := by
  unfold Obligations.ChannelsKeepOneRequestEach
  intro s t h m
  rcases step_outcome m with rfl | ⟨l, o⟩
  · exact h
  · exact flowOk_outcome (s := { s with pending := l }) h o

end Sys2Proof.Flow
end

section
/-! SUPPORT. The channel commands and the steps of a channel reset: what each leaves in its channel, and what it asks for. -/

namespace Sys2Proof.Commands

open Sys2Proof Sys2Proof.Machine Sys2Proof.Laws Sys2Proof.Records Sys2Proof.Flow

/-! ## What a channel asks for, and what stays of it -/

section Points

variable {n : ChanId} {s t : State}

@[simp] theorem chan_named (s : State) (n m : ChanId) : (named s n).chan m = s.chan m := rfl

/-- A request that has joined SU's queue, its record known, stays there. -/
theorem queued_of_rests {r : SuReq} (h : Rests n (s.queueSu r) t) (hr : s.suTarget r ≠ none) :
    t.chan n = s.chan n ∧ r ∈ t.suRequests := by
  refine ⟨h.chan, h.suRequests r (by simp [State.suRequests, State.queueSu]) ?_⟩
  rwa [suTarget_congr (s := s) (t := s.queueSu r) rfl]

/-- A channel that has asked SU for a wait or a notify waits so, with its request at SU. -/
theorem request_of_rests {a : Activity} {r : SuReq} (h : Rests n ((s.setActivity n a).queueSu r) t)
    (hr : (s.setActivity n a).suTarget r ≠ none) : t.chan n = { s.chan n with activity := a } ∧ r ∈ t.suRequests := by
  obtain ⟨chan, mem⟩ := queued_of_rests h hr
  exact ⟨chan.trans (chan_setActivity s n a), mem⟩

/-- A channel whose stop procedure has begun stays so, with its drain at LB (R41). -/
theorem stop_of_rests (h : Rests n (beginStop n s) t) :
    t.chan n = { s.chan n with activity := .stopDrain } ∧ LbReq.drain n ∈ t.lbRequests :=
  ⟨h.chan.trans (by simp [beginStop]), h.drains n (by simp [beginStop, State.lbRequests, State.queueLb])⟩

/-- A channel that has entered FINISHING stays so, with its drain at LB (R32). -/
theorem finishing_of_rests (h : Rests n (enterFinishing n s) t) :
    t.chan n = { s.chan n with state := .finishing, phase := .drain, listIndex := 0, activity := .finishDrain }
      ∧ LbReq.drain n ∈ t.lbRequests :=
  ⟨h.chan.trans (by simp [enterFinishing]), h.drains n (by simp [enterFinishing, State.lbRequests, State.queueLb])⟩

/-- A reset that goes on to its drain stays so, with its drain at LB (R48). -/
theorem resetDrain_of_rests (h : Rests n (resetDrain n s) t) :
    t.chan n = { s.chan n with reset := .drain } ∧ LbReq.drain n ∈ t.lbRequests :=
  ⟨h.chan.trans (by simp [resetDrain]), h.drains n (by simp [resetDrain, State.lbRequests, State.queueLb])⟩

/-- With RUN 1, nothing of the channel at SU and no stop pending, the wait at the list index is queued (R28). -/
theorem prewaitPoint_of_run {k : SemId} (hk : (s.chan n).waits[(s.chan n).listIndex]? = some k)
    (hstop : (s.chan n).stopPending = false) (hrun : s.rp.run = true) (hbusy : s.suBusy n = false) :
    prewaitPoint n s = (s.setActivity n .waiting).queueSu (.wait n k) := by
  simp [prewaitPoint, hk, hstop, hrun, hbusy]

/-- With RUN 1 and nothing of the channel at SU, the notify at the list index is queued (R34). -/
theorem notifyPoint_of_run {k : SemId} (hk : (s.chan n).notifies[(s.chan n).listIndex]? = some k) (hrun : s.rp.run = true)
    (hbusy : s.suBusy n = false) : notifyPoint n s = (s.setActivity n .notifying).queueSu (.notify n k) := by
  simp [notifyPoint, hk, hrun, hbusy]

/-- With RUN 1, no stop pending and a last task, its LINK is read (R25). -/
theorem fetchPoint_of_run {a : PAddr} (hl : (s.chan n).lastTask = some a) (hstop : (s.chan n).stopPending = false)
    (hrun : s.rp.run = true) : fetchPoint n s = s.askFu n .link (.read a 8) .linkRead := by
  simp [fetchPoint, hl, hstop, hrun]

/-- With no stop pending and no mark a channel in READY stays there (R31). -/
theorem readyPoint_of_free (hmark : (s.chan n).mark = false) (hstop : (s.chan n).stopPending = false) :
    readyPoint n s = s := by
  simp [readyPoint, hmark, hstop]

end Points

/-! ## A command taken -/

section Taken

variable {n : ChanId} {s : State} {k : Command}

/-- A command of a channel left alone is taken at once, and nothing more reaches the channel or answers its requests (R37). -/
theorem command_reaches (h : s.takesWrites) (slot : s.rp.commandSlot = none) (hr : (s.chan n).reset = .off)
    (alone : s.leftAlone n) (k : Command) :
    ∃ t, exec (k.write n) s = .next t ∧ Rests n (takeChannelCommand n k (named s n)) t ∧ t.rp.lastNamed = n := by
  obtain ⟨taken, rests⟩ := exec_taken h slot k n hr
  obtain ⟨x, hx⟩ := (acts_takeChannelCommand n (named s n) k).rp
  obtain ⟨y, l, j, hy, -⟩ := (settle_keeps (takeChannelCommand n k (named s n))).rp
  exact ⟨_, taken, rests n alone, by rw [hy, hx]; rfl⟩

/-- A command the CC refuses changes the reason and the sticky bit alone (R37). -/
theorem command_refused (h : s.takesWrites) (slot : s.rp.commandSlot = none) (hr : (s.chan n).reset = .off)
    (hs : s.isSettled) {x : Reason} (e : takeChannelCommand n k (named s n) = (named s n).refuse x) :
    exec (k.write n) s = .next ((named s n).refuse x) := by
  have refused : ((named s n).refuse x).isSettled :=
    settled_congr hs rfl rfl rfl rfl rfl rfl (.inl rfl) rfl (fun _ => rfl) (fun _ => rfl)
  rw [(exec_taken h slot k n hr).1, e, settle_of_settled refused]

/-- A command the CC ignores changes nothing but the register port. -/
theorem command_ignored (h : s.takesWrites) (slot : s.rp.commandSlot = none) (hr : (s.chan n).reset = .off)
    (hs : s.isSettled) (e : takeChannelCommand n k (named s n) = named s n) :
    exec (k.write n) s = .next (named s n) := by
  have ignored : (named s n).isSettled :=
    settled_congr hs rfl rfl rfl rfl rfl rfl (.inl rfl) rfl (fun _ => rfl) (fun _ => rfl)
  rw [(exec_taken h slot k n hr).1, e, settle_of_settled ignored]

end Taken

/-! ## START and STOP -/

/-- Settles O11: START asks FU for the context in OFF with RUN 1, and is refused otherwise. -/
theorem startDecidedByState : Obligations.StartDecidedByState := by
  unfold Obligations.StartDecidedByState
  intro n s h slot hr settled
  refine ⟨fun off run alone => ?_, fun off run => ?_, fun on => ?_⟩
  · obtain ⟨t, ht, rests, last⟩ := command_reaches h slot hr alone .start
    have starts : takeStart n (named s n) = ((named s n).setChan n { Channel.off with state := .postwait }).askFu n .context
        (.read (s.contextAddr n) 48) .contextRead := by
      unfold takeStart
      rw [chan_named, if_pos off, if_pos (show (named s n).rp.run = true from run)]
      rfl
    rw [takeChannelCommand, starts] at rests
    obtain ⟨chan, job⟩ := ask_of_rests rests
    exact ⟨t, ht, by rw [chan, chan_setChan], job, last⟩
  · refine command_refused (k := .start) h slot hr settled ?_
    unfold takeChannelCommand takeStart
    simp only [chan_named, off, show (named s n).rp.run = false from run, if_true]
    rfl
  · refine command_refused (k := .start) h slot hr settled ?_
    unfold takeChannelCommand takeStart
    simp only [chan_named, on, if_false]
    rfl

/-- STOP is refused where nothing is to be stopped (R38). -/
theorem takeStop_of_shut {n : ChanId} {s : State}
    (h : (s.chan n).state = .off ∨ (s.chan n).state = .stopped ∨ (s.chan n).state = .halted) :
    takeStop n s = s.refuse .state := by
  unfold takeStop
  exact if_pos (by simpa [or_assoc] using h)

/-- STOP is ignored while a stop is pending or a procedure runs (R38). -/
theorem takeStop_of_under {n : ChanId} {s : State} (off : (s.chan n).state ≠ .off) (stopped : (s.chan n).state ≠ .stopped)
    (halted : (s.chan n).state ≠ .halted) (h : (s.chan n).stopPending = true ∨ (s.chan n).inProcedure = true) :
    takeStop n s = s := by
  unfold takeStop
  simp only [off, stopped, halted, decide_false, Bool.or_false, Bool.false_eq_true, if_false]
  exact if_pos (by simpa using h)

/-- The stop that STOP leaves pending (R38). -/
def stopMarked (n : ChanId) (s : State) : State := s.setChan n { s.chan n with stopPending := true }

/-- STOP marks the stop, and the channel goes on with it (R38, R40). -/
theorem takeStop_of_open {n : ChanId} {s : State} (off : (s.chan n).state ≠ .off) (stopped : (s.chan n).state ≠ .stopped)
    (halted : (s.chan n).state ≠ .halted) (hstop : (s.chan n).stopPending = false) (proc : (s.chan n).inProcedure = false) :
    takeStop n s = if s.isParked n then (stopMarked n s).queueSu (.undoStop n) else goOn n (stopMarked n s) := by
  unfold takeStop
  simp only [off, stopped, halted, hstop, proc, decide_false, Bool.or_false, Bool.false_eq_true, if_false]
  rfl

/-- In READY, out of reset, with no mark and nothing at SU, a pending stop begins the stop procedure (R31, R39). -/
theorem goOn_of_ready {n : ChanId} {s : State} (hr : (s.chan n).reset = .off) (ha : (s.chan n).activity = .ready)
    (hmark : (s.chan n).mark = false) (hstop : (s.chan n).stopPending = true) (hbusy : s.suBusy n = false) :
    goOn n s = beginStop n s := by
  simp [goOn, readyPoint, stopHere, hr, ha, hmark, hstop, hbusy]

/-- Settles O12: the refusals and the ignored STOP first, then the undo of a parked channel and the stop procedure of READY. -/
theorem stopDecidedByState : Obligations.StopDecidedByState := by
  unfold Obligations.StopDecidedByState
  intro n s h slot hr settled
  refine ⟨fun shut => ?_, fun off stopped halted => ⟨fun under => ?_, fun hstop proc alone => ⟨fun parked => ?_, ?_⟩⟩⟩
  · exact command_refused (k := .stop) h slot hr settled (takeStop_of_shut (s := named s n) shut)
  · exact command_ignored (k := .stop) h slot hr settled (takeStop_of_under (s := named s n) off stopped halted under)
  · obtain ⟨t, ht, rests, -⟩ := command_reaches h slot hr alone .stop
    rw [takeChannelCommand, takeStop_of_open (s := named s n) off stopped halted hstop proc,
      if_pos (show (named s n).isParked n = true from parked)] at rests
    have marked : (stopMarked n (named s n)).isParked n = true := parked
    obtain ⟨own, undo⟩ := queued_of_rests rests (suTarget_undo marked).1
    exact ⟨t, ht, own.trans (chan_setChan _ _ _), undo⟩
  · intro parked ready mark busy
    obtain ⟨t, ht, rests, -⟩ := command_reaches h slot hr alone .stop
    have chan : (stopMarked n (named s n)).chan n = { s.chan n with stopPending := true } := chan_setChan _ _ _
    have idle : (stopMarked n (named s n)).suBusy n = false := busy
    rw [takeChannelCommand, takeStop_of_open (s := named s n) off stopped halted hstop proc,
      if_neg (by rw [show (named s n).isParked n = false from parked]; simp),
      goOn_of_ready (by rw [chan]; exact hr) (by rw [chan]; exact ready) (by rw [chan]; exact mark) (by rw [chan]) idle] at rests
    obtain ⟨own, drain⟩ := stop_of_rests rests
    exact ⟨t, ht, by rw [own, chan], drain⟩

/-! ## RESUME and SKIP -/

/-- RESUME clears the fault and the HALTED bit and goes on from the phase held (R44). -/
theorem takeResume_of_halt {n : ChanId} {s : State} (halt : (s.chan n).atHalt = true)
    (ok : ¬((s.chan n).state = .halted ∧ (s.chan n).fault = some .writeError)) :
    takeResume n s = resumeFrom n (s.setChan n { s.chan n with haltedBit := false, fault := none, faultVA := 0 }) := by
  unfold takeResume
  simp only [halt, if_true]
  rw [if_neg (by simpa using ok)]

section Resumed

variable {n : ChanId} {s : State}

/-- Without a valid context the channel reads its context again (R44). -/
theorem resumeFrom_of_invalid (h : (s.chan n).contextValid = false) :
    resumeFrom n s = (s.setChan n { s.chan n with state := .postwait, phase := .post, listIndex := 0 }).askFu n .context
      (.read (s.contextAddr n) 48) .contextRead := by
  simp [resumeFrom, h]

theorem resumeFrom_of_post (h : (s.chan n).contextValid = true) (hp : (s.chan n).phase = .post) :
    resumeFrom n s = enterPosting n s := by
  simp [resumeFrom, h, hp]

theorem resumeFrom_of_fetch (h : (s.chan n).contextValid = true) (hp : (s.chan n).phase = .fetch) :
    resumeFrom n s = enterFetch n s := by
  simp [resumeFrom, h, hp]

theorem resumeFrom_of_prewait (h : (s.chan n).contextValid = true) (hp : (s.chan n).phase = .prewait) :
    resumeFrom n s = prewaitPoint n (s.setChan n { s.chan n with state := .prewait, activity := .beforeWait }) := by
  simp [resumeFrom, h, hp]

theorem resumeFrom_of_work (h : (s.chan n).contextValid = true)
    (hp : (s.chan n).phase = .move ∨ (s.chan n).phase = .purge) :
    resumeFrom n s = s.setChan n { s.chan n with state := .ready, activity := .ready } := by
  rcases hp with hp | hp <;> simp [resumeFrom, h, hp]

theorem resumeFrom_of_drain (h : (s.chan n).contextValid = true) (hp : (s.chan n).phase = .drain) :
    resumeFrom n s = enterFinishing n s := by
  simp [resumeFrom, h, hp]

theorem resumeFrom_of_status (h : (s.chan n).contextValid = true) (hp : (s.chan n).phase = .status) :
    resumeFrom n s = askStatus n .done (s.chan n).doneImage .doneWrite
      (s.setChan n { s.chan n with state := .finishing, resumedNotify := false }) := by
  simp [resumeFrom, h, hp]

theorem resumeFrom_of_notify (h : (s.chan n).contextValid = true) (hp : (s.chan n).phase = .notify) :
    resumeFrom n s = notifyPoint n
      (s.setChan n { s.chan n with state := .finishing, resumedNotify := true, activity := .beforeNotify }) := by
  simp [resumeFrom, h, hp]

end Resumed

/-- Settles O13: one case for a channel without a valid context, and one for each phase held. -/
theorem resumeGoesOnInPhaseHeld : Obligations.ResumeGoesOnInPhaseHeld := by
  unfold Obligations.ResumeGoesOnInPhaseHeld
  intro n s c h slot hr halt ok alone idle runs free mark hc
  obtain ⟨t, ht, rests, -⟩ := command_reaches h slot hr alone .resume
  rw [takeChannelCommand, takeResume_of_halt (s := named s n) halt ok, chan_named, ← hc] at rests
  have chan : ((named s n).setChan n c).chan n = c := chan_setChan _ _ _
  have stop : c.stopPending = false := by rw [hc]; exact free
  have run : ∀ x, (((named s n).setChan n c).setChan n x).rp.run = true := fun _ => runs
  have busy : ∀ x, (((named s n).setChan n c).setChan n x).suBusy n = false := fun _ => idle
  refine ⟨t, ht, fun valid => ?_, fun valid => ?_⟩
  · rw [resumeFrom_of_invalid (by rw [chan]; exact valid), chan] at rests
    obtain ⟨own, job⟩ := ask_of_rests rests
    exact ⟨by rw [own, chan_setChan], job⟩
  · have valid : (((named s n).setChan n c).chan n).contextValid = true := by rw [chan]; exact valid
    refine ⟨fun phase => ?_, fun a phase last => ?_, fun k phase wait => ?_, fun phase => ?_, fun phase => ?_,
      fun a phase current => ?_, fun k phase notify => ?_⟩
    · rw [resumeFrom_of_post valid (by rw [chan]; exact phase), enterPosting, State.modChan, chan,
        postingPoint_of_run (by rw [chan_setChan]; exact stop) (run _) (busy _)] at rests
      obtain ⟨own, wait⟩ := request_of_rests rests (by simp [State.suTarget])
      rw [chan_setChan] at own wait
      exact ⟨own, wait⟩
    · rw [resumeFrom_of_fetch valid (by rw [chan]; exact phase), enterFetch, State.modChan, chan,
        fetchPoint_of_run (by rw [chan_setChan]; exact last) (by rw [chan_setChan]; exact stop) (run _)] at rests
      obtain ⟨own, job⟩ := ask_of_rests rests
      exact ⟨by rw [own, chan_setChan], job⟩
    · rw [resumeFrom_of_prewait valid (by rw [chan]; exact phase), chan, prewaitPoint_of_run (k := k)
        (by rw [chan_setChan]; exact wait) (by rw [chan_setChan]; exact stop) (run _) (busy _)] at rests
      obtain ⟨own, request⟩ := request_of_rests rests (by simp [State.suTarget])
      exact ⟨by rw [own, chan_setChan], request⟩
    · rw [resumeFrom_of_work valid (by rw [chan]; exact phase), chan] at rests
      rw [rests.chan, chan_setChan]
    · rw [resumeFrom_of_drain valid (by rw [chan]; exact phase)] at rests
      obtain ⟨own, drain⟩ := finishing_of_rests rests
      exact ⟨by rw [own, chan], drain⟩
    · rw [resumeFrom_of_status valid (by rw [chan]; exact phase), chan, askStatus, chan_setChan] at rests
      obtain ⟨own, job⟩ := ask_of_rests rests
      rw [show ({ c with state := .finishing, resumedNotify := false } : Channel).current = some a from current] at job
      exact ⟨by rw [own, chan_setChan], job⟩
    · rw [resumeFrom_of_notify valid (by rw [chan]; exact phase), chan, notifyPoint_of_run (k := k)
        (by rw [chan_setChan]; exact notify) (run _) (busy _)] at rests
      obtain ⟨own, request⟩ := request_of_rests rests (by simp [State.suTarget])
      exact ⟨by rw [own, chan_setChan], request⟩

/-- SKIP is refused where no task stands at a halt (R46). -/
theorem takeSkip_of_shut {n : ChanId} {s : State} (h : (s.chan n).atHalt = false ∨ (s.chan n).current = none) :
    takeSkip n s = s.refuse .state := by
  unfold takeSkip
  dsimp only
  split
  · rename_i a current
    have halt : (s.chan n).atHalt = false := h.resolve_right (by rw [current]; simp)
    simp only [halt, Bool.false_eq_true, if_false]
    rfl
  · rfl

/-- Settles O14: SKIP asks FU for the SKIPPED write; the refusals follow from the channel's state. -/
theorem skipTakenAndRefusals : Obligations.SkipTakenAndRefusals := by
  unfold Obligations.SkipTakenAndRefusals
  rintro n s _ h slot hr settled rfl
  refine ⟨fun a halt current alone => ?_, fun shut => ?_, fun shut => ?_, fun halt halted fault => ?_⟩
  · obtain ⟨t, ht, rests, -⟩ := command_reaches h slot hr alone .skip
    have image : putByte 0 OutcomeCode.skipped.code = 4 := by simp [putByte, put, OutcomeCode.code]
    have skips : takeSkip n (named s n) = (named s n).askFu n .skipped (.write (a + 16) 1 4) .skipWrite := by
      unfold takeSkip
      simp only [chan_named, current, halt, if_true, skippedWrite, image]
    rw [takeChannelCommand, skips] at rests
    exact ⟨t, ht, ask_of_rests (s := named s n) rests⟩
  · exact command_refused (k := .skip) h slot hr settled (takeSkip_of_shut (s := named s n) shut)
  · refine command_refused (k := .resume) h slot hr settled ?_
    unfold takeChannelCommand takeResume
    simp only [chan_named, shut, Bool.false_eq_true, if_false]
    rfl
  · refine command_refused (k := .resume) h slot hr settled ?_
    unfold takeChannelCommand takeResume
    simp only [chan_named, halt, halted, fault, decide_true, Bool.and_self, if_true]
    rfl

/-! ## RESET -/

/-- A channel command begun in a state that names its channel and has replied leaves the state so. -/
theorem named_of_named {n : ChanId} {s : State} (last : s.rp.lastNamed = n) (reply : s.rp.reply = ⟨false, 0⟩) :
    named s n = s := by
  subst last
  unfold named
  rw [← reply]

/-- Settles O15: a reset begins, goes on to its undo or its drain, and the command held is then taken as if it were written. -/
theorem resetGoesOnAndHeldCommandTaken : Obligations.ResetGoesOnAndHeldCommandTaken := by
  unfold Obligations.ResetGoesOnAndHeldCommandTaken
  intro n s alone
  refine ⟨fun h slot hr => ?_, fun hr quiet => ?_, fun k slot hr => ?_⟩
  · obtain ⟨t, ht, rests, -⟩ := command_reaches h slot hr alone .reset
    exact ⟨t, ht, rests.chan.trans (by simp [takeChannelCommand, takeReset])⟩
  · have due : exec (.resetRequestsSettled n) s = .next (settle (resetGoesOn n s)) := by
      simp only [exec, execResetRequestsSettled, hr, quiet, decide_true, Bool.and_self, if_true, settled]
    have rests := settle_leftAlone (acts_leftAlone (acts_resetGoesOn n s) alone)
    refine ⟨fun parked => ⟨_, due, ?_⟩, fun parked => ⟨_, due, ?_⟩⟩
    · have undoes : resetGoesOn n s = (s.modChan n fun c => { c with reset := .undo }).queueSu (.undoReset n) := by
        simp [resetGoesOn, parked]
      rw [undoes] at rests ⊢
      have still : (s.modChan n fun c => { c with reset := .undo }).isParked n = true := parked
      obtain ⟨own, undo⟩ := queued_of_rests rests (suTarget_undo still).2
      exact ⟨own.trans (chan_modChan _ _ _), undo⟩
    · have drains : resetGoesOn n s = resetDrain n s := by simp [resetGoesOn, parked]
      rw [drains] at rests ⊢
      exact resetDrain_of_rests rests
  · set u : State := { s with rp := { s.rp with commandSlot := none } } with hu
    have due : exec .pendingCommandTake s = .next (settle (takeChannelCommand n k u)) := by
      simp only [exec, execPendingCommandTake, slot, hr, if_true, settled, hu]
    refine ⟨_, due, ?_, fun h last reply => ?_⟩
    · obtain ⟨x, hx⟩ := (acts_takeChannelCommand n u k).rp
      obtain ⟨y, l, j, hy, -⟩ := (settle_keeps (takeChannelCommand n k u)).rp
      rw [hy, hx]
    · have taken := (exec_taken (s := u) h rfl k n hr).1
      rwa [named_of_named (s := u) last reply] at taken

end Sys2Proof.Commands
end

section
/-! SUPPORT. MP's answers to FU's reads of links and to the writes of a record's acceptance, end and SKIP, and the drains of a
channel: what each leaves in the channel, and what it asks for. -/

namespace Sys2Proof.Commands

open Sys2Proof Sys2Proof.Machine Sys2Proof.Laws Sys2Proof.Records Sys2Proof.Flow

/-! ## What FU's answer is to the channel -/

section Answers

variable {n : ChanId} {s : State} {req : MpReq} {g : Got 4736}

theorem fuAnswered_link (h : (s.chan n).reset = .off) :
    fuAnswered ⟨n, .link, req⟩ g s = linkAnswered n g.resp (g.data.setWidth 64) s := by
  simp [fuAnswered, h]

theorem fuAnswered_acceptance {a : PAddr} (h : (s.chan n).reset = .off) (ha : (s.chan n).activity = .accepting a) :
    fuAnswered ⟨n, .acceptance, req⟩ g s = acceptanceAnswered n a (g.resp == .okay) s := by
  simp [fuAnswered, h, ha]

theorem fuAnswered_done (h : (s.chan n).reset = .off) :
    fuAnswered ⟨n, .done, req⟩ g s = doneAnswered n (g.resp == .okay) s := by
  simp [fuAnswered, h]

theorem fuAnswered_doneRewrite (h : (s.chan n).reset = .off) :
    fuAnswered ⟨n, .doneRewrite, req⟩ g s = doneRewriteAnswered n (g.resp == .okay) s := by
  simp [fuAnswered, h]

theorem fuAnswered_skipped (h : (s.chan n).reset = .off) : fuAnswered ⟨n, .skipped, req⟩ g s = skippedAnswered n s := by
  simp [fuAnswered, h]

end Answers

/-! ## The LINK and reads that fail -/

/-- A link is followed to the record's address, on 64 bytes below 2^40, and no other link is followed (R25). -/
theorem linkOf_eq (d : BitVec 64) :
    linkOf d = if d ≠ 0 ∧ d.toNat % 64 = 0 ∧ d.toNat < 2 ^ 40 then some (d.setWidth 40) else none := by
  unfold linkOf
  rw [← ite_not]
  refine if_congr ?_ rfl rfl
  rw [← lineAddress_iff]
  simp [and_assoc]

/-- Settles O19: a good LINK leads to the header read at its address, a bad one to CHAIN_BROKEN. -/
theorem linkAnswerIsFollowed : Obligations.LinkAnswerIsFollowed := by
  unfold Obligations.LinkAnswerIsFollowed
  intro n req resp d s h good
  obtain ⟨b, q, t, ht, hreset, rests⟩ := fuAnswer_reaches h resp (d.setWidth 4736)
  rw [fuAnswered_link hreset, BitVec.setWidth_setWidth_of_le _ (by omega), BitVec.setWidth_eq] at rests
  simp only [linkAnswered, good, if_true, followLink] at rests
  refine ⟨t, ht, fun nonzero aligned below => ?_, fun bad => ?_⟩
  · rw [linkOf_eq, if_pos ⟨nonzero, aligned, below⟩] at rests
    exact ask_of_rests (s := fuFreed s b q) rests
  · have broken : ¬(d ≠ 0 ∧ d.toNat % 64 = 0 ∧ d.toNat < 2 ^ 40) := by
      rintro ⟨nonzero, aligned, below⟩
      rcases bad with e | e | e
      · exact nonzero e
      · exact e aligned
      · omega
    rw [linkOf_eq, if_neg broken] at rests
    exact halt_of_rests (s := fuFreed s b q) rests

/-- Settles O26: whichever record was read, the channel halts with FETCH_ERROR. -/
theorem failedRecordReadsHalt : Obligations.FailedRecordReadsHalt := by
  unfold Obligations.FailedRecordReadsHalt
  intro n req resp s bad
  refine ⟨fun h d => ?_, fun h d => ?_, fun a h ha d => ?_, fun a hd h ha d => ?_⟩
  · obtain ⟨b, q, t, ht, hreset, rests⟩ := fuAnswer_reaches h resp (d.setWidth 4736)
    rw [fuAnswered_context hreset, contextAnswered, if_neg (by simp [bad])] at rests
    exact ⟨t, ht, halt_of_rests (s := fuFreed s b q) rests⟩
  · obtain ⟨b, q, t, ht, hreset, rests⟩ := fuAnswer_reaches h resp (d.setWidth 4736)
    rw [fuAnswered_link hreset, linkAnswered, if_neg (by simp [bad])] at rests
    exact ⟨t, ht, halt_of_rests (s := fuFreed s b q) rests⟩
  · obtain ⟨b, q, t, ht, hreset, rests⟩ := fuAnswer_reaches h resp (d.setWidth 4736)
    rw [fuAnswered_header hreset ha, headerAnswered, if_neg (by simp [bad])] at rests
    exact ⟨t, ht, halt_of_rests (s := fuFreed s b q) rests⟩
  · obtain ⟨b, q, t, ht, hreset, rests⟩ := fuAnswer_reaches h resp d
    rw [fuAnswered_body hreset ha, bodyAnswered, if_neg (by simp [bad])] at rests
    exact ⟨t, ht, halt_of_rests (s := fuFreed s b q) rests⟩

/-! ## The acceptance write -/

section Tasks

variable {n : ChanId} {s t : State}

theorem prewaitPoint_past (h : (s.chan n).waits[(s.chan n).listIndex]? = none) : prewaitPoint n s = enterWork n s := by
  simp [prewaitPoint, h]

theorem notifyPoint_past (h : (s.chan n).notifies[(s.chan n).listIndex]? = none) (hr : (s.chan n).resumedNotify = false) :
    notifyPoint n s = taskEnd n s := by
  simp [notifyPoint, h, hr]

/-- Past its last wait a TRANSFER applies its preloads and stands in READY before its first move (R29). -/
theorem enterWork_of_transfer {task : Task} {m : Move} {rest : List Move} (ht : (s.chan n).task = some task)
    (hw : task.work = .transfer (m :: rest)) (hmark : (s.chan n).mark = false) (hstop : (s.chan n).stopPending = false) :
    (enterWork n s).chan n = ({ s.chan n with
      state := .ready, phase := .move, activity := .ready, listIndex := 0
      cursors := applyPreloads (s.chan n).cursors task.preloads } : Channel).prepareMove 0 m := by
  unfold enterWork
  simp only [ht, hw]
  rw [readyPoint_of_free (by simpa [Channel.prepareMove] using hmark) (by simpa [Channel.prepareMove] using hstop)]
  simp [Channel.prepareMove, ht]

/-- A task that ends with neither a pause nor a stop goes on to the posting wait of the next (R35). -/
theorem taskEnd_of_plain (hpause : ((s.chan n).task.map Task.pauseAfter).getD false = false)
    (hstop : (s.chan n).stopPending = false) :
    taskEnd n s = enterPosting n
      (s.setChan n { (s.chan n).clearTask with phase := .post, listIndex := 0, activity := .beforeWait }) := by
  simp [taskEnd, hpause, hstop]

/-- A task with PAUSE_AFTER ends with the stop procedure (R35). -/
theorem taskEnd_of_pause (hpause : ((s.chan n).task.map Task.pauseAfter).getD false = true) :
    taskEnd n s = beginStop n
      (s.setChan n { (s.chan n).clearTask with phase := .post, listIndex := 0, activity := .beforeWait }) := by
  simp [taskEnd, hpause]

/-- A channel that enters its posting wait with RUN 1, nothing of it at SU and no stop pending waits so (R24). -/
theorem enterPosting_of_rests (h : Rests n (enterPosting n s) t) (hstop : (s.chan n).stopPending = false)
    (hrun : s.rp.run = true) (hbusy : s.suBusy n = false) :
    t.chan n = { s.chan n with state := .postwait, phase := .post, listIndex := 0, activity := .waiting }
      ∧ SuReq.wait n (s.chan n).posting ∈ t.suRequests := by
  rw [enterPosting, postingPoint_of_run (by rw [chan_modChan]; exact hstop) (by exact hrun) (by exact hbusy)] at h
  obtain ⟨own, wait⟩ := request_of_rests h (by simp [State.suTarget])
  rw [chan_modChan] at own wait
  exact ⟨own, wait⟩

end Tasks

/-- Settles O22: the acceptance write answered OKAY leads to the first wait or into the work, ERROR to STATUS_WRITE. -/
theorem acceptanceTakesRecord : Obligations.AcceptanceTakesRecord := by
  unfold Obligations.AcceptanceTakesRecord
  rintro n a pa strobes image s task _ h ha htask rfl
  refine ⟨fun k rest waits run busy stop => ?_, fun m rest waits work stop mark => ?_, ?_⟩
  · obtain ⟨b, q, t, ht, hreset, rests⟩ := fuAnswer_reaches h .okay 0
    rw [fuAnswered_acceptance hreset ha, acceptanceAnswered, if_pos (by rfl), State.modChan, chan_fuFreed,
      prewaitPoint_of_run (k := k) (by rw [chan_setChan]; simp [Channel.waits, htask, waits])
        (by rw [chan_setChan]; exact stop) (by exact run) (by exact busy)] at rests
    obtain ⟨own, wait⟩ := request_of_rests rests (by simp [State.suTarget])
    exact ⟨t, ht, by rw [own, chan_setChan], wait⟩
  · obtain ⟨b, q, t, ht, hreset, rests⟩ := fuAnswer_reaches h .okay 0
    rw [fuAnswered_acceptance hreset ha, acceptanceAnswered, if_pos (by rfl), State.modChan, chan_fuFreed,
      prewaitPoint_past (by rw [chan_setChan]; simp [Channel.waits, htask, waits])] at rests
    refine ⟨t, ht, rests.chan.trans ?_⟩
    rw [enterWork_of_transfer (task := task) (m := m) (rest := rest) (by rw [chan_setChan]; exact htask) work
      (by rw [chan_setChan]; exact mark) (by rw [chan_setChan]; exact stop), chan_setChan]
    rfl
  · obtain ⟨b, q, t, ht, hreset, rests⟩ := fuAnswer_reaches h .error 0
    rw [fuAnswered_acceptance hreset ha, acceptanceAnswered, if_neg (by simp [MpReq.answer])] at rests
    exact ⟨t, ht, halt_of_rests (s := fuFreed s b q) rests⟩

/-! ## The DONE writes and the SKIPPED write -/

/-- Settles O23: a DONE write leads to the notifies or the task's end, the DONE rewrite to its end, ERROR to STATUS_WRITE. -/
theorem doneAnswersGoOn : Obligations.DoneAnswersGoOn := by
  unfold Obligations.DoneAnswersGoOn
  intro n pa strobes image s
  refine ⟨fun h busy run => ⟨fun k rest notifies => ?_, fun task htask notifies pause stop resumed => ?_⟩, fun h => ?_,
    fun h => ⟨fun task htask pause => ?_, ?_⟩⟩
  · obtain ⟨b, q, t, ht, hreset, rests⟩ := fuAnswer_reaches h .okay 0
    rw [fuAnswered_done hreset, doneAnswered, if_pos (by rfl), State.modChan, chan_fuFreed, notifyPoint_of_run (k := k)
      (by rw [chan_setChan]; exact congrArg (·[0]?) notifies) (by exact run) (by exact busy)] at rests
    obtain ⟨own, notify⟩ := request_of_rests rests (by simp [State.suTarget])
    exact ⟨t, ht, by rw [own, chan_setChan], notify⟩
  · obtain ⟨b, q, t, ht, hreset, rests⟩ := fuAnswer_reaches h .okay 0
    rw [fuAnswered_done hreset, doneAnswered, if_pos (by rfl), State.modChan, chan_fuFreed,
      notifyPoint_past (by rw [chan_setChan]; simp [Channel.notifies, htask, notifies]) (by rw [chan_setChan]; exact resumed),
      taskEnd_of_plain (by rw [chan_setChan]; simp [htask, pause]) (by rw [chan_setChan]; exact stop)] at rests
    obtain ⟨own, wait⟩ := enterPosting_of_rests rests (by rw [chan_setChan, chan_setChan]; exact stop) run busy
    rw [chan_setChan, chan_setChan] at own wait
    exact ⟨t, ht, own, wait⟩
  · obtain ⟨b, q, t, ht, hreset, rests⟩ := fuAnswer_reaches h .error 0
    rw [fuAnswered_done hreset, doneAnswered, if_neg (by simp [MpReq.answer])] at rests
    exact ⟨t, ht, halt_of_rests (s := fuFreed s b q) rests⟩
  · obtain ⟨b, q, t, ht, hreset, rests⟩ := fuAnswer_reaches h .okay 0
    rw [fuAnswered_doneRewrite hreset, doneRewriteAnswered, if_pos (by rfl),
      taskEnd_of_pause (by simp [htask, pause])] at rests
    obtain ⟨own, drain⟩ := stop_of_rests rests
    exact ⟨t, ht, by rw [own, chan_setChan, chan_fuFreed], drain⟩
  · obtain ⟨b, q, t, ht, hreset, rests⟩ := fuAnswer_reaches h .error 0
    rw [fuAnswered_doneRewrite hreset, doneRewriteAnswered, if_neg (by simp [MpReq.answer])] at rests
    exact ⟨t, ht, halt_of_rests (s := fuFreed s b q) rests⟩

/-- Settles O25: the task is cleared, and the channel enters its posting wait. -/
theorem skippedAnswerGoesToPosting : Obligations.SkippedAnswerGoesToPosting := by
  unfold Obligations.SkippedAnswerGoesToPosting
  intro n req resp s h busy run stop
  obtain ⟨b, q, t, ht, hreset, rests⟩ := fuAnswer_reaches h (asResp resp) 0
  rw [fuAnswered_skipped hreset, skippedAnswered] at rests
  obtain ⟨own, wait⟩ := enterPosting_of_rests rests (by rw [chan_modChan]; exact stop) run busy
  rw [chan_modChan] at own wait
  exact ⟨t, ht, own, wait⟩

/-! ## Drains answered -/

/-- The save block does not hold the mark (R5). -/
theorem saveImage_unmarked (c : Channel) (st : ChState) : ({ c with mark := false } : Channel).saveImage st = c.saveImage st :=
  rfl

theorem contextAddr_modChan (s : State) (n m : ChanId) (f : Channel → Channel) :
    (s.modChan n f).contextAddr m = s.contextAddr m := rfl

theorem contextAddr_lbFree (s : State) (m : ChanId) : s.lbFree.contextAddr m = s.contextAddr m := rfl

/-- Settles O51: the answer goes to the procedure in which the channel stands, or ends its reset. -/
theorem channelDrainAnswered : Obligations.ChannelDrainAnswered := by
  unfold Obligations.ChannelDrainAnswered
  intro n s current done alone
  have due : exec .channelDrainComplete s = .next (settle (drainAnswered n s.lbFree)) := by
    simp only [exec, execChannelDrainComplete, current, done, if_true, settled]
  have rests := settle_leftAlone (acts_leftAlone (s := s.lbFree) (acts_drainAnswered n s.lbFree) alone)
  have chan : s.lbFree.chan n = s.chan n := rfl
  refine ⟨fun off mark act => ⟨_, due, ?_⟩, fun a off mark act task => ⟨_, due, ?_⟩,
    fun off mark act => ⟨_, due, ?_⟩, fun a off act task => ⟨_, due, ?_⟩,
    fun off act task => ⟨_, due, ?_⟩, fun reset => ⟨_, due, ?_⟩⟩
  · have halts : drainAnswered n s.lbFree = beginHalt n .writeError 0 s.lbFree := by
      rcases act with act | act <;> simp [drainAnswered, chan, off, mark, act]
    rw [halts] at rests ⊢
    exact halt_of_rests (s := s.lbFree) rests
  · have writes : drainAnswered n s.lbFree = (s.lbFree.modChan n fun c => { c with phase := .status }).askFu n .done
        (statusWrite a (s.chan n).doneImage) .doneWrite := by
      simp [drainAnswered, askStatus, chan, off, mark, act, task]
    rw [writes] at rests ⊢
    obtain ⟨own, job⟩ := ask_of_rests rests
    exact ⟨by rw [own, chan_modChan]; rfl, job⟩
  · have saves : drainAnswered n s.lbFree = s.lbFree.askFu n .save
        (.write (s.contextAddr n + 64) (BitVec.allOnes 64) ((s.chan n).saveImage .stopped)) .stopSave := by
      simp only [drainAnswered, askSave, chan, off, mark, act, Bool.false_eq_true, if_false]
      rfl
    rw [saves] at rests ⊢
    exact ask_of_rests (s := s.lbFree) rests
  · have writes : drainAnswered n s.lbFree = (s.lbFree.modChan n fun c => { c with mark := false }).askFu n .haltStatus
        (statusWrite a (s.chan n).haltImage) .haltStatus := by
      simp [drainAnswered, askStatus, chan, off, act, task]
    rw [writes] at rests ⊢
    obtain ⟨own, job⟩ := ask_of_rests rests
    exact ⟨by rw [own, chan_modChan]; rfl, job⟩
  · have saves : drainAnswered n s.lbFree = (s.lbFree.modChan n fun c => { c with mark := false }).askFu n .save
        (.write (s.contextAddr n + 64) (BitVec.allOnes 64) ((s.chan n).saveImage .halted)) .haltSave := by
      have goes : drainAnswered n s.lbFree
          = askSave n .halted .haltSave (s.lbFree.modChan n fun c => { c with mark := false }) := by
        simp [drainAnswered, chan, off, act, task]
      rw [goes, askSave, chan_modChan, saveImage_unmarked, chan, contextAddr_modChan, contextAddr_lbFree]
    rw [saves] at rests ⊢
    obtain ⟨own, job⟩ := ask_of_rests rests
    exact ⟨by rw [own, chan_modChan]; rfl, job⟩
  · have ends : drainAnswered n s.lbFree = s.lbFree.setChan n Channel.off := by simp [drainAnswered, chan, reset]
    rw [ends] at rests ⊢
    exact rests.chan.trans (chan_setChan _ _ _)

end Sys2Proof.Commands
end

section
/-! SUPPORT. With no answer in hand at FU or SU, nothing that comes about within a command changes the register port, and SU
issues no write. -/

namespace Sys2Proof.Commands

open Sys2Proof Sys2Proof.Machine Sys2Proof.Laws Sys2Proof.Records Sys2Proof.Flow

/-! ## Reactions that leave the register port -/

section Reactions

variable (n : ChanId) (s : State)

@[simp] theorem rp_beginHalt (code : FaultCode) (va : VAddr) : (beginHalt n code va s).rp = s.rp := rfl

@[simp] theorem rp_beginStop : (beginStop n s).rp = s.rp := rfl

@[simp] theorem rp_askFu (k : FuKind) (q : MpReq) (a : Activity) : (s.askFu n k q a).rp = s.rp := rfl

@[simp] theorem rp_stopHere : (stopHere n s).rp = s.rp := by
  unfold stopHere; split <;> rfl

@[simp] theorem rp_postingPoint : (postingPoint n s).rp = s.rp := by
  unfold postingPoint; dsimp only; split_ifs <;> simp

@[simp] theorem rp_enterPosting : (enterPosting n s).rp = s.rp := by simp [enterPosting]

@[simp] theorem rp_followLink (l : BitVec 64) : (followLink n l s).rp = s.rp := by
  unfold followLink; split <;> simp

@[simp] theorem rp_fetchPoint : (fetchPoint n s).rp = s.rp := by
  unfold fetchPoint; dsimp only; split_ifs
  · simp
  · split <;> simp
  · rfl

@[simp] theorem rp_readyPoint : (readyPoint n s).rp = s.rp := by
  unfold readyPoint; dsimp only; split_ifs <;> simp

@[simp] theorem rp_enterFinishing : (enterFinishing n s).rp = s.rp := rfl

@[simp] theorem rp_enterWork : (enterWork n s).rp = s.rp := by
  unfold enterWork; dsimp only; split
  · rfl
  · split <;> simp

@[simp] theorem rp_prewaitPoint : (prewaitPoint n s).rp = s.rp := by
  unfold prewaitPoint; dsimp only; split
  · simp
  · split_ifs <;> simp

@[simp] theorem rp_taskEnd : (taskEnd n s).rp = s.rp := by
  unfold taskEnd; dsimp only; split_ifs <;> simp

@[simp] theorem rp_notifyPoint : (notifyPoint n s).rp = s.rp := by
  unfold notifyPoint askStatus; dsimp only; split
  · split_ifs <;> simp
  · split_ifs <;> simp

@[simp] theorem rp_goOn : (goOn n s).rp = s.rp := by
  unfold goOn; dsimp only; split
  · rfl
  · split
    · split <;> simp
    all_goals simp

@[simp] theorem rp_resetUndoAnswered : (resetUndoAnswered n s).rp = s.rp := by
  unfold resetUndoAnswered; split <;> rfl

@[simp] theorem rp_sliceEnded (f : Option (FaultCode × VAddr)) : (sliceEnded n f s).rp = s.rp := by
  unfold sliceEnded; dsimp only; split
  · rfl
  · split
    · simp
    · split_ifs <;> simp

@[simp] theorem rp_endSlice (f : Option (FaultCode × VAddr)) : (endSlice n f s).rp = s.rp := by simp [endSlice]

@[simp] theorem rp_sliceFault (c : FaultCode) (va : VAddr) : (sliceFault n c va s).rp = s.rp := rp_endSlice n s _

@[simp] theorem rp_askTranslation (va : VAddr) (w : Bool) (a : Access) : (askTranslation n va w a s).rp = s.rp := rfl

@[simp] theorem rp_startElement (m : Move) : (startElement n m s).rp = s.rp := by
  unfold startElement; dsimp only; split_ifs
  · simp
  · simp
  · split <;> simp

@[simp] theorem rp_moveBegun (m : Move) (f : Option (BitVec 64)) : (moveBegun n m f s).rp = s.rp := by simp [moveBegun]

@[simp] theorem rp_takeFill (m : Move) (v : BitVec 64) : (takeFill n m v s).rp = s.rp := by
  unfold takeFill; split <;> simp

@[simp] theorem rp_beginMove (m : Move) : (beginMove n m s).rp = s.rp := by
  unfold beginMove; split
  · simp
  · split
    · simp
    · simp
    · split
      · simp
      · dsimp only; split <;> simp

@[simp] theorem rp_elementBoundary : (elementBoundary n s).rp = s.rp := by
  unfold elementBoundary; dsimp only; split
  · simp
  · split
    · simp
    · split <;> simp

@[simp] theorem rp_elementDone (m : Move) (x : Bool) : (elementDone n m x s).rp = s.rp := by
  rcases elementDone_cases n m x s with e | ⟨y, e, -⟩
  · rw [e, rp_endSlice]; rfl
  · rw [e]; rfl

@[simp] theorem rp_translationAnswered (m : Move) (a : Access) (x : TuAnswer) :
    (translationAnswered n m a x s).rp = s.rp := by
  unfold translationAnswered; dsimp only; split
  · rw [rp_sliceFault]
  · split
    · split <;> rfl
    all_goals rfl

@[simp] theorem rp_valueRead (m : Move) (a : Access) (v : BitVec 64) : (valueRead n m a v s).rp = s.rp := by
  unfold valueRead; dsimp only; split
  · simp
  · split
    · simp
    all_goals split <;> simp
  · simp
  · rfl

@[simp] theorem rp_teAnswered (m : Move) (g : Got 64) : (teAnswered n m g s).rp = s.rp := by
  unfold teAnswered; dsimp only; split
  · split <;> simp
  · split <;> simp
  · rfl

end Reactions

/-- TE's step leaves the register port. -/
theorem rp_teStep {s t : State} (h : teStep s = some t) : t.rp = s.rp := by
  unfold teStep at h
  split at h
  · split at h
    · cases h; simp
    · split at h
      · cases h; simp
      · cases h
    · split at h
      · cases h; simp
      · cases h
    · split at h
      · cases h
      · cases h; rfl
    · split at h
      · cases h
      · cases h; simp
    · cases h; simp
    · cases h; simp
    · cases h
  · cases h

theorem rp_suTake (r : SuReq) (q : List SuReq) (s : State) : (suTake r q s).rp = s.rp := by
  unfold suTake; dsimp only; split
  · cases r <;> simp [notParked]
  · rfl

/-- With no answer in hand at FU or SU no internal step changes the register port. -/
theorem micro_rp {s t : State} (hf : s.fu.got = none) (hs : s.su.got = none) (h : micro s = some t) : t.rp = s.rp := by
  rcases micro_cases h with h | h | h | h | h | h | h | h | h | h | h
  · obtain ⟨e, l, b, -, -, rfl⟩ := fuHandOver_some h; rfl
  · obtain ⟨e, l, b, -, -, rfl⟩ := suHandOver_some h; rfl
  · obtain ⟨e, l, b, -, -, rfl⟩ := teHandOver_some h; rfl
  · obtain ⟨e, l, b, -, -, rfl⟩ := tuHandOver_some h; rfl
  · obtain ⟨e, l, b, -, -, rfl⟩ := lbHandOver_some h; rfl
  · obtain ⟨e, q, -, -, rfl⟩ := sbStep_some h; rfl
  · rcases fuStep_some h with ⟨j, g, -, got, -, rfl⟩ | ⟨j, q, -, -, -, rfl⟩
    · rw [hf] at got; cases got
    · rfl
  · rcases suStep_some h with ⟨o, g, -, got, -, rfl⟩ | ⟨r, q, -, -, -, rfl⟩
    · rw [hs] at got; cases got
    · exact rp_suTake r q s
  · obtain ⟨b, q, rfl, -⟩ := lbStep_frame h; rfl
  · obtain ⟨u, q, rfl, -⟩ := tuStep_frame h; rfl
  · exact rp_teStep h

/-- With no answer in hand at FU or SU the register port stays through all that comes about within a command. -/
theorem settle_rp {s : State} (hf : s.fu.got = none) (hs : s.su.got = none) : (settle s).rp = s.rp := by
  obtain ⟨-, -, kept⟩ := settle_induct (fun t => t.fu.got = none ∧ t.su.got = none ∧ t.rp = s.rp)
    (fun u v ⟨hf, hs, hr⟩ m => by
      obtain ⟨fu, su, -⟩ := micro_noAnswer hf hs m
      exact ⟨fu, su, (micro_rp hf hs m).trans hr⟩) (s := s) ⟨hf, hs, rfl⟩
  exact kept

/-! ## No write of SU -/

/-- SU has no answer in hand and no write at MP. -/
def SuReads (s : State) : Prop := s.su.got = none ∧ ∀ pa strobes data, s.mp.su ≠ some (.write pa strobes data)

theorem suReads_ofActs {n : ChanId} {s t : State} (a : Acts n s t) (h : SuReads s) : SuReads t := by
  obtain ⟨l, hl, -⟩ := a.su
  exact ⟨by rw [hl]; exact h.1, by rw [a.mp]; exact h.2⟩

theorem suReads_suTake (r : SuReq) (q : List SuReq) {s : State} (h : SuReads s) : SuReads (suTake r q s) := by
  have taken : SuReads ({ s with su := { s.su with queue := q } } : State) := h
  unfold suTake
  dsimp only
  split
  · cases r with
    | wait n k => exact taken
    | notify n k => exact taken
    | undoStop n => exact suReads_ofActs (acts_goOn _ _) taken
    | undoReset n => exact suReads_ofActs (acts_resetUndoAnswered _ _) taken
    | signal k => exact taken
  · exact ⟨h.1, fun _ _ _ e => by cases e⟩

/-- A request SU takes is read first, so it issues no write until an answer comes. -/
theorem micro_suReads {s t : State} (h : SuReads s) (m : micro s = some t) : SuReads t := by
  rcases micro_cases m with m | m | m | m | m | m | m | m | m | m | m
  · obtain ⟨e, l, b, -, -, rfl⟩ := fuHandOver_some m; exact h
  · obtain ⟨e, l, b, -, -, rfl⟩ := suHandOver_some m; exact h
  · obtain ⟨e, l, b, -, -, rfl⟩ := teHandOver_some m; exact h
  · obtain ⟨e, l, b, -, -, rfl⟩ := tuHandOver_some m; exact h
  · obtain ⟨e, l, b, -, -, rfl⟩ := lbHandOver_some m; exact h
  · obtain ⟨e, q, -, -, rfl⟩ := sbStep_some m; exact h
  · rcases fuStep_some m with ⟨j, g, -, -, -, rfl⟩ | ⟨j, q, -, -, -, rfl⟩
    · exact suReads_ofActs (s := { s with fu := { s.fu with current := none, got := none } }) (acts_fuAnswered _ j g) h
    · exact h
  · rcases suStep_some m with ⟨o, g, -, got, -, rfl⟩ | ⟨r, q, -, -, -, rfl⟩
    · rw [h.1] at got; cases got
    · exact suReads_suTake r q h
  · obtain ⟨b, q, rfl, -⟩ := lbStep_frame m; exact h
  · obtain ⟨u, q, rfl, -⟩ := tuStep_frame m; exact h
  · obtain ⟨n, -, e⟩ := teStep_engages m
    obtain ⟨l, hl, -⟩ := e.su
    obtain ⟨q, hq⟩ := e.mp
    exact ⟨by rw [hl]; exact h.1, by rw [hq]; exact h.2⟩

theorem settle_suReads {s : State} (h : SuReads s) : SuReads (settle s) :=
  settle_induct SuReads (fun _ _ h m => micro_suReads h m) h

end Sys2Proof.Commands
end

section
/-! SUPPORT. SU's answers to requests it does not perform and to its undos, and the channels that a command or an answer of
another leaves as they were. -/

namespace Sys2Proof.Commands

open Sys2Proof Sys2Proof.Machine Sys2Proof.Laws Sys2Proof.Records Sys2Proof.Flow

/-! ## SU free of an operation -/

/-- SU free of its operation, with SB and its request at MP replaced. -/
def suDone (s : State) (b : StatusBlock) (q : Option MpReq) : State :=
  { s with
    sb := b
    su := { s.su with current := none, got := none, held := [] }
    mp := { s.mp with su := none, sb := q } }

@[simp] theorem chan_suDone (s : State) (b : StatusBlock) (q : Option MpReq) (m : ChanId) :
    (suDone s b q).chan m = s.chan m := rfl

/-- A channel whose operation has ended is left alone: SU holds nothing else of it. -/
theorem suDone_leftAlone {n : ChanId} {s : State} {o : SuOp} (h : s.suAwaits o) (hc : o.req.chan = some n) (b : StatusBlock)
    (q : Option MpReq) : (suDone s b q).leftAlone n ∧ ((suDone s b q).unpark n).leftAlone n := by
  obtain ⟨-, -, -, fu, -, -, -, alone⟩ := h
  obtain ⟨queue, grant⟩ := alone n hc
  have none : SuReq.undoStop n ∈ s.su.queue ∨ SuReq.undoReset n ∈ s.su.queue → False := by
    rintro (hm | hm)
    · exact queue _ hm rfl
    · exact queue _ hm rfl
  exact ⟨⟨fu, rfl, fun hm => (none hm).elim, grant⟩, ⟨fu, rfl, fun hm => (none hm).elim, grant⟩⟩

theorem suDone_suReads (s : State) (b : StatusBlock) (q : Option MpReq) : SuReads (suDone s b q) :=
  ⟨rfl, fun _ _ _ e => by cases e⟩

/-! ## What the answer leads to -/

section Reached

variable {n : ChanId} {s : State} {o : SuOp}

/-- A wait or notify that is not performed halts its channel, and SU issues no write (R53). -/
theorem requestFailed_reaches (h : s.suAwaits o) (hc : o.req.chan = some n) (hr : (s.chan n).reset = .off) (c : FaultCode)
    (b : StatusBlock) (q : Option MpReq) :
    (settle (requestFailed n c (suDone s b q))).chan n = (s.chan n).halting c 0
      ∧ LbReq.drain n ∈ (settle (requestFailed n c (suDone s b q))).lbRequests
      ∧ SuReads (settle (requestFailed n c (suDone s b q))) := by
  obtain ⟨alone, -⟩ := suDone_leftAlone h hc b q
  have a := acts_requestFailed n (suDone s b q) c
  have rests := settle_leftAlone (acts_leftAlone a alone)
  have reads := settle_suReads (suReads_ofActs a (suDone_suReads s b q))
  have halts : requestFailed n c (suDone s b q) = beginHalt n c 0 (suDone s b q) := by simp [requestFailed, hr]
  rw [halts] at rests reads ⊢
  obtain ⟨own, drain⟩ := halt_of_rests rests
  exact ⟨own, drain, reads⟩

/-- The state with the STOP of channel `n` refused for its undo (R40). -/
def stopRefused (n : ChanId) (s : State) : State :=
  (s.modChan n fun c => { c with stopPending := false }).refuse .semaphoreError

/-- An undo for STOP that is not performed refuses the STOP and leaves the channel parked (R40, R62). -/
theorem stopUndoFailed_reaches (h : s.suAwaits o) (hc : o.req.chan = some n) (hr : (s.chan n).reset = .off) (b : StatusBlock)
    (q : Option MpReq) {t : State} (ht : t = settle (stopUndoFailed n (suDone s b q))) :
    t.chan n = { s.chan n with stopPending := false } ∧ t.su.parked = s.su.parked ∧ t.sb.refused = true
      ∧ t.rp.refuseReason = .semaphoreError ∧ SuReads t := by
  obtain ⟨alone, -⟩ := suDone_leftAlone h hc b q
  have ⟨fu, su, _⟩ := alone
  have a := acts_stopUndoFailed n (suDone s b q)
  have rests := settle_leftAlone (acts_leftAlone a alone)
  have reads := settle_suReads (suReads_ofActs a (suDone_suReads s b q))
  have refuses : stopUndoFailed n (suDone s b q) = stopRefused n (suDone s b q) := by simp [stopUndoFailed, stopRefused, hr]
  rw [refuses] at rests reads ht
  obtain ⟨sticky, -⟩ := settleFor_sticky _ (stopRefused n (suDone s b q))
  have rp := settle_rp (s := stopRefused n (suDone s b q)) fu su
  subst ht
  exact ⟨rests.chan.trans (by simp [stopRefused]), rests.parked, sticky rfl, by rw [rp]; rfl, reads⟩

/-- An undo for RESET takes the channel out of the parked list and lets its reset go on to the drain, performed or not (R48). -/
theorem resetUndoAnswered_reaches (h : s.suAwaits o) (hc : o.req.chan = some n) (hr : (s.chan n).reset = .undo)
    (b : StatusBlock) (q : Option MpReq) {t : State} (ht : t = settle (resetUndoAnswered n ((suDone s b q).unpark n))) :
    t.chan n = { s.chan n with reset := .drain } ∧ LbReq.drain n ∈ t.lbRequests ∧ t.isParked n = false ∧ SuReads t := by
  obtain ⟨-, alone⟩ := suDone_leftAlone h hc b q
  have a := acts_resetUndoAnswered n ((suDone s b q).unpark n)
  have rests := settle_leftAlone (acts_leftAlone a alone)
  have free : SuReads ((suDone s b q).unpark n) := suDone_suReads s b q
  have reads := settle_suReads (suReads_ofActs a free)
  have drains : resetUndoAnswered n ((suDone s b q).unpark n) = resetDrain n ((suDone s b q).unpark n) := by
    simp [resetUndoAnswered, hr]
  rw [drains] at rests reads ht
  subst ht
  obtain ⟨own, drain⟩ := resetDrain_of_rests rests
  refine ⟨own, drain, ?_, reads⟩
  rw [State.isParked, rests.parked]
  exact isParked_unpark (suDone s b q) n

/-- A SIGNAL that is not performed leaves the slot and is refused (R61). -/
theorem signalFailed_reaches (h : s.suAwaits o) (r : Reason) (b : StatusBlock) (q : Option MpReq) {t : State}
    (ht : t = settle ((suDone s b q).emptySignalSlot.refuse r)) :
    t.rp.signalSlot = none ∧ t.sb.refused = true ∧ t.rp.refuseReason = r ∧ t.su.parked = s.su.parked
      ∧ t.rp.alerts = s.rp.alerts ∧ SuReads t := by
  obtain ⟨-, -, -, fu, -⟩ := h
  have free : SuReads ((suDone s b q).emptySignalSlot.refuse r) := suDone_suReads s b q
  obtain ⟨parked, -⟩ := settleFor_noAnswer (s := (suDone s b q).emptySignalSlot.refuse r) fu rfl _
  obtain ⟨sticky, -⟩ := settleFor_sticky _ ((suDone s b q).emptySignalSlot.refuse r)
  have reads := settle_suReads free
  have rp := settle_rp (s := (suDone s b q).emptySignalSlot.refuse r) fu rfl
  subst ht
  refine ⟨by rw [rp]; rfl, sticky rfl, by rw [rp]; rfl, parked, by rw [rp]; rfl, reads⟩

end Reached

/-! ## Answers to reads that SU does not act on -/

/-- SU does not perform the operation: its record was not read well, or does not allow it (R52, R53). -/
def suRefuses (o : SuOp) (resp : Resp) (d : BitVec 48) (f : SuFailure) : Prop :=
  (goodData resp = true ∧ o.req.decide d = .error f) ∨ (goodData resp = false ∧ f = .memory)

section Refused

variable {s : State} {o : SuOp} {resp : Resp} {d : BitVec 48} {f : SuFailure}

theorem suAnswered_of_refuses (hr : o.record = none) (hf : suRefuses o resp d f) (b : StatusBlock) (q : Option MpReq)
    (g : Got 48) : suAnswered o ⟨resp, d⟩ (suHas s b q g) = suFailed o.req f (suDone s b q) := by
  have free : (suHas s b q g).suFree = suDone s b q := rfl
  rcases hf with ⟨good, decided⟩ | ⟨bad, rfl⟩
  · simp [suAnswered, hr, good, decided, free]
  · simp [suAnswered, hr, bad, free]

/-- With one event at most, the event is handed over and SU answers the request. -/
theorem readRefused_next (h : s.suAwaits o) (hr : o.record = none) (hf : suRefuses o resp d f)
    (one : o.req.isUndoReset = true → resp ≠ .corrected) :
    ∃ b q, exec (readAnswerOf o.req resp d) s = .next (settle (suFailed o.req f (suDone s b q))) := by
  obtain ⟨b, q, he, -⟩ := suReadAnswer_next h hr resp d fun hu => .inl (one hu)
  rw [suAnswered_of_refuses hr hf] at he
  exact ⟨b, q, (exec_readAnswerOf o.req resp d s).trans he⟩

end Refused

/-! ## Two events of one answer (R169) -/

/-- SB without an event of the unit takes the event, or discards it by its level (R168). -/
theorem handOver_of_room {b : StatusBlock} {e : ErrorEvent} (h : ∀ x ∈ b.queue, x.unit ≠ e.unit) :
    b.handOver e = some (if b.reports e then { b with queue := b.queue ++ [e] } else b) := by
  have free : b.queue.any (·.unit == e.unit) = false := by
    simp only [List.any_eq_false, beq_iff_eq]
    exact h
  simp [StatusBlock.handOver, free]

/-- SU has taken an answer in hand and keeps the events `ev`, with SB as `w`. -/
def suKeeps (s : State) (w : StatusBlock) (g : Got 48) (ev : List ErrorEvent) : State :=
  { s with sb := w, su := { s.su with got := some g, held := ev }, mp := { s.mp with su := none } }

section Events

variable {s : State} {o : SuOp} {w w' : StatusBlock} {q : Option MpReq} {g : Got 48} {e : ErrorEvent} {ev : List ErrorEvent}

/-- SU hands over the first event it keeps. -/
theorem settle_suKeeps (k : s.noneKept) (hw : w.handOver e = some w') :
    settle (suKeeps s w g (e :: ev)) = settle (suKeeps s w' g ev) := by
  obtain ⟨fu, -⟩ := k
  refine settle_micro ?_
  simp [micro, microSteps, fuHandOver, suHandOver, suKeeps, fu, hw]

/-- With one event kept, SU hands it over and acts on the answer. -/
theorem settle_suKeeps_one (h : s.isSettled) (k : s.noneKept) (room : s.hasRoom .su) (ho : s.su.current = some o)
    (he : e.unit = .su) : ∃ b q, settle (suKeeps s s.sb g [e]) = settle (suAnswered o g (suHas s b q g)) := by
  obtain ⟨b, q, eq, -⟩ := su_delivers (g := g) (ev := [e]) h k room ho (by simp) (by simpa using he)
  obtain ⟨-, kept, -⟩ := k
  rw [kept, List.nil_append] at eq
  exact ⟨b, q, eq⟩

/-- A settled part stays settled with another record write in progress at SB. -/
theorem withSb_settled (h : s.isSettled) (k : s.noneKept) (hw : w.writing.isSome = true) : (withSb s w q).isSettled := by
  obtain ⟨-, -, -, -, -, -, fu, su, lb, tu, te⟩ := (settled_iff s).mp h
  obtain ⟨k1, k2, k3, k4, k5⟩ := k
  obtain ⟨x, hx⟩ := Option.isSome_iff_exists.mp hw
  exact (settled_iff _).mpr ⟨by simp [fuHandOver, withSb, k1], by simp [suHandOver, withSb, k2],
    by simp [teHandOver, withSb, k3], by simp [tuHandOver, withSb, k4], by simp [lbHandOver, withSb, k5],
    by simp [sbStep, withSb, hx], fuStep_none (s := s) rfl fu, suStep_none (s := s) rfl su, lbStep_none (s := s) rfl lb,
    tuStep_none (s := s) rfl tu, teStep_none (s := s) rfl rfl rfl (fun _ => rfl) (fun _ => rfl) te⟩

/-- MEM_CORRECTED is reported at level 3 alone (R168). -/
theorem reports_corrected (b : StatusBlock) (hc : e.code = .memCorrected) : b.reports e = decide (b.level = 3) := by
  have bound := b.level.isLt
  rw [StatusBlock.reports, hc, decide_eq_decide]
  constructor
  · intro le
    exact BitVec.eq_of_toNat_eq (by simp only [EventCode.minLevel] at le; simp; omega)
  · intro eq
    rw [eq]
    decide

/-- At level 3 SB queues MEM_CORRECTED, and below it SB discards the event. -/
theorem handOver_corrected {b : StatusBlock} (room : ∀ x ∈ b.queue, x.unit ≠ e.unit) (hc : e.code = .memCorrected) :
    (b.level = 3 → b.handOver e = some { b with queue := b.queue ++ [e] }) ∧ (b.level ≠ 3 → b.handOver e = some b) := by
  rw [handOver_of_room room, reports_corrected b hc]
  exact ⟨fun level => by rw [if_pos (by simpa using level)], fun level => by rw [if_neg (by simpa using level)]⟩

/-- While an event of SU keeps its place at SB, SU keeps the next. -/
theorem handOver_full {b : StatusBlock} {x : ErrorEvent} (hx : x ∈ b.queue) (h : x.unit = e.unit) : b.handOver e = none := by
  have full : b.queue.any (·.unit == e.unit) = true := List.any_eq_true.mpr ⟨x, hx, by simpa using h⟩
  simp [StatusBlock.handOver, full]

/-- SB with the event `x` in its record write and nothing queued (R170). -/
def sbWrites (w : StatusBlock) (x : ErrorEvent) : StatusBlock :=
  { w with queue := [], counter := w.counted, errorEvent := true, writing := some x }

/-- SB, free, takes the event that keeps SU's place. -/
theorem settle_suKeeps_taken {e1 e2 : ErrorEvent} (k : s.noneKept) (hu : e1.unit = e2.unit) (idle : w.writing = none)
    (hq : w.queue = [e1]) :
    ∃ rec, settle (suKeeps s w g [e2]) = settle (suKeeps (withSb s (sbWrites w e1) (some rec)) (sbWrites w e1) g [e2]) := by
  obtain ⟨k1, -, k3, k4, k5⟩ := k
  have step : sbStep (suKeeps s w g [e2]) = some (suKeeps
      (withSb s (sbWrites w e1) (some (.write s.errorRecordAddr (BitVec.allOnes 64) (errorImage e1 w.counted))))
      (sbWrites w e1) g [e2]) := by
    simp only [sbStep, suKeeps, idle, hq]
    rfl
  have su : suHandOver (suKeeps s w g [e2]) = none := by
    simp [suHandOver, suKeeps, handOver_full (b := w) (x := e1) (by simp [hq]) hu]
  have fu : fuHandOver (suKeeps s w g [e2]) = none := by simp [fuHandOver, suKeeps, k1]
  have te : teHandOver (suKeeps s w g [e2]) = none := by simp [teHandOver, suKeeps, k3]
  have tu : tuHandOver (suKeeps s w g [e2]) = none := by simp [tuHandOver, suKeeps, k4]
  have lb : lbHandOver (suKeeps s w g [e2]) = none := by simp [lbHandOver, suKeeps, k5]
  refine ⟨.write s.errorRecordAddr (BitVec.allOnes 64) (errorImage e1 w.counted), settle_micro ?_⟩
  simp only [micro, microSteps, List.findSome?_cons, fu, su, te, tu, lb, step]

/-- Of two events of a corrected answer the second follows the first to SB where the first does not keep SU's place: at a level
that discards it, or with SB free to take it. -/
theorem settle_suKeeps_two (h : s.suAwaits o) {e1 e2 : ErrorEvent} (h1 : e1.unit = .su) (h2 : e2.unit = .su)
    (hc : e1.code = .memCorrected) (free : s.sb.writing = none ∨ s.sb.level ≠ 3) :
    ∃ b q, settle (suKeeps s s.sb g [e1, e2]) = settle (suAnswered o g (suHas s b q g)) := by
  obtain ⟨settled, k, room, -, -, ho, -⟩ := h
  obtain ⟨queued, discarded⟩ := handOver_corrected (b := s.sb) (e := e1) (by rw [h1]; exact room) hc
  by_cases level : s.sb.level = 3
  · have idle : s.sb.writing = none := free.resolve_right (not_not.mpr level)
    have empty : s.sb.queue = [] := by
      obtain ⟨-, -, -, -, -, sb, -⟩ := (settled_iff s).mp settled
      cases hq : s.sb.queue with
      | nil => rfl
      | cons x l => simp [sbStep, idle, hq] at sb
    obtain ⟨rec, taken⟩ := settle_suKeeps_taken (w := { s.sb with queue := s.sb.queue ++ [e1] }) (g := g) k
      (h1.trans h2.symm) idle (by rw [empty]; rfl)
    obtain ⟨b, q, acts⟩ := settle_suKeeps_one (s := withSb s (sbWrites _ e1) (some rec)) (g := g)
      (withSb_settled settled k rfl) k (by intro x hx; cases hx) ho h2
    exact ⟨b, q, (settle_suKeeps k (queued level)).trans (taken.trans acts)⟩
  · rw [settle_suKeeps k (discarded level)]
    exact settle_suKeeps_one settled k room ho h2

/-- While the first, reported, keeps SU's place, SU keeps the second and every unit waits. -/
theorem settle_suKeeps_blocked (h : s.suAwaits o) {e1 e2 : ErrorEvent} (h1 : e1.unit = .su) (h2 : e2.unit = .su)
    (hc : e1.code = .memCorrected) (busy : s.sb.writing ≠ none) (level : s.sb.level = 3) :
    settle (suKeeps s s.sb g [e1, e2]) = suKeeps s { s.sb with queue := s.sb.queue ++ [e1] } g [e2] := by
  obtain ⟨settled, k, room, -, -, ho, -⟩ := h
  obtain ⟨queued, -⟩ := handOver_corrected (b := s.sb) (e := e1) (by rw [h1]; exact room) hc
  rw [settle_suKeeps k (queued level)]
  refine settle_of_settled ((settled_iff _).mpr ?_)
  obtain ⟨-, -, -, -, -, -, fu, su, lb, tu, te⟩ := (settled_iff s).mp settled
  obtain ⟨k1, k2, k3, k4, k5⟩ := k
  obtain ⟨x, hx⟩ := Option.ne_none_iff_exists'.mp busy
  have full := handOver_full (b := { s.sb with queue := s.sb.queue ++ [e1] }) (x := e1) (e := e2) (by simp) (h1.trans h2.symm)
  exact ⟨by simp [fuHandOver, suKeeps, k1], by simp [suHandOver, suKeeps, full],
    by simp [teHandOver, suKeeps, k3], by simp [tuHandOver, suKeeps, k4], by simp [lbHandOver, suKeeps, k5],
    by simp [sbStep, suKeeps, hx], fuStep_none (s := s) rfl fu, by simp [suStep, suKeeps, ho], lbStep_none (s := s) rfl lb,
    tuStep_none (s := s) rfl tu, teStep_none (s := s) rfl rfl rfl (fun _ => rfl) (fun _ => rfl) te⟩

/-- A corrected read of a record that does not allow the undo for RESET raises two events (R63, R166). -/
theorem undoResetRead_corrected {n : ChanId} {d : BitVec 48} {f : SuFailure} {req : MpReq} (h : s.suAwaits o)
    (hr : o.record = none) (ho : o.req = .undoReset n) (hd : o.req.decide d = .error f) (hq : s.mp.su = some req) :
    exec (.undoResetReadAnswer .corrected d) s = .next (settle (suKeeps s s.sb ⟨.corrected, d⟩
      [⟨.memCorrected, .su, some n, .corrected, req.addr⟩, ⟨.undoLost, .su, some n, .corrected, req.addr⟩])) := by
  obtain ⟨-, ⟨-, kept, -⟩, -, -, got, current, -⟩ := h
  obtain ⟨r, k, rec, c⟩ := o
  simp only at hr ho hd
  subst hr ho
  simp only [exec, execUndoResetReadAnswer, suReadAnswer, current, got, hq, settled, kept, SuReq.kind, SuReq.readEvents,
    SuReq.isUndoReset, SuReq.chan, hd, if_true, List.nil_append, suKeeps]

end Events

/-! ## The obligations on SU's answers -/

/-- An undo for RESET that is not performed is answered, its events handed over where SB has room for them (R63, R169). -/
theorem undoResetRefused_next {n : ChanId} {s : State} {o : SuOp} {resp : Resp} {d : BitVec 48} {f : SuFailure}
    (h : s.suAwaits o) (hr : o.record = none) (ho : o.req = .undoReset n) (hf : suRefuses o resp d f)
    (free : resp = .corrected → s.sb.writing = none ∨ s.sb.level ≠ 3) :
    ∃ b q, exec (.undoResetReadAnswer resp d) s
      = .next (settle (resetUndoAnswered n ((suDone s b q).unpark n))) := by
  by_cases hc : resp = .corrected
  · subst hc
    have atPort := h
    obtain ⟨-, -, -, -, -, -, port, -⟩ := atPort
    obtain ⟨req, hq⟩ := Option.isSome_iff_exists.mp port
    obtain ⟨-, hd⟩ := hf.resolve_right fun bad => by cases bad.1
    obtain ⟨b, q, eq⟩ := settle_suKeeps_two (g := ⟨.corrected, d⟩)
      (e1 := ⟨.memCorrected, .su, some n, .corrected, req.addr⟩) (e2 := ⟨.undoLost, .su, some n, .corrected, req.addr⟩)
      h rfl rfl rfl (free rfl)
    refine ⟨b, q, ?_⟩
    rw [undoResetRead_corrected h hr ho hd hq, eq, suAnswered_of_refuses hr hf, ho]
    rfl
  · obtain ⟨b, q, he⟩ := readRefused_next h hr hf fun _ => hc
    rw [ho] at he
    exact ⟨b, q, he⟩

/-- Settles O32: one case for each kind of request, and one for the undo whose second event SU keeps. -/
theorem semaphoreReadNotPerformed : Obligations.SemaphoreReadNotPerformed := by
  unfold Obligations.SemaphoreReadNotPerformed
  intro o resp d f s h hr hf
  refine ⟨fun n k ho off => ?_, fun n k ho off => ?_, fun n ho off => ?_, fun n ho undo free => ?_,
    fun n req ho hq hc busy level => ?_, fun k ho => ?_⟩
  · obtain ⟨b, q, he⟩ := readRefused_next h hr hf fun hu => by rw [ho] at hu; cases hu
    obtain ⟨own, drain, -, reads⟩ := requestFailed_reaches h (by rw [ho]; rfl) off f.fault b q
    rw [ho] at he
    exact ⟨_, he, own, drain, reads⟩
  · obtain ⟨b, q, he⟩ := readRefused_next h hr hf fun hu => by rw [ho] at hu; cases hu
    obtain ⟨own, drain, -, reads⟩ := requestFailed_reaches h (by rw [ho]; rfl) off f.fault b q
    rw [ho] at he
    exact ⟨_, he, own, drain, reads⟩
  · obtain ⟨b, q, he⟩ := readRefused_next h hr hf fun hu => by rw [ho] at hu; cases hu
    obtain ⟨own, parked, refused, reason, -, reads⟩ := stopUndoFailed_reaches h (by rw [ho]; rfl) off b q rfl
    rw [ho] at he
    exact ⟨_, he, own, parked, refused, reason, reads⟩
  · obtain ⟨b, q, he⟩ := undoResetRefused_next h hr ho hf free
    obtain ⟨own, drain, parked, -, reads⟩ := resetUndoAnswered_reaches h (by rw [ho]; rfl) undo b q rfl
    exact ⟨_, he, own, drain, parked, reads⟩
  · subst hc
    obtain ⟨-, hd⟩ := hf.resolve_right fun bad => by cases bad.1
    have he := undoResetRead_corrected h hr ho hd hq
    rw [settle_suKeeps_blocked h rfl rfl rfl busy level] at he
    obtain ⟨-, -, -, -, -, current, -⟩ := h
    exact ⟨_, he, rfl, rfl, current, rfl, rfl⟩
  · obtain ⟨b, q, he⟩ := readRefused_next h hr hf fun hu => by rw [ho] at hu; cases hu
    obtain ⟨slot, refused, reason, parked, alerts, -, reads⟩ := signalFailed_reaches h f.reason b q rfl
    rw [ho] at he
    exact ⟨_, he, slot, refused, reason.trans (by cases f <;> rfl), parked, alerts, reads⟩

/-- An undo for STOP performed takes the channel out of the parked list and begins the stop procedure (R40). -/
theorem stopUndone_reaches {n : ChanId} {s : State} {o : SuOp} (h : s.suAwaits o) (hc : o.req.chan = some n)
    (hr : (s.chan n).reset = .off) (b : StatusBlock) (q : Option MpReq) {t : State}
    (ht : t = settle (stopUndone n ((suDone s b q).unpark n))) :
    t.chan n = { s.chan n with activity := .stopDrain } ∧ LbReq.drain n ∈ t.lbRequests ∧ t.isParked n = false := by
  obtain ⟨-, alone⟩ := suDone_leftAlone h hc b q
  have rests := settle_leftAlone (acts_leftAlone (acts_stopUndone n ((suDone s b q).unpark n)) alone)
  have stops : stopUndone n ((suDone s b q).unpark n)
      = beginStop n (((suDone s b q).unpark n).setActivity n .beforeWait) := by
    simp [stopUndone, hr]
  rw [stops] at rests ht
  subst ht
  obtain ⟨own, drain⟩ := stop_of_rests rests
  refine ⟨by rw [own, chan_setActivity]; rfl, drain, ?_⟩
  rw [State.isParked, rests.parked]
  exact isParked_unpark (suDone s b q) n

/-- Settles O36: the undo's write answered OKAY or ERROR for STOP, and either way for RESET. -/
theorem undoAnswersReleaseChannel : Obligations.UndoAnswersReleaseChannel := by
  unfold Obligations.UndoAnswersReleaseChannel
  intro n k d count resp s
  refine ⟨fun h off => ⟨?_, ?_⟩, fun h undo => ?_⟩
  · obtain ⟨b, q, he, -⟩ := suWriteAnswer_next h rfl .okay
    exact ⟨_, he, stopUndone_reaches h rfl off b q rfl⟩
  · obtain ⟨b, q, he, -⟩ := suWriteAnswer_next h rfl .error
    obtain ⟨own, parked, refused, reason, -⟩ := stopUndoFailed_reaches h rfl off b q rfl
    exact ⟨_, he, own, parked, refused, reason⟩
  · obtain ⟨b, q, he, -⟩ := suWriteAnswer_next h rfl resp
    obtain ⟨own, drain, parked, -⟩ := resetUndoAnswered_reaches h rfl undo b q rfl
    cases resp <;> exact ⟨_, he, own, drain, parked⟩

/-! ## Other channels -/

/-- The reaction of one channel, and all that comes about after it, leave another that is left alone, the alert list, the parked
list and FU's requests as they were. -/
theorem others_of_acts {n m : ChanId} {s u t : State} (a : Acts n s u) (hm : m ≠ n) (rests : Rests m u t) :
    t.chan m = s.chan m ∧ t.rp.alerts = s.rp.alerts ∧ t.su.parked = s.su.parked ∧ ∀ j ∈ s.fuJobs, j ∈ t.fuJobs := by
  obtain ⟨lf, hf, -⟩ := a.fu
  obtain ⟨ls, hs, -⟩ := a.su
  obtain ⟨x, hx⟩ := a.rp
  refine ⟨rests.chan.trans (a.others m hm), by rw [rests.alerts, hx], by rw [rests.parked, hs], fun j hj => ?_⟩
  refine rests.fuJobs j ?_
  simp only [State.fuJobs, hf, List.mem_append] at hj ⊢
  exact hj.elim .inl fun hq => .inr (.inl hq)

/-- A channel command, whatever RP decides on it, leaves another channel that is left alone. -/
theorem acceptCommand_others {n m : ChanId} {s : State} (hm : m ≠ n) (alone : s.leftAlone m) (k : Command) :
    (acceptCommand n k s).chan m = s.chan m ∧ (acceptCommand n k s).rp.alerts = s.rp.alerts
      ∧ (acceptCommand n k s).su.parked = s.su.parked ∧ ∀ j ∈ s.fuJobs, j ∈ (acceptCommand n k s).fuJobs := by
  unfold acceptCommand
  dsimp only
  split_ifs
  · exact ⟨rfl, rfl, rfl, fun _ h => h⟩
  · exact ⟨rfl, rfl, rfl, fun _ h => h⟩
  · have a := acts_takeChannelCommand n { s with rp := { s.rp with lastNamed := n } } k
    exact others_of_acts (s := { s with rp := { s.rp with lastNamed := n } }) a hm (settle_leftAlone (acts_leftAlone a alone))

/-- Settles O29: for a command by what RP decides on it, and for FU's answer by the reaction of its channel. -/
theorem otherChannelsLeftAsTheyWere : Obligations.OtherChannelsLeftAsTheyWere := by
  unfold Obligations.OtherChannelsLeftAsTheyWere
  intro n m s hm alone
  refine ⟨fun k => ⟨s.regWrite (acceptCommand n k), by cases k <;> rfl, ?_⟩, fun j resp d h hj => ?_⟩
  · unfold State.regWrite
    dsimp only
    split_ifs
    · exact ⟨rfl, rfl, rfl, fun _ h => h⟩
    · exact ⟨rfl, rfl, rfl, fun _ h => h⟩
    · exact acceptCommand_others (s := s.replied ⟨false, 0⟩) hm alone k
  · subst hj
    obtain ⟨b, q, t, ht, -, -, rests⟩ := fuAnswer_next h resp d
    obtain ⟨own, alerts, parked, jobs⟩ := others_of_acts (acts_fuAnswered (fuFreed s b q) j _) hm (rests m alone)
    exact ⟨t, ht, own, alerts, parked, fun x hx => jobs x (by simpa [State.fuJobs, fuFreed] using hx)⟩

end Sys2Proof.Commands
end

section
/-! SUPPORT. The alert list, the lines of LB and SB's queue keep their bounds through every internal step and every command. -/

namespace Sys2Proof.Semaphores

open Sys2Proof Sys2Proof.Machine Sys2Proof.Laws Sys2Proof.Flow

/-! ## The three bounds -/

/-- From `s` to `t` the alert list, LB's lines and SB's queue keep their bounds (R69, R157, R169). -/
structure Bounds (s t : State) : Prop where
  alerts : s.alertsOk → t.alertsOk
  lines : s.linesOk → t.linesOk
  events : s.eventsOk → t.eventsOk

namespace Bounds

variable {s t u : State}

theorem trans (a : Bounds s t) (b : Bounds t u) : Bounds s u :=
  ⟨b.alerts ∘ a.alerts, b.lines ∘ a.lines, b.events ∘ a.events⟩

/-- Entries that leave the three lists break no bound. -/
theorem of (alerts : t.rp.alerts.Sublist s.rp.alerts) (lines : t.lb.entries.Sublist s.lb.entries)
    (events : t.sb.queue.Sublist s.sb.queue) : Bounds s t where
  alerts h := ⟨alerts.length_le.trans h.1, h.2.sublist alerts⟩
  lines h := ⟨lines.length_le.trans h.1, h.2.sublist (lines.map _)⟩
  events h := List.Nodup.sublist (events.map _) h

/-- A change that leaves the three lists as they were. -/
theorem same (alerts : t.rp.alerts = s.rp.alerts) (lines : t.lb.entries = s.lb.entries) (events : t.sb.queue = s.sb.queue) :
    Bounds s t :=
  of (alerts ▸ .refl _) (lines ▸ .refl _) (events ▸ .refl _)

theorem refl (s : State) : Bounds s s := same rfl rfl rfl

/-- What follows on a state that agrees with `s` in the three lists. -/
theorem after (b : Bounds t u) (alerts : t.rp.alerts = s.rp.alerts) (lines : t.lb.entries = s.lb.entries)
    (events : t.sb.queue = s.sb.queue) : Bounds s u :=
  (same alerts lines events).trans b

/-- A channel's reaction leaves the three lists as they were. -/
theorem ofActs {n : ChanId} (a : Acts n s t) : Bounds s t := by
  obtain ⟨x, rp⟩ := a.rp
  obtain ⟨l, lb, -⟩ := a.lb
  obtain ⟨b, sb, -⟩ := a.sb
  exact same (by rw [rp]) (by rw [lb]) (by rw [sb])

theorem ofActsAll {l : List ChanId} (a : ActsAll l s t) : Bounds s t := by
  obtain ⟨x, rp⟩ := a.rp
  obtain ⟨l, lb, -⟩ := a.lb
  obtain ⟨b, sb, -⟩ := a.sb
  exact same (by rw [rp]) (by rw [lb]) (by rw [sb])

/-- TE's work leaves the three lists as they were. -/
theorem ofEngages {n : ChanId} (e : Engages n s t) : Bounds s t := by
  obtain ⟨x, rp⟩ := e.rp
  obtain ⟨l, lb⟩ := e.lb
  obtain ⟨b, sb, -⟩ := e.sb
  exact same (by rw [rp]) (by rw [lb]) (by rw [sb])

end Bounds

theorem bounds_inArrivalOrder {act : ChanId → State → State} (acts : ∀ n s, Acts n s (act n s)) (l : List ChanId) (s : State) :
    Bounds s (s.inArrivalOrder l act) :=
  (Bounds.ofActsAll (acts_all act acts (arrange l.length s.arrivals l) s)).trans (.same rfl rfl rfl)

/-! ## Internal steps -/

/-- SB takes a unit's event only where it queues none of that unit (R169). -/
theorem handOver_nodup {b c : StatusBlock} {e : ErrorEvent} (h : b.handOver e = some c)
    (nodup : (b.queue.map ErrorEvent.unit).Nodup) : (c.queue.map ErrorEvent.unit).Nodup := by
  rcases handOver_cases h with rfl | ⟨-, room, rfl⟩
  · exact nodup
  · rw [List.map_append]
    refine List.nodup_append.mpr ⟨nodup, by simp, fun a ha b hb same => ?_⟩
    obtain ⟨x, hx, rfl⟩ := List.mem_map.mp ha
    exact room x hx (same.trans (by simpa using hb))

/-- A hand-over changes SB alone of the three. -/
theorem bounds_handOver {s t : State} {e : ErrorEvent} (h : s.sb.handOver e = some t.sb) (alerts : t.rp.alerts = s.rp.alerts)
    (lines : t.lb.entries = s.lb.entries) : Bounds s t :=
  { Bounds.same (s := s) (t := { t with sb := s.sb }) alerts lines rfl with events := handOver_nodup h }

/-- An element merged into the entry of its line leaves the lines held as they were (R149). -/
theorem lines_mergeInto (l : List LineEntry) (pa : PAddr) (z : Size) (v : BitVec 64) (n : ChanId) :
    (mergeInto l pa z v n).map LineEntry.line = l.map LineEntry.line := by
  rw [mergeInto, List.map_map]
  refine List.map_congr_left fun e _ => ?_
  simp only [Function.comp_apply]
  split <;> rfl

/-- An element placed takes a line of its own only where LB holds neither that line nor eight others (R149, R157). -/
theorem placeElement_bounds {l l' : List LineEntry} {pa : PAddr} {z : Size} {v : BitVec 64} {n : ChanId}
    (h : placeElement l pa z v n = some l') (len : l.length ≤ 8) (nodup : (l.map LineEntry.line).Nodup) :
    l'.length ≤ 8 ∧ (l'.map LineEntry.line).Nodup := by
  unfold placeElement at h
  split_ifs at h with held room
  · cases h
    exact ⟨by simpa [mergeInto] using len, by rwa [lines_mergeInto]⟩
  · cases h
    simp only [List.any_eq_true, beq_iff_eq, not_exists, not_and] at held
    refine ⟨by simpa [Config.lineEntries] using room, ?_⟩
    rw [List.map_append]
    refine List.nodup_append.mpr ⟨nodup, by simp, fun a ha b hb same => ?_⟩
    obtain ⟨x, hx, rfl⟩ := List.mem_map.mp ha
    exact held x hx (same.trans (by simpa [LineEntry.fresh] using hb))

/-- LB's step leaves its lines as they were, or places an element. -/
theorem lbStep_entries {s t : State} (h : lbStep s = some t) :
    t.lb.entries = s.lb.entries ∨ ∃ pa z v n, placeElement s.lb.entries pa z v n = some t.lb.entries := by
  unfold lbStep at h
  split at h
  · split at h
    · cases h; exact .inl rfl
    · cases h
  · split at h
    · unfold lbAdvance at h
      split at h
      · split at h
        · rename_i placed
          cases h; exact .inr ⟨_, _, _, _, placed⟩
        · split at h
          · cases h; exact .inl rfl
          · cases h
      · split at h <;> cases h <;> exact .inl rfl
      all_goals
        split at h
        · cases h; exact .inl rfl
        · cases h
    · cases h

theorem bounds_lbStep {s t : State} (h : lbStep s = some t) : Bounds s t := by
  have entries := lbStep_entries h
  obtain ⟨b, q, rfl, -⟩ := lbStep_frame h
  refine ⟨id, fun ok => ?_, id⟩
  rcases entries with same | ⟨pa, z, v, n, placed⟩
  · rw [State.linesOk, same]; exact ok
  · exact placeElement_bounds placed ok.1 ok.2

theorem bounds_suStep {s t : State} (h : suStep s = some t) (k : Keeps s t) : Bounds s t := by
  have spares := suStep_spares h
  obtain ⟨x, y, sb, -⟩ := spares.sb
  obtain ⟨l, lb, -⟩ := spares.lb
  exact ⟨k.alerts, fun ok => by rw [State.linesOk, lb]; exact ok, fun ok => by rw [State.eventsOk, sb]; exact ok⟩

theorem micro_bounds {s t : State} (m : micro s = some t) : Bounds s t := by
  have keeps := micro_keeps m
  rcases micro_cases m with m | m | m | m | m | m | m | m | m | m | m
  · obtain ⟨e, l, b, -, hb, rfl⟩ := fuHandOver_some m; exact bounds_handOver hb rfl rfl
  · obtain ⟨e, l, b, -, hb, rfl⟩ := suHandOver_some m; exact bounds_handOver hb rfl rfl
  · obtain ⟨e, l, b, -, hb, rfl⟩ := teHandOver_some m; exact bounds_handOver hb rfl rfl
  · obtain ⟨e, l, b, -, hb, rfl⟩ := tuHandOver_some m; exact bounds_handOver hb rfl rfl
  · obtain ⟨e, l, b, -, hb, rfl⟩ := lbHandOver_some m; exact bounds_handOver hb rfl rfl
  · obtain ⟨e, q, -, hq, rfl⟩ := sbStep_some m
    exact .of (.refl _) (.refl _) (by rw [hq]; exact List.sublist_cons_self e q)
  · rcases fuStep_some m with ⟨j, g, -, -, -, rfl⟩ | ⟨j, q, -, -, -, rfl⟩
    · exact (Bounds.ofActs (acts_fuAnswered _ j g)).after rfl rfl rfl
    · exact .same rfl rfl rfl
  · exact bounds_suStep m keeps
  · exact bounds_lbStep m
  · obtain ⟨u, q, rfl, -⟩ := tuStep_frame m; exact .same rfl rfl rfl
  · obtain ⟨n, -, e⟩ := teStep_engages m; exact .ofEngages e

/-- What comes about within a command keeps the bounds that the command's own effect keeps. -/
theorem bounds_settle {s u : State} (h : Bounds s u) : Bounds s (settle u) :=
  settle_induct (Bounds s) (fun _ _ b m => b.trans (micro_bounds m)) h

/-- A command with a settled outcome is bounded by its own effect. -/
theorem bounds_settled {s t u : State} (h : settled u = .next t) (b : Bounds s u) : Bounds s t := by
  cases h; exact bounds_settle b

/-! ## Register writes -/

theorem bounds_replied (s : State) (r : Reply) : Bounds s (s.replied r) := .same rfl rfl rfl

theorem bounds_refuse (s : State) (r : Reason) : Bounds s (s.refuse r) := .same rfl rfl rfl

theorem bounds_regWrite {s : State} {act : State → State} (h : ∀ u, Bounds u (act u)) : Bounds s (s.regWrite act) := by
  unfold State.regWrite
  dsimp only
  split_ifs
  · exact bounds_replied s _
  · exact (bounds_replied s _).trans (bounds_refuse _ _)
  · exact (bounds_replied s _).trans (h _)

theorem bounds_setControl (v : Word) (s : State) : Bounds s (setControl v s) := by
  unfold setControl
  dsimp only
  split
  · exact (bounds_inArrivalOrder acts_goOn _ _).after rfl rfl rfl
  · exact .same rfl rfl rfl

theorem bounds_writeControl {s t : State} {v : Word} (h : writeControl v s = .next t) : Bounds s t := by
  cases h
  refine bounds_regWrite fun u => bounds_settle ?_
  split
  · exact .same rfl rfl rfl
  · exact bounds_setControl v u

theorem bounds_writeAnchor {s t : State} {f : RegPort → RegPort} (hf : ∀ p, (f p).alerts = p.alerts)
    (h : writeAnchor f s = .next t) : Bounds s t := by
  cases h
  refine bounds_regWrite fun u => ?_
  split
  · exact .same (hf u.rp) rfl rfl
  · exact bounds_refuse u _

theorem bounds_acceptSignal (v : Word) (s : State) : Bounds s (acceptSignal v s) := by
  unfold acceptSignal
  dsimp only
  split_ifs
  · exact bounds_refuse s _
  · exact bounds_refuse s _
  · exact bounds_settle (.same rfl rfl rfl)

theorem bounds_acceptCommand (n : ChanId) (k : Command) (s : State) : Bounds s (acceptCommand n k s) := by
  unfold acceptCommand
  dsimp only
  split_ifs
  · exact bounds_refuse s _
  · exact .same rfl rfl rfl
  · exact bounds_settle ((Bounds.ofActs (acts_takeChannelCommand n _ k)).after rfl rfl rfl)

theorem bounds_writeChannelCmd {s t : State} {n : ChanId} {code : BitVec 4} (h : writeChannelCmd n code s = .next t) :
    Bounds s t := by
  cases h
  refine bounds_regWrite fun u => ?_
  split
  · exact .same rfl rfl rfl
  · exact bounds_acceptCommand n .start u
  · exact bounds_acceptCommand n .stop u
  · exact bounds_acceptCommand n .resume u
  · exact bounds_acceptCommand n .skip u
  · exact bounds_acceptCommand n .reset u
  · exact bounds_refuse u _

/-- An ALERT read takes the oldest number at most (R186). -/
theorem bounds_alertRead {s t : State} (h : execAlertRead s = .next t) : Bounds s t := by
  unfold execAlertRead at h
  split at h
  · cases h; exact bounds_replied s _
  · cases h; exact .of (List.tail_sublist _) (.refl _) (.refl _)

theorem bounds_pendingCommandTake {s t : State} (h : execPendingCommandTake s = .next t) : Bounds s t := by
  unfold execPendingCommandTake at h
  split at h
  · split at h
    · exact bounds_settled h ((Bounds.ofActs (acts_takeChannelCommand _ _ _)).after rfl rfl rfl)
    · cases h
  · cases h

/-! ## Answers -/

theorem bounds_fuAnswer {s t : State} {k : FuKind} {resp : Resp} {d : BitVec 4736} (h : fuAnswer k resp d s = .next t) :
    Bounds s t := by
  unfold fuAnswer at h
  split at h
  · split at h
    · exact bounds_settled h (.same rfl rfl rfl)
    · cases h
  · cases h

theorem bounds_suReadAnswer {s t : State} {k : SuKind} {resp : Resp} {d : BitVec 48}
    (h : suReadAnswer k resp d s = .next t) : Bounds s t := by
  unfold suReadAnswer at h
  split at h
  · split at h
    · exact bounds_settled h (.same rfl rfl rfl)
    · cases h
  · cases h

theorem bounds_suWriteAnswer {s t : State} {k : SuKind} {resp : WriteResp} (h : suWriteAnswer k resp s = .next t) :
    Bounds s t := by
  unfold suWriteAnswer at h
  split at h
  · split at h
    · exact bounds_settled h (.same rfl rfl rfl)
    · cases h
  · cases h

theorem bounds_elementReadAnswer {s t : State} {resp : Resp} {d : BitVec 64} (h : execElementReadAnswer resp d s = .next t) :
    Bounds s t := by
  unfold execElementReadAnswer at h
  split at h
  · exact bounds_settled h (.same rfl rfl rfl)
  · cases h

theorem bounds_deviceWriteAnswer {s t : State} {resp : WriteResp} (h : execDeviceWriteAnswer resp s = .next t) :
    Bounds s t := by
  unfold execDeviceWriteAnswer at h
  split at h
  · exact bounds_settled h (.same rfl rfl rfl)
  · cases h

theorem bounds_walkReadAnswer {s t : State} {x : TuStage} {resp : Resp} {d : BitVec 64}
    (h : walkReadAnswer x resp d s = .next t) : Bounds s t := by
  unfold walkReadAnswer at h
  split at h
  · split at h
    · exact bounds_settled h (.same rfl rfl rfl)
    · cases h
  · cases h

theorem bounds_flagWriteAnswer {s t : State} {resp : WriteResp} (h : execFlagWriteAnswer resp s = .next t) : Bounds s t := by
  unfold execFlagWriteAnswer at h
  split at h
  · exact bounds_settled h (.same rfl rfl rfl)
  · cases h

theorem bounds_markChannels (l : List ChanId) (s : State) : Bounds s (markChannels l s) :=
  (Bounds.ofActsAll (acts_all setMark acts_setMark l s)).trans (bounds_inArrivalOrder acts_goOn _ _)

/-- A line written out leaves LB (R150). -/
theorem bounds_writeOutAnswered (l : Line) (resp : WriteResp) (s : State) : Bounds s (writeOutAnswered l resp s) := by
  unfold writeOutAnswered
  dsimp only
  split
  · refine .trans ?_ (bounds_markChannels _ _)
    exact .of (.refl _) List.filter_sublist (.refl _)
  · exact .of (.refl _) List.filter_sublist (.refl _)
  · exact .of (.refl _) List.filter_sublist (.refl _)

theorem bounds_lineWriteOutAnswer {s t : State} {resp : WriteResp} (h : execLineWriteOutAnswer resp s = .next t) :
    Bounds s t := by
  unfold execLineWriteOutAnswer at h
  split at h
  · exact bounds_settled h (bounds_writeOutAnswered _ _ s)
  · cases h

theorem bounds_errorRecordWriteAnswer {s t : State} {resp : WriteResp} (h : execErrorRecordWriteAnswer resp s = .next t) :
    Bounds s t := by
  unfold execErrorRecordWriteAnswer at h
  split at h
  · exact bounds_settled h (.same rfl rfl rfl)
  · cases h

/-! ## Events of the table -/

theorem bounds_grantTo (n : ChanId) (s : State) : Bounds s (grantTo n s) := by
  unfold grantTo
  dsimp only
  split <;> exact .same rfl rfl rfl

theorem bounds_grantPoint {s t : State} (h : execGrantPoint s = .next t) : Bounds s t := by
  unfold execGrantPoint at h
  split at h
  · split at h
    · split at h
      · cases h; exact bounds_grantTo _ s
      · exact bounds_settled h (bounds_grantTo _ s)
    · cases h
  · cases h

theorem bounds_sliceCountExhausted {s t : State} (h : execSliceCountExhausted s = .next t) : Bounds s t := by
  unfold execSliceCountExhausted at h
  split at h
  · exact bounds_settled h (.ofEngages (engages_endSlice _ s none))
  · cases h

theorem bounds_channelDrainComplete {s t : State} (h : execChannelDrainComplete s = .next t) : Bounds s t := by
  unfold execChannelDrainComplete at h
  split at h
  · split at h
    · exact bounds_settled h ((Bounds.ofActs (acts_drainAnswered _ s.lbFree)).after rfl rfl rfl)
    · cases h
  · cases h

theorem bounds_engineDrained (s : State) : Bounds s (engineDrained s) := by
  unfold engineDrained
  split
  · exact (Bounds.ofActs (Acts.modChan _ s _)).trans (.ofEngages (engages_endSlice _ _ none))
  · split
    · exact .same rfl rfl rfl
    · exact .refl s
  · exact .refl s

/-- A full drain answers TE, or empties the alert list for the soft reset (R155, R189). -/
theorem bounds_fullDrainComplete {s t : State} (h : execFullDrainComplete s = .next t) : Bounds s t := by
  unfold execFullDrainComplete at h
  split at h
  · split at h
    · exact bounds_settled h ((bounds_engineDrained s.lbFree).after rfl rfl rfl)
    · cases h
  · split at h
    · exact bounds_settled h (.of (List.nil_sublist _) (.refl _) (.refl _))
    · cases h
  · cases h

theorem bounds_resetRequestsSettled {s t : State} {n : ChanId} (h : execResetRequestsSettled n s = .next t) : Bounds s t := by
  unfold execResetRequestsSettled at h
  split at h
  · exact bounds_settled h (.ofActs (acts_resetGoesOn n s))
  · cases h

theorem bounds_softResetDrain {s t : State} (h : execSoftResetDrain s = .next t) : Bounds s t := by
  unfold execSoftResetDrain at h
  split at h
  · exact bounds_settled h (.same rfl rfl rfl)
  · cases h

theorem bounds_softResetClearing {s t : State} (h : execSoftResetClearing s = .next t) : Bounds s t := by
  unfold execSoftResetClearing at h
  split at h
  · cases h; exact .of (List.nil_sublist _) (.refl _) (.refl _)
  · cases h

/-! ## Every command -/

theorem exec_bounds {c : Instr} {s t : State} (h : exec c s = .next t) : Bounds s t := by
  cases c with
  | hardReset => cases h; exact .of (List.nil_sublist _) (List.nil_sublist _) (List.nil_sublist _)
  | resetRelease => cases h; exact .same rfl rfl rfl
  | controlWrite v => exact bounds_writeControl h
  | softReset v => exact bounds_writeControl h
  | anchorLoWrite v => exact bounds_writeAnchor (f := fun p => { p with anchorLo := v.extractLsb' 13 19 }) (fun _ => rfl) h
  | anchorHiWrite v => exact bounds_writeAnchor (f := fun p => { p with anchorHi := v.extractLsb' 0 8 }) (fun _ => rfl) h
  | signal v => cases h; exact bounds_regWrite (bounds_acceptSignal v)
  | select n => exact bounds_writeChannelCmd (code := 0) h
  | start n => exact bounds_writeChannelCmd (code := 1) h
  | stop n => exact bounds_writeChannelCmd (code := 2) h
  | resume n => exact bounds_writeChannelCmd (code := 3) h
  | skip n => exact bounds_writeChannelCmd (code := 4) h
  | reset n => exact bounds_writeChannelCmd (code := 5) h
  | invalidCommand n code => exact bounds_writeChannelCmd h
  | pendingCommandTake => exact bounds_pendingCommandTake h
  | statusRegisterWrite v => cases h; exact bounds_regWrite fun _ => .same rfl rfl rfl
  | alertRead => exact bounds_alertRead h
  | ignoredRegisterWrite off v => cases h; exact bounds_replied s _
  | narrowAccess off w => cases h; exact bounds_replied s _
  | contextReadAnswer r d | linkReadAnswer r d | headerReadAnswer r d | bodyReadAnswer r d | acceptanceWriteAnswer r
  | doneWriteAnswer r | doneRewriteAnswer r | haltStatusWriteAnswer r | skippedWriteAnswer r | saveWriteAnswer r =>
    exact bounds_fuAnswer h
  | waitReadAnswer r d | notifyReadAnswer r d | undoStopReadAnswer r d | undoResetReadAnswer r d | signalReadAnswer r d =>
    exact bounds_suReadAnswer h
  | waitWriteAnswer r | notifyWriteAnswer r | undoStopWriteAnswer r | undoResetWriteAnswer r | signalWriteAnswer r =>
    exact bounds_suWriteAnswer h
  | grantPoint => exact bounds_grantPoint h
  | elementReadAnswer r d => exact bounds_elementReadAnswer h
  | deviceWriteAnswer r => exact bounds_deviceWriteAnswer h
  | rootReadAnswer r d | descriptorReadAnswer r d | pageEntryReadAnswer r d => exact bounds_walkReadAnswer h
  | flagWriteAnswer r => exact bounds_flagWriteAnswer h
  | lineWriteOutAnswer r => exact bounds_lineWriteOutAnswer h
  | channelDrainComplete => exact bounds_channelDrainComplete h
  | fullDrainComplete => exact bounds_fullDrainComplete h
  | sliceCountExhausted => exact bounds_sliceCountExhausted h
  | errorRecordWriteAnswer r => exact bounds_errorRecordWriteAnswer h
  | resetRequestsSettled n => exact bounds_resetRequestsSettled h
  | softResetDrain => exact bounds_softResetDrain h
  | softResetClearing => exact bounds_softResetClearing h

/-- Settles O55: a step idles, or keeps the bounds as its command does. -/
theorem listsStayWithinBounds : Obligations.ListsStayWithinBounds := by
  unfold Obligations.ListsStayWithinBounds
  intro s t h
  unfold step at h
  split at h
  · cases h; exact ⟨id, id, id⟩
  · obtain ⟨alerts, lines, events⟩ := exec_bounds h
    exact ⟨alerts, lines, events⟩

end Sys2Proof.Semaphores
end

section
/-! SUPPORT. The values of a hard reset, and what RP decides on a SIGNAL. -/

namespace Sys2Proof.Semaphores

open Sys2Proof Sys2Proof.Machine Sys2Proof.Laws Sys2Proof.Flow

/-! ## The hard reset -/

theorem cache_reset (i : Fin 32) : State.reset.tu.cache[i] = CacheSet.invalid := by
  simp [State.reset]

theorem chan_reset (n : ChanId) : State.reset.chan n = Channel.off := by
  simp [State.chan, State.reset]

/-- Settles O2: the two commands by their definitions, the reset values field by field. -/
theorem resetLeavesHardResetValues : Obligations.ResetLeavesHardResetValues := by
  unfold Obligations.ResetLeavesHardResetValues
  refine ⟨fun s => ⟨rfl, rfl⟩, by decide, by decide, rfl, rfl, rfl, rfl, by decide, by decide, rfl, by decide, rfl, rfl, rfl,
    rfl, rfl, rfl, rfl, fun i => ?_, chan_reset⟩
  rw [cache_reset]
  exact ⟨rfl, rfl, rfl⟩

/-! ## SIGNAL -/

/-- Whether SB has a step to make depends on SB alone. -/
theorem sbStep_none {s t : State} (e : t.sb = s.sb) (h : sbStep s = none) : sbStep t = none := by
  simp only [sbStep, e] at h ⊢
  split at h
  · cases h
  · rfl

/-- A settled part with another SU that has nothing to do stays settled. -/
theorem settled_withSu {s t : State} (h : s.isSettled) (k : s.noneKept) (fu : t.fu = s.fu) (sb : t.sb = s.sb) (te : t.te = s.te)
    (tu : t.tu = s.tu) (lb : t.lb = s.lb) (chan : ∀ m, t.chan m = s.chan m) (held : t.su.held = [])
    (su : suStep t = none) : t.isSettled := by
  obtain ⟨-, -, -, -, -, sbs, fus, -, lbs, tus, tes⟩ := (settled_iff s).mp h
  obtain ⟨k1, -, k3, k4, k5⟩ := k
  exact (settled_iff t).mpr ⟨by simp [fuHandOver, fu, k1], by simp [suHandOver, held], by simp [teHandOver, te, k3],
    by simp [tuHandOver, tu, k4], by simp [lbHandOver, lb, k5], sbStep_none sb sbs, fuStep_none fu fus, su,
    lbStep_none lb lbs, tuStep_none tu tus,
    teStep_none te tu lb (fun m => by rw [chan m]) (fun m => by rw [chan m]) tes⟩

/-- A SIGNAL queued at a settled SU with no answer in hand stands at SU, taken or not, and changes no channel and no register. -/
theorem settle_queueSignal {s : State} (h : s.isSettled) (k : s.noneKept) (got : s.su.got = none) (p : RegPort) (x : SemId) :
    ∃ t, settle ({ s with rp := p }.queueSu (.signal x)) = t ∧ t.rp = p ∧ SuReq.signal x ∈ t.suRequests
      ∧ ∀ m, t.chan m = s.chan m := by
  have kept := k
  obtain ⟨k1, k2, k3, k4, k5⟩ := k
  obtain ⟨-, -, -, -, -, sb, fu, su, -, -, -⟩ := (settled_iff s).mp h
  cases hc : s.su.current with
  | some o =>
    have waits : ({ s with rp := p }.queueSu (.signal x)).isSettled :=
      settled_withSu h kept rfl rfl rfl rfl rfl (fun _ => rfl) k2 (by simp [suStep, hc, got])
    exact ⟨_, settle_of_settled waits, rfl, by simp [State.suRequests], fun _ => rfl⟩
  | none =>
    have empty : s.su.queue = [] := by
      cases hq : s.su.queue with
      | nil => rfl
      | cons r q => simp [suStep, hc, k2, hq] at su
    have takes : micro ({ s with rp := p }.queueSu (.signal x))
        = some (suTake (.signal x) [] ({ s with rp := p }.queueSu (.signal x))) :=
      micro_su ⟨k1, k2, k3, k4, k5⟩ (sbStep_none (s := s) rfl sb) (fuStep_none (s := s) rfl fu)
        (by simp [suStep, hc, k2, empty])
    have waits : (suTake (.signal x) [] ({ s with rp := p }.queueSu (.signal x))).isSettled :=
      settled_withSu h kept rfl rfl rfl rfl rfl (fun _ => rfl) k2 (by simp [suStep, suTake, State.suTarget, got])
    refine ⟨_, (settle_micro takes).trans (settle_of_settled waits), rfl, ?_, fun _ => rfl⟩
    simp [suTake, State.suTarget, State.suRequests]

/-- Settles O10: the two refusals by RUN and the slot, and the SIGNAL taken by what SU makes of it. -/
theorem signalDecidedByPort : Obligations.SignalDecidedByPort := by
  unfold Obligations.SignalDecidedByPort
  intro v s takes
  have acts : exec (.signal v) s = .next (acceptSignal v (s.replied ⟨false, 0⟩)) :=
    congrArg Host.Outcome.next (regWrite_takes takes _)
  rw [acts]
  refine ⟨fun run => ?_, fun run slot => ?_, fun run slot settled kept got => ?_⟩
  · simp [acceptSignal, run]
  · simp [acceptSignal, run, Option.isSome_iff_ne_none.mpr slot]
  · obtain ⟨t, ht, rp, mem, chan⟩ := settle_queueSignal settled kept got
      { s.rp with reply := ⟨false, 0⟩, signalSlot := some (v.extractLsb' 0 8).toFin } (v.extractLsb' 0 8).toFin
    refine ⟨t, ?_, by rw [rp], mem, chan⟩
    rw [acceptSignal, if_neg (by simp [run]), if_neg (by simp [slot])]
    exact congrArg Host.Outcome.next ht

end Sys2Proof.Semaphores
end

section
/-! SUPPORT. MP's answers to SU's writes: what a wait, a notify or a SIGNAL performed leads to, and what follows where it is not
performed. -/

namespace Sys2Proof.Semaphores

open Sys2Proof Sys2Proof.Machine Sys2Proof.Laws Sys2Proof.Records Sys2Proof.Flow Sys2Proof.Commands

/-! ## SU's write answered -/

/-- The row that answers a request's write is SU's write answer of its kind. -/
theorem exec_writeAnswerOf (r : SuReq) (resp : WriteResp) (s : State) :
    exec (writeAnswerOf r resp) s = suWriteAnswer r.kind resp s := by
  cases r <;> rfl

section Written

variable {n : ChanId} {s : State} {o : SuOp} {d : BitVec 48}

/-- A write answered OKAY has SU perform the operation (R51). -/
theorem writeOkay_next (h : s.suAwaits o) (hr : o.record = some d) :
    ∃ b q, exec (writeAnswerOf o.req .okay) s = .next (settle (suPerformed o d (suDone s b q))) := by
  obtain ⟨b, q, he, -⟩ := suWriteAnswer_next h hr .okay
  have performs : suAnswered o ⟨asResp .okay, 0⟩ (suHas s b q ⟨asResp .okay, 0⟩) = suPerformed o d (suDone s b q) := by
    simp only [suAnswered, hr, asResp, if_true]
    rfl
  rw [performs] at he
  exact ⟨b, q, (exec_writeAnswerOf o.req .okay s).trans he⟩

/-- A write answered ERROR has SU answer that the operation was not performed (R53). -/
theorem writeError_next (h : s.suAwaits o) (hr : o.record = some d) :
    ∃ b q, exec (writeAnswerOf o.req .error) s = .next (settle (suFailed o.req .memory (suDone s b q))) := by
  obtain ⟨b, q, he, -⟩ := suWriteAnswer_next h hr .error
  have fails : suAnswered o ⟨asResp .error, 0⟩ (suHas s b q ⟨asResp .error, 0⟩) = suFailed o.req .memory (suDone s b q) := by
    simp only [suAnswered, hr, asResp, reduceCtorEq, if_false]
    rfl
  rw [fails] at he
  exact ⟨b, q, (exec_writeAnswerOf o.req .error s).trans he⟩

/-- A channel with nothing queued at SU, SU being free, has no request there. -/
theorem not_suBusy_of_queue (hc : s.su.current = none) (hq : ∀ r ∈ s.su.queue, r.chan ≠ some n) : s.suBusy n = false := by
  simpa [State.suBusy, hc] using hq

/-- A channel of which SU queues nothing is left alone while FU and SU hold no answer and it does not hold the grant. -/
theorem leftAlone_of_queue (fu : s.fu.got = none) (su : s.su.got = none) (hq : ∀ r ∈ s.su.queue, r.chan ≠ some n)
    (grant : s.te.grant ≠ some n) : s.leftAlone n := by
  refine ⟨fu, su, ?_, grant⟩
  rintro (hm | hm)
  · exact absurd rfl (hq _ hm)
  · exact absurd rfl (hq _ hm)

/-- The channel of an operation has, once SU is free of it, no request at SU. -/
theorem suDone_not_suBusy (h : s.suAwaits o) (hc : o.req.chan = some n) (b : StatusBlock) (q : Option MpReq) :
    (suDone s b q).suBusy n = false := by
  obtain ⟨-, -, -, -, -, -, -, alone⟩ := h
  exact not_suBusy_of_queue rfl (alone n hc).1

end Written

/-- A channel's reaction leaves the answers in hand, the parked list and the alert list. -/
theorem acts_lists {n : ChanId} {s t : State} (a : Acts n s t) :
    t.fu.got = s.fu.got ∧ t.su.got = s.su.got ∧ t.su.parked = s.su.parked ∧ t.rp.alerts = s.rp.alerts := by
  obtain ⟨l, fu, -⟩ := a.fu
  obtain ⟨k, su, -⟩ := a.su
  obtain ⟨x, rp⟩ := a.rp
  exact ⟨by rw [fu], by rw [su], by rw [su], by rw [rp]⟩

/-- A wait or notify that is not performed changes neither the parked list nor the alert list (R53). -/
theorem requestFailed_lists {n : ChanId} {s : State} {o : SuOp} (h : s.suAwaits o) (c : FaultCode) (b : StatusBlock)
    (q : Option MpReq) :
    (settle (requestFailed n c (suDone s b q))).su.parked = s.su.parked
      ∧ (settle (requestFailed n c (suDone s b q))).rp.alerts = s.rp.alerts := by
  obtain ⟨-, -, -, fu, -⟩ := h
  obtain ⟨hf, hs, parked, alerts⟩ := acts_lists (acts_requestFailed n (suDone s b q) c)
  obtain ⟨parked', alerts', -⟩ := settleFor_noAnswer (hf.trans fu) hs (requestFailed n c (suDone s b q)).work
  exact ⟨parked'.trans parked, alerts'.trans alerts⟩

/-! ## The success of a wait -/

section Succeeded

variable {n : ChanId} {s : State}

/-- At the point before its fetch a channel keeps its state and its phase, whatever it does there. -/
theorem state_fetchPoint : ((fetchPoint n s).chan n).state = (s.chan n).state ∧ ((fetchPoint n s).chan n).phase = (s.chan n).phase := by
  have halted : ∀ code va, ((beginHalt n code va s).chan n).state = (s.chan n).state
      ∧ ((beginHalt n code va s).chan n).phase = (s.chan n).phase := fun code va => by rw [chan_beginHalt]; exact ⟨rfl, rfl⟩
  have asked : ∀ k q a, ((s.askFu n k q a).chan n).state = (s.chan n).state
      ∧ ((s.askFu n k q a).chan n).phase = (s.chan n).phase := fun k q a => by rw [chan_askFu]; exact ⟨rfl, rfl⟩
  unfold fetchPoint stopHere beginStop followLink
  dsimp only
  split_ifs
  · exact ⟨rfl, rfl⟩
  · simp
  · split
    · split
      · exact halted _ _
      · exact asked _ _ _
    · exact asked _ _ _
  · exact ⟨rfl, rfl⟩

/-- The success of a posting wait: the channel goes on to FETCHING, and there, with RUN 1, to the LINK of its last task (R24,
R25, R36). -/
theorem waitSucceeded_of_post (hr : (s.chan n).reset = .off) (hs : (s.chan n).stopPending = false)
    (hp : (s.chan n).phase = .post) :
    ((waitSucceeded n s).chan n).state = .fetching ∧ ((waitSucceeded n s).chan n).phase = .fetch
      ∧ (s.rp.run = false → (waitSucceeded n s).chan n
        = { s.chan n with state := .fetching, phase := .fetch, listIndex := 0, activity := .beforeFetch })
      ∧ ∀ a, s.rp.run = true → (s.chan n).lastTask = some a →
        (waitSucceeded n s).chan n
            = { s.chan n with state := .fetching, phase := .fetch, listIndex := 0, activity := .linkRead }
          ∧ (⟨n, .link, .read a 8⟩ : FuJob) ∈ (waitSucceeded n s).fuJobs := by
  have fetches : waitSucceeded n s = enterFetch n s := by simp [waitSucceeded, hr, hp]
  rw [fetches, enterFetch]
  obtain ⟨state, phase⟩ := state_fetchPoint (n := n)
    (s := s.modChan n fun c => { c with state := .fetching, phase := .fetch, listIndex := 0, activity := .beforeFetch })
  rw [chan_modChan] at state phase
  refine ⟨state, phase, fun run => ?_, fun a run last => ?_⟩
  · simp [fetchPoint, hs, run]
  · rw [fetchPoint_of_run (by rw [chan_modChan]; exact last) (by rw [chan_modChan]; exact hs) (by exact run)]
    exact ⟨by rw [chan_askFu, chan_modChan], job_mem_askFu n _ _ _ _⟩

/-- A channel past the wait at its list index (R28). -/
def pastWait (n : ChanId) (s : State) : State :=
  s.setChan n { s.chan n with listIndex := (s.chan n).listIndex + 1, activity := .beforeWait }

@[simp] theorem chan_pastWait (n : ChanId) (s : State) : (pastWait n s).chan n
    = { s.chan n with listIndex := (s.chan n).listIndex + 1, activity := .beforeWait } := chan_setChan s n _

/-- The success of a wait of the wait list goes on past its entry (R28). -/
theorem waitSucceeded_of_prewait (hr : (s.chan n).reset = .off) (hp : (s.chan n).phase = .prewait) :
    waitSucceeded n s = prewaitPoint n (pastWait n s) := by
  simp [waitSucceeded, hr, hp, pastWait]

/-- Before a wait of its list a channel is held by RUN 0 (R36). -/
theorem prewaitPoint_of_held {k : SemId} (hk : (s.chan n).waits[(s.chan n).listIndex]? = some k)
    (hstop : (s.chan n).stopPending = false) (hrun : s.rp.run = false) : prewaitPoint n s = s := by
  simp [prewaitPoint, hk, hstop, hrun]

/-- To the next wait, which with RUN 1 is queued (R28, R36). -/
theorem waitSucceeded_of_next {k : SemId} (hr : (s.chan n).reset = .off) (hs : (s.chan n).stopPending = false)
    (hp : (s.chan n).phase = .prewait) (busy : s.suBusy n = false)
    (hk : (s.chan n).waits[(s.chan n).listIndex + 1]? = some k) :
    (s.rp.run = false → (waitSucceeded n s).chan n
        = { s.chan n with listIndex := (s.chan n).listIndex + 1, activity := .beforeWait })
      ∧ (s.rp.run = true →
        (waitSucceeded n s).chan n = { s.chan n with listIndex := (s.chan n).listIndex + 1, activity := .waiting }
          ∧ SuReq.wait n k ∈ (waitSucceeded n s).suRequests) := by
  have next : ((pastWait n s).chan n).waits[((pastWait n s).chan n).listIndex]? = some k := by rw [chan_pastWait]; exact hk
  have stop : ((pastWait n s).chan n).stopPending = false := by rw [chan_pastWait]; exact hs
  rw [waitSucceeded_of_prewait hr hp]
  refine ⟨fun run => ?_, fun run => ?_⟩
  · rw [prewaitPoint_of_held next stop run, chan_pastWait]
  · rw [prewaitPoint_of_run next stop run busy]
    exact ⟨by simp, by simp [State.suRequests]⟩

/-- Past its last wait a PURGE applies its preloads and stands in READY (R29). -/
theorem enterWork_of_purge {task : Task} {x : PurgeDescriptor} (ht : (s.chan n).task = some task) (hw : task.work = .purge x)
    (hmark : (s.chan n).mark = false) (hstop : (s.chan n).stopPending = false) :
    (enterWork n s).chan n = { s.chan n with
      state := .ready, phase := .purge, activity := .ready, listIndex := 0
      cursors := applyPreloads (s.chan n).cursors task.preloads } := by
  unfold enterWork
  simp only [ht, hw]
  rw [readyPoint_of_free (by simpa using hmark) (by simpa using hstop)]
  simp [ht]

/-- Past the last wait, into the work of the task, its preloads applied (R29). -/
theorem waitSucceeded_of_last {task : Task} (hr : (s.chan n).reset = .off) (hs : (s.chan n).stopPending = false)
    (hp : (s.chan n).phase = .prewait) (hk : (s.chan n).waits[(s.chan n).listIndex + 1]? = none)
    (ht : (s.chan n).task = some task) (hmark : (s.chan n).mark = false) :
    (∀ x rest, task.work = .transfer (x :: rest) → (waitSucceeded n s).chan n = ({ s.chan n with
        state := .ready, phase := .move, activity := .ready, listIndex := 0
        cursors := applyPreloads (s.chan n).cursors task.preloads } : Channel).prepareMove 0 x)
      ∧ ∀ x, task.work = .purge x → (waitSucceeded n s).chan n = { s.chan n with
        state := .ready, phase := .purge, activity := .ready, listIndex := 0
        cursors := applyPreloads (s.chan n).cursors task.preloads } := by
  rw [waitSucceeded_of_prewait hr hp, prewaitPoint_past (by rw [chan_pastWait]; exact hk)]
  refine ⟨fun x rest work => ?_, fun x work => ?_⟩
  · rw [enterWork_of_transfer (by rw [chan_pastWait]; exact ht) work (by rw [chan_pastWait]; exact hmark)
      (by rw [chan_pastWait]; exact hs), chan_pastWait]
  · rw [enterWork_of_purge (by rw [chan_pastWait]; exact ht) work (by rw [chan_pastWait]; exact hmark)
      (by rw [chan_pastWait]; exact hs), chan_pastWait]

end Succeeded

/-! ## Waits -/

section Waits

variable {n : ChanId} {k : SemId} {d : BitVec 48} {count : BitVec 16} {s : State}

/-- A wait performed on a COUNT of 0 or more succeeds, and nothing more reaches its channel (R54). -/
theorem waitOkay_succeeds (h : s.suAwaits ⟨.wait n k, k, some d, count⟩) (hc : 0 ≤ count.toInt) :
    ∃ b q t, exec (.waitWriteAnswer .okay) s = .next t ∧ Rests n (waitSucceeded n (suDone s b q)) t
      ∧ t.su.parked = s.su.parked := by
  obtain ⟨b, q, he⟩ := writeOkay_next h rfl
  have succeeds : suPerformed ⟨.wait n k, k, some d, count⟩ d (suDone s b q) = waitSucceeded n (suDone s b q) := if_pos hc
  rw [succeeds] at he
  obtain ⟨alone, -⟩ := suDone_leftAlone h rfl b q
  have a := acts_waitSucceeded n (suDone s b q)
  obtain ⟨-, -, parked, -⟩ := acts_lists a
  have rests := settle_leftAlone (acts_leftAlone a alone)
  exact ⟨b, q, _, he, rests, rests.parked.trans parked⟩

/-- A wait performed on a negative COUNT parks its channel, newest in the list (R54, R55). -/
theorem waitOkay_parks (h : s.suAwaits ⟨.wait n k, k, some d, count⟩) (hc : count.toInt < 0) (hr : (s.chan n).reset = .off)
    (hs : (s.chan n).stopPending = false) :
    ∃ t, exec (.waitWriteAnswer .okay) s = .next t ∧ t.chan n = { s.chan n with activity := .parked }
      ∧ t.su.parked = s.su.parked ++ [⟨n, k⟩] := by
  obtain ⟨b, q, he⟩ := writeOkay_next h rfl
  have parks : suPerformed ⟨.wait n k, k, some d, count⟩ d (suDone s b q)
      = (joined n k (suDone s b q)).setActivity n .parked := by
    have same : (joined n k (suDone s b q)).chan n = s.chan n := rfl
    refine (if_neg (not_le.mpr hc)).trans (?_ : waitParked n (joined n k (suDone s b q)) = _)
    simp [waitParked, same, hr, hs]
  rw [parks] at he
  obtain ⟨⟨fu, su, queue, grant⟩, -⟩ := suDone_leftAlone h rfl b q
  obtain ⟨-, -, -, -, -, -, -, alone⟩ := h
  obtain ⟨hq, -⟩ := alone n rfl
  have rests := settle_leftAlone (n := n) (s := (joined n k (suDone s b q)).setActivity n .parked)
    (leftAlone_of_queue fu su hq grant)
  exact ⟨_, he, rests.chan.trans (chan_setActivity _ _ _), rests.parked⟩

/-- Settles O33: the success of a posting wait and of a list wait, the parking, and the halt. -/
theorem waitWriteSucceedsOrParks : Obligations.WaitWriteSucceedsOrParks := by
  unfold Obligations.WaitWriteSucceedsOrParks
  intro n k d count s h reset stop
  refine ⟨fun a hc phase run last => ?_, fun k' hc phase run next => ?_, fun hc => waitOkay_parks h hc reset stop, ?_⟩
  · obtain ⟨b, q, t, ht, rests, parked⟩ := waitOkay_succeeds h hc
    obtain ⟨-, -, -, fetches⟩ := waitSucceeded_of_post (n := n) (s := suDone s b q) reset stop phase
    obtain ⟨own, job⟩ := fetches a run last
    exact ⟨t, ht, rests.chan.trans own, rests.fuJobs _ job, parked⟩
  · obtain ⟨b, q, t, ht, rests, parked⟩ := waitOkay_succeeds h hc
    obtain ⟨-, waits⟩ := waitSucceeded_of_next (s := suDone s b q) reset stop phase (suDone_not_suBusy h rfl b q) next
    obtain ⟨own, wait⟩ := waits run
    exact ⟨t, ht, rests.chan.trans own, rests.suRequests _ wait (by simp [State.suTarget]), parked⟩
  · obtain ⟨b, q, he⟩ := writeError_next h rfl
    obtain ⟨own, -, -⟩ := requestFailed_reaches h rfl reset .semError b q
    obtain ⟨parked, -⟩ := requestFailed_lists (n := n) h .semError b q
    exact ⟨_, he, own, parked⟩

end Waits

end Sys2Proof.Semaphores
end

section
/-! SUPPORT. A notify or SIGNAL performed: whom it wakes, what it does to the alert list, and what a channel woken does. -/

namespace Sys2Proof.Semaphores

open Sys2Proof Sys2Proof.Machine Sys2Proof.Laws Sys2Proof.Records Sys2Proof.Flow Sys2Proof.Commands

/-! ## The alert list -/

section Alerts

variable {k : SemId} {s : State}

theorem offerAlert_of_mem (h : k ∈ s.rp.alerts) : offerAlert k s = s := by simp [offerAlert, h]

theorem offerAlert_of_full (h : k ∉ s.rp.alerts) (full : 32 ≤ s.rp.alerts.length) :
    offerAlert k s = { s with sb := { s.sb with alertLost := true } } := by
  simp [offerAlert, h, Config.alertEntries, full]

theorem offerAlert_of_room (h : k ∉ s.rp.alerts) (room : s.rp.alerts.length < 32) :
    offerAlert k s = { s with rp := { s.rp with alerts := s.rp.alerts ++ [k] } } := by
  simp [offerAlert, h, Config.alertEntries, not_le.mpr room]

/-- The offer of a number changes the alert list or ALERT_LOST alone (R59). -/
theorem offerAlert_frame (k : SemId) (s : State) :
    (offerAlert k s).chans = s.chans ∧ (offerAlert k s).fu = s.fu ∧ (offerAlert k s).su = s.su ∧ (offerAlert k s).te = s.te
      ∧ (offerAlert k s).rp.run = s.rp.run := by
  unfold offerAlert
  split_ifs <;> exact ⟨rfl, rfl, rfl, rfl, rfl⟩

end Alerts

/-! ## The wake -/

section Wake

variable {lifo : Bool} {k : SemId} {count : BitVec 16} {s : State} {e : Parked} {pre post l : List Parked}

theorem wakeOne_of_pos (h : 0 < count.toInt) : wakeOne lifo k count s = s := if_neg (not_le.mpr h)

theorem wakeOne_of_choose (hc : count.toInt ≤ 0) (he : chooseParked lifo k s.su.parked = some e) :
    wakeOne lifo k count s = waitSucceeded e.chan (woken e s) := by
  rw [wakeOne, if_pos hc, he]
  rfl

/-- A semaphore at which no channel is parked has none to wake. -/
theorem chooseParked_of_absent (h : ∀ x ∈ l, x.sem ≠ k) : chooseParked lifo k l = none := by
  cases lifo <;> simpa [chooseParked, List.find?_eq_none] using h

theorem wakeOne_of_absent (h : ∀ x ∈ s.su.parked, x.sem ≠ k) : wakeOne lifo k count s = s := by
  rw [wakeOne, chooseParked_of_absent h]
  split <;> rfl

/-- Under FIFO the oldest entry of the semaphore is chosen (R57). -/
theorem chooseParked_fifo (hk : e.sem = k) (oldest : ∀ x ∈ pre, x.sem ≠ k) :
    chooseParked false k (pre ++ e :: post) = some e := by
  have none : pre.find? (·.sem == k) = none := by simpa [List.find?_eq_none] using oldest
  simp [chooseParked, List.find?_append, none, hk]

/-- Under LIFO the newest entry of the semaphore is chosen (R57). -/
theorem chooseParked_lifo (hk : e.sem = k) (newest : ∀ x ∈ post, x.sem ≠ k) :
    chooseParked true k (pre ++ e :: post) = some e := by
  have none : post.reverse.find? (·.sem == k) = none := by simpa [List.find?_eq_none] using newest
  simp [chooseParked, List.find?_append, none, hk]

theorem erase_between (h : e ∉ pre) : (pre ++ e :: post).erase e = pre ++ post := by
  rw [List.erase_append_right _ h, List.erase_cons_head]

/-- A wake leaves the answers in hand and the alert list, and takes at most the entry chosen out of the parked list. -/
theorem wakeOne_lists (lifo : Bool) (k : SemId) (count : BitVec 16) (s : State) :
    (wakeOne lifo k count s).fu.got = s.fu.got ∧ (wakeOne lifo k count s).su.got = s.su.got
      ∧ (wakeOne lifo k count s).rp.alerts = s.rp.alerts
      ∧ ∀ e, count.toInt ≤ 0 → chooseParked lifo k s.su.parked = some e →
        (wakeOne lifo k count s).su.parked = s.su.parked.erase e := by
  have wakes : ∀ e, (waitSucceeded e.chan (woken e s)).fu.got = s.fu.got
      ∧ (waitSucceeded e.chan (woken e s)).su.got = s.su.got
      ∧ (waitSucceeded e.chan (woken e s)).su.parked = s.su.parked.erase e
      ∧ (waitSucceeded e.chan (woken e s)).rp.alerts = s.rp.alerts := fun e =>
    acts_lists (acts_waitSucceeded e.chan (woken e s))
  have entry : ∀ e, count.toInt ≤ 0 → chooseParked lifo k s.su.parked = some e →
      (wakeOne lifo k count s).su.parked = s.su.parked.erase e := by
    intro e hc he
    obtain ⟨-, -, parked, -⟩ := wakes e
    rw [wakeOne_of_choose hc he, parked]
  rcases wakeOne_cases lifo k count s with same | ⟨e, -, eq⟩
  · exact ⟨by rw [same], by rw [same], by rw [same], entry⟩
  · obtain ⟨fu, su, -, alerts⟩ := wakes e
    exact ⟨by rw [eq, fu], by rw [eq, su], by rw [eq, alerts], entry⟩

end Wake

/-! ## The effects of a notify -/

section Effects

variable {n : ChanId} {k : SemId} {d : BitVec 48} {count : BitVec 16} {s : State}

/-- The wake comes first, and then, with ALERT 1, the offer of the number (R56; log 7). -/
theorem notifyEffects_eq (d : BitVec 48) (k : SemId) (count : BitVec 16) (s : State) :
    notifyEffects d k count s
      = if semAlert d = true then offerAlert k (wakeOne (semLifo d) k count s) else wakeOne (semLifo d) k count s := rfl

/-- The effects of a notify but the alert are those of its wake. -/
theorem notifyEffects_frame (d : BitVec 48) (k : SemId) (count : BitVec 16) (s : State) :
    (notifyEffects d k count s).chans = (wakeOne (semLifo d) k count s).chans
      ∧ (notifyEffects d k count s).fu = (wakeOne (semLifo d) k count s).fu
      ∧ (notifyEffects d k count s).su = (wakeOne (semLifo d) k count s).su
      ∧ (notifyEffects d k count s).te = (wakeOne (semLifo d) k count s).te
      ∧ (notifyEffects d k count s).rp.run = (wakeOne (semLifo d) k count s).rp.run := by
  rw [notifyEffects_eq]
  split
  · exact offerAlert_frame k _
  · exact ⟨rfl, rfl, rfl, rfl, rfl⟩

/-- The alert list after a notify: longer by the number where ALERT is 1, the number new and the list not full (R59, R69). -/
theorem notifyEffects_alerts (d : BitVec 48) (k : SemId) (count : BitVec 16) (s : State) :
    (semAlert d = true → k ∉ s.rp.alerts → s.rp.alerts.length < 32 →
        (notifyEffects d k count s).rp.alerts = s.rp.alerts ++ [k])
      ∧ (semAlert d = false ∨ k ∈ s.rp.alerts ∨ 32 ≤ s.rp.alerts.length →
        (notifyEffects d k count s).rp.alerts = s.rp.alerts)
      ∧ (semAlert d = true → k ∉ s.rp.alerts → 32 ≤ s.rp.alerts.length →
        (notifyEffects d k count s).sb.alertLost = true) := by
  obtain ⟨-, -, alerts, -⟩ := wakeOne_lists (semLifo d) k count s
  rw [notifyEffects_eq]
  refine ⟨fun alert new room => ?_, fun same => ?_, fun alert new full => ?_⟩
  · rw [if_pos alert, offerAlert_of_room (by rwa [alerts]) (by rwa [alerts]), alerts]
  · cases alert : semAlert d with
    | false => simpa using alerts
    | true =>
      by_cases mem : k ∈ s.rp.alerts
      · rw [if_pos rfl, offerAlert_of_mem (by rwa [alerts]), alerts]
      · have full : 32 ≤ s.rp.alerts.length := by simpa [alert, mem] using same
        rw [if_pos rfl, offerAlert_of_full (by rwa [alerts]) (by rwa [alerts])]
        exact alerts
  · rw [if_pos alert, offerAlert_of_full (by rwa [alerts]) (by rwa [alerts])]

/-- A channel that is not parked, left alone and with nothing at SU stays so through the effects of another's notify. -/
theorem notifyEffects_apart (alone : s.leftAlone n) (free : s.su.current = none) (queue : ∀ r ∈ s.su.queue, r.chan ≠ some n)
    (apart : ∀ x ∈ s.su.parked, x.chan ≠ n) :
    (notifyEffects d k count s).chan n = s.chan n ∧ (notifyEffects d k count s).leftAlone n
      ∧ (notifyEffects d k count s).suBusy n = false ∧ (notifyEffects d k count s).rp.run = s.rp.run := by
  obtain ⟨chans, fu, su, te, run⟩ := notifyEffects_frame d k count s
  obtain ⟨hf, hs, -, grant⟩ := alone
  have wake : (wakeOne (semLifo d) k count s).chan n = s.chan n
      ∧ (∀ r ∈ (wakeOne (semLifo d) k count s).su.queue, r.chan ≠ some n)
      ∧ (wakeOne (semLifo d) k count s).su.current = none ∧ (wakeOne (semLifo d) k count s).te = s.te
      ∧ (wakeOne (semLifo d) k count s).rp.run = s.rp.run := by
    rcases wakeOne_cases (semLifo d) k count s with same | ⟨e, he, eq⟩
    · rw [same]; exact ⟨rfl, queue, free, rfl, rfl⟩
    · have a := acts_waitSucceeded e.chan (woken e s)
      have ne : n ≠ e.chan := (apart e he).symm
      obtain ⟨l, hl, own⟩ := a.su
      obtain ⟨x, rp⟩ := a.rp
      rw [eq]
      refine ⟨a.others n ne, fun r hr => ?_, by rw [hl]; exact free, a.te, by rw [rp]; rfl⟩
      rw [hl] at hr
      rcases List.mem_append.mp hr with hr | hr
      · exact queue r hr
      · intro same
        exact ne (Option.some.inj (same.symm.trans (own r hr).1))
  obtain ⟨own, queue', current, te', run'⟩ := wake
  obtain ⟨gotFu, gotSu, -⟩ := wakeOne_lists (semLifo d) k count s
  refine ⟨(congrArg (·[n.val]) chans).trans own, leftAlone_of_queue ?_ ?_ ?_ ?_, not_suBusy_of_queue ?_ ?_, run.trans run'⟩
  · rw [fu, gotFu, hf]
  · rw [su, gotSu, hs]
  · rw [su]; exact queue'
  · rw [te, te']; exact grant
  · rw [su, current]
  · rw [su]; exact queue'

end Effects

/-! ## Notify and SIGNAL performed -/

/-- What a notify or SIGNAL performed does after its wake and its alert: the notify's channel goes on, the SIGNAL leaves the slot
(R34, R61). -/
def notified (r : SuReq) (s : State) : State :=
  match r with
  | .notify n _ => notifyPerformed n s
  | .wait _ _ | .undoStop _ | .undoReset _ | .signal _ => s.emptySignalSlot

/-- Neither touches the answers in hand, the parked list, the alert list or ALERT_LOST. -/
theorem notified_lists (r : SuReq) (s : State) :
    (notified r s).fu.got = s.fu.got ∧ (notified r s).su.got = s.su.got ∧ (notified r s).su.parked = s.su.parked
      ∧ (notified r s).rp.alerts = s.rp.alerts ∧ (notified r s).sb.alertLost = s.sb.alertLost := by
  cases r with
  | notify n k =>
    have a := acts_notifyPerformed n s
    obtain ⟨fu, su, parked, alerts⟩ := acts_lists a
    obtain ⟨x, sb, -⟩ := a.sb
    exact ⟨fu, su, parked, alerts, by rw [notified, sb]⟩
  | wait n k | undoStop n | undoReset n | signal k => exact ⟨rfl, rfl, rfl, rfl, rfl⟩

section Performed

variable {n : ChanId} {r : SuReq} {k : SemId} {d : BitVec 48} {count : BitVec 16} {s : State}

theorem suPerformed_notify (hr : r = .signal k ∨ ∃ n, r = .notify n k) (s : State) :
    suPerformed ⟨r, k, some d, count⟩ d s = notified r (notifyEffects d k count s) := by
  rcases hr with rfl | ⟨n, rfl⟩ <;> rfl

/-- A notify or SIGNAL whose write is answered OKAY leaves the parked list and the alert list as its effects leave them (R56). -/
theorem notifyOkay_next (h : s.suAwaits ⟨r, k, some d, count⟩) (hr : r = .signal k ∨ ∃ n, r = .notify n k) :
    ∃ b q t, exec (writeAnswerOf r .okay) s = .next t ∧ t = settle (notified r (notifyEffects d k count (suDone s b q)))
      ∧ t.su.parked = (wakeOne (semLifo d) k count (suDone s b q)).su.parked
      ∧ t.rp.alerts = (notifyEffects d k count (suDone s b q)).rp.alerts
      ∧ ((notifyEffects d k count (suDone s b q)).sb.alertLost = true → t.sb.alertLost = true)
      ∧ t.rp.signalSlot = (notified r (notifyEffects d k count (suDone s b q))).rp.signalSlot := by
  obtain ⟨b, q, he⟩ := writeOkay_next h rfl
  rw [suPerformed_notify hr] at he
  obtain ⟨-, -, -, fu, -⟩ := h
  obtain ⟨fu', su', parked', alerts', lost'⟩ := notified_lists r (notifyEffects d k count (suDone s b q))
  obtain ⟨-, hfu, hsu, -⟩ := notifyEffects_frame d k count (suDone s b q)
  obtain ⟨fu'', su'', -⟩ := wakeOne_lists (semLifo d) k count (suDone s b q)
  obtain ⟨parked, alerts, slot⟩ := settleFor_noAnswer (s := notified r (notifyEffects d k count (suDone s b q)))
    (by rw [fu', hfu, fu'']; exact fu) (by rw [su', hsu, su'']; rfl)
    (notified r (notifyEffects d k count (suDone s b q))).work
  obtain ⟨-, lost⟩ := settleFor_sticky (notified r (notifyEffects d k count (suDone s b q))).work
    (notified r (notifyEffects d k count (suDone s b q)))
  exact ⟨b, q, _, he, rfl, by rw [← hsu, ← parked']; exact parked, alerts.trans alerts',
    fun l => lost (lost'.trans l), slot⟩

/-- A notify performed goes on to the next entry of its list (R34). -/
theorem notifyPerformed_of_next {k' : SemId} (hr : (s.chan n).reset = .off) (run : s.rp.run = true) (busy : s.suBusy n = false)
    (hk : (s.chan n).notifies[(s.chan n).listIndex + 1]? = some k') :
    notifyPerformed n s
      = ((s.setChan n { s.chan n with listIndex := (s.chan n).listIndex + 1, activity := .beforeNotify }).setActivity n
          .notifying).queueSu (.notify n k') := by
  have goes : notifyPerformed n s
      = notifyPoint n (s.setChan n { s.chan n with listIndex := (s.chan n).listIndex + 1, activity := .beforeNotify }) := by
    simp [notifyPerformed, hr]
  rw [goes]
  exact notifyPoint_of_run (by rw [chan_setChan]; exact hk) run busy

/-- The notify's channel, if the wake is not its own, asks for the next notify of its list (R34). -/
theorem notifyOkay_advances {k' : SemId} {t : State} {b : StatusBlock} {q : Option MpReq}
    (h : s.suAwaits ⟨.notify n k, k, some d, count⟩) (hr : (s.chan n).reset = .off) (run : s.rp.run = true)
    (apart : ∀ x ∈ s.su.parked, x.chan ≠ n) (hk : (s.chan n).notifies[(s.chan n).listIndex + 1]? = some k')
    (ht : t = settle (notified (.notify n k) (notifyEffects d k count (suDone s b q)))) :
    t.chan n = { s.chan n with listIndex := (s.chan n).listIndex + 1, activity := .notifying }
      ∧ SuReq.notify n k' ∈ t.suRequests := by
  obtain ⟨alone, -⟩ := suDone_leftAlone h rfl b q
  obtain ⟨-, -, -, -, -, -, -, own⟩ := h
  obtain ⟨queue, -⟩ := own n rfl
  obtain ⟨chan, alone', busy, run'⟩ := notifyEffects_apart (d := d) (k := k) (count := count) alone rfl queue apart
  rw [chan_suDone] at chan
  have rests := settle_leftAlone (acts_leftAlone (acts_notifyPerformed n _) alone')
  subst ht
  rw [notified]
  rw [notifyPerformed_of_next (by rw [chan]; exact hr) (run'.trans run) busy (by rw [chan]; exact hk)] at rests ⊢
  obtain ⟨asked, mem⟩ := request_of_rests rests (by simp [State.suTarget])
  exact ⟨by rw [asked, chan_setChan, chan], mem⟩

end Performed

/-- Settles O34: the wake by the discipline, the alert by the list, then the notify's next entry; and the two failures. -/
theorem notifyWakesAndAlerts : Obligations.NotifyWakesAndAlerts := by
  unfold Obligations.NotifyWakesAndAlerts
  intro r k d count s h hr
  refine ⟨?_, ?_, ?_⟩
  · obtain ⟨b, q, t, he, ht, parked, alerts, lost, slot⟩ := notifyOkay_next h hr
    obtain ⟨-, -, -, woken⟩ := wakeOne_lists (semLifo d) k count (suDone s b q)
    obtain ⟨room, same, full⟩ := notifyEffects_alerts d k count (suDone s b q)
    refine ⟨t, he, fun hc fifo pre e post hp hk oldest => ?_, fun hc lifo pre e post hp nodup hk newest => ?_, fun none => ?_,
      fun alert new free => alerts.trans (room alert new free), fun kept => alerts.trans (same kept),
      fun alert new filled => lost (full alert new filled), ?_, ?_⟩
    · have chosen : chooseParked (semLifo d) k s.su.parked = some e := by rw [fifo, hp]; exact chooseParked_fifo hk oldest
      refine parked.trans ((woken e hc chosen).trans ?_)
      exact (congrArg (·.erase e) hp).trans (erase_between fun mem => oldest e mem hk)
    · have chosen : chooseParked (semLifo d) k s.su.parked = some e := by rw [lifo, hp]; exact chooseParked_lifo hk newest
      refine parked.trans ((woken e hc chosen).trans ?_)
      rw [hp] at nodup
      obtain ⟨-, -, apart⟩ := List.nodup_append.mp nodup
      exact (congrArg (·.erase e) hp).trans (erase_between fun mem => apart e mem e List.mem_cons_self rfl)
    · rcases none with pos | absent
      · rw [parked, wakeOne_of_pos pos]; rfl
      · rw [parked, wakeOne_of_absent (s := suDone s b q) absent]; rfl
    · rintro rfl
      exact slot
    · rintro n k' rfl off run apart next
      exact notifyOkay_advances h off run apart next ht
  · rintro rfl
    obtain ⟨b, q, he⟩ := writeError_next h rfl
    obtain ⟨slot, refused, reason, parked, alerts, -⟩ := signalFailed_reaches h .memory b q rfl
    exact ⟨_, he, slot, refused, reason, parked, alerts⟩
  · rintro n rfl off
    obtain ⟨b, q, he⟩ := writeError_next h rfl
    obtain ⟨own, drain, -⟩ := requestFailed_reaches h rfl off .semError b q
    obtain ⟨parked, alerts⟩ := requestFailed_lists (n := n) h .semError b q
    exact ⟨_, he, own, drain, parked, alerts⟩

end Sys2Proof.Semaphores
end

section
/-! SUPPORT. A wake is the success of the wait it ends: what the channel woken has then is what it has at the end of the step. -/

namespace Sys2Proof.Semaphores

open Sys2Proof Sys2Proof.Machine Sys2Proof.Laws Sys2Proof.Records Sys2Proof.Flow Sys2Proof.Commands

/-! ## What stays of a channel -/

/-- From `s` to `t` channel `m` and what it has asked of FU, and of SU by a wait, have stayed. -/
structure Carried (m : ChanId) (s t : State) : Prop where
  chan : t.chan m = s.chan m
  jobs : ∀ j ∈ s.fuJobs, j ∈ t.fuJobs
  waits : ∀ k, SuReq.wait m k ∈ s.suRequests → SuReq.wait m k ∈ t.suRequests

namespace Carried

variable {m n : ChanId} {s t u : State}

theorem trans (a : Carried m s t) (b : Carried m t u) : Carried m s u :=
  ⟨b.chan.trans a.chan, fun j h => b.jobs j (a.jobs j h), fun k h => b.waits k (a.waits k h)⟩

theorem ofRests (r : Rests m s t) : Carried m s t :=
  ⟨r.chan, r.fuJobs, fun k h => r.suRequests _ h (by simp [State.suTarget])⟩

/-- A change of other things than the channels, FU and SU. -/
theorem ofUnits (chans : t.chans = s.chans) (fu : t.fu = s.fu) (su : t.su = s.su) : Carried m s t where
  chan := congrArg (·[m.val]) chans
  jobs j h := by simpa only [State.fuJobs, fu] using h
  waits k h := by simpa only [State.suRequests, su] using h

/-- The reaction of another channel. -/
theorem ofActs (a : Acts n s t) (hm : m ≠ n) : Carried m s t := by
  obtain ⟨l, fu, -⟩ := a.fu
  obtain ⟨l', su, -⟩ := a.su
  obtain ⟨l'', lb, -⟩ := a.lb
  exact ofRests (.ofQueues (a.others m hm) ⟨l, fu⟩ ⟨l', su⟩ ⟨l'', lb⟩ a.rp)

end Carried

/-! ## The wake -/

section Woken

variable {r : SuReq} {m : ChanId} {k : SemId} {d : BitVec 48} {count : BitVec 16} {e : Parked} {s : State}

/-- What a notify or SIGNAL does after its wake and its alert leaves another channel alone, and what it has asked for. -/
theorem notified_carried (hr : r = .signal k ∨ ∃ n, r = .notify n k ∧ n ≠ m) (alone : s.leftAlone m) :
    Carried m s (notified r s) ∧ (notified r s).leftAlone m := by
  rcases hr with rfl | ⟨n, rfl, ne⟩
  · exact ⟨.ofUnits rfl rfl rfl, alone⟩
  · have a := acts_notifyPerformed n s
    exact ⟨.ofActs a ne.symm, acts_leftAlone a alone⟩

/-- A channel woken, of which SU holds nothing more and which does not hold the grant, stands at the end of the step as the success
of its wait has left it (R58). -/
theorem wake_carried (h : s.suAwaits ⟨r, k, some d, count⟩) (hr : r = .signal k ∨ ∃ n, r = .notify n k ∧ n ≠ m)
    (hc : count.toInt ≤ 0) (chosen : chooseParked (semLifo d) k s.su.parked = some e) (he : e.chan = m)
    (grant : s.te.grant ≠ some m) (queue : ∀ x ∈ s.su.queue, x.chan ≠ some m) :
    ∃ b q t, exec (writeAnswerOf r .okay) s = .next t ∧ Carried m (waitSucceeded m (woken e (suDone s b q))) t := by
  subst he
  obtain ⟨b, q, t, ht, rfl, -⟩ := notifyOkay_next h (hr.imp_right fun ⟨n, hn, _⟩ => ⟨n, hn⟩)
  refine ⟨b, q, _, ht, ?_⟩
  obtain ⟨-, -, -, fu, -⟩ := h
  have wakes : wakeOne (semLifo d) k count (suDone s b q) = waitSucceeded e.chan (woken e (suDone s b q)) :=
    wakeOne_of_choose hc chosen
  have alone : (waitSucceeded e.chan (woken e (suDone s b q))).leftAlone e.chan :=
    acts_leftAlone (acts_waitSucceeded _ _) (leftAlone_of_queue fu rfl queue grant)
  obtain ⟨chans, hfu, hsu, hte, -⟩ := notifyEffects_frame d k count (suDone s b q)
  rw [wakes] at chans hfu hsu hte
  have effects : (notifyEffects d k count (suDone s b q)).leftAlone e.chan := by
    simpa only [State.leftAlone, State.isParked, hfu, hsu, hte] using alone
  obtain ⟨carried, rests⟩ := notified_carried hr effects
  exact ((Carried.ofUnits chans hfu hsu).trans carried).trans (.ofRests (settle_leftAlone rests))

end Woken

/-- Settles O35: the wait woken succeeds as a wait performed does, in its posting wait, at a next wait, and past the last. -/
theorem wakeIsSuccessOfWait : Obligations.WakeIsSuccessOfWait := by
  unfold Obligations.WakeIsSuccessOfWait
  rintro r m k d count e s c h hr hc chosen he reset stop grant queue rfl
  obtain ⟨b, q, t, ht, carried⟩ := wake_carried h hr hc chosen he grant queue
  refine ⟨t, ht, fun phase => ?_, fun phase => ⟨fun k' next => ?_, fun task last held mark => ?_⟩⟩
  · obtain ⟨state, fetch, still, link⟩ :=
      waitSucceeded_of_post (n := m) (s := woken e (suDone s b q)) reset stop phase
    rw [carried.chan]
    refine ⟨state, fetch, still, fun a run at_ => ?_⟩
    obtain ⟨own, job⟩ := link a run at_
    exact ⟨own, carried.jobs _ job⟩
  · have busy : (woken e (suDone s b q)).suBusy m = false := not_suBusy_of_queue rfl queue
    obtain ⟨still, waits⟩ := waitSucceeded_of_next (s := woken e (suDone s b q)) reset stop phase busy next
    rw [carried.chan]
    refine ⟨still, fun run => ?_⟩
    obtain ⟨own, wait⟩ := waits run
    exact ⟨own, carried.waits _ wait⟩
  · rw [carried.chan]
    exact waitSucceeded_of_last (s := woken e (suDone s b q)) reset stop phase last held mark

end Sys2Proof.Semaphores
end

section
/-! SUPPORT. A SIGNAL's write answered OKAY whose wake is carried on to an error event in the same step. -/

namespace Sys2Proof.Semaphores

open Sys2Proof.Machine

/-- An ascending side in address space 0. -/
def plainSide : Side := ⟨.displaced, false, 0, 0, 0, .b1, .inc⟩

/-- A copy of two elements, of which TE begins the second one as soon as it has counted the first. -/
def twoElementCopy : Move := ⟨.copy, plainSide, plainSide, false, false, 2, 0⟩

/-- A task that waits on record 9 and then makes one move. -/
def waitingTask : Task := ⟨0, false, [9], [], [], .transfer [twoElementCopy]⟩

/-- A channel parked by its prewait on record 9; its move index, past the task's only move, keeps it without a current move
until the wake enters the task's work. -/
def parkedChannel : Channel :=
  { Channel.off with
    state := .prewait, phase := .prewait, activity := .parked, task := some waitingTask, moveIndex := 1, contextValid := true }

/-- A valid translation entry whose parity fails: what TU hits in it is an error event. -/
def failingEntry : CacheEntry := { CacheEntry.invalid with valid := true, parityOk := false }

/-- A SIGNAL of record 9 decided to COUNT 0, whose write is outstanding. -/
def decidedSignal : SuOp := ⟨.signal 9, 9, some 0, 0⟩

/-- SU awaits the answer to the SIGNAL's write while channel 0, parked on the record, also holds TE's grant. -/
def grantedWhileParked : State :=
  { State.reset with
    sb := { State.reset.sb with level := 2 }
    mp := { State.reset.mp with su := some (.read 0 0) }
    su := { State.reset.su with current := some decidedSignal, parked := [⟨0, 9⟩] }
    te := { State.reset.te with grant := some 0, step := .placing 0 0 }
    tu := { State.reset.tu with cache := Vector.replicate 32 ⟨failingEntry, .invalid, .way0⟩ }
    chans := Vector.replicate 16 parkedChannel }

/-- SB's count of error events in the state a step ends in. -/
def counterAfter : Host.Outcome State Fault Refusal → Option Word
  | .next t => some t.sb.counter
  | _ => none

@[simp] theorem counterAfter_next (t : State) : counterAfter (.next t) = some t.sb.counter := rfl

theorem grantedWhileParked_settled : grantedWhileParked.isSettled :=
  Option.isNone_iff_eq_none.mp (by decide +kernel)

theorem grantedWhileParked_suAwaits : grantedWhileParked.suAwaits decidedSignal :=
  have noneQueued : grantedWhileParked.hasRoom .su := by
    simp [State.hasRoom, show grantedWhileParked.sb.queue = [] from rfl]
  have noChannel : decidedSignal.req.chan = none := rfl
  ⟨grantedWhileParked_settled, ⟨rfl, rfl, rfl, rfl, rfl⟩, noneQueued, rfl, rfl, rfl, rfl, by simp [noChannel]⟩

/-- The wake enters the channel's work; TE counts the element, begins the move and has its address translated; the entry's
parity failure is an event, which SB counts. -/
theorem counterAfter_signalWrite :
    counterAfter (exec (writeAnswerOf decidedSignal.req .okay) grantedWhileParked) = some 1 := by
  decide +kernel

/-! ## The obligation settled here -/

/-- Refutes O28: its clause on a write of SU answered OKAY speaks of every state SU can await the answer in, and so also of
those no run reaches. In `grantedWhileParked` the channel the SIGNAL wakes holds TE's grant with an element in hand; the step
carries it on to the translation of the next element, and the parity failure there is an event of TU. -/
theorem not_unitEventsReachStatusBlock : ¬ Obligations.UnitEventsReachStatusBlock := by
  intro ⟨ofSu, _⟩
  obtain ⟨-, -, -, writeOkay⟩ := ofSu decidedSignal (.read 0 0) none grantedWhileParked grantedWhileParked_suAwaits rfl rfl
  obtain ⟨t, step, -, -, counter⟩ := writeOkay nofun
  have counted : some t.sb.counter = some 1 := by
    rw [← counterAfter_next, ← step, counterAfter_signalWrite]
  have before : grantedWhileParked.sb.counter = 0 := rfl
  rw [counter, before] at counted
  exact absurd counted (by decide)

end Sys2Proof.Semaphores
end

section
/-! SUPPORT. The conversion of a source value to the destination size: the number it stands for, and the bytes that represent
it. -/

namespace Sys2Proof.Moves

open Sys2Proof Sys2Proof.Machine

/-! ## Numbers and bytes -/

theorem bytes_pos (z : Size) : 0 < z.bytes := by cases z <;> decide

/-- The sign bit of a value of `z` bytes is set when the value is at least half of the range. -/
theorem getLsbD_sign {z : Size} {v : BitVec 64} (h : v.toNat < 2 ^ (8 * z.bytes)) :
    v.getLsbD (8 * z.bytes - 1) = decide (2 ^ (8 * z.bytes - 1) ≤ v.toNat) := by
  have top : 8 * z.bytes - 1 + 1 = 8 * z.bytes := by have := bytes_pos z; omega
  by_cases half : 2 ^ (8 * z.bytes - 1) ≤ v.toNat
  · rw [decide_eq_true half]
    exact Nat.testBit_of_two_pow_le_and_two_pow_add_one_gt half (by rwa [top])
  · rw [decide_eq_false half]
    exact Nat.testBit_lt_two_pow (Nat.lt_of_not_le half)

/-- The number a value of `z` bytes stands for: its sign bit counts negative under SIGNED (R91). -/
theorem numberOf_eq {signed : Bool} {z : Size} {v : BitVec 64} (h : v.toNat < 2 ^ (8 * z.bytes)) :
    numberOf signed z v
      = if signed && v.getLsbD (8 * z.bytes - 1) then (v.toNat : Int) - 2 ^ (8 * z.bytes) else v.toNat := by
  simp only [numberOf, Nat.mod_eq_of_lt h, getLsbD_sign h]

theorem numberOf_unsigned {z : Size} {v : BitVec 64} (h : v.toNat < 2 ^ (8 * z.bytes)) : numberOf false z v = v.toNat := by
  simp [numberOf_eq h]

/-- A natural number is represented by its low bytes. -/
theorem bytesOf_natCast (z : Size) (u : Nat) : bytesOf z u = BitVec.ofNat 64 (u % 2 ^ (8 * z.bytes)) := by
  rw [bytesOf]
  norm_cast

/-- A multiple of the range taken off does not change the low bytes. -/
theorem bytesOf_sub_two_pow {z : Size} {k : Nat} (h : 8 * z.bytes ≤ k) (u : Nat) :
    bytesOf z ((u : Int) - 2 ^ k) = BitVec.ofNat 64 (u % 2 ^ (8 * z.bytes)) := by
  have whole : ((u : Int) - 2 ^ k) % 2 ^ (8 * z.bytes) = (u : Int) % 2 ^ (8 * z.bytes) :=
    Int.emod_eq_emod_iff_emod_sub_eq_zero.mpr
      (by rw [sub_sub_cancel_left]; exact Int.emod_eq_zero_of_dvd ((pow_dvd_pow 2 h).neg_right))
  rw [← bytesOf_natCast, bytesOf, bytesOf, whole]

/-- Every conversion but a narrowing keeps a value's low bytes; a narrowing unchecked does too (R91, R92). -/
theorem bytesOf_numberOf_of_le {signed : Bool} {src dst : Size} {v : BitVec 64} (h : v.toNat < 2 ^ (8 * src.bytes))
    (le : dst.bytes ≤ src.bytes) :
    bytesOf dst (numberOf signed src v) = BitVec.ofNat 64 (v.toNat % 2 ^ (8 * dst.bytes)) := by
  rw [numberOf_eq h]
  split
  · exact bytesOf_sub_two_pow (by omega) _
  · exact bytesOf_natCast _ _

/-- A negative number of a shorter size is represented with every byte above filled with ones (R91). -/
theorem bytesOf_extend {src dst : Size} {u : Nat} (h : u < 2 ^ (8 * src.bytes)) (lt : src.bytes < dst.bytes) :
    bytesOf dst ((u : Int) - 2 ^ (8 * src.bytes))
      = BitVec.ofNat 64 (2 ^ (8 * dst.bytes) - 2 ^ (8 * src.bytes) + u) := by
  have shorter : 2 ^ (8 * src.bytes) < 2 ^ (8 * dst.bytes) := Nat.pow_lt_pow_right (by decide) (by omega)
  have cast : ((2 ^ (8 * dst.bytes) - 2 ^ (8 * src.bytes) + u : Nat) : Int)
      = ((u : Int) - 2 ^ (8 * src.bytes)) + 2 ^ (8 * dst.bytes) := by
    rw [Nat.cast_add, Nat.cast_sub shorter.le]
    push_cast
    ring
  have wraps : ((u : Int) - 2 ^ (8 * src.bytes)) % 2 ^ (8 * dst.bytes)
      = ((2 ^ (8 * dst.bytes) - 2 ^ (8 * src.bytes) + u : Nat) : Int) := by
    rw [← Int.add_emod_right, ← cast]
    exact_mod_cast Nat.mod_eq_of_lt (by omega)
  rw [bytesOf, wraps, Int.toNat_natCast]

/-! ## Conversions -/

theorem convert_of_le {signed checked : Bool} {src dst : Size} (h : src.bytes ≤ dst.bytes) (v : BitVec 64) :
    convert signed checked src dst v = some (bytesOf dst (numberOf signed src v)) := by
  simp [convert, Nat.not_lt.mpr h]

theorem convert_unchecked (signed : Bool) (src dst : Size) (v : BitVec 64) :
    convert signed false src dst v = some (bytesOf dst (numberOf signed src v)) := by
  simp [convert]

theorem convert_checked {signed : Bool} {src dst : Size} (h : dst.bytes < src.bytes) (v : BitVec 64) :
    convert signed true src dst v
      = if fits signed dst (numberOf signed src v) = true then some (bytesOf dst (numberOf signed src v)) else none := by
  simp only [convert, h, decide_true, Bool.and_true, Bool.true_and]
  cases fits signed dst (numberOf signed src v) <;> rfl

theorem fits_unsigned_natCast (z : Size) (u : Nat) : fits false z u = true ↔ u < 2 ^ (8 * z.bytes) := by
  simp only [fits, Bool.false_eq_true, if_false, decide_eq_true_eq]
  constructor
  · rintro ⟨-, lt⟩; exact_mod_cast lt
  · intro lt; exact ⟨by positivity, by exact_mod_cast lt⟩

theorem fits_signed_iff (z : Size) (x : Int) :
    fits true z x = true ↔ -(2 ^ (8 * z.bytes - 1)) ≤ x ∧ x ≤ 2 ^ (8 * z.bytes - 1) - 1 := by
  simp only [fits, if_true, decide_eq_true_eq]
  exact and_congr_right fun _ => Int.le_sub_one_iff.symm

theorem ofNat_toNat_mod {v : BitVec 64} {k : Nat} (h : v.toNat < k) : BitVec.ofNat 64 (v.toNat % k) = v := by
  rw [Nat.mod_eq_of_lt h, BitVec.ofNat_toNat, BitVec.setWidth_eq]

/-- Settles O41: the number a value stands for, and the low bytes that represent it, size by size. -/
theorem conversionFollowsSizes : Obligations.ConversionFollowsSizes := by
  unfold Obligations.ConversionFollowsSizes
  intro signed checked src dst v h
  refine ⟨fun eq => ?_, fun lt => ?_, fun lt => ?_, fun lt => ?_, fun lt => ?_, fun lt x hx => ?_⟩
  · rw [convert_of_le eq.le, bytesOf_numberOf_of_le h eq.ge, ofNat_toNat_mod (eq ▸ h)]
  · have longer : v.toNat < 2 ^ (8 * dst.bytes) := h.trans (Nat.pow_lt_pow_right (by decide) (by omega))
    rw [convert_of_le lt.le, numberOf_unsigned h, bytesOf_natCast, ofNat_toNat_mod longer]
  · have longer : v.toNat < 2 ^ (8 * dst.bytes) := h.trans (Nat.pow_lt_pow_right (by decide) (by omega))
    rw [convert_of_le lt.le, numberOf_eq h, Bool.true_and]
    split
    · rw [bytesOf_extend h lt]
    · rw [bytesOf_natCast, ofNat_toNat_mod longer]
  · rw [convert_unchecked, bytesOf_numberOf_of_le h lt.le]
  · rw [convert_checked lt, numberOf_unsigned h]
    simp only [fits_unsigned_natCast]
    split
    · rw [bytesOf_natCast, ofNat_toNat_mod ‹_›]
    · rfl
  · have number : numberOf true src v = x := by rw [hx, numberOf_eq h, Bool.true_and]
    rw [convert_checked lt, bytesOf_numberOf_of_le h lt.le, number]
    simp only [fits_signed_iff]

end Sys2Proof.Moves
end

section
/-! SUPPORT. What comes about within a command while FU and SU wait: the units take their turns one by one, and once TE waits
too only SB, LB and TU go on. -/

namespace Sys2Proof.Moves

open Sys2Proof Sys2Proof.Machine Sys2Proof.Laws Sys2Proof.Semaphores Sys2Proof.Commands

variable {n : ChanId} {s t u : State}

/-! ## FU and SU wait -/

/-- FU and SU have no step to make and keep no event. -/
structure Waits (s : State) : Prop where
  fu : fuStep s = none
  su : suStep s = none
  fuHeld : s.fu.held = []
  suHeld : s.su.held = []

theorem Waits.of_settled (h : s.isSettled) (k : s.noneKept) : Waits s := by
  obtain ⟨-, -, -, -, -, -, fu, su, -⟩ := (settled_iff s).mp h
  exact ⟨fu, su, k.1, k.2.1⟩

theorem Waits.congr (w : Waits s) (fu : t.fu = s.fu) (su : t.su = s.su) : Waits t :=
  ⟨fuStep_none fu w.fu, suStep_none su w.su, by rw [fu]; exact w.fuHeld, by rw [su]; exact w.suHeld⟩

/-- `s` with SB, its request at MP and the events TE, TU and LB keep replaced. -/
def withEvents (s : State) (b : StatusBlock) (q : Option MpReq) (te tu lb : List ErrorEvent) : State :=
  { s with
    sb := b
    mp := { s.mp with sb := q }
    te := { s.te with held := te }
    tu := { s.tu with held := tu }
    lb := { s.lb with held := lb } }

/-- An event is handed over or its record written: no unit that keeps none comes to keep one. -/
def EventStep (s t : State) : Prop :=
  ∃ b q te tu lb, t = withEvents s b q te tu lb ∧ (s.te.held = [] → te = []) ∧ (s.tu.held = [] → tu = [])
    ∧ (s.lb.held = [] → lb = [])

/-- While FU and SU wait, an internal step concerns an event, or is LB's, TU's or TE's. -/
theorem Waits.micro_cases (w : Waits s) (h : micro s = some t) :
    EventStep s t ∨ lbStep s = some t ∨ tuStep s = some t ∨ teStep s = some t := by
  rcases Laws.micro_cases h with h | h | h | h | h | h | h | h | h | h | h
  · simp [fuHandOver, w.fuHeld] at h
  · simp [suHandOver, w.suHeld] at h
  · obtain ⟨e, l, b, held, -, rfl⟩ := teHandOver_some h
    exact .inl ⟨b, s.mp.sb, l, s.tu.held, s.lb.held, rfl, by simp [held], id, id⟩
  · obtain ⟨e, l, b, held, -, rfl⟩ := tuHandOver_some h
    exact .inl ⟨b, s.mp.sb, s.te.held, l, s.lb.held, rfl, id, by simp [held], id⟩
  · obtain ⟨e, l, b, held, -, rfl⟩ := lbHandOver_some h
    exact .inl ⟨b, s.mp.sb, s.te.held, s.tu.held, l, rfl, id, id, by simp [held]⟩
  · obtain ⟨e, q, -, -, rfl⟩ := sbStep_some h
    exact .inl ⟨_, _, s.te.held, s.tu.held, s.lb.held, rfl, id, id, id⟩
  · rw [w.fu] at h; cases h
  · rw [w.su] at h; cases h
  · exact .inr (.inl h)
  · exact .inr (.inr (.inl h))
  · exact .inr (.inr (.inr h))

/-! ## LB and TU -/

/-- A drain, of a channel or full: LB answers it by a command of its own (R154, R155). -/
def isDrain : LbReq → Bool
  | .drain _ | .engineDrain | .softDrain => true
  | .write _ _ _ _ | .check _ => false

/-- What LB goes on with: the element write or the line check is answered, or a line is written out. -/
theorem lbAdvance_cases {r : LbReq} (h : lbAdvance r s = some t) :
    (∃ l, isDrain r = false ∧ t = { s with lb := { s.lb with entries := l, current := none } }
        ∧ (∀ pa, r = .check pa → l = s.lb.entries))
      ∨ ∃ e, t = writeOut e s := by
  cases r with
  | write pa z v m =>
    simp only [lbAdvance] at h
    split at h
    · cases h; exact .inl ⟨_, rfl, rfl, nofun⟩
    · split at h
      · cases h; exact .inr ⟨_, rfl⟩
      · cases h
  | check pa =>
    simp only [lbAdvance] at h
    split at h
    · cases h; exact .inr ⟨_, rfl⟩
    · cases h; exact .inl ⟨s.lb.entries, rfl, rfl, fun _ _ => rfl⟩
  | drain m | engineDrain | softDrain =>
    simp only [lbAdvance] at h
    split at h
    · cases h; exact .inr ⟨_, rfl⟩
    · cases h

/-- LB's step: the next request is taken, the operation in progress is answered, or a line is written out (R148). -/
theorem lbStep_cases (h : lbStep s = some t) :
    (∃ r q, s.lb.current = none ∧ s.lb.queue = r :: q ∧ t = { s with lb := { s.lb with queue := q, current := some r } })
      ∨ ∃ r, s.lb.current = some r
        ∧ ((∃ l, isDrain r = false ∧ t = { s with lb := { s.lb with entries := l, current := none } }
            ∧ (∀ pa, r = .check pa → l = s.lb.entries))
          ∨ ∃ e, t = writeOut e s) := by
  unfold lbStep at h
  split at h
  · split at h
    · rename_i hc _ r q hq
      exact .inl ⟨r, q, hc, hq, (Option.some.inj h).symm⟩
    · cases h
  · rename_i r hc
    split at h
    · exact .inr ⟨r, hc, lbAdvance_cases h⟩
    · cases h

/-- LB answers no drain by itself. -/
theorem lbStep_isDrain (h : lbStep s = some t) {r : LbReq} (hr : isDrain r = true) (mem : r ∈ s.lbRequests) :
    r ∈ t.lbRequests := by
  rcases lbStep_cases h with ⟨x, q, hc, hq, rfl⟩ | ⟨x, hc, ⟨l, hx, rfl, -⟩ | ⟨e, rfl⟩⟩
  · simpa [State.lbRequests, hc, hq] using mem
  · have ne : r ≠ x := by rintro rfl; rw [hr] at hx; cases hx
    simpa [State.lbRequests, hc, ne] using mem
  · exact mem

theorem engineAtLb_eq_false_iff : s.engineAtLb = false ↔ ∀ r ∈ s.lbRequests, r.fromEngine = false := by
  simp only [State.engineAtLb, Bool.or_eq_false_iff, List.any_eq_false, State.lbRequests, List.mem_append,
    Option.mem_toList, Bool.not_eq_true]
  cases s.lb.current <;> simp [or_imp, forall_and, and_comm]

theorem isDrain_of_fromEngine {r : LbReq} (h : r.fromEngine = false) : isDrain r = true := by
  cases r with
  | drain m | softDrain => rfl
  | write | check | engineDrain => cases h

/-- With no request of TE at LB, LB's step leaves the lines as they are and makes none (R154). -/
theorem lbStep_drains (h : lbStep s = some t) (none : s.engineAtLb = false) :
    t.lb.entries = s.lb.entries ∧ t.engineAtLb = false := by
  have others := engineAtLb_eq_false_iff.mp none
  rcases lbStep_cases h with ⟨x, q, hc, hq, rfl⟩ | ⟨x, hc, ⟨l, hx, rfl, -⟩ | ⟨e, rfl⟩⟩
  · refine ⟨rfl, engineAtLb_eq_false_iff.mpr fun r hr => others r ?_⟩
    simpa [State.lbRequests, hc, hq] using hr
  · have drain := isDrain_of_fromEngine (others x (by simp [State.lbRequests, hc]))
    rw [hx] at drain; cases drain
  · exact ⟨rfl, none⟩

/-- With no answer in hand TU's step is the first read of a walk (R115). -/
theorem tuStep_begins (h : tuStep s = some t) (got : s.tu.got = none) :
    ∃ q, s.tu.req = some q ∧ t = walkBegin q s := by
  unfold tuStep at h
  split at h
  · rename_i q hq _
    simp only [got] at h
    split at h
    · exact ⟨q, hq, (Option.some.inj h).symm⟩
    · cases h
  · cases h

/-! ## TE waits -/

/-- TE waits for a grant, for MP's answer or for its full drain. -/
def paused (e : Engine) : Bool :=
  match e.grant, e.step, e.got with
  | none, _, _ => true
  | some _, .idle, _ | some _, .deviceDrain _ _, _ | some _, .purgeDrain, _ => true
  | some _, .reading _ _, none | some _, .deviceWrite _ _, none => true
  | _, _, _ => false

theorem teStep_of_paused (h : paused s.te = true) : teStep s = none := by
  unfold paused at h
  unfold teStep
  cases s.te.held <;> split at h <;> simp_all

/-- From `s` to `t` nothing but SB, LB and TU has gone on; LB has answered no drain, and TU has no more than begun a walk. -/
structure Idles (s t : State) : Prop where
  fu : t.fu = s.fu
  su : t.su = s.su
  te : ∃ l, t.te = { s.te with held := l }
  chans : t.chans = s.chans
  asks : t.mp.te = s.mp.te
  drains : ∀ r ∈ s.lbRequests, isDrain r = true → r ∈ t.lbRequests
  walk : s.tu.got = none → t.tu.got = none ∧ t.tu.cache = s.tu.cache ∧ t.tu.req = s.tu.req
  lines : s.engineAtLb = false → t.lb.entries = s.lb.entries ∧ t.engineAtLb = false

namespace Idles

theorem refl (s : State) : Idles s s :=
  ⟨rfl, rfl, ⟨s.te.held, rfl⟩, rfl, rfl, fun _ h _ => h, fun h => ⟨h, rfl, rfl⟩, fun h => ⟨rfl, h⟩⟩

theorem trans (a : Idles s t) (b : Idles t u) : Idles s u where
  fu := b.fu.trans a.fu
  su := b.su.trans a.su
  te := by
    obtain ⟨l, h⟩ := a.te
    obtain ⟨k, g⟩ := b.te
    exact ⟨k, by rw [g, h]⟩
  chans := b.chans.trans a.chans
  asks := b.asks.trans a.asks
  drains r h d := b.drains r (a.drains r h d) d
  walk h := by
    obtain ⟨got, cache, req⟩ := a.walk h
    obtain ⟨got', cache', req'⟩ := b.walk got
    exact ⟨got', cache'.trans cache, req'.trans req⟩
  lines h := by
    obtain ⟨entries, free⟩ := a.lines h
    obtain ⟨entries', free'⟩ := b.lines free
    exact ⟨entries'.trans entries, free'⟩

theorem chan (a : Idles s t) (m : ChanId) : t.chan m = s.chan m := congrArg (·[m.val]) a.chans

theorem waits (a : Idles s t) (w : Waits s) : Waits t := w.congr a.fu a.su

theorem paused (a : Idles s t) (h : Moves.paused s.te = true) : Moves.paused t.te = true := by
  obtain ⟨l, e⟩ := a.te
  rw [e]
  exact h

end Idles

/-- While FU, SU and TE wait, an internal step is an event's, LB's or TU's. -/
theorem micro_idles (w : Waits s) (p : paused s.te = true) (h : micro s = some t) : Idles s t := by
  rcases w.micro_cases h with ⟨b, q, te, tu, lb, rfl, -⟩ | h | h | h
  · exact { Idles.refl s with te := ⟨te, rfl⟩, chans := rfl, drains := fun _ h _ => h }
  · have drains := fun r mem hr => lbStep_isDrain (r := r) h hr mem
    have lines := lbStep_drains h
    obtain ⟨b, q, rfl, -⟩ := lbStep_frame h
    exact { Idles.refl s with te := ⟨s.te.held, rfl⟩, chans := rfl, drains := drains, lines := lines }
  · have walk : s.tu.got = none → t.tu.got = none ∧ t.tu.cache = s.tu.cache ∧ t.tu.req = s.tu.req := by
      intro got
      obtain ⟨q, -, rfl⟩ := tuStep_begins h got
      exact ⟨got, rfl, rfl⟩
    obtain ⟨b, q, rfl, -⟩ := tuStep_frame h
    exact { Idles.refl s with te := ⟨s.te.held, rfl⟩, chans := rfl, drains := fun _ h _ => h, walk := walk }
  · rw [teStep_of_paused p] at h; cases h

theorem settle_idles (w : Waits s) (p : paused s.te = true) : Idles s (settle s) :=
  settle_induct (Idles s) (fun _ _ a h => a.trans (micro_idles (a.waits w) (a.paused p) h)) (Idles.refl s)

/-! ## Turns -/

/-- FU and SU wait, SB has no step to make, and no unit keeps an event. -/
structure Calm (s : State) : Prop where
  waits : Waits s
  kept : s.noneKept
  sb : sbStep s = none

namespace Calm

theorem of_settled (h : s.isSettled) (k : s.noneKept) : Calm s := by
  obtain ⟨-, -, -, -, -, sb, -⟩ := (settled_iff s).mp h
  exact ⟨.of_settled h k, k, sb⟩

theorem congr (c : Calm s) (fu : t.fu = s.fu) (su : t.su = s.su) (sb : t.sb = s.sb) (te : t.te.held = s.te.held)
    (tu : t.tu.held = s.tu.held) (lb : t.lb.held = s.lb.held) : Calm t where
  waits := c.waits.congr fu su
  kept := by
    obtain ⟨-, -, k3, k4, k5⟩ := c.kept
    exact ⟨by rw [fu]; exact c.waits.fuHeld, by rw [su]; exact c.waits.suHeld, te.trans k3, tu.trans k4, lb.trans k5⟩
  sb := sbStep_none sb c.sb

/-- LB has its turn. -/
theorem lb (c : Calm s) (h : lbStep s = some t) : settle s = settle t ∧ Calm t := by
  obtain ⟨k1, k2, k3, k4, k5⟩ := c.kept
  refine ⟨settle_micro ?_, ?_⟩
  · simp [micro, microSteps, fuHandOver, suHandOver, teHandOver, tuHandOver, lbHandOver, k1, k2, k3, k4, k5, c.sb, c.waits.fu,
      c.waits.su, h]
  · obtain ⟨b, q, rfl, held⟩ := lbStep_frame h
    exact c.congr rfl rfl rfl rfl rfl held

/-- TU has its turn after LB. -/
theorem tu (c : Calm s) (lb : lbStep s = none) (h : tuStep s = some t) : settle s = settle t ∧ Calm t := by
  refine ⟨settle_micro (micro_tu c.kept c.sb c.waits.fu c.waits.su lb h), ?_⟩
  obtain ⟨b, q, rfl, held⟩ := tuStep_frame h
  exact c.congr rfl rfl rfl rfl held rfl

/-- TE has its turn last. -/
theorem te (c : Calm s) (lb : lbStep s = none) (tu : tuStep s = none) (h : teStep s = some t) : settle s = settle t :=
  settle_micro (micro_te c.kept c.sb c.waits.fu c.waits.su lb tu h)

/-- Where no unit has a turn the part has settled. -/
theorem rest (c : Calm s) (lb : lbStep s = none) (tu : tuStep s = none) (te : teStep s = none) : settle s = s := by
  obtain ⟨k1, k2, k3, k4, k5⟩ := c.kept
  exact settle_of_settled ((settled_iff s).mpr ⟨by simp [fuHandOver, k1], by simp [suHandOver, k2], by simp [teHandOver, k3],
    by simp [tuHandOver, k4], by simp [lbHandOver, k5], c.sb, c.waits.fu, c.waits.su, lb, tu, te⟩)

end Calm

/-- SB takes its next event if it can; the events it holds stay, and its queue gains none (R170). -/
theorem settle_sb (w : Waits s) (k : s.noneKept) :
    ∃ b q, settle s = settle (withSb s b q) ∧ Calm (withSb s b q) ∧ b.level = s.sb.level ∧ (∀ x ∈ b.queue, x ∈ s.sb.queue)
      ∧ ∀ e, s.sbHas e → (withSb s b q).sbHas e := by
  cases hs : sbStep s with
  | none => exact ⟨s.sb, s.mp.sb, rfl, ⟨w, k, hs⟩, rfl, fun _ h => h, fun _ h => h⟩
  | some t =>
    obtain ⟨k1, k2, k3, k4, k5⟩ := k
    have m : micro s = some t := by
      simp [micro, microSteps, fuHandOver, suHandOver, teHandOver, tuHandOver, lbHandOver, k1, k2, k3, k4, k5, hs]
    have holds := fun e => micro_sbHas (e := e) m
    obtain ⟨e, q, -, hq, rfl⟩ := sbStep_some hs
    exact ⟨_, _, settle_micro m, ⟨w.congr rfl rfl, ⟨k1, k2, k3, k4, k5⟩, rfl⟩, rfl,
      fun x hx => by rw [hq]; exact List.mem_cons_of_mem e hx, holds⟩

end Sys2Proof.Moves
end

section
/-! SUPPORT. How a slice ends: TE is free, the CC acts on its own channel, and at most a drain of the channel is asked of LB. -/

namespace Sys2Proof.Moves

open Sys2Proof Sys2Proof.Machine Sys2Proof.Laws Sys2Proof.Records

variable {n : ChanId} {s t : State} {code : FaultCode} {va : VAddr}

/-- TE with the grant free and no slice (R103). -/
def freed (e : Engine) : Engine := { e with grant := none, counter := 0, kind := none, purgeStep := none, step := .idle }

/-- The slice over for TE, and its channel READY before anything further is decided (R31, R103). -/
def standsReady (n : ChanId) (s : State) : State :=
  ({ s with te := freed s.te } : State).modChan n fun c => { c with state := .ready, activity := .ready }

@[simp] theorem chan_standsReady (n : ChanId) (s : State) :
    (standsReady n s).chan n = { s.chan n with state := .ready, activity := .ready } := chan_modChan _ _ _

/-- At slice end a fault halts the channel, unless its reset is in progress (R31, R107). -/
theorem endSlice_some (n : ChanId) (code : FaultCode) (va : VAddr) (s : State) :
    endSlice n (some (code, va)) s
      = if (s.chan n).reset != .off then standsReady n s else beginHalt n code va (standsReady n s) := by
  have decided : endSlice n (some (code, va)) s
      = if ((standsReady n s).chan n).reset != .off then standsReady n s else beginHalt n code va (standsReady n s) := rfl
  rw [decided, chan_standsReady]

/-- With no fault the mark is taken first, then a pending stop, then the end of the list of moves (R31). -/
theorem endSlice_none (n : ChanId) (s : State) :
    endSlice n none s
      = if (s.chan n).reset != .off then standsReady n s
        else if (s.chan n).mark then beginHalt n .writeError 0 (standsReady n s)
        else if (s.chan n).stopPending then stopHere n (standsReady n s)
        else if (s.chan n).phase = .drain then enterFinishing n (standsReady n s)
        else standsReady n s := by
  have decided : endSlice n none s
      = if ((standsReady n s).chan n).reset != .off then standsReady n s
        else if ((standsReady n s).chan n).mark then beginHalt n .writeError 0 (standsReady n s)
        else if ((standsReady n s).chan n).stopPending then stopHere n (standsReady n s)
        else if ((standsReady n s).chan n).phase = .drain then enterFinishing n (standsReady n s)
        else standsReady n s := rfl
  rw [decided, chan_standsReady]

/-- At slice end the CC halts, stops, finishes or stands READY (R31). -/
theorem endSlice_cases (n : ChanId) (f : Option (FaultCode × VAddr)) (s : State) :
    (∃ code va, endSlice n f s = beginHalt n code va (standsReady n s)) ∨ endSlice n f s = beginStop n (standsReady n s)
      ∨ endSlice n f s = enterFinishing n (standsReady n s) ∨ endSlice n f s = standsReady n s := by
  cases f with
  | some x =>
    rw [endSlice_some]
    split
    · exact .inr (.inr (.inr rfl))
    · exact .inl ⟨_, _, rfl⟩
  | none =>
    rw [endSlice_none, stopHere]
    split_ifs
    · exact .inr (.inr (.inr rfl))
    · exact .inl ⟨_, _, rfl⟩
    · exact .inr (.inr (.inr rfl))
    · exact .inr (.inl rfl)
    · exact .inr (.inr (.inl rfl))
    · exact .inr (.inr (.inr rfl))

/-- What a move has made of its channel: the part of it that no end of a slice touches (R93, R95, R96). -/
def progressOf (c : Channel) :=
  (c.task, c.moveIndex, c.remaining, c.srcEA, c.dstEA, c.firstFlag, c.performed, c.cursors, c.mismatch)

/-- What the end of a slice changes: its channel but for the move's progress, TE, and LB's queue by drains of the channel. -/
structure SliceEnd (n : ChanId) (s t : State) : Prop where
  fu : t.fu = s.fu
  su : t.su = s.su
  sb : t.sb = s.sb
  tu : t.tu = s.tu
  te : t.te = freed s.te
  lb : ∃ l, t.lb = { s.lb with queue := s.lb.queue ++ l } ∧ ∀ r ∈ l, r = LbReq.drain n
  progress : progressOf (t.chan n) = progressOf (s.chan n)

theorem sliceEnd_endSlice (n : ChanId) (f : Option (FaultCode × VAddr)) (s : State) : SliceEnd n s (endSlice n f s) := by
  have drain : ∃ l, ({ s.lb with queue := s.lb.queue ++ [.drain n] } : LineBuffer)
      = { s.lb with queue := s.lb.queue ++ l } ∧ ∀ r ∈ l, r = LbReq.drain n := ⟨[.drain n], rfl, by simp⟩
  rcases endSlice_cases n f s with ⟨code, va, e⟩ | e | e | e <;> rw [e]
  · exact ⟨rfl, rfl, rfl, rfl, rfl, drain, by rw [chan_beginHalt, chan_standsReady]; rfl⟩
  · exact ⟨rfl, rfl, rfl, rfl, rfl, drain, by rw [beginStop, chan_queueLb, chan_setActivity, chan_standsReady]; rfl⟩
  · exact ⟨rfl, rfl, rfl, rfl, rfl, drain, by rw [enterFinishing, chan_queueLb, chan_modChan, chan_standsReady]; rfl⟩
  · exact ⟨rfl, rfl, rfl, rfl, rfl, ⟨[], by simp [standsReady], by simp⟩, by rw [chan_standsReady]; rfl⟩

/-! ## What is left when the command is over -/

theorem paused_freed (e : Engine) : paused (freed e) = true := rfl

/-- After the end of a slice only SB, LB and TU go on. -/
theorem settle_endSlice (w : Waits s) (f : Option (FaultCode × VAddr)) :
    Idles (endSlice n f s) (settle (endSlice n f s)) ∧ (settle (endSlice n f s)).te.grant = none
      ∧ (settle (endSlice n f s)).te.counter = 0 := by
  have ends := sliceEnd_endSlice n f s
  have idles := settle_idles (w.congr ends.fu ends.su) (by rw [ends.te]; exact paused_freed s.te)
  obtain ⟨l, te⟩ := idles.te
  exact ⟨idles, by rw [te, ends.te]; rfl, by rw [te, ends.te]; rfl⟩

/-- A slice that ends with a fault leaves its channel in the halt procedure, and the cache as it was (R31, R42). -/
theorem settle_sliceFault (w : Waits s) (off : (s.chan n).reset = .off) (code : FaultCode) (va : VAddr) :
    (settle (sliceFault n code va s)).sliceFaults n (s.chan n) code va
      ∧ (s.tu.got = none → (settle (sliceFault n code va s)).tu.cache = s.tu.cache) := by
  obtain ⟨idles, grant, counter⟩ := settle_endSlice (n := n) w (some (code, va))
  have tu := (sliceEnd_endSlice n (some (code, va)) s).tu
  have halts : endSlice n (some (code, va)) s = beginHalt n code va (standsReady n s) := by
    rw [endSlice_some, if_neg (by simp [off])]
  refine ⟨⟨grant, counter, ?_, idles.drains _ ?_ rfl⟩, fun got => ?_⟩
  · rw [sliceFault, idles.chan, halts, chan_beginHalt, chan_standsReady]; rfl
  · rw [halts]; exact drain_mem_beginHalt _ _ _ _
  · obtain ⟨-, cache, -⟩ := idles.walk (by rw [tu]; exact got)
    exact cache.trans (by rw [tu])

/-- A slice that ends with the list of moves finished leaves its channel FINISHING, its drain asked for (R31, R32). -/
theorem settle_endSlice_finishes (w : Waits s) (off : (s.chan n).reset = .off) (mark : (s.chan n).mark = false)
    (stop : (s.chan n).stopPending = false) (phase : (s.chan n).phase = .drain) :
    (settle (endSlice n none s)).te.grant = none
      ∧ (settle (endSlice n none s)).chan n
          = { s.chan n with state := .finishing, phase := .drain, listIndex := 0, activity := .finishDrain }
      ∧ LbReq.drain n ∈ (settle (endSlice n none s)).lbRequests
      ∧ (s.engineAtLb = false → (settle (endSlice n none s)).lb.entries = s.lb.entries)
      ∧ (s.tu.got = none → (settle (endSlice n none s)).tu.cache = s.tu.cache ∧ (settle (endSlice n none s)).tu.req = s.tu.req) := by
  obtain ⟨idles, grant, -⟩ := settle_endSlice (n := n) w none
  have ends : endSlice n none s = enterFinishing n (standsReady n s) := by
    rw [endSlice_none]; simp [off, mark, stop, phase]
  refine ⟨grant, ?_, idles.drains _ ?_ rfl, fun free => ?_, fun got => ?_⟩
  · rw [idles.chan, ends, enterFinishing, chan_queueLb, chan_modChan, chan_standsReady]
  · rw [ends]; simp [enterFinishing, State.lbRequests]
  · have free' : (endSlice n none s).engineAtLb = false := by
      rw [ends]
      simpa [State.engineAtLb, enterFinishing, standsReady, LbReq.fromEngine] using free
    rw [(idles.lines free').1, ends]; rfl
  · obtain ⟨-, cache, req⟩ := idles.walk (by rw [ends]; exact got)
    exact ⟨cache.trans (by rw [ends]; rfl), req.trans (by rw [ends]; rfl)⟩

/-- A slice that ends in its list of moves leaves its channel READY (R31). -/
theorem settle_endSlice_ready (w : Waits s) (off : (s.chan n).reset = .off) (mark : (s.chan n).mark = false)
    (stop : (s.chan n).stopPending = false) (phase : (s.chan n).phase ≠ .drain) :
    (settle (endSlice n none s)).te.grant = none
      ∧ (settle (endSlice n none s)).chan n = { s.chan n with state := .ready, activity := .ready } := by
  obtain ⟨idles, grant, -⟩ := settle_endSlice (n := n) w none
  refine ⟨grant, ?_⟩
  rw [idles.chan, endSlice_none]
  simp [off, mark, stop, phase]

end Sys2Proof.Moves
end

section
/-! SUPPORT. TE's turn: how MP's answer reaches it, what a lookup leads to, and how LB takes the request it makes. -/

namespace Sys2Proof.Moves

open Sys2Proof Sys2Proof.Machine Sys2Proof.Laws Sys2Proof.Semaphores Sys2Proof.Commands

variable {n : ChanId} {m : Move} {s t : State}

/-! ## MP's answer -/

/-- It is TE's turn, with channel `n` granted: no other unit has a step to make, and TE has no answer in hand. -/
structure Turn (n : ChanId) (s : State) : Prop where
  calm : Calm s
  lb : lbStep s = none
  tu : tuStep s = none
  grant : s.te.grant = some n
  got : s.te.got = none

/-- `s` with MP's answer to TE taken; SB may have gone on. -/
def teFree (s : State) (b : StatusBlock) (q : Option MpReq) : State :=
  { s with sb := b, mp := { s.mp with te := none, sb := q } }

/-- TE with the answer in hand taken is TE before the answer. -/
theorem teHas_taken (got : s.te.got = none) (held : s.te.held = []) (b : StatusBlock) (q : Option MpReq) (g : Got 64) :
    ({ teHas s b q g with te := { (teHas s b q g).te with got := none } } : State) = teFree s b q := by
  have te : ({ s.te with got := none, held := [] } : Engine) = s.te := by rw [← got, ← held]
  exact congrArg (fun e => ({ teFree s b q with te := e } : State)) te

/-- SB without an event of the unit takes the event if its level reports it (R168). -/
theorem handOver_takes {b : StatusBlock} {e : ErrorEvent} (room : ∀ x ∈ b.queue, x.unit ≠ e.unit) :
    ∃ c, b.handOver e = some c ∧ c.level = b.level ∧ (∀ x ∈ c.queue, x ∈ b.queue ∨ x = e)
      ∧ (b.reports e = true → e ∈ c.queue) := by
  refine ⟨_, handOver_of_room room, ?_⟩
  split
  · exact ⟨rfl, fun x hx => by simpa using hx, fun _ => by simp⟩
  · exact ⟨rfl, fun x => .inl, fun reported => absurd reported ‹_›⟩

/-- TE hands over the event of an answer and acts on the answer; SB keeps its level and comes to hold no event but TE's. -/
theorem te_acts {g : Got 64} {ev : List ErrorEvent} (h : s.teAwaits n m) (port : s.te.step.awaitsPort = true)
    (len : ev.length ≤ 1) (unit : ∀ e ∈ ev, e.unit = .te) :
    ∃ b q, settle (s.teGot g ev) = settle (teAnswered n m g (teHas s b q g)) ∧ Turn n (teFree s b q)
      ∧ b.level = s.sb.level ∧ ∀ x ∈ b.queue, x ∈ s.sb.queue ∨ x.unit = .te := by
  obtain ⟨settled, kept, room, -, -, grant, got, -, move, -⟩ := h
  have w := Waits.of_settled settled kept
  obtain ⟨-, -, -, -, -, -, -, -, lb, tu, -⟩ := (settled_iff s).mp settled
  obtain ⟨k1, k2, k3, k4, k5⟩ := kept
  have taken : ∀ c : StatusBlock, c.level = s.sb.level → (∀ x ∈ c.queue, x ∈ s.sb.queue ∨ x.unit = .te) →
      ∃ b q, settle { s with sb := c, te := { s.te with got := some g, held := [] }, mp := { s.mp with te := none } }
        = settle (teAnswered n m g (teHas s b q g)) ∧ Turn n (teFree s b q) ∧ b.level = s.sb.level
        ∧ ∀ x ∈ b.queue, x ∈ s.sb.queue ∨ x.unit = .te := by
    intro c level queue
    obtain ⟨b, q, eq, calm, level', queue', -⟩ := settle_sb
      (s := { s with sb := c, te := { s.te with got := some g, held := [] }, mp := { s.mp with te := none } })
      (w.congr rfl rfl) ⟨k1, k2, rfl, k4, k5⟩
    have acts : teStep (teHas s b q g) = some (teAnswered n m g (teHas s b q g)) := by
      have move' : ((teHas s b q g).chan n).currentMove = some m := move
      have step : (teHas s b q g).te.step = s.te.step := rfl
      have has : (teHas s b q g).te.got = some g := rfl
      have held : (teHas s b q g).te.held = [] := rfl
      have grant' : (teHas s b q g).te.grant = some n := grant
      unfold teStep
      rw [grant', held, step, has]
      simp only [move']
      cases hs : s.te.step with
      | reading | deviceWrite => rfl
      | _ => rw [hs] at port; cases port
    refine ⟨b, q, eq.trans (calm.te (lbStep_none (s := s) rfl lb) (tuStep_none (s := s) rfl tu) acts), ?_,
      level'.trans level, fun x hx => queue x (queue' x hx)⟩
    exact ⟨calm.congr rfl rfl rfl k3 rfl rfl, lbStep_none (s := s) rfl lb, tuStep_none (s := s) rfl tu, grant, got⟩
  rcases ev with _ | ⟨e, _ | ⟨_, _⟩⟩
  · obtain ⟨b, q, eq, rest⟩ := taken s.sb rfl fun _ => .inl
    refine ⟨b, q, Eq.trans ?_ eq, rest⟩
    simp only [State.teGot, k3, List.append_nil]
  · obtain ⟨c, free, level, queue, -⟩ := handOver_takes (b := s.sb) (e := e) (by rw [unit e (by simp)]; exact room)
    obtain ⟨b, q, eq, rest⟩ := taken c level fun x hx =>
      (queue x hx).imp_right fun same => by rw [same]; exact unit e (by simp)
    refine ⟨b, q, Eq.trans (settle_micro ?_) eq, rest⟩
    simp [micro, microSteps, fuHandOver, suHandOver, teHandOver, State.teGot, k1, k2, k3, free]
  · simp at len

/-- MP's answer to an element's read: its value is acted on, or READ_ERROR ends the slice (R82, R94). -/
theorem elementRead_acts (h : s.teAwaits n m) {a : Access} {pa : PAddr} (hr : s.te.step = .reading a pa) (resp : Resp)
    (d : BitVec 64) :
    ∃ b q, exec (.elementReadAnswer resp d) s
        = .next (settle (if goodData resp then valueRead n m a ((a.size m).low d) (teFree s b q)
            else sliceFault n .readError (a.va m (s.chan n)) (teFree s b q)))
      ∧ Turn n (teFree s b q) ∧ b.level = s.sb.level ∧ ∀ x ∈ b.queue, x ∈ s.sb.queue ∨ x.unit = .te := by
  have h' := h
  obtain ⟨-, ⟨-, -, held, -⟩, -, -, -, grant, got, asked, -⟩ := h'
  obtain ⟨req, asked⟩ := Option.isSome_iff_exists.mp asked
  obtain ⟨b, q, eq, rest⟩ := te_acts (g := ⟨resp, d⟩) h (by rw [hr]; rfl)
    (readEvents_length _ (some n) resp req.addr) (readEvents_unit _ _ _ _)
  refine ⟨b, q, ?_, rest⟩
  have due : exec (.elementReadAnswer resp d) s = .next (settle (s.teGot ⟨resp, d⟩ (readEvents .te (some n) resp req.addr))) := by
    simp only [exec, execElementReadAnswer, grant, hr, got, asked, settled]
  rw [due, eq, teAnswered, teHas_taken got held]
  simp only [teFree, hr]
  rfl

/-- MP's answer to a device write: the element is performed, or WRITE_ERROR ends the slice (R84, R94). -/
theorem deviceWrite_acts (h : s.teAwaits n m) {v : BitVec 64} {pa : PAddr} (hr : s.te.step = .deviceWrite v pa)
    (resp : WriteResp) :
    ∃ b q, exec (.deviceWriteAnswer resp) s
        = .next (settle (if asResp resp = .okay then elementDone n m false (teFree s b q)
            else sliceFault n .writeError (s.chan n).dstEA (teFree s b q)))
      ∧ Turn n (teFree s b q) := by
  have h' := h
  obtain ⟨-, ⟨-, -, held, -⟩, -, -, -, grant, got, asked, -⟩ := h'
  obtain ⟨req, asked⟩ := Option.isSome_iff_exists.mp asked
  obtain ⟨b, q, eq, turn, -⟩ := te_acts (g := ⟨asResp resp, 0⟩) h (by rw [hr]; rfl)
    (writeEvents_length .memWrite _ (some n) resp req.addr) (writeEvents_unit _ _ _ _ _)
  refine ⟨b, q, ?_, turn⟩
  have due : exec (.deviceWriteAnswer resp) s
      = .next (settle (s.teGot ⟨asResp resp, 0⟩ (writeEvents .memWrite .te (some n) resp req.addr))) := by
    simp only [exec, execDeviceWriteAnswer, grant, hr, got, asked, settled]
  rw [due, eq, teAnswered, teHas_taken got held]
  simp only [teFree, hr]
  rfl

/-! ## TE's step -/

/-- At an element boundary TE goes on with its move (R107). -/
theorem Turn.at_boundary (h : Turn n s) (step : s.te.step = .boundary) : settle s = settle (elementBoundary n s) :=
  h.calm.te h.lb h.tu (by simp [teStep, h.grant, h.calm.kept.2.2.1, step])

/-- An element that LB has placed counts as performed (R93). -/
theorem Turn.at_placing {v : BitVec 64} {pa : PAddr} (h : Turn n s) (step : s.te.step = .placing v pa)
    (move : (s.chan n).currentMove = some m) (free : s.engineAtLb = false) : settle s = settle (elementDone n m false s) :=
  h.calm.te h.lb h.tu (by simp [teStep, h.grant, h.calm.kept.2.2.1, step, move, free])

/-- With its line check answered TE issues the read, and waits for its answer (R82). -/
theorem Turn.at_lineCheck {a : Access} {pa : PAddr} (h : Turn n s) (step : s.te.step = .lineCheck a pa)
    (move : (s.chan n).currentMove = some m) (free : s.engineAtLb = false) :
    settle s = issueRead m a pa s := by
  have reads : teStep s = some (issueRead m a pa s) := by
    simp [teStep, h.grant, h.calm.kept.2.2.1, step, move, free]
  have calm : Calm (issueRead m a pa s) := h.calm.congr rfl rfl rfl rfl rfl rfl
  rw [h.calm.te h.lb h.tu reads]
  refine calm.rest (lbStep_none (s := s) rfl h.lb) (tuStep_none (s := s) rfl h.tu) ?_
  have grant : (issueRead m a pa s).te.grant = some n := h.grant
  have got : (issueRead m a pa s).te.got = none := h.got
  have step' : (issueRead m a pa s).te.step = .reading a pa := rfl
  exact teStep_of_paused (by simp only [paused, grant, got, step'])

/-- While LB holds a request of TE's, TE waits for it (R82, R93). -/
theorem Turn.waits_for_lb (h : Turn n s) {v : BitVec 64} {a : Access} {pa : PAddr}
    (step : s.te.step = .placing v pa ∨ s.te.step = .lineCheck a pa) (busy : s.engineAtLb = true) : settle s = s := by
  refine h.calm.rest h.lb h.tu ?_
  unfold teStep
  rcases step with step | step <;> simp only [step, busy] <;> (repeat' split) <;> simp_all

/-! ## Lookups -/

section Lookups

variable {c : CacheSet} {space : BitVec 6} {va : VAddr} {w : Way}

theorem lookup_of_miss (h0 : c.way0.matchesKey space va = false) (h1 : c.way1.matchesKey space va = false) :
    c.lookup space va = ⟨c, 0, none⟩ := by
  simp [CacheSet.lookup, h0, h1]

/-- A hit leaves the set as it was (R133). -/
theorem lookup_of_hit (hit : (c.get w).matchesKey space va = true) (other : (c.get w.other).matchesKey space va = false)
    (ok : (c.get w).parityOk = true) : c.lookup space va = ⟨c, 0, some w⟩ := by
  cases w <;> simp_all [CacheSet.lookup, CacheSet.get, Way.other]

/-- An entry that fails its parity is dropped, and the lookup misses (R134). -/
theorem lookup_of_failing (hit : (c.get w).matchesKey space va = true)
    (other : (c.get w.other).matchesKey space va = false) (bad : (c.get w).parityOk = false) :
    c.lookup space va = ⟨c.put w (c.get w).drop, 1, none⟩ := by
  cases w <;> simp_all [CacheSet.lookup, CacheSet.get, CacheSet.put, Way.other]

end Lookups

/-- TU asked, in terms of what its lookup finds (R113). -/
theorem ask_eq {u : TransUnit} {q : TuReq} {l : Lookup} (h : u.cache[q.set].lookup q.space q.va = l) :
    u.ask q =
      { cache := u.cache.set q.set l.set
        req := some q
        stage := (lookupStage l q).1
        root := none
        descriptor := none
        pageEntry := none
        upgrade := (lookupStage l q).2
        got := none
        held := u.held ++ List.replicate l.failures ⟨.tcParity, .tu, some q.chan, .okay, 0⟩ } := by
  subst h; rfl

/-- TU asked, where the lookup changes nothing in its set. -/
theorem ask_of_kept {u : TransUnit} {q : TuReq} {hit : Option Way}
    (h : u.cache[q.set].lookup q.space q.va = ⟨u.cache[q.set], 0, hit⟩) :
    u.ask q =
      { cache := u.cache
        req := some q
        stage := (lookupStage ⟨u.cache[q.set], 0, hit⟩ q).1
        root := none
        descriptor := none
        pageEntry := none
        upgrade := (lookupStage ⟨u.cache[q.set], 0, hit⟩ q).2
        got := none
        held := u.held } := by
  rw [ask_eq h]
  simp

/-! ## A walk begins -/

/-- With nothing in TU's way TU issues the root read of the walk that TE's request needs, and every unit waits (R115). -/
theorem Calm.walks {q : TuReq} {a : Access} (c : Calm s) (lb : lbStep s = none) (req : s.tu.req = some q)
    (stage : s.tu.stage = .begin) (got : s.tu.got = none) (step : s.te.step = .translating a) :
    settle s = walkBegin q s := by
  have held := c.kept.2.2.2.1
  have begins : tuStep s = some (walkBegin q s) := by simp [tuStep, req, held, got, stage]
  obtain ⟨eq, c'⟩ := c.tu lb begins
  rw [eq]
  refine c'.rest (lbStep_none (s := s) rfl lb) (by simp [tuStep, walkBegin, req, held, got]) ?_
  have step' : (walkBegin q s).te.step = .translating a := step
  have stage' : (walkBegin q s).tu.stage = .root := rfl
  unfold teStep
  rw [step', stage']
  (repeat' split) <;> simp_all

/-- The walk of a request of channel `n` has begun in `s'`, whose registers and space are those of `s`. -/
theorem walkBegun_walkBegin {s s' : State} {va : VAddr} {w : Bool} {a : Access} (grant : s'.te.grant = some n)
    (step : s'.te.step = .translating a) (req : s'.tu.req = some ⟨n, (s.chan n).space, va, w⟩) (rp : s'.rp = s.rp) :
    s.walkBegun (walkBegin ⟨n, (s.chan n).space, va, w⟩ s') n va w a := by
  refine ⟨grant, step, req, rfl, ?_⟩
  have anchor : s'.anchor = s.anchor := by rw [State.anchor, rp, State.anchor]
  simp only [walkBegin, State.rootAddr, anchor]

section Asked

variable {va : VAddr} {w : Bool} {a : Access} {hit : Option Way}

/-- TE asks TU for an access of channel `n` and the lookup changes nothing: TE's turn is over until TU has an answer. -/
theorem Turn.asks (h : Turn n s)
    (kept : (s.tu.cache[setIndex (vaSegment va) (vaPage va)]).lookup (s.chan n).space va
      = ⟨s.tu.cache[setIndex (vaSegment va) (vaPage va)], 0, hit⟩) :
    Calm (askTranslation n va w a s) ∧ lbStep (askTranslation n va w a s) = none
      ∧ (askTranslation n va w a s).tu.cache = s.tu.cache ∧ (askTranslation n va w a s).tu.held = [] := by
  have asked := ask_of_kept (u := s.tu) (q := ⟨n, (s.chan n).space, va, w⟩) (hit := hit) kept
  have held : (askTranslation n va w a s).tu.held = s.tu.held := by simp only [askTranslation, asked]
  refine ⟨h.calm.congr rfl rfl rfl rfl held rfl, lbStep_none (s := s) rfl h.lb, ?_, held.trans h.calm.kept.2.2.2.1⟩
  simp only [askTranslation, asked]

/-- A request whose lookup leads to a walk: the walk begins (R137, R140). -/
theorem Turn.walks {up : Option Way} (h : Turn n s)
    (kept : (s.tu.cache[setIndex (vaSegment va) (vaPage va)]).lookup (s.chan n).space va
      = ⟨s.tu.cache[setIndex (vaSegment va) (vaPage va)], 0, hit⟩)
    (stage : lookupStage ⟨s.tu.cache[setIndex (vaSegment va) (vaPage va)], 0, hit⟩ ⟨n, (s.chan n).space, va, w⟩ = (.begin, up)) :
    ∃ t, settle (askTranslation n va w a s) = t ∧ s.walkBegun t n va w a ∧ t.chans = s.chans ∧ t.tu.upgrade = up
      ∧ t.tu.cache = s.tu.cache := by
  obtain ⟨calm, lb, cache, -⟩ := h.asks (w := w) (a := a) kept
  have asked := ask_of_kept (u := s.tu) (q := ⟨n, (s.chan n).space, va, w⟩) (hit := hit) kept
  have stage' : (askTranslation n va w a s).tu.stage = .begin := by
    simp only [askTranslation, asked]; exact congrArg Prod.fst stage
  refine ⟨_, calm.walks lb (q := ⟨n, (s.chan n).space, va, w⟩) (a := a) rfl stage' rfl rfl,
    walkBegun_walkBegin (s' := askTranslation n va w a s) h.grant rfl rfl rfl, rfl, ?_, cache⟩
  simp only [walkBegin, askTranslation, asked]
  exact congrArg Prod.snd stage

/-- A miss begins a walk (R137). -/
theorem Turn.walks_of_misses (h : Turn n s) (miss : s.misses (s.chan n).space va) :
    ∃ t, settle (askTranslation n va w a s) = t ∧ s.walkBegun t n va w a ∧ t.chans = s.chans ∧ t.tu.upgrade = none
      ∧ t.tu.cache = s.tu.cache :=
  h.walks (lookup_of_miss miss.1 miss.2) rfl

/-- `s` with TU's answer for the access taken by TE: TU is free. -/
def served (s : State) (a : Access) : State :=
  { s with
    te := { s.te with step := .translating a }
    tu :=
      { s.tu with
        req := none, stage := .idle, root := none, descriptor := none, pageEntry := none, upgrade := none, got := none } }

@[simp] theorem chan_served (s : State) (a : Access) (k : ChanId) : (served s a).chan k = s.chan k := rfl

theorem turn_served (h : Turn n s) (a : Access) : Turn n (served s a) where
  calm := h.calm.congr rfl rfl rfl rfl rfl rfl
  lb := lbStep_none (s := s) rfl h.lb
  tu := rfl
  grant := h.grant
  got := h.got

/-- A request that the cache answers: TE acts on TU's answer (R135, R136). -/
theorem Turn.answered {x : TuAnswer} (h : Turn n s) (move : (s.chan n).currentMove = some m)
    (kept : (s.tu.cache[setIndex (vaSegment va) (vaPage va)]).lookup (s.chan n).space va
      = ⟨s.tu.cache[setIndex (vaSegment va) (vaPage va)], 0, hit⟩)
    (stage : lookupStage ⟨s.tu.cache[setIndex (vaSegment va) (vaPage va)], 0, hit⟩ ⟨n, (s.chan n).space, va, w⟩
      = (.reply x, none)) :
    settle (askTranslation n va w a s) = settle (translationAnswered n m a x (served s a)) := by
  obtain ⟨calm, lb, -, held⟩ := h.asks (w := w) (a := a) kept
  have asked := ask_of_kept (u := s.tu) (q := ⟨n, (s.chan n).space, va, w⟩) (hit := hit) kept
  have stage' : (askTranslation n va w a s).tu.stage = .reply x := by
    simp only [askTranslation, asked]; exact congrArg Prod.fst stage
  have upgrade : (askTranslation n va w a s).tu.upgrade = none := by
    simp only [askTranslation, asked]; exact congrArg Prod.snd stage
  have waits : tuStep (askTranslation n va w a s) = none := by
    have req : (askTranslation n va w a s).tu.req = some ⟨n, (s.chan n).space, va, w⟩ := rfl
    have got : (askTranslation n va w a s).tu.got = none := rfl
    simp [tuStep, req, got, stage', held]
  have move' : ((askTranslation n va w a s).chan n).currentMove = some m := move
  have acts : teStep (askTranslation n va w a s) = some (translationAnswered n m a x (askTranslation n va w a s)) := by
    have grant : (askTranslation n va w a s).te.grant = some n := h.grant
    have teHeld : (askTranslation n va w a s).te.held = [] := h.calm.kept.2.2.1
    have step : (askTranslation n va w a s).te.step = .translating a := rfl
    simp [teStep, grant, teHeld, step, move', stage', held]
  rw [calm.te lb waits acts]
  refine congrArg settle ?_
  have same : ({ askTranslation n va w a s with
      tu := { (askTranslation n va w a s).tu with
        req := none, stage := .idle, root := none, descriptor := none, pageEntry := none } } : State) = served s a := by
    simp only [askTranslation, asked, served] at upgrade ⊢
    rw [upgrade]
  have step : ∀ u : State, translationAnswered n m a x u = translationAnswered n m a x
      { u with tu := { u.tu with req := none, stage := .idle, root := none, descriptor := none, pageEntry := none } } :=
    fun _ => rfl
  rw [step, same]

end Asked

end Sys2Proof.Moves
end

section
/-! SUPPORT. How a move begins and how an element ends: what TE's turn then leads to. -/

namespace Sys2Proof.Moves

open Sys2Proof Sys2Proof.Machine Sys2Proof.Laws Sys2Proof.Flow

variable {n : ChanId} {m : Move} {s s' t : State}

/-! ## Operands -/

theorem aligned_iff (z : Size) (va : VAddr) : z.aligned va = true ↔ va.toNat % z.bytes = 0 := by
  simp [Size.aligned]

/-- MOVE_FORM: an updated base C0, or one base updated on both sides (R77). -/
theorem badForm_iff (m : Move) :
    m.badForm = true ↔ (m.src.update = true ∧ m.src.base = 0) ∨ (m.dst.update = true ∧ m.dst.base = 0)
      ∨ (m.src.update = true ∧ m.dst.update = true ∧ m.src.base = m.dst.base) := by
  simp [Move.badForm, or_assoc, and_assoc]

/-! ## The first element -/

section Element

variable (n s)

theorem startElement_of_src (op : m.op ≠ .fill) (src : m.src.size.aligned (s.chan n).srcEA = false) :
    startElement n m s = sliceFault n .alignment (s.chan n).srcEA s := by
  simp [startElement, op, src]

theorem startElement_of_dst (src : m.op = .fill ∨ m.src.size.aligned (s.chan n).srcEA = true)
    (dst : m.dst.size.aligned (s.chan n).dstEA = false) :
    startElement n m s = sliceFault n .alignment (s.chan n).dstEA s := by
  rcases src with src | src <;> simp [startElement, src, dst]

theorem startElement_reads (op : m.op ≠ .fill) (src : m.src.size.aligned (s.chan n).srcEA = true)
    (dst : m.dst.size.aligned (s.chan n).dstEA = true) :
    startElement n m s = askTranslation n (s.chan n).srcEA false .source s := by
  cases hop : m.op with
  | fill => exact absurd hop op
  | copy | verify => simp [startElement, hop, src, dst]

theorem startElement_fills (op : m.op = .fill) (dst : m.dst.size.aligned (s.chan n).dstEA = true) :
    startElement n m s = askTranslation n (s.chan n).dstEA true (.writeDest ((s.chan n).fillValue.getD 0)) s := by
  simp [startElement, op, dst]

/-- The channel as the beginning of a move leaves it (R74). -/
def begun (c : Channel) (m : Move) (fill : Option (BitVec 64)) : Channel :=
  { c with srcEA := c.effectiveAddr m.src, dstEA := c.effectiveAddr m.dst, fillValue := fill, firstFlag := false }

theorem moveBegun_eq (fill : Option (BitVec 64)) :
    moveBegun n m fill s = startElement n m (s.setChan n (begun (s.chan n) m fill)) := rfl

theorem takeFill_lost {v : BitVec 64} (h : m.convert v = none) :
    takeFill n m v s = sliceFault n .rangeLoss ((s.chan n).effectiveAddr m.dst) s := by
  simp [takeFill, h]

theorem takeFill_kept {v w : BitVec 64} (h : m.convert v = some w) : takeFill n m v s = moveBegun n m (some w) s := by
  simp [takeFill, h]

theorem beginMove_bad (h : m.badForm = true) : beginMove n m s = sliceFault n .moveForm 0 s := by
  simp [beginMove, h]

theorem beginMove_reads (form : m.badForm = false) (op : m.op ≠ .fill) : beginMove n m s = moveBegun n m none s := by
  cases hop : m.op with
  | fill => exact absurd hop op
  | copy | verify => simp [beginMove, form, hop]

theorem beginMove_fills (form : m.badForm = false) (op : m.op = .fill) :
    beginMove n m s
      = if m.src.form = .immediate then takeFill n m m.immediateValue s
        else if m.src.size.aligned ((s.chan n).effectiveAddr m.src) then
          askTranslation n ((s.chan n).effectiveAddr m.src) false .fillSource s
        else sliceFault n .alignment ((s.chan n).effectiveAddr m.src) s := by
  simp [beginMove, form, op]

end Element

theorem misses_congr {space : BitVec 6} {va : VAddr} (tu : s'.tu = s.tu) (h : s.misses space va) : s'.misses space va := by
  rw [State.misses, tu]; exact h

/-- A walk begun is told by the registers and the channel's space alone. -/
theorem walkBegun_congr {va : VAddr} {w : Bool} {a : Access} (rp : s'.rp = s.rp)
    (space : (s'.chan n).space = (s.chan n).space) (h : s'.walkBegun t n va w a) : s.walkBegun t n va w a := by
  obtain ⟨grant, step, req, stage, asks⟩ := h
  have anchor : s'.anchor = s.anchor := by rw [State.anchor, rp, State.anchor]
  rw [space] at req asks
  exact ⟨grant, step, req, stage, by rw [asks, State.rootAddr, anchor, State.rootAddr]⟩

theorem Turn.setChan (h : Turn n s) (c : Channel) : Turn n (s.setChan n c) where
  calm := h.calm.congr rfl rfl rfl rfl rfl rfl
  lb := lbStep_none (s := s) rfl h.lb
  tu := tuStep_none (s := s) rfl h.tu
  grant := h.grant
  got := h.got

/-- The walk of the first access of an element, as the channel that has begun its move sees it. -/
theorem Turn.walks_begun {fill : Option (BitVec 64)} {va : VAddr} {w : Bool} {a : Access} (h : Turn n s)
    (miss : s.misses (s.chan n).space va) :
    s.walkBegun (settle (askTranslation n va w a (s.setChan n (begun (s.chan n) m fill)))) n va w a
      ∧ (settle (askTranslation n va w a (s.setChan n (begun (s.chan n) m fill)))).chan n = begun (s.chan n) m fill := by
  have chan : (s.setChan n (begun (s.chan n) m fill)).chan n = begun (s.chan n) m fill := chan_setChan _ _ _
  have space : ((s.setChan n (begun (s.chan n) m fill)).chan n).space = (s.chan n).space := by rw [chan]; rfl
  obtain ⟨t, eq, walk, chans, -⟩ := (h.setChan (begun (s.chan n) m fill)).walks_of_misses (va := va) (w := w) (a := a)
    (by rw [space]; exact miss)
  rw [eq]
  exact ⟨walkBegun_congr (s' := s.setChan n (begun (s.chan n) m fill)) rfl space walk, (congrArg (·[n.val]) chans).trans chan⟩

/-- Element 0 of a move with a source: the source's alignment, the destination's, then the source's translation (R74, R79). -/
theorem Turn.begins_reading {fill : Option (BitVec 64)} {b : Channel} {A B : VAddr} (h : Turn n s)
    (off : (s.chan n).reset = .off) (op : m.op ≠ .fill) (hb : b = begun (s.chan n) m fill)
    (hA : A = (s.chan n).effectiveAddr m.src) (hB : B = (s.chan n).effectiveAddr m.dst) :
    (m.src.size.aligned A = false → (settle (moveBegun n m fill s)).sliceFaults n b .alignment A)
      ∧ (m.src.size.aligned A = true → m.dst.size.aligned B = false →
        (settle (moveBegun n m fill s)).sliceFaults n b .alignment B)
      ∧ (m.src.size.aligned A = true → m.dst.size.aligned B = true → s.misses (s.chan n).space A →
        s.walkBegun (settle (moveBegun n m fill s)) n A false .source ∧ (settle (moveBegun n m fill s)).chan n = b) := by
  subst hb hA hB
  have chan : (s.setChan n (begun (s.chan n) m fill)).chan n = begun (s.chan n) m fill := chan_setChan _ _ _
  have faults := settle_sliceFault (n := n) (h.setChan (begun (s.chan n) m fill)).calm.waits (by rw [chan]; exact off)
    .alignment
  have start_src := startElement_of_src n (s.setChan n (begun (s.chan n) m fill)) op
  have start_dst := startElement_of_dst (m := m) n (s.setChan n (begun (s.chan n) m fill))
  have start := startElement_reads n (s.setChan n (begun (s.chan n) m fill)) op
  rw [chan] at start_src start_dst start faults
  rw [moveBegun_eq]
  refine ⟨fun src => ?_, fun src dst => ?_, fun src dst miss => ?_⟩
  · rw [start_src src]
    exact (faults _).1
  · rw [start_dst (.inr src) dst]
    exact (faults _).1
  · rw [start src dst]
    exact h.walks_begun miss

/-- Element 0 of a FILL: the destination's alignment, then its translation (R79, R87). -/
theorem Turn.begins_filling {w : BitVec 64} {b : Channel} {B : VAddr} (h : Turn n s) (off : (s.chan n).reset = .off)
    (op : m.op = .fill) (hb : b = begun (s.chan n) m (some w)) (hB : B = (s.chan n).effectiveAddr m.dst) :
    (m.dst.size.aligned B = false → (settle (moveBegun n m (some w) s)).sliceFaults n b .alignment B)
      ∧ (m.dst.size.aligned B = true → s.misses (s.chan n).space B →
        s.walkBegun (settle (moveBegun n m (some w) s)) n B true (.writeDest w)
          ∧ (settle (moveBegun n m (some w) s)).chan n = b) := by
  subst hb hB
  have chan : (s.setChan n (begun (s.chan n) m (some w))).chan n = begun (s.chan n) m (some w) := chan_setChan _ _ _
  have faults := settle_sliceFault (n := n) (h.setChan (begun (s.chan n) m (some w))).calm.waits (by rw [chan]; exact off)
    .alignment
  have start_dst := startElement_of_dst (m := m) n (s.setChan n (begun (s.chan n) m (some w)))
  have start := startElement_fills n (s.setChan n (begun (s.chan n) m (some w))) op
  rw [chan] at start_dst start faults
  rw [moveBegun_eq]
  refine ⟨fun dst => ?_, fun dst miss => ?_⟩
  · rw [start_dst (.inl op) dst]
    exact (faults _).1
  · rw [start dst]
    exact h.walks_begun miss

/-! ## The grant -/

/-- The grant of a channel in phase MOVE puts TE at the first element boundary and leaves every other unit (R99, R102). -/
theorem grantTo_of_move (phase : (s.chan n).phase = .move) :
    (grantTo n s).te = { s.te with grant := some n, rotor := n, counter := 0, kind := some .move, step := .boundary }
      ∧ (grantTo n s).fu = s.fu ∧ (grantTo n s).su = s.su ∧ (grantTo n s).sb = s.sb ∧ (grantTo n s).tu = s.tu
      ∧ (grantTo n s).lb = s.lb ∧ (grantTo n s).rp = s.rp := by
  unfold grantTo
  dsimp only
  split
  · rename_i purge _
    rw [phase] at purge; cases purge
  · exact ⟨rfl, rfl, rfl, rfl, rfl, rfl, rfl⟩

/-- At a grant point of a channel that begins a move it is TE's turn, and TE begins the move (R102). -/
theorem grant_begins {c : Channel} (point : s.atGrantPoint = true) (winner : s.winner = some n) (quiet : s.quietUnits)
    (reset : s.resetComes n = false) (hc : c = s.chan n) (phase : c.phase = .move) (move : c.currentMove = some m)
    (first : c.firstFlag = true) :
    exec .grantPoint s = .next (settle (beginMove n m (grantTo n s))) ∧ Turn n (grantTo n s)
      ∧ (grantTo n s).chan n = { c with state := .active, activity := .slice } ∧ c.reset = .off := by
  subst hc
  obtain ⟨settled, kept, -, -, got⟩ := quiet
  have off : (s.chan n).reset = .off := by
    have eligible := eligible_of_winner winner
    simp only [Channel.eligible, Bool.and_eq_true, beq_iff_eq] at eligible
    exact eligible.2
  obtain ⟨-, -, -, -, -, -, -, -, lb, tu, -⟩ := (settled_iff s).mp settled
  obtain ⟨hte, hfu, hsu, hsb, htu, hlb, -⟩ := grantTo_of_move (s := s) phase
  have turn : Turn n (grantTo n s) :=
    { calm := (Calm.of_settled settled kept).congr hfu hsu hsb (by rw [hte]) (by rw [htu]) (by rw [hlb])
      lb := lbStep_none hlb lb
      tu := tuStep_none htu tu
      grant := by rw [hte]
      got := by rw [hte]; exact got }
  have chan := chan_grantTo n s
  have begins : elementBoundary n (grantTo n s) = beginMove n m (grantTo n s) := by
    have move' : ((grantTo n s).chan n).currentMove = some m := by rw [chan]; exact move
    have off' : ((grantTo n s).chan n).reset = .off := by rw [chan]; exact off
    have first' : ((grantTo n s).chan n).firstFlag = true := by rw [chan]; exact first
    simp [elementBoundary, move', off', first']
  refine ⟨?_, turn, chan, off⟩
  have due : exec .grantPoint s = .next (settle (grantTo n s)) := by
    simp only [exec, execGrantPoint, point, winner, reset, if_true, Bool.false_eq_true, if_false, Machine.settled]
  rw [due, turn.at_boundary (by rw [hte]), begins]

/-- A slice just granted that ends with a fault. -/
theorem granted_faults {c : Channel} (w : Waits s) (chan : s.chan n = { c with state := .active, activity := .slice })
    (off : c.reset = .off) (code : FaultCode) (va : VAddr) :
    (settle (sliceFault n code va s)).sliceFaults n c code va := by
  have faults := (settle_sliceFault w (by rw [chan]; exact off) code va).1
  rw [chan] at faults
  exact faults

/-- Settles O40: operands by their definitions; the beginning of a move at its grant and after a FILL's read, check by check. -/
theorem movesBeginAtTheirAddresses : Obligations.MovesBeginAtTheirAddresses := by
  unfold Obligations.MovesBeginAtTheirAddresses
  refine ⟨fun c d => ?_, fun d va => ?_, aligned_iff, rfl, badForm_iff, ?_, ?_⟩
  · cases hd : d.form <;> simp [Channel.effectiveAddr, hd, Channel.baseValue, Channel.indexValue]
  · cases hd : d.dir <;> simp [Side.step, hd]
  · intro n m s c b A B point winner quiet reset hc phase move first hA hB hb
    obtain ⟨due, turn, chan, off⟩ := grant_begins point winner quiet reset hc phase move first
    obtain ⟨-, -, -, -, htu, -, hrp⟩ := grantTo_of_move (s := s) (n := n) (by rw [← hc]; exact phase)
    have off' : ((grantTo n s).chan n).reset = .off := by rw [chan]; exact off
    have hA' : A = ((grantTo n s).chan n).effectiveAddr m.src := by rw [chan]; exact hA
    have hB' : B = ((grantTo n s).chan n).effectiveAddr m.dst := by rw [chan]; exact hB
    have space : ((grantTo n s).chan n).space = c.space := by rw [chan]
    have faults := granted_faults turn.calm.waits chan off
    have walks : ∀ {t va w a}, (grantTo n s).walkBegun t n va w a → s.walkBegun t n va w a :=
      walkBegun_congr hrp (space.trans (by rw [hc]))
    have misses : ∀ {va}, s.misses c.space va → (grantTo n s).misses ((grantTo n s).chan n).space va := fun h => by
      rw [space]; exact misses_congr htu h
    refine ⟨_, due, fun bad => ?_, fun form op => ?_, fun form op imm => ?_, fun form op imm => ?_⟩
    · rw [beginMove_bad _ _ bad]
      exact faults .moveForm 0
    · rw [beginMove_reads _ _ form op]
      have begun_eq : { b with state := .active, activity := .slice } = begun ((grantTo n s).chan n) m none := by
        rw [hb, chan, hA, hB]; rfl
      obtain ⟨bad_src, bad_dst, walk⟩ := turn.begins_reading (fill := none) off' op begun_eq hA' hB'
      exact ⟨bad_src, bad_dst, fun src dst miss => (walk src dst (misses miss)).imp_left walks⟩
    · rw [beginMove_fills _ _ form op, if_neg imm, ← hA']
      refine ⟨fun src => ?_, fun src miss => ?_⟩
      · rw [if_neg (by simp [src])]
        exact faults .alignment A
      · rw [if_pos src]
        obtain ⟨t, eq, walk, chans, -⟩ := turn.walks_of_misses (w := false) (a := .fillSource) (misses miss)
        rw [eq]
        exact ⟨walks walk, (congrArg (·[n.val]) chans).trans chan⟩
    · rw [beginMove_fills _ _ form op, if_pos imm, Move.immediateValue]
      refine ⟨fun lost => ?_, fun w value => ?_⟩
      · rw [takeFill_lost _ _ lost, ← hB']
        exact faults .rangeLoss B
      · rw [takeFill_kept _ _ value]
        have begun_eq : { b with fillValue := some w, state := .active, activity := .slice }
            = begun ((grantTo n s).chan n) m (some w) := by
          rw [hb, chan, hA, hB]; rfl
        obtain ⟨bad_dst, walk⟩ := turn.begins_filling off' op begun_eq hB'
        exact ⟨bad_dst, fun dst miss => (walk dst (misses miss)).imp_left walks⟩
  · intro n m pa resp d s b A B h reading op hA hB hb
    obtain ⟨x, q, due, turn, -⟩ := elementRead_acts h reading resp d
    obtain ⟨-, -, -, -, -, -, -, -, -, off, -⟩ := h
    have faults := settle_sliceFault (n := n) (s := teFree s x q) turn.calm.waits off
    refine ⟨_, due, fun bad => ?_, fun good lost => ?_, fun w good value => ?_⟩
    · rw [if_neg (by simp [bad]), hA]
      exact (faults .readError _).1
    · have lost' : valueRead n m .fillSource (m.src.size.low d) (teFree s x q)
          = sliceFault n .rangeLoss B (teFree s x q) := by rw [hB]; exact takeFill_lost _ _ lost
      rw [if_pos good, Access.size, lost']
      exact (faults .rangeLoss _).1
    · have kept : valueRead n m .fillSource (m.src.size.low d) (teFree s x q) = moveBegun n m (some w) (teFree s x q) :=
        takeFill_kept _ _ value
      rw [if_pos good, Access.size, kept]
      have begun_eq : { b with fillValue := some w } = begun (s.chan n) m (some w) := by rw [hb, hA, hB]; rfl
      exact turn.begins_filling off op begun_eq hB

end Sys2Proof.Moves
end

section
/-! SUPPORT. An element performed: the end of its move and of its slice, or the slice's count. -/

namespace Sys2Proof.Moves

open Sys2Proof Sys2Proof.Machine Sys2Proof.Laws Sys2Proof.Flow

variable {n : ChanId} {m : Move} {s t : State} {c : Channel}

/-! ## The move's end -/

/-- The channel after the element that ends its move (R93, R95, R96). -/
def moveEnded (c : Channel) (m : Move) (x : Bool) : Channel := ((c.performedElement m x).updateCursors m).nextMove

theorem nextMove_of_some {m' : Move} (h : c.moves[c.moveIndex + 1]? = some m') :
    c.nextMove = c.prepareMove (c.moveIndex + 1) m' := by
  simp [Channel.nextMove, h]

theorem nextMove_of_none (h : c.moves[c.moveIndex + 1]? = none) :
    c.nextMove = { c with
      phase := .drain, listIndex := 0, moveIndex := 0, remaining := 0, srcEA := 0, dstEA := 0, firstFlag := false,
      fillValue := none } := by
  simp [Channel.nextMove, h]

/-- What a slice's end looks at, and the count, whatever move comes next. -/
theorem moveEnded_keeps (c : Channel) (m : Move) (x : Bool) :
    (moveEnded c m x).reset = c.reset ∧ (moveEnded c m x).mark = c.mark ∧ (moveEnded c m x).stopPending = c.stopPending
      ∧ (moveEnded c m x).performed = c.performed + 1 := by
  unfold moveEnded Channel.nextMove
  split <;> exact ⟨rfl, rfl, rfl, rfl⟩

/-- An unequal element, or the last of its move, ends the move and the slice (R90, R95). -/
theorem elementDone_ends {x : Bool} (h : x = true ∨ (s.chan n).remaining - 1 = 0) :
    elementDone n m x s = endSlice n none ((counted n m x s).setChan n (moveEnded (s.chan n) m x)) := by
  have ends : (x || decide (((s.chan n).performedElement m x).remaining = 0)) = true := by
    rcases h with h | h
    · simp [h]
    · simp [Channel.performedElement, h]
  exact if_pos ends

/-- Any other element leaves TE at the slice's end with the sixteenth, and else at its next boundary (R103). -/
theorem elementDone_counts (h : (s.chan n).remaining - 1 ≠ 0) :
    elementDone n m false s
      = (counted n m false s).setTeStep (if Config.sliceElements ≤ s.te.counter + 1 then .exhausted else .boundary) := by
  have goes : (false || decide (((s.chan n).performedElement m false).remaining = 0)) ≠ true := by
    simp [Channel.performedElement, h]
  refine (if_neg goes).trans ?_
  split <;> rfl

theorem chan_counted (n : ChanId) (m : Move) (x : Bool) (s : State) :
    (counted n m x s).chan n = (s.chan n).performedElement m x := chan_setChan _ _ _

/-- The last element of a channel's last move ends the slice; the channel enters FINISHING (R32, R95). -/
theorem settle_lastElement (w : Waits s) (off : (s.chan n).reset = .off) (last : (s.chan n).atLastElement) :
    (settle (elementDone n m false s)).te.grant = none
      ∧ (settle (elementDone n m false s)).chan n
          = { moveEnded (s.chan n) m false with
              state := .finishing, phase := .drain, listIndex := 0, activity := .finishDrain }
      ∧ LbReq.drain n ∈ (settle (elementDone n m false s)).lbRequests
      ∧ (s.engineAtLb = false → (settle (elementDone n m false s)).lb.entries = s.lb.entries)
      ∧ (s.tu.got = none → (settle (elementDone n m false s)).tu.cache = s.tu.cache
          ∧ (settle (elementDone n m false s)).tu.req = s.tu.req) := by
  obtain ⟨one, next, stop, mark⟩ := last
  obtain ⟨reset', mark', stop', -⟩ := moveEnded_keeps (s.chan n) m false
  have chan : ((counted n m false s).setChan n (moveEnded (s.chan n) m false)).chan n = moveEnded (s.chan n) m false :=
    chan_setChan _ _ _
  have phase : (moveEnded (s.chan n) m false).phase = .drain := by
    rw [moveEnded, nextMove_of_none (c := ((s.chan n).performedElement m false).updateCursors m) next]
  have ends := settle_endSlice_finishes (n := n) (s := (counted n m false s).setChan n (moveEnded (s.chan n) m false))
    (w.congr rfl rfl) (by rw [chan, reset', off]) (by rw [chan, mark', mark]) (by rw [chan, stop', stop])
    (by rw [chan, phase])
  rw [chan] at ends
  rw [elementDone_ends (.inr (by rw [one]))]
  exact ends

/-- Settles O43: the element is counted, its move completed and the next one prepared; the slice ends without a fault. -/
theorem verifyMismatchCompletesMove : Obligations.VerifyMismatchCompletesMove := by
  unfold Obligations.VerifyMismatchCompletesMove
  intro n m m' w pa resp d s h reading op good unequal next stop mark phase
  obtain ⟨b, q, due, turn, -⟩ := elementRead_acts h reading resp d
  obtain ⟨-, -, -, -, -, -, -, -, -, off, -⟩ := h
  have done : valueRead n m (.verifyDest w) (m.dst.size.low d) (teFree s b q)
      = endSlice n none ((counted n m true (teFree s b q)).setChan n (moveEnded (s.chan n) m true)) := by
    have differs : (w != m.dst.size.low d) = true := by simpa using unequal
    have counts : valueRead n m (.verifyDest w) (m.dst.size.low d) (teFree s b q)
        = elementDone n m (w != m.dst.size.low d) (teFree s b q) := rfl
    rw [counts, differs]
    exact elementDone_ends (.inl rfl)
  have ended : moveEnded (s.chan n) m true
      = (((s.chan n).performedElement m true).updateCursors m).prepareMove ((s.chan n).moveIndex + 1) m' :=
    nextMove_of_some (c := ((s.chan n).performedElement m true).updateCursors m) next
  have chan : ((counted n m true (teFree s b q)).setChan n (moveEnded (s.chan n) m true)).chan n
      = moveEnded (s.chan n) m true := chan_setChan _ _ _
  obtain ⟨reset', mark', stop', -⟩ := moveEnded_keeps (s.chan n) m true
  obtain ⟨grant, ready⟩ := settle_endSlice_ready (n := n)
    (s := (counted n m true (teFree s b q)).setChan n (moveEnded (s.chan n) m true)) (turn.calm.waits.congr rfl rfl)
    (by rw [chan, reset', off]) (by rw [chan, mark', mark]) (by rw [chan, stop', stop])
    (by rw [chan, ended]; exact fun drain => by cases phase.symm.trans drain)
  rw [if_pos good, Access.size, done] at due
  refine ⟨_, due, grant, ?_⟩
  rw [ready, chan, ended]
  simp [Channel.prepareMove, Channel.updateCursors, Channel.performedElement, op]

end Sys2Proof.Moves
end

section
/-! SUPPORT. What the lookup of an access leads to: a fault, the walk of a dirty upgrade, the walk after a parity failure, or the
line buffer. -/

namespace Sys2Proof.Moves

open Sys2Proof Sys2Proof.Machine Sys2Proof.Laws

variable {n : ChanId} {m : Move} {s t : State} {va : VAddr} {isWrite : Bool} {a : Access} {w : Way} {e : CacheEntry}

/-! ## A hit -/

section Stage

variable {l : Lookup} {q : TuReq} (hit : l.hit = some w) (entry : l.set.get w = e)

include hit entry

theorem lookupStage_refused (refuses : e.access.allows q.isWrite = false) :
    lookupStage l q = (.reply (.fault .access), none) := by
  simp [lookupStage, hit, entry, refuses]

theorem lookupStage_upgrade (allows : e.access.allows q.isWrite = true) (write : q.isWrite = true)
    (clean : e.modifiedKnown = false) : lookupStage l q = (.begin, some w) := by
  simp_all [lookupStage]

theorem lookupStage_translated (allows : e.access.allows q.isWrite = true)
    (known : q.isWrite = true → e.modifiedKnown = true) :
    lookupStage l q = (.reply (.translated (framePA e.frame q.va) e.device e.direct), none) := by
  cases hw : q.isWrite <;> simp_all [lookupStage]

end Stage

/-- The one valid entry of the key, its parity good, is what the lookup hits. -/
theorem lookup_of_finds {space : BitVec 6} (finds : s.finds space va w e) (ok : e.parityOk = true) :
    (s.tu.cache[setIndex (vaSegment va) (vaPage va)]).lookup space va
      = ⟨s.tu.cache[setIndex (vaSegment va) (vaPage va)], 0, some w⟩ := by
  obtain ⟨rfl, hit, other⟩ := finds
  exact lookup_of_hit hit other ok

/-- A hit that refuses the access ends the slice with ACCESS; the cache stays (R135). -/
theorem Turn.refused (h : Turn n s) (off : (s.chan n).reset = .off) (move : (s.chan n).currentMove = some m)
    (finds : s.finds (s.chan n).space va w e) (ok : e.parityOk = true) (refuses : e.access.allows isWrite = false) :
    (settle (askTranslation n va isWrite a s)).sliceFaults n (s.chan n) .access (a.va m (s.chan n))
      ∧ (settle (askTranslation n va isWrite a s)).tu.cache = s.tu.cache := by
  rw [h.answered move (lookup_of_finds finds ok) (lookupStage_refused rfl finds.1 refuses)]
  obtain ⟨faults, cache⟩ := settle_sliceFault (turn_served h a).calm.waits off .access (a.va m (s.chan n))
  exact ⟨faults, cache rfl⟩

/-- A write that hits a page not known modified begins the walk of a dirty upgrade (R140). -/
theorem Turn.upgrades (h : Turn n s) (finds : s.finds (s.chan n).space va w e) (ok : e.parityOk = true)
    (allows : e.access.allows true = true) (clean : e.modifiedKnown = false) :
    ∃ t, settle (askTranslation n va true a s) = t ∧ s.walkBegun t n va true a ∧ t.chans = s.chans
      ∧ t.tu.upgrade = some w ∧ t.tu.cache = s.tu.cache :=
  h.walks (lookup_of_finds finds ok) (lookupStage_upgrade rfl finds.1 allows rfl clean)

/-- Any other hit gives TE the translation through the entry's frame (R136). -/
theorem Turn.translated (h : Turn n s) (move : (s.chan n).currentMove = some m)
    (finds : s.finds (s.chan n).space va w e) (ok : e.parityOk = true) (allows : e.access.allows isWrite = true)
    (known : isWrite = true → e.modifiedKnown = true) :
    settle (askTranslation n va isWrite a s)
      = settle (translationAnswered n m a (.translated (framePA e.frame va) e.device e.direct) (served s a)) :=
  h.answered move (lookup_of_finds finds ok) (lookupStage_translated rfl finds.1 allows known)

/-! ## A parity failure -/

/-- An entry that fails its parity is dropped; TU hands over TC_PARITY and begins the walk of a miss (R134, R169). -/
theorem Turn.walks_of_failing (h : Turn n s) (finds : s.finds (s.chan n).space va w e) (bad : e.parityOk = false)
    (room : s.hasRoom .tu) :
    ∃ t, settle (askTranslation n va isWrite a s) = t ∧ s.walkBegun t n va isWrite a ∧ t.chans = s.chans
      ∧ t.tu.cache = s.tu.cache.set (setIndex (vaSegment va) (vaPage va))
          ((s.tu.cache[setIndex (vaSegment va) (vaPage va)]).put w { e with valid := false })
      ∧ (2 ≤ s.sb.level.toNat → t.sbHas ⟨.tcParity, .tu, some n, .okay, 0⟩) := by
  obtain ⟨rfl, hit, other⟩ := finds
  have asked := ask_eq (u := s.tu) (q := ⟨n, (s.chan n).space, va, isWrite⟩) (lookup_of_failing hit other bad)
  have kept := h.calm.kept
  obtain ⟨k1, k2, k3, k4, k5⟩ := kept
  obtain ⟨c, free, level, -, queued⟩ := handOver_takes (b := s.sb) (e := ⟨.tcParity, .tu, some n, .okay, 0⟩) room
  have held : (askTranslation n va isWrite a s).tu.held = [⟨.tcParity, .tu, some n, .okay, 0⟩] := by
    simp only [askTranslation, asked, k4]; rfl
  have hands : micro (askTranslation n va isWrite a s) = some { askTranslation n va isWrite a s with
      sb := c, tu := { (askTranslation n va isWrite a s).tu with held := [] } } := by
    have sb : (askTranslation n va isWrite a s).sb = s.sb := rfl
    have fu : fuHandOver (askTranslation n va isWrite a s) = none := by simp [fuHandOver, askTranslation, k1]
    have su : suHandOver (askTranslation n va isWrite a s) = none := by simp [suHandOver, askTranslation, k2]
    have te : teHandOver (askTranslation n va isWrite a s) = none := by simp [teHandOver, askTranslation, k3]
    have tu : tuHandOver (askTranslation n va isWrite a s) = some { askTranslation n va isWrite a s with
        sb := c, tu := { (askTranslation n va isWrite a s).tu with held := [] } } := by
      simp only [tuHandOver, held, sb, free, Option.map_some]
    simp [micro, microSteps, fu, su, te, tu]
  obtain ⟨b, q, eq, calm, -, -, holds⟩ := settle_sb (s := { askTranslation n va isWrite a s with
      sb := c, tu := { (askTranslation n va isWrite a s).tu with held := [] } })
    (h.calm.waits.congr rfl rfl) ⟨k1, k2, k3, rfl, k5⟩
  have walks := calm.walks (q := ⟨n, (s.chan n).space, va, isWrite⟩) (a := a) (lbStep_none (s := s) rfl h.lb) rfl
    (by simp only [withSb, askTranslation, asked]; rfl) rfl rfl
  refine ⟨_, (settle_micro hands).trans (eq.trans walks), walkBegun_walkBegin h.grant rfl rfl rfl, rfl, ?_, fun reported => ?_⟩
  · simp only [walkBegin, withSb, askTranslation, asked]
    rfl
  · exact holds _ (.inl (queued (decide_eq_true reported)))

/-! ## The line buffer -/

/-- LB, idle, has taken the request TE makes at its step `x`. -/
def lbTakes (s : State) (x : TeStep) (r : LbReq) : State :=
  { s.setTeStep x with lb := { s.lb with queue := [], current := some r } }

/-- LB, idle, takes TE's request at once (R148). -/
theorem Turn.sends (h : Turn n s) (idle : s.lbIdle) (x : TeStep) (r : LbReq) :
    settle ((s.setTeStep x).queueLb r) = settle (lbTakes s x r) ∧ Calm (lbTakes s x r)
      ∧ lbStep (lbTakes s x r) = lbAdvance r (lbTakes s x r) := by
  obtain ⟨current, queue, writing⟩ := idle
  have calm : Calm ((s.setTeStep x).queueLb r) := h.calm.congr rfl rfl rfl rfl rfl rfl
  have takes : lbStep ((s.setTeStep x).queueLb r) = some (lbTakes s x r) := by
    simp [lbStep, State.queueLb, State.setTeStep, lbTakes, current, queue]
  obtain ⟨eq, calm'⟩ := calm.lb takes
  refine ⟨eq, calm', ?_⟩
  have held : (lbTakes s x r).lb.held = [] := calm'.kept.2.2.2.2
  have writing' : (lbTakes s x r).lb.writing = none := writing
  simp [lbStep, writing', held, show (lbTakes s x r).lb.current = some r from rfl]

/-- LB has taken the element and placed it. -/
def placed (s : State) (v : BitVec 64) (pa : PAddr) (l : List LineEntry) : State :=
  { s.setTeStep (.placing v pa) with lb := { s.lb with entries := l, queue := [], current := none } }

/-- An element for which LB has room is placed at once, and counts as performed (R93, R149). -/
theorem Turn.places {v : BitVec 64} {pa : PAddr} {z : Size} {l : List LineEntry} (h : Turn n s)
    (move : (s.chan n).currentMove = some m) (idle : s.lbIdle) (room : placeElement s.lb.entries pa z v n = some l) :
    settle ((s.setTeStep (.placing v pa)).queueLb (.write pa z v n)) = settle (elementDone n m false (placed s v pa l))
      ∧ Turn n (placed s v pa l) := by
  obtain ⟨eq, calm, advance⟩ := h.sends idle (.placing v pa) (.write pa z v n)
  have step : lbStep (lbTakes s (.placing v pa) (.write pa z v n)) = some (placed s v pa l) := by
    rw [advance, lbAdvance]
    simp only [lbTakes, room, placed]
  obtain ⟨eq', calm'⟩ := calm.lb step
  have turn : Turn n (placed s v pa l) := ⟨calm', rfl, tuStep_none (s := s) rfl h.tu, h.grant, h.got⟩
  exact ⟨eq.trans (eq'.trans (turn.at_placing rfl move rfl)), turn⟩

/-! ## The source of a COPY -/

theorem valueRead_lost {v : BitVec 64} (op : m.op = .copy) (lost : m.convert v = none) (s : State) :
    valueRead n m .source v s = sliceFault n .rangeLoss (s.chan n).dstEA s := by
  simp [valueRead, op, lost]

theorem valueRead_kept {v x : BitVec 64} (op : m.op = .copy) (value : m.convert v = some x) (s : State) :
    valueRead n m .source v s = askTranslation n (s.chan n).dstEA true (.writeDest x) s := by
  simp [valueRead, op, value]

/-- The write of a COPY element whose destination is translated: to a device page after a full drain; the last element, for
which LB has room, at once (R83, R93). -/
theorem Turn.writes {x : BitVec 64} {pa : PAddr} {device direct : Bool} (h : Turn n s) (off : (s.chan n).reset = .off)
    (move : (s.chan n).currentMove = some m) (next : s.waitsAfter n m (.writeDest x) pa device) :
    ∃ t, settle (translationAnswered n m (.writeDest x) (.translated pa device direct) (served s (.writeDest x))) = t
      ∧ t.tu.req = none ∧ t.tu.cache = s.tu.cache ∧ s.goesOnWith t n m (.writeDest x) pa device := by
  have turn := turn_served h (.writeDest x)
  cases device with
  | true =>
    have idles := settle_idles
      (s := ((served s (.writeDest x)).setTeStep (.deviceDrain x pa)).queueLb .engineDrain) (turn.calm.waits.congr rfl rfl)
      (by simp [paused, served, h.grant])
    obtain ⟨-, cache, req⟩ := idles.walk rfl
    obtain ⟨l, te⟩ := idles.te
    exact ⟨_, rfl, req, cache, congrArg Engine.step te, idles.drains .engineDrain (by simp [State.lbRequests, State.queueLb]) rfl,
      idles.chan n⟩
  | false =>
    obtain ⟨idle, last, room⟩ := next.resolve_left (by simp)
    obtain ⟨l, room⟩ := Option.ne_none_iff_exists'.mp room
    obtain ⟨eq, turn'⟩ := turn.places (z := m.dst.size) move idle room
    obtain ⟨grant, ended, -, lines, walk⟩ := settle_lastElement (m := m) turn'.calm.waits off last
    obtain ⟨cache, req⟩ := walk rfl
    obtain ⟨-, -, -, performed⟩ := moveEnded_keeps (s.chan n) m false
    refine ⟨_, eq, req, cache, grant, by rw [ended], by rw [ended], ?_, ?_⟩
    · rw [ended]; exact performed
    · rw [lines rfl]; exact room

/-- Settles O42: the read's failure and its value, then what the lookup of the destination finds. -/
theorem copySourceReadGoesOn : Obligations.CopySourceReadGoesOn := by
  unfold Obligations.CopySourceReadGoesOn
  rintro n m pa resp d s c v h reading op rfl rfl
  obtain ⟨b, q, due, turn, level, queue⟩ := elementRead_acts h reading resp d
  obtain ⟨-, -, -, -, -, -, -, -, move, off, -⟩ := h
  refine ⟨fun good lost => ⟨_, due, ?_⟩, fun bad => ⟨_, due, ?_⟩, fun x good value => ?_⟩
  · rw [if_pos good]
    exact valueRead_lost op lost (teFree s b q) ▸ (settle_sliceFault turn.calm.waits off .rangeLoss _).1
  · rw [if_neg (by simp [bad])]
    exact (settle_sliceFault turn.calm.waits off .readError _).1
  · have asks : exec (.elementReadAnswer resp d) s
        = .next (settle (askTranslation n (s.chan n).dstEA true (.writeDest x) (teFree s b q))) := by
      rw [due, if_pos good]
      exact congrArg (fun u => Host.Outcome.next (settle u)) (valueRead_kept op value (teFree s b q))
    have walks : ∀ {t va a}, (teFree s b q).walkBegun t n va true a → s.walkBegun t n va true a := walkBegun_congr rfl rfl
    refine ⟨fun miss => ?_, fun w e finds ok => ⟨fun refuses => ?_, fun allows clean => ?_, fun allows known next => ?_⟩,
      fun w e finds bad room => ?_⟩
    · obtain ⟨t, eq, walk, chans, upgrade, cache⟩ := turn.walks_of_misses (w := true) (a := .writeDest x) miss
      exact ⟨t, eq ▸ asks, walks walk, upgrade, congrArg (·[n.val]) chans, cache⟩
    · exact ⟨_, asks, turn.refused off move finds ok refuses⟩
    · obtain ⟨t, eq, walk, chans, upgrade, cache⟩ := turn.upgrades (a := .writeDest x) finds ok allows clean
      exact ⟨t, eq ▸ asks, walks walk, upgrade, congrArg (·[n.val]) chans, cache⟩
    · obtain ⟨t, eq, req, cache, goes⟩ := turn.writes (direct := e.direct) off move next
      have answered := turn.translated (a := .writeDest x) move finds ok allows fun _ => known
      exact ⟨t, asks.trans (congrArg _ (answered.trans eq)), req, cache, goes⟩
    · have room' : (teFree s b q).hasRoom .tu := fun y hy => (queue y hy).elim (room y) fun te => by rw [te]; decide
      obtain ⟨t, eq, walk, chans, cache, reported⟩ :=
        turn.walks_of_failing (isWrite := true) (a := .writeDest x) finds bad room'
      exact ⟨t, eq ▸ asks, walks walk, congrArg (·[n.val]) chans, cache, fun reports => reported (level ▸ reports)⟩

end Sys2Proof.Moves
end

section
/-! SUPPORT. What TE goes on to by itself once an element of a COPY or VERIFY move is performed: the next element's source, or the
slice's end. -/

namespace Sys2Proof.Moves

open Sys2Proof Sys2Proof.Machine Sys2Proof.Laws Sys2Proof.Flow

variable {n : ChanId} {m : Move} {s t u : State} {a : Access}

/-! ## TE's step -/

/-- What TE's step with channel `n` granted can be. -/
inductive TeTurn (n : ChanId) (s : State) : State → Prop
  /-- TE stands at an element boundary (R107). -/
  | boundary (step : s.te.step = .boundary) : TeTurn n s (elementBoundary n s)
  /-- The slice's count is exhausted and the channel's reset has come (R107). -/
  | exhausted (step : s.te.step = .exhausted) : TeTurn n s (endSlice n none s)
  /-- TU has an answer (R81). -/
  | translated {a : Access} {x : TuAnswer} {m : Move} (step : s.te.step = .translating a)
      (move : (s.chan n).currentMove = some m) (stage : s.tu.stage = .reply x) : TeTurn n s (translationAnswered n m a x s)
  /-- LB has answered the line check (R82). -/
  | checked {a : Access} {pa : PAddr} {m : Move} (step : s.te.step = .lineCheck a pa)
      (move : (s.chan n).currentMove = some m) : TeTurn n s (issueRead m a pa s)
  /-- LB has placed the element (R93). -/
  | placed {v : BitVec 64} {pa : PAddr} {m : Move} (step : s.te.step = .placing v pa)
      (move : (s.chan n).currentMove = some m) : TeTurn n s (elementDone n m false s)
  /-- MP's answer is in hand (R82, R84). -/
  | answered {g : Got 64} {m : Move} (port : s.te.step.awaitsPort = true) (got : s.te.got = some g)
      (move : (s.chan n).currentMove = some m) : TeTurn n s (teAnswered n m g s)

theorem teTurn_of_teStep (h : teStep s = some t) : ∃ n, s.te.grant = some n ∧ TeTurn n s t := by
  unfold teStep at h
  split at h
  · rename_i n grant _
    refine ⟨n, grant, ?_⟩
    split at h
    · rename_i step
      cases h
      exact .boundary step
    · rename_i step
      split at h
      · cases h
        exact .exhausted step
      · cases h
    · rename_i step move
      split at h
      · rename_i stage _
        cases h
        exact .translated step move stage
      · cases h
    · rename_i step move
      split at h
      · cases h
      · cases h
        exact .checked step move
    · rename_i step move
      split at h
      · cases h
      · cases h
        exact .placed step move
    · rename_i step got move
      cases h
      exact .answered (by rw [step]; rfl) got move
    · rename_i step got move
      cases h
      exact .answered (by rw [step]; rfl) got move
    · cases h
  · cases h

/-! ## What TE does on the way to the source of the next element -/

/-- The steps at which TE stands before it has the next element's source. -/
def towardsSource : TeStep → Bool
  | .boundary | .exhausted | .translating .source | .lineCheck .source _ | .reading .source _ => true
  | _ => false

/-- A step of TE on the way to the source. -/
inductive SourceStep (n : ChanId) (m : Move) (s : State) : State → Prop
  /-- The slice ends at a boundary, or with its count (R103, R107). -/
  | ends : SourceStep n m s (endSlice n none s)
  /-- The beginning of the move faults (R77). -/
  | refused (code : FaultCode) (va : VAddr) : SourceStep n m s (sliceFault n code va s)
  /-- The move begins and its element 0 faults (R74, R79). -/
  | beginFaults (first : (s.chan n).firstFlag = true) (code : FaultCode) (va : VAddr) :
      SourceStep n m s (sliceFault n code va (s.setChan n (begun (s.chan n) m none)))
  /-- The move begins with the source of element 0 (R74). -/
  | beginAsks (first : (s.chan n).firstFlag = true) (va : VAddr) :
      SourceStep n m s (askTranslation n va false .source (s.setChan n (begun (s.chan n) m none)))
  /-- The source of the next element is asked for (R80). -/
  | asks (va : VAddr) : SourceStep n m s (askTranslation n va false .source s)
  /-- TU's answer is a fault (R81). -/
  | answerFaults (code : FaultCode) (va : VAddr) (v : TransUnit) : SourceStep n m s (sliceFault n code va { s with tu := v })
  /-- LB is asked to check the source's line (R82). -/
  | checks (pa : PAddr) (v : TransUnit) :
      SourceStep n m s ((({ s with tu := v } : State).setTeStep (.lineCheck .source pa)).queueLb (.check pa))
  /-- The source is read (R82). -/
  | reads (pa : PAddr) : SourceStep n m s (issueRead m .source pa s)

theorem startElement_cases (op : m.op ≠ .fill) (n : ChanId) (s : State) :
    startElement n m s = askTranslation n (s.chan n).srcEA false .source s
      ∨ ∃ va, startElement n m s = sliceFault n .alignment va s := by
  cases src : m.src.size.aligned (s.chan n).srcEA with
  | false => exact .inr ⟨_, startElement_of_src n s op src⟩
  | true =>
    cases dst : m.dst.size.aligned (s.chan n).dstEA with
    | false => exact .inr ⟨_, startElement_of_dst n s (.inr src) dst⟩
    | true => exact .inl (startElement_reads n s op src dst)

/-- At an element boundary the slice ends, the move begins, or its next element starts (R107). -/
theorem sourceStep_elementBoundary (move : (s.chan n).currentMove = some m) (op : m.op ≠ .fill) :
    SourceStep n m s (elementBoundary n s) := by
  simp only [elementBoundary, move]
  split_ifs with reset first
  · exact .ends
  · cases form : m.badForm with
    | true => exact beginMove_bad n s form ▸ .refused _ _
    | false =>
      rw [beginMove_reads n s form op, moveBegun_eq]
      rcases startElement_cases op n (s.setChan n (begun (s.chan n) m none)) with e | ⟨va, e⟩ <;> rw [e]
      · exact .beginAsks first _
      · exact .beginFaults first _ _
  · rcases startElement_cases op n s with e | ⟨va, e⟩ <;> rw [e]
    · exact .asks _
    · exact .refused _ _

/-- The one access whose translation or line check TE then awaits is the source's. -/
theorem eq_source_of_translating (h : towardsSource (.translating a) = true) : a = .source := by
  cases a with
  | source => rfl
  | fillSource | verifyDest | writeDest => cases h

theorem eq_source_of_lineCheck {pa : PAddr} (h : towardsSource (.lineCheck a pa) = true) : a = .source := by
  cases a with
  | source => rfl
  | fillSource | verifyDest | writeDest => cases h

/-- TE's step on the way to the source. -/
theorem TeTurn.sourceStep (h : TeTurn n s t) (got : s.te.got = none) (move : (s.chan n).currentMove = some m)
    (op : m.op ≠ .fill) (step : towardsSource s.te.step = true) : SourceStep n m s t := by
  cases h with
  | boundary => exact sourceStep_elementBoundary move op
  | exhausted => exact .ends
  | @translated a x m' hstep move' =>
    obtain rfl : m = m' := Option.some.inj (move.symm.trans move')
    obtain rfl := eq_source_of_translating (hstep ▸ step)
    cases x with
    | fault code => exact .answerFaults _ _ _
    | translated pa device direct => exact .checks _ _
  | @checked a pa m' hstep move' =>
    obtain rfl : m = m' := Option.some.inj (move.symm.trans move')
    obtain rfl := eq_source_of_lineCheck (hstep ▸ step)
    exact .reads _
  | placed hstep => rw [hstep] at step; cases step
  | answered _ has => rw [got] at has; cases has

/-! ## Onward -/

/-- The request places an element. -/
def places : LbReq → Bool
  | .write _ _ _ _ => true
  | _ => false

/-- LB has no element to place. -/
def placesNone (s : State) : Prop := ∀ r ∈ s.lbRequests, places r = false

theorem lbStep_placesNone (h : lbStep s = some t) (none : placesNone s) :
    placesNone t ∧ t.lb.entries = s.lb.entries := by
  rcases lbStep_cases h with ⟨x, q, hc, hq, rfl⟩ | ⟨x, hc, ⟨l, hx, rfl, kept⟩ | ⟨e, rfl⟩⟩
  · exact ⟨fun r hr => none r (by simpa [State.lbRequests, hc, hq] using hr), rfl⟩
  · refine ⟨fun r hr => none r (by simp_all [State.lbRequests]), ?_⟩
    have quiet := none x (by simp [State.lbRequests, hc])
    cases x with
    | write pa z v k => cases quiet
    | check pa => exact kept pa rfl
    | drain k | engineDrain | softDrain => cases hx
  · exact ⟨none, rfl⟩

/-- From `s` to `t` TE, with an element of the move `m` of channel `n` performed, has gone no further than the next element's
source. -/
structure Onward (n : ChanId) (m : Move) (s t : State) : Prop where
  fu : t.fu = s.fu
  su : t.su = s.su
  te : t.te.grant = none ∨ t.te.grant = some n ∧ t.te.got = none ∧ (t.chan n).currentMove = some m
    ∧ towardsSource t.te.step = true
  performed : (t.chan n).performed = (s.chan n).performed
  progress : (s.chan n).firstFlag = false → progressOf (t.chan n) = progressOf (s.chan n)
  lines : placesNone s → placesNone t ∧ t.lb.entries = s.lb.entries

namespace Onward

theorem waits (h : Onward n m s t) (w : Waits s) : Waits t := w.congr h.fu h.su

/-- FU, SU and the channels alone tell, with TE and LB as they are. -/
theorem congr (h : Onward n m s t) (fu : u.fu = t.fu) (su : u.su = t.su) (chan : u.chan n = t.chan n)
    (grant : u.te.grant = t.te.grant) (got : u.te.got = t.te.got) (step : u.te.step = t.te.step)
    (lines : placesNone t → placesNone u ∧ u.lb.entries = t.lb.entries) : Onward n m s u where
  fu := fu.trans h.fu
  su := su.trans h.su
  te := by rw [grant, got, step, chan]; exact h.te
  performed := by rw [chan]; exact h.performed
  progress first := by rw [chan]; exact h.progress first
  lines none := by
    obtain ⟨none', entries⟩ := h.lines none
    obtain ⟨none'', entries'⟩ := lines none'
    exact ⟨none'', entries'.trans entries⟩

/-- The end of the slice. -/
theorem ends (h : Onward n m s t) (f : Option (FaultCode × VAddr)) : Onward n m s (endSlice n f t) := by
  have e := sliceEnd_endSlice n f t
  obtain ⟨l, lb, drains⟩ := e.lb
  refine ⟨e.fu.trans h.fu, e.su.trans h.su, .inl (by rw [e.te]; rfl), ?_, fun first => e.progress.trans (h.progress first),
    fun none => ?_⟩
  · exact (congrArg (fun p => p.2.2.2.2.2.2.1) e.progress).trans h.performed
  · obtain ⟨none', entries⟩ := h.lines none
    refine ⟨fun r hr => ?_, by rw [lb]; exact entries⟩
    simp only [State.lbRequests, lb, ← List.append_assoc, List.mem_append] at hr
    rcases hr with hr | hr
    · exact none' r (by simpa [State.lbRequests] using hr)
    · rw [drains r hr]; rfl

/-- The move begins: its addresses and its flag are set, which they are only where the flag asks for it. -/
theorem begins (h : Onward n m s t) (grant : t.te.grant = some n) (first : (t.chan n).firstFlag = true) :
    Onward n m s (t.setChan n (begun (t.chan n) m none)) := by
  have chan : (t.setChan n (begun (t.chan n) m none)).chan n = begun (t.chan n) m none := chan_setChan _ _ _
  refine ⟨h.fu, h.su, ?_, by rw [chan]; exact h.performed, fun unset => ?_, h.lines⟩
  · obtain ⟨-, got, move, step⟩ := h.te.resolve_left (by simp [grant])
    exact .inr ⟨grant, got, by rw [chan]; exact move, step⟩
  · have same : (t.chan n).firstFlag = (s.chan n).firstFlag := congrArg (fun p => p.2.2.2.2.2.1) (h.progress unset)
    rw [first, unset] at same
    cases same

/-- TE asks for the source. -/
theorem asks (h : Onward n m s t) (grant : t.te.grant = some n) (va : VAddr) :
    Onward n m s (askTranslation n va false .source t) := by
  obtain ⟨-, got, move, -⟩ := h.te.resolve_left (by simp [grant])
  exact ⟨h.fu, h.su, .inr ⟨grant, got, move, rfl⟩, h.performed, h.progress, h.lines⟩

theorem te_step (h : Onward n m s t) (op : m.op ≠ .fill) (step : teStep t = some u) : Onward n m s u := by
  obtain ⟨k, grant, turn⟩ := teTurn_of_teStep step
  obtain ⟨grant', got, move, towards⟩ := h.te.resolve_left (by simp [grant])
  obtain rfl : n = k := Option.some.inj (grant'.symm.trans grant)
  cases turn.sourceStep got move op towards with
  | ends => exact h.ends none
  | refused code va => exact h.ends _
  | beginFaults first code va => exact (h.begins grant first).ends _
  | beginAsks first va => exact (h.begins grant first).asks grant va
  | asks va => exact h.asks grant va
  | answerFaults code va v =>
    exact (h.congr (u := { t with tu := v }) rfl rfl rfl rfl rfl rfl fun none => ⟨none, rfl⟩).ends _
  | checks pa v =>
    refine ⟨h.fu, h.su, .inr ⟨grant, got, move, rfl⟩, h.performed, h.progress, fun none => ?_⟩
    obtain ⟨none', entries⟩ := h.lines none
    refine ⟨fun r hr => ?_, entries⟩
    have cases' : r ∈ t.lbRequests ∨ r = .check pa := by
      simpa [State.lbRequests, State.queueLb, State.setTeStep, or_assoc] using hr
    rcases cases' with hr | rfl
    · exact none' r hr
    · rfl
  | reads pa => exact ⟨h.fu, h.su, .inr ⟨grant, got, move, rfl⟩, h.performed, h.progress, h.lines⟩

theorem micro_step (h : Onward n m s t) (w : Waits s) (op : m.op ≠ .fill) (step : micro t = some u) : Onward n m s u := by
  rcases (h.waits w).micro_cases step with ⟨b, q, te, tu, lb, rfl, -⟩ | step | step | step
  · exact h.congr rfl rfl rfl rfl rfl rfl fun none => ⟨none, rfl⟩
  · have lines := lbStep_placesNone step
    obtain ⟨b, q, rfl, -⟩ := lbStep_frame step
    exact h.congr rfl rfl rfl rfl rfl rfl lines
  · obtain ⟨b, q, rfl, -⟩ := tuStep_frame step
    exact h.congr rfl rfl rfl rfl rfl rfl fun none => ⟨none, rfl⟩
  · exact h.te_step op step

/-- When the part has settled the performed element is still the last one. -/
theorem settles (w : Waits s) (op : m.op ≠ .fill) (h : Onward n m s s) : Onward n m s (settle s) :=
  settle_induct (Onward n m s) (fun _ _ h step => h.micro_step w op step) h

end Onward

/-- An element that does not end its move is counted in its channel, whatever TE does next (R93). -/
theorem chan_elementDone (goes : (s.chan n).remaining - 1 ≠ 0) :
    (elementDone n m false s).chan n = (s.chan n).performedElement m false := by
  rw [elementDone_counts goes]
  exact chan_counted n m false s

/-- After an element that does not end its move TE goes no further than the next element's source. -/
theorem Turn.onward (h : Turn n s) (move : (s.chan n).currentMove = some m) (goes : (s.chan n).remaining - 1 ≠ 0)
    (op : m.op ≠ .fill) : Onward n m (elementDone n m false s) (settle (elementDone n m false s)) := by
  have waits : Waits (elementDone n m false s) := by
    rw [elementDone_counts goes]
    exact h.calm.waits.congr rfl rfl
  refine .settles waits op ⟨rfl, rfl, .inr ⟨?_, ?_, ?_, ?_⟩, rfl, fun _ => rfl, fun none => ⟨none, rfl⟩⟩
  · rw [elementDone_counts goes]; exact h.grant
  · rw [elementDone_counts goes]; exact h.got
  · rw [chan_elementDone goes]; exact move
  · rw [elementDone_counts goes]
    simp only [State.setTeStep]
    split_ifs <;> rfl

/-- TE waits for the slice's end unless the channel's reset has come (R107). -/
theorem teStep_of_exhausted (grant : s.te.grant = some n) (step : s.te.step = .exhausted) (off : (s.chan n).reset = .off) :
    teStep s = none := by
  unfold teStep
  rw [grant, step]
  split <;> simp_all

/-- With the slice's count exhausted TE waits for the slice's end (R103). -/
theorem Turn.exhausts (h : Turn n s) (off : (s.chan n).reset = .off) (goes : (s.chan n).remaining - 1 ≠ 0)
    (count : s.te.counter = 15) :
    settle (elementDone n m false s) = (counted n m false s).setTeStep .exhausted := by
  have done : elementDone n m false s = (counted n m false s).setTeStep .exhausted := by
    rw [elementDone_counts goes, count]; rfl
  have calm : Calm ((counted n m false s).setTeStep .exhausted) := h.calm.congr rfl rfl rfl rfl rfl rfl
  rw [done]
  have chan : ((counted n m false s).setTeStep .exhausted).chan n = (s.chan n).performedElement m false :=
    chan_counted n m false s
  exact calm.rest (lbStep_none (s := s) rfl h.lb) (tuStep_none (s := s) rfl h.tu)
    (teStep_of_exhausted h.grant rfl (by rw [chan]; exact off))

/-- Settles O44: the answer performs the element, which ends its move, is counted, or is the slice's sixteenth; ERROR faults. -/
theorem deviceWriteAnswerEndsElement : Obligations.DeviceWriteAnswerEndsElement := by
  unfold Obligations.DeviceWriteAnswerEndsElement
  intro n m v pa s h writing
  obtain ⟨b, q, done, turn⟩ := deviceWrite_acts h writing .okay
  obtain ⟨b', q', failed, turn'⟩ := deviceWrite_acts h writing .error
  rw [if_pos (by decide)] at done
  rw [if_neg (by decide)] at failed
  obtain ⟨-, -, -, -, -, -, -, -, move, off, -⟩ := h
  refine ⟨fun last => ?_, fun more _ op first => ?_, fun more count => ?_, ?_⟩
  · obtain ⟨grant, ended, drain, -⟩ := settle_lastElement (m := m) turn.calm.waits off last
    obtain ⟨-, -, -, performed⟩ := moveEnded_keeps (s.chan n) m false
    refine ⟨_, done, grant, ?_, ?_, ?_, ?_, drain⟩ <;> rw [ended]
    exact performed
  · have goes : (s.chan n).remaining - 1 ≠ 0 := by omega
    have chan : (elementDone n m false (teFree s b q)).chan n = (s.chan n).performedElement m false :=
      chan_elementDone (s := teFree s b q) goes
    have progress := (turn.onward move goes op).progress (by rw [chan]; exact first)
    rw [chan] at progress
    simp only [progressOf, Channel.performedElement, Prod.mk.injEq] at progress
    obtain ⟨-, index, remaining, src, dst, -, performed, cursors, mismatch⟩ := progress
    refine ⟨_, done, performed, remaining, ?_, dst, index, cursors, mismatch⟩
    simpa [op] using src
  · have goes : (s.chan n).remaining - 1 ≠ 0 := by omega
    rw [turn.exhausts off goes count] at done
    refine ⟨_, done, turn.grant, rfl, ?_, ?_⟩
    · simp [State.setTeStep, counted, teFree, count]
    · have chan : ((counted n m false (teFree s b q)).setTeStep .exhausted).chan n = (s.chan n).performedElement m false :=
        chan_counted n m false (teFree s b q)
      simpa [Channel.performedElement] using chan
  · exact ⟨_, failed, (settle_sliceFault turn'.calm.waits off .writeError _).1⟩

end Sys2Proof.Moves
end

section
/-! SUPPORT. What TE does leaves FU and SU alone, and an empty cache empty (R113, R137). -/

namespace Sys2Proof.Moves

open Sys2Proof Sys2Proof.Machine Sys2Proof.Laws Sys2Proof.Flow Sys2Proof.Commands

variable {n : ChanId} {m : Move} {s t u : State}

/-! ## An empty cache -/

/-- No entry of TU's cache is valid, and TU has no answer in hand for a walk. -/
def Emptied (u : TransUnit) : Prop := (∀ i : Fin 32, u.cache[i] = CacheSet.invalid) ∧ (u.req = none ∨ u.got = none)

/-- TU, asked, misses: no entry comes to be valid. -/
theorem emptied_ask {u : TransUnit} (h : Emptied u) (q : TuReq) : Emptied (u.ask q) := by
  obtain ⟨invalid, -⟩ := h
  have miss : u.cache[q.set].lookup q.space q.va = ⟨u.cache[q.set], 0, none⟩ :=
    lookup_of_miss (by rw [invalid]; rfl) (by rw [invalid]; rfl)
  rw [ask_of_kept miss]
  exact ⟨invalid, .inr rfl⟩

/-! ## TE's reach -/

/-- From `s` to `t` FU and SU have stayed as they were, and TU's cache, if empty, empty. -/
structure Confined (s t : State) : Prop where
  fu : t.fu = s.fu
  su : t.su = s.su
  tu : Emptied s.tu → Emptied t.tu

namespace Confined

theorem of_eq (fu : t.fu = s.fu) (su : t.su = s.su) (tu : t.tu = s.tu) : Confined s t :=
  ⟨fu, su, fun h => by rw [tu]; exact h⟩

theorem trans (a : Confined s t) (b : Confined t u) : Confined s u :=
  ⟨b.fu.trans a.fu, b.su.trans a.su, fun h => b.tu (a.tu h)⟩

theorem endSlice (n : ChanId) (f : Option (FaultCode × VAddr)) (s : State) : Confined s (endSlice n f s) :=
  have ends := sliceEnd_endSlice n f s
  .of_eq ends.fu ends.su ends.tu

theorem askTranslation (n : ChanId) (va : VAddr) (w : Bool) (a : Access) (s : State) :
    Confined s (askTranslation n va w a s) :=
  ⟨rfl, rfl, fun h => emptied_ask h _⟩

theorem startElement (n : ChanId) (m : Move) (s : State) : Confined s (startElement n m s) := by
  unfold Machine.startElement
  dsimp only
  split
  · exact .endSlice ..
  · split
    · exact .endSlice ..
    · split <;> exact .askTranslation ..

theorem moveBegun (n : ChanId) (m : Move) (v : Option (BitVec 64)) (s : State) : Confined s (moveBegun n m v s) :=
  (of_eq rfl rfl rfl : Confined s (s.setChan n (begun (s.chan n) m v))).trans (.startElement ..)

theorem takeFill (n : ChanId) (m : Move) (v : BitVec 64) (s : State) : Confined s (takeFill n m v s) := by
  unfold Machine.takeFill
  split
  · exact .endSlice ..
  · exact .moveBegun ..

theorem beginMove (n : ChanId) (m : Move) (s : State) : Confined s (beginMove n m s) := by
  unfold Machine.beginMove
  dsimp only
  split
  · exact .endSlice ..
  · split
    · exact .moveBegun ..
    · exact .moveBegun ..
    · split
      · exact .takeFill ..
      · split
        · exact .askTranslation ..
        · exact .endSlice ..

theorem elementBoundary (n : ChanId) (s : State) : Confined s (elementBoundary n s) := by
  unfold Machine.elementBoundary
  dsimp only
  split
  · exact .endSlice ..
  · split
    · exact .endSlice ..
    · split
      · exact .beginMove ..
      · exact .startElement ..

theorem elementDone (n : ChanId) (m : Move) (x : Bool) (s : State) : Confined s (elementDone n m x s) := by
  have counts : ∀ c, Confined s ((counted n m x s).setChan n c) := fun _ => .of_eq rfl rfl rfl
  rcases elementDone_cases n m x s with e | ⟨y, e, -⟩ <;> rw [e]
  · exact (counts _).trans (.endSlice ..)
  · exact .of_eq rfl rfl rfl

theorem translationAnswered (n : ChanId) (m : Move) (a : Access) (x : TuAnswer) (s : State) :
    Confined s (translationAnswered n m a x s) := by
  have freed : Confined s ({ s with
      tu := { s.tu with req := none, stage := .idle, root := none, descriptor := none, pageEntry := none } } : State) :=
    ⟨rfl, rfl, fun h => ⟨h.1, .inl rfl⟩⟩
  cases x with
  | fault code => exact freed.trans (.endSlice n (some (code, a.va m (s.chan n))) _)
  | translated pa device direct =>
    cases a with
    | writeDest v => cases device <;> exact freed.trans (.of_eq rfl rfl rfl)
    | fillSource | source | verifyDest => exact freed.trans (.of_eq rfl rfl rfl)

theorem valueRead (n : ChanId) (m : Move) (a : Access) (v : BitVec 64) (s : State) : Confined s (valueRead n m a v s) := by
  cases a with
  | fillSource => exact .takeFill ..
  | source =>
    simp only [Machine.valueRead]
    split
    · exact .askTranslation ..
    all_goals
      split
      · exact .endSlice ..
      · exact .askTranslation ..
  | verifyDest w => exact .elementDone ..
  | writeDest w => exact .of_eq rfl rfl rfl

theorem teAnswered (n : ChanId) (m : Move) (g : Got 64) (s : State) : Confined s (teAnswered n m g s) := by
  have taken : Confined s ({ s with te := { s.te with got := none } } : State) := .of_eq rfl rfl rfl
  refine taken.trans ?_
  unfold Machine.teAnswered
  dsimp only
  split
  · split
    · exact .valueRead ..
    · exact .endSlice ..
  · split
    · exact .elementDone ..
    · exact .endSlice ..
  · exact .of_eq rfl rfl rfl

/-- Whatever TE's step is. -/
theorem teStep (h : teStep s = some t) : Confined s t := by
  obtain ⟨n, -, turn⟩ := teTurn_of_teStep h
  cases turn with
  | boundary => exact .elementBoundary ..
  | exhausted => exact .endSlice ..
  | translated => exact .translationAnswered ..
  | checked => exact .of_eq rfl rfl rfl
  | placed => exact .elementDone ..
  | answered => exact .teAnswered ..

end Confined

/-- What the soft reset's drain has cleared stays clear while FU and SU wait (R146, R189). -/
structure Cleared (s : State) : Prop where
  waits : Waits s
  tu : Emptied s.tu
  soft : s.soft = .clearing
  rotor : s.te.rotor = 15
  alerts : s.rp.alerts = []

theorem Cleared.micro_step (h : Cleared s) (step : micro s = some t) : Cleared t := by
  rcases h.waits.micro_cases step with ⟨b, q, te, tu, lb, rfl, -⟩ | step | step | step
  · exact ⟨h.waits.congr rfl rfl, h.tu, h.soft, h.rotor, h.alerts⟩
  · obtain ⟨b, q, rfl, -⟩ := lbStep_frame step
    exact ⟨h.waits.congr rfl rfl, h.tu, h.soft, h.rotor, h.alerts⟩
  · rcases h.tu.2 with req | got
    · rw [tuStep, req] at step; cases step
    · obtain ⟨q, -, rfl⟩ := tuStep_begins step got
      exact ⟨h.waits.congr rfl rfl, ⟨h.tu.1, .inr got⟩, h.soft, h.rotor, h.alerts⟩
  · have confined := Confined.teStep step
    obtain ⟨n, -, engages⟩ := teStep_engages step
    exact ⟨h.waits.congr confined.fu confined.su, confined.tu h.tu, engages.soft.trans h.soft,
      engages.rotor.trans h.rotor, by rw [rp_teStep step]; exact h.alerts⟩

theorem Cleared.settles (h : Cleared s) : Cleared (settle s) :=
  settle_induct Cleared (fun _ _ h step => h.micro_step step) h

/-! ## A full drain answered -/

/-- A settled TU with an answer in hand has no request. -/
theorem tu_of_settled (h : s.isSettled) (k : s.noneKept) : s.tu.req = none ∨ s.tu.got = none := by
  obtain ⟨-, -, -, -, -, -, -, -, -, tu, -⟩ := (settled_iff s).mp h
  obtain ⟨-, -, -, held, -⟩ := k
  unfold tuStep at tu
  cases hr : s.tu.req with
  | none => exact .inl rfl
  | some q =>
    cases hg : s.tu.got with
    | none => exact .inr rfl
    | some g => simp [hr, hg, held] at tu

theorem engineDrained_purges (grant : s.te.grant = some n) (step : s.te.step = .purgeDrain) :
    engineDrained s = purgeEnds n s := by
  simp [engineDrained, grant, step]

theorem engineDrained_writes {v : BitVec 64} {pa : PAddr} (grant : s.te.grant = some n)
    (step : s.te.step = .deviceDrain v pa) (move : (s.chan n).currentMove = some m) :
    engineDrained s = issueDeviceWrite m v pa s := by
  simp [engineDrained, grant, step, move]

/-- Settles O52: a purge slice ends, a device write is issued, and a soft reset clears the cache, ROTOR and the alerts. -/
theorem fullDrainAnswered : Obligations.FullDrainAnswered := by
  unfold Obligations.FullDrainAnswered
  intro s hs kept
  have waits : Waits s.lbFree := (Waits.of_settled hs kept).congr rfl rfl
  refine ⟨fun n current drained grant step off stop mark _ _ _ => ?_, fun n m v pa current drained grant step move got => ?_,
    fun current drained soft => ?_⟩
  · have chan : (s.lbFree.modChan n fun c => { c with phase := .drain }).chan n = { s.chan n with phase := .drain } :=
      chan_modChan _ _ _
    obtain ⟨grant', ends, drain, -⟩ := settle_endSlice_finishes (n := n)
      (s := s.lbFree.modChan n fun c => { c with phase := .drain }) (waits.congr rfl rfl) (by rw [chan]; exact off)
      (by rw [chan]; exact mark) (by rw [chan]; exact stop) (by rw [chan])
    have answered : exec .fullDrainComplete s = .next (settle (purgeEnds n s.lbFree)) := by
      have purges := engineDrained_purges (s := s.lbFree) grant step
      simp [exec, execFullDrainComplete, current, drained, purges, settled]
    exact ⟨_, answered, grant', ends.trans (by rw [chan]), drain⟩
  · have idles := settle_idles (s := issueDeviceWrite m v pa s.lbFree) (waits.congr rfl rfl)
      (by simp [paused, issueDeviceWrite, State.setTeStep, State.lbFree, grant, got])
    obtain ⟨l, te⟩ := idles.te
    have answered : exec .fullDrainComplete s = .next (settle (issueDeviceWrite m v pa s.lbFree)) := by
      have writes := engineDrained_writes (s := s.lbFree) grant step move
      simp [exec, execFullDrainComplete, current, drained, writes, settled]
    exact ⟨_, answered, congrArg Engine.step te, idles.asks⟩
  · have cleared : Cleared (softDrained s.lbFree) := by
      refine ⟨waits.congr rfl rfl, ⟨fun i => ?_, tu_of_settled (s := s) hs kept⟩, rfl, rfl, rfl⟩
      simp [softDrained]
    have done := cleared.settles
    have answered : exec .fullDrainComplete s = .next (settle (softDrained s.lbFree)) := by
      simp [exec, execFullDrainComplete, current, drained, soft, settled]
    exact ⟨_, answered, done.soft, done.rotor, done.alerts, done.tu.1⟩

end Sys2Proof.Moves
end

section
/-! SUPPORT. The line buffer's entries: where an element is placed, and its bytes within the line (R149). -/

namespace Sys2Proof.Moves

open Sys2Proof Sys2Proof.Machine Sys2Proof.Laws

variable {l : List LineEntry} {pa : PAddr} {z : Size} {v : BitVec 64} {n : ChanId}

/-! ## Placing an element -/

theorem mergeInto_of_others (others : ∀ x ∈ l, x.line ≠ lineOf pa) : mergeInto l pa z v n = l := by
  have same : ∀ x ∈ l, (if x.line == lineOf pa then x.merge pa z v n else x) = id x := fun x hx => by
    simp [others x hx]
  rw [mergeInto, List.map_congr_left same, List.map_id]

/-- An element whose line LB holds is merged into the line's one entry, in place. -/
theorem placeElement_of_held {pre post : List LineEntry} {e : LineEntry} (line : e.line = lineOf pa)
    (others : ∀ x ∈ pre ++ post, x.line ≠ e.line) :
    placeElement (pre ++ e :: post) pa z v n = some (pre ++ e.merge pa z v n :: post) := by
  rw [line] at others
  have before := mergeInto_of_others (z := z) (v := v) (n := n) fun x hx => others x (List.mem_append_left _ hx)
  have after := mergeInto_of_others (z := z) (v := v) (n := n) fun x hx => others x (List.mem_append_right _ hx)
  have held : (pre ++ e :: post).any (·.line == lineOf pa) = true := by simp [line]
  rw [placeElement, if_pos held]
  simp only [mergeInto, List.map_append, List.map_cons] at before after ⊢
  simp only [before, after, line, beq_self_eq_true, if_true]

/-- No entry holds the element's line. -/
theorem any_of_others (others : ∀ x ∈ l, x.line ≠ lineOf pa) : ¬ l.any (·.line == lineOf pa) = true := by
  simpa using others

theorem placeElement_of_room (others : ∀ x ∈ l, x.line ≠ lineOf pa) (room : l.length < 8) :
    placeElement l pa z v n = some (l ++ [.fresh pa z v n]) := by
  rw [placeElement, if_neg (any_of_others others), if_pos (show l.length < Config.lineEntries from room)]

theorem placeElement_of_full (others : ∀ x ∈ l, x.line ≠ lineOf pa) (full : 8 ≤ l.length) :
    placeElement l pa z v n = none := by
  rw [placeElement, if_neg (any_of_others others), if_neg (Nat.not_lt.mpr (show Config.lineEntries ≤ l.length from full))]

/-! ## The bytes of an element -/

/-- Byte `i` of the line is one of the element's. -/
def covers (pa : PAddr) (z : Size) (i : Nat) : Bool := decide (lineOffset pa ≤ i ∧ i < lineOffset pa + z.bytes)

theorem covers_iff {i : Nat} : covers pa z i = true ↔ pa.toNat % 64 ≤ i ∧ i < pa.toNat % 64 + z.bytes := decide_eq_true_iff

theorem getLsbD_elementMask {i : Nat} (h : i < 64) : (elementMask pa z).getLsbD i = covers pa z i := by
  rw [elementMask, Size.strobes, BitVec.getLsbD_shiftLeft, BitVec.getLsbD_ofNat, Nat.testBit_two_pow_sub_one, covers,
    Bool.eq_iff_iff]
  simp only [h, decide_true, Bool.true_and, Bool.and_eq_true, Bool.not_eq_true', decide_eq_true_eq,
    decide_eq_false_iff_not]
  omega

/-- A bit of byte `i` is one of the element's if the byte is. -/
theorem getLsbD_elementBits {i k : Nat} (h : i < 64) (hk : k < 8) :
    (elementBits pa z).getLsbD (8 * i + k) = covers pa z i := by
  rw [elementBits, BitVec.getLsbD_shiftLeft, BitVec.getLsbD_ofNat, Nat.testBit_two_pow_sub_one, covers,
    Bool.eq_iff_iff]
  simp only [Bool.and_eq_true, Bool.not_eq_true', decide_eq_true_eq, decide_eq_false_iff_not]
  omega

theorem getLsbD_low (z : Size) (v : BitVec 64) (j : Nat) :
    (z.low v).getLsbD j = (decide (j < 8 * z.bytes) && v.getLsbD j) := by
  rw [Size.low, BitVec.getLsbD_ofNat, Nat.testBit_mod_two_pow, ← BitVec.getLsbD]
  cases h : v.getLsbD j with
  | false => simp
  | true => simp [BitVec.lt_of_getLsbD h]

theorem getLsbD_byteAt {w : Nat} (d : BitVec w) (i : Nat) {k : Nat} (hk : k < 8) :
    (byteAt d i).getLsbD k = d.getLsbD (8 * i + k) := by
  simp [byteAt, hk]

/-- The value's bytes stand at the element's place in the line, and nothing beside them. -/
theorem getLsbD_elementData {i k : Nat} (h : i < 64) (hk : k < 8) :
    (elementData pa z v).getLsbD (8 * i + k) = (covers pa z i && (byteAt v (i - lineOffset pa)).getLsbD k) := by
  rw [elementData, BitVec.getLsbD_shiftLeft, BitVec.getLsbD_setWidth, getLsbD_low, getLsbD_byteAt _ _ hk, covers]
  by_cases low : lineOffset pa ≤ i
  · have place : 8 * i + k - 8 * lineOffset pa = 8 * (i - lineOffset pa) + k := by omega
    rw [place]
    have inside : 8 * (i - lineOffset pa) + k < 8 * z.bytes ↔ lineOffset pa ≤ i ∧ i < lineOffset pa + z.bytes := by omega
    have line : 8 * i + k < 512 := by omega
    have above : ¬ 8 * i + k < 8 * lineOffset pa := by omega
    have value : 8 * (i - lineOffset pa) + k < 512 := by omega
    simp only [inside, line, above, value, decide_true, decide_false, Bool.not_false, Bool.true_and]
  · have below : 8 * i + k < 8 * lineOffset pa := by omega
    simp [low, below]

theorem byteAt_elementData {i : Nat} (h : i < 64) :
    byteAt (elementData pa z v) i = if covers pa z i then byteAt v (i - lineOffset pa) else 0 := by
  refine BitVec.eq_of_getLsbD_eq fun k hk => ?_
  rw [getLsbD_byteAt _ _ hk, getLsbD_elementData h hk]
  split <;> simp_all

/-- Merging changes the element's bytes only. -/
theorem byteAt_merge (e : LineEntry) {i : Nat} (h : i < 64) :
    byteAt (e.merge pa z v n).data i = if covers pa z i then byteAt v (i - lineOffset pa) else byteAt e.data i := by
  refine BitVec.eq_of_getLsbD_eq fun k hk => ?_
  have inside : 8 * i + k < 512 := by omega
  rw [getLsbD_byteAt _ _ hk, LineEntry.merge, BitVec.getLsbD_or, BitVec.getLsbD_and, BitVec.getLsbD_not,
    getLsbD_elementBits h hk, getLsbD_elementData h hk]
  cases hc : covers pa z i with
  | false => simp [inside, getLsbD_byteAt _ _ hk]
  | true => simp

theorem getLsbD_mask_merge (e : LineEntry) {i : Nat} (h : i < 64) :
    (e.merge pa z v n).mask.getLsbD i = (e.mask.getLsbD i || covers pa z i) := by
  rw [LineEntry.merge, BitVec.getLsbD_or, getLsbD_elementMask h]

end Sys2Proof.Moves
end

section
/-! SUPPORT. What LB does at once with TE's request: it evicts its oldest line, or writes out the line TE is to read (R82, R149,
R152). -/

namespace Sys2Proof.Moves

open Sys2Proof Sys2Proof.Machine Sys2Proof.Laws

variable {n : ChanId} {m : Move} {s : State} {e : LineEntry} {pa : PAddr} {z : Size} {v : BitVec 64} {a : Access}

/-- A request of TE's for which LB first writes a line out: TE waits. -/
theorem Turn.sends_waits {x : TeStep} {r : LbReq} (h : Turn n s) (idle : s.lbIdle) (own : r.fromEngine = true)
    (wait : x = .placing v pa ∨ x = .lineCheck a pa) (out : lbAdvance r (lbTakes s x r) = some (writeOut e (lbTakes s x r))) :
    settle ((s.setTeStep x).queueLb r) = writeOut e (lbTakes s x r) := by
  obtain ⟨eq, calm, advance⟩ := h.sends idle x r
  obtain ⟨eq', calm'⟩ := calm.lb (advance.trans out)
  have waits : lbStep (writeOut e (lbTakes s x r)) = none := rfl
  have turn : Turn n (writeOut e (lbTakes s x r)) := ⟨calm', waits, tuStep_none (s := s) rfl h.tu, h.grant, h.got⟩
  exact eq.trans (eq'.trans (turn.waits_for_lb wait (by simp [State.engineAtLb, writeOut, lbTakes, own])))

/-- A ninth line: the oldest is written out first (R149). -/
theorem Turn.evicts {rest : List LineEntry} (h : Turn n s) (idle : s.lbIdle) (entries : s.lb.entries = e :: rest)
    (full : rest.length = 7) (others : ∀ x ∈ e :: rest, x.line ≠ lineOf pa) :
    settle ((s.setTeStep (.placing v pa)).queueLb (.write pa z v n))
      = writeOut e (lbTakes s (.placing v pa) (.write pa z v n)) := by
  refine h.sends_waits (a := .source) idle rfl (.inl rfl) ?_
  have none := placeElement_of_full (z := z) (v := v) (n := n) others (by simp [full])
  have entries' : (lbTakes s (.placing v pa) (.write pa z v n)).lb.entries = e :: rest := entries
  simp only [lbAdvance, entries', none, LineBuffer.victim, List.head?_cons]

/-- A line that LB holds is written out before its read (R82, R152). -/
theorem Turn.checks_held (h : Turn n s) (idle : s.lbIdle) (held : s.lb.find (lineOf pa) = some e) :
    settle ((s.setTeStep (.lineCheck a pa)).queueLb (.check pa)) = writeOut e (lbTakes s (.lineCheck a pa) (.check pa)) := by
  refine h.sends_waits (v := 0) idle rfl (.inr rfl) ?_
  have victim : (lbTakes s (.lineCheck a pa) (.check pa)).lb.victim (.check pa) = some e := held
  simp only [lbAdvance, victim]

/-- A line that LB does not hold is read at once (R82). -/
theorem Turn.checks_free (h : Turn n s) (move : (s.chan n).currentMove = some m) (idle : s.lbIdle)
    (free : s.lb.find (lineOf pa) = none) :
    settle ((s.setTeStep (.lineCheck a pa)).queueLb (.check pa))
      = issueRead m a pa (lbTakes s (.lineCheck a pa) (.check pa)).lbFree := by
  obtain ⟨eq, calm, advance⟩ := h.sends idle (.lineCheck a pa) (.check pa)
  have victim : (lbTakes s (.lineCheck a pa) (.check pa)).lb.victim (.check pa) = none := free
  have step : lbStep (lbTakes s (.lineCheck a pa) (.check pa)) = some (lbTakes s (.lineCheck a pa) (.check pa)).lbFree := by
    rw [advance]
    simp only [lbAdvance, victim]
  obtain ⟨eq', calm'⟩ := calm.lb step
  have turn : Turn n (lbTakes s (.lineCheck a pa) (.check pa)).lbFree :=
    ⟨calm', rfl, tuStep_none (s := s) rfl h.tu, h.grant, h.got⟩
  exact eq.trans (eq'.trans (turn.at_lineCheck rfl move rfl))

/-- A VERIFY goes on with its destination's value (R90). -/
theorem valueRead_verify (op : m.op = .verify) (v : BitVec 64) (s : State) :
    valueRead n m .source v s = askTranslation n (s.chan n).dstEA false (.verifyDest v) s := by
  simp [valueRead, op]

end Sys2Proof.Moves
end

section
/-! SUPPORT. A write-out answered: the failed line's channels are marked, LB goes on with its operation, and TE with its element
(R150, R151). -/

namespace Sys2Proof.Moves

open Sys2Proof Sys2Proof.Machine Sys2Proof.Laws

variable {n k : ChanId} {m : Move} {s t u : State} {pa : PAddr} {v : BitVec 64} {a : Access} {l : List ChanId}

/-! ## The marks -/

/-- At these points a channel is READY or has just left it to halt or stop. -/
def stands (a : Activity) : Bool := a == .ready || a == .haltDrain || a == .stopDrain

/-- What marking channels changes: the channels but for their moves' progress, and LB's queue by drains of channels. -/
structure Marking (s t : State) : Prop where
  fu : t.fu = s.fu
  su : t.su = s.su
  te : t.te = s.te
  tu : t.tu = s.tu
  sb : t.sb = s.sb
  lb : ∃ q, t.lb = { s.lb with queue := s.lb.queue ++ q } ∧ ∀ r ∈ q, r.fromEngine = false
  progress : ∀ k, progressOf (t.chan k) = progressOf (s.chan k)
  stands : ∀ k, stands (s.chan k).activity = true → stands (t.chan k).activity = true

namespace Marking

theorem refl (s : State) : Marking s s :=
  ⟨rfl, rfl, rfl, rfl, rfl, ⟨[], by simp, by simp⟩, fun _ => rfl, fun _ h => h⟩

theorem trans (a : Marking s t) (b : Marking t u) : Marking s u where
  fu := b.fu.trans a.fu
  su := b.su.trans a.su
  te := b.te.trans a.te
  tu := b.tu.trans a.tu
  sb := b.sb.trans a.sb
  lb := by
    obtain ⟨q, hq, drains⟩ := a.lb
    obtain ⟨q', hq', drains'⟩ := b.lb
    refine ⟨q ++ q', by rw [hq', hq, List.append_assoc], fun r hr => ?_⟩
    exact (List.mem_append.mp hr).elim (drains r) (drains' r)
  progress k := (b.progress k).trans (a.progress k)
  stands k h := b.stands k (a.stands k h)

/-- One channel changes, its move's progress aside, and LB may get a drain. -/
theorem setChan {c : Channel} {q : List LbReq} (progress : progressOf c = progressOf (s.chan n))
    (stands : Moves.stands (s.chan n).activity = true → Moves.stands c.activity = true)
    (drains : ∀ r ∈ q, r.fromEngine = false) :
    Marking s { s.setChan n c with lb := { s.lb with queue := s.lb.queue ++ q } } := by
  have chan : ∀ k, ({ s.setChan n c with lb := { s.lb with queue := s.lb.queue ++ q } } : State).chan k
      = (s.setChan n c).chan k := fun _ => rfl
  refine ⟨rfl, rfl, rfl, rfl, rfl, ⟨q, rfl, drains⟩, fun k => ?_, fun k h => ?_⟩ <;> rw [chan] <;>
    rcases eq_or_ne k n with rfl | ne
  · rw [chan_setChan, progress]
  · rw [chan_setChan_ne _ _ _ _ ne]
  · rw [chan_setChan]; exact stands h
  · rw [chan_setChan_ne _ _ _ _ ne]; exact h

theorem setMark (n : ChanId) (s : State) : Marking s (setMark n s) := by
  unfold Machine.setMark
  dsimp only
  split
  · exact refl s
  · have marks := setChan (s := s) (n := n) (q := []) (c := { s.chan n with mark := true }) rfl id (by simp)
    simp only [List.append_nil] at marks
    exact marks

theorem beginHalt (n : ChanId) (code : FaultCode) (va : VAddr) (s : State) : Marking s (beginHalt n code va s) :=
  setChan (q := [.drain n]) rfl (fun _ => rfl) (by simp [LbReq.fromEngine])

theorem beginStop (n : ChanId) (s : State) : Marking s (beginStop n s) :=
  setChan (q := [.drain n]) rfl (fun _ => rfl) (by simp [LbReq.fromEngine])

/-- A channel that stands READY halts, stops or stays; one that already halts or stops goes on with that (R31, R43). -/
theorem goOn (h : Moves.stands (s.chan n).activity = true) : Marking s (goOn n s) := by
  unfold Machine.goOn
  dsimp only
  split
  · exact refl s
  · cases ha : (s.chan n).activity with
    | ready =>
      simp only [readyPoint, stopHere]
      split_ifs
      · exact beginHalt ..
      · exact refl s
      · exact beginStop ..
      · exact refl s
    | haltDrain | stopDrain => exact refl s
    | _ => rw [ha] at h; cases h

/-- A reaction of every channel of a list. -/
theorem foldl {act : ChanId → State → State} :
    ∀ (l : List ChanId) (s : State), (∀ k ∈ l, ∀ t, Marking s t → Marking t (act k t)) →
      Marking s (l.foldl (fun t k => act k t) s)
  | [], s, _ => refl s
  | k :: l, s, h =>
    have first := h k (List.mem_cons_self ..) s (refl s)
    first.trans (foldl l (act k s) fun j hj t ht => h j (List.mem_cons_of_mem k hj) t (first.trans ht))

/-- Channels that stand READY go on, in whatever order. -/
theorem inArrivalOrder (l : List ChanId) (h : ∀ k ∈ l, Moves.stands (s.chan k).activity = true) :
    Marking s (s.inArrivalOrder l Machine.goOn) := by
  have reacts := foldl (act := Machine.goOn) (arrange l.length s.arrivals l) s fun k hk t ht =>
    goOn (ht.stands k (h k ((arrange_perm _ _ _).mem_iff.mp hk)))
  exact { reacts with }

theorem markChannels (l : List ChanId) (s : State) : Marking s (markChannels l s) := by
  have marks : Marking s (l.foldl (fun t k => Machine.setMark k t) s) := foldl l s fun k _ t _ => setMark k t
  refine marks.trans (inArrivalOrder _ fun k hk => ?_)
  obtain ⟨-, ready⟩ := Bool.and_eq_true_iff.mp (List.mem_filter.mp hk).2
  rw [beq_iff_eq.mp ready]
  rfl

end Marking

/-! ## The answer -/

/-- In `t` the line `l` is gone: what LB held of it is dropped, and no unit but LB and SB has gone on. -/
structure LineGone (l : Line) (s t : State) : Prop where
  calm : Calm t
  te : t.te = s.te
  tu : t.tu = s.tu
  queue : ∀ r ∈ t.lb.queue, r.fromEngine = false
  current : t.lb.current = s.lb.current
  writing : t.lb.writing = none
  entries : t.lb.entries = s.lb.entries.filter (·.line != l)
  progress : ∀ k, progressOf (t.chan k) = progressOf (s.chan k)

/-- LB with the line gone. -/
def dropped (l : Line) (s : State) : State :=
  { s with
    lb := { s.lb with entries := s.lb.entries.filter (·.line != l), writing := none }
    mp := { s.mp with lb := none } }

theorem lineGone_dropped {l : Line} (h : Calm s) (quiet : s.noEngineQueued) : LineGone l s (dropped l s) :=
  ⟨h.congr rfl rfl rfl rfl rfl rfl, rfl, rfl, quiet, rfl, rfl, rfl, fun _ => rfl⟩

/-- LB with the line gone and the event of its entry kept. -/
def droppedFailed (l : Line) (e : LineEntry) (s : State) : State :=
  { dropped l s with lb := { (dropped l s).lb with held := s.lb.held ++ [e.failed] } }

/-- A failed write-out marks its channels, and LB hands MEM_WRITE over to SB, which has room for it (R150, R169). -/
theorem lineGone_failed {l : Line} {e : LineEntry} (h : Calm s) (quiet : s.noEngineQueued) (room : s.hasRoom .lb) :
    ∃ t, settle (markChannels e.chans (droppedFailed l e s)) = settle t ∧ LineGone l s t := by
  obtain ⟨k1, k2, k3, k4, k5⟩ := h.kept
  have marking := Marking.markChannels e.chans (droppedFailed l e s)
  generalize markChannels e.chans (droppedFailed l e s) = u at marking ⊢
  obtain ⟨q, lb, drains⟩ := marking.lb
  obtain ⟨c, taken, -⟩ := handOver_takes (b := u.sb) (e := e.failed) (by rw [marking.sb]; exact room)
  have waits : Waits u := h.waits.congr marking.fu marking.su
  have te : u.te.held = [] := by rw [marking.te]; exact k3
  have tu : u.tu.held = [] := by rw [marking.tu]; exact k4
  have held : u.lb.held = [e.failed] := by rw [lb]; simp [droppedFailed, k5]
  have hands : micro u = some { u with sb := c, lb := { u.lb with held := [] } } := by
    simp [micro, microSteps, fuHandOver, suHandOver, teHandOver, tuHandOver, lbHandOver, waits.fuHeld, waits.suHeld, te, tu,
      held, taken]
  obtain ⟨b, p, eq, calm, -⟩ := settle_sb (s := { u with sb := c, lb := { u.lb with held := [] } }) (waits.congr rfl rfl)
    ⟨waits.fuHeld, waits.suHeld, te, tu, rfl⟩
  have others : ∀ r ∈ u.lb.queue, r.fromEngine = false := by
    rw [lb]
    exact fun r hr => (List.mem_append.mp hr).elim (quiet r) (drains r)
  have current : u.lb.current = s.lb.current := by rw [lb]; rfl
  have writing : u.lb.writing = none := by rw [lb]; rfl
  have entries : u.lb.entries = s.lb.entries.filter (·.line != l) := by rw [lb]; rfl
  exact ⟨_, (settle_micro hands).trans eq, calm, marking.te, marking.tu, others, current, writing, entries,
    marking.progress⟩

/-- MP's answer to a write-out (R150). -/
theorem lineWriteOut_acts {l : Line} (h : s.quietUnits) (quiet : s.noEngineQueued) (writing : s.lb.writing = some l)
    (asked : s.mp.lb.isSome = true) (resp : WriteResp) (room : resp = .error → s.hasRoom .lb) :
    ∃ t, exec (.lineWriteOutAnswer resp) s = .next (settle t) ∧ LineGone l s t := by
  obtain ⟨settled', kept, -⟩ := h
  have calm := Calm.of_settled settled' kept
  obtain ⟨req, asked⟩ := Option.isSome_iff_exists.mp asked
  have due : exec (.lineWriteOutAnswer resp) s = .next (settle (writeOutAnswered l resp s)) := by
    simp only [exec, execLineWriteOutAnswer, writing, asked, settled]
  cases resp with
  | okay => exact ⟨_, due, lineGone_dropped calm quiet⟩
  | error =>
    cases hf : s.lb.find l with
    | none =>
      have answered : writeOutAnswered l .error s = dropped l s := by simp only [writeOutAnswered, hf, dropped]
      exact ⟨_, due.trans (by rw [answered]), lineGone_dropped calm quiet⟩
    | some e =>
      obtain ⟨t, eq, gone⟩ := lineGone_failed (l := l) (e := e) calm quiet (room rfl)
      refine ⟨t, due.trans ?_, gone⟩
      rw [← eq]
      simp only [writeOutAnswered, hf, droppedFailed, dropped]

/-! ## LB's queue -/

/-- With no request of TE's at LB it goes on with drains alone, until it waits; the lines stay (R154). -/
theorem Calm.lb_rests (h : Calm s) (free : s.engineAtLb = false) :
    ∃ b q, settle s = settle { s with lb := b, mp := { s.mp with lb := q } }
      ∧ Calm { s with lb := b, mp := { s.mp with lb := q } }
      ∧ lbStep { s with lb := b, mp := { s.mp with lb := q } } = none
      ∧ ({ s with lb := b, mp := { s.mp with lb := q } } : State).engineAtLb = false ∧ b.entries = s.lb.entries := by
  induction hw : s.work using Nat.strong_induction_on generalizing s with
  | _ w ih =>
    cases hs : lbStep s with
    | none => exact ⟨s.lb, s.mp.lb, rfl, h, hs, free, rfl⟩
    | some t =>
      obtain ⟨eq, calm⟩ := h.lb hs
      obtain ⟨entries, free'⟩ := lbStep_drains hs free
      have less := lbStep_work hs
      obtain ⟨b, q, rfl, -⟩ := lbStep_frame hs
      obtain ⟨b', q', eq', rest', lb', free'', entries'⟩ := ih _ (hw ▸ less) calm free' rfl
      exact ⟨b', q', eq.trans eq', rest', lb', free'', entries'.trans entries⟩

end Sys2Proof.Moves
end

section
/-! SUPPORT. TE's element after a write-out: placed and counted, or its line read (R82, R93). -/

namespace Sys2Proof.Moves

open Sys2Proof Sys2Proof.Machine Sys2Proof.Laws Sys2Proof.Flow

variable {n : ChanId} {m : Move} {s t u : State} {pa : PAddr} {v : BitVec 64} {a : Access} {l : Line}

theorem placesNone_of_free (free : s.engineAtLb = false) : placesNone s := fun r hr => by
  have other := engineAtLb_eq_false_iff.mp free r hr
  cases r with
  | drain k | softDrain => rfl
  | write | check | engineDrain => cases other

/-- The end of a slice makes no request of TE's at LB. -/
theorem engineAtLb_endSlice {f : Option (FaultCode × VAddr)} (free : s.engineAtLb = false) :
    (endSlice n f s).engineAtLb = false := by
  obtain ⟨q, lb, drains⟩ := (sliceEnd_endSlice n f s).lb
  refine engineAtLb_eq_false_iff.mpr fun r hr => ?_
  simp only [State.lbRequests, lb, ← List.append_assoc, List.mem_append] at hr
  rcases hr with hr | hr
  · exact engineAtLb_eq_false_iff.mp free r (by simpa [State.lbRequests] using hr)
  · rw [drains r hr]; rfl

/-- An element of a COPY or VERIFY move counts once, and LB's lines stay, whatever follows within the command (R93). -/
theorem Turn.counts (h : Turn n s) (move : (s.chan n).currentMove = some m) (op : m.op ≠ .fill)
    (free : s.engineAtLb = false) :
    (settle (elementDone n m false s)).lb.entries = s.lb.entries
      ∧ ((settle (elementDone n m false s)).chan n).performed = (s.chan n).performed + 1 := by
  by_cases last : (s.chan n).remaining - 1 = 0
  · obtain ⟨-, -, -, performed⟩ := moveEnded_keeps (s.chan n) m false
    have chan : ((counted n m false s).setChan n (moveEnded (s.chan n) m false)).chan n = moveEnded (s.chan n) m false :=
      chan_setChan _ _ _
    have ends := sliceEnd_endSlice n none ((counted n m false s).setChan n (moveEnded (s.chan n) m false))
    obtain ⟨idles, -⟩ := settle_endSlice (n := n) (s := (counted n m false s).setChan n (moveEnded (s.chan n) m false))
      (h.calm.waits.congr rfl rfl) none
    rw [elementDone_ends (.inr last)]
    obtain ⟨entries, -⟩ := idles.lines (engineAtLb_endSlice free)
    obtain ⟨q, lb, -⟩ := ends.lb
    refine ⟨entries.trans (by rw [lb]; rfl), ?_⟩
    have count := congrArg (fun p => p.2.2.2.2.2.2.1) ends.progress
    rw [chan] at count
    rw [idles.chan]
    exact count.trans performed
  · have onward := h.onward move last op
    have lb : (elementDone n m false s).lb = s.lb := by rw [elementDone_counts last]; rfl
    have none : placesNone (elementDone n m false s) := by
      unfold placesNone State.lbRequests
      rw [lb]
      exact placesNone_of_free free
    obtain ⟨-, entries⟩ := onward.lines none
    refine ⟨entries.trans (by rw [lb]), onward.performed.trans ?_⟩
    rw [chan_elementDone last]
    rfl

theorem currentMove_congr {c d : Channel} (h : progressOf c = progressOf d) : c.currentMove = d.currentMove := by
  simp only [progressOf, Prod.mk.injEq] at h
  obtain ⟨task, index, -⟩ := h
  rw [Channel.currentMove, task, index, Channel.currentMove]

/-- The line gone, LB answers TE's operation, and with its drains gone on with it is TE's turn (R148). -/
theorem LineGone.turn {r : LbReq} {es : List LineEntry} (gone : LineGone l s u) (settled' : s.isSettled)
    (grant : s.te.grant = some n) (got : s.te.got = none) (current : s.lb.current = some r)
    (answers : lbAdvance r u = some { u with lb := { u.lb with entries := es, current := none } }) :
    ∃ b q, settle u = settle { u with lb := b, mp := { u.mp with lb := q } }
      ∧ Turn n { u with lb := b, mp := { u.mp with lb := q } }
      ∧ ({ u with lb := b, mp := { u.mp with lb := q } } : State).engineAtLb = false ∧ b.entries = es := by
  obtain ⟨-, -, -, -, held⟩ := gone.calm.kept
  have step : lbStep u = some { u with lb := { u.lb with entries := es, current := none } } := by
    rw [← answers]
    simp [lbStep, gone.current, current, gone.writing, held]
  obtain ⟨eq, calm⟩ := gone.calm.lb step
  obtain ⟨b, q, eq', calm', lb, free, entries⟩ := calm.lb_rests
    (engineAtLb_eq_false_iff.mpr fun x hx => gone.queue x (by simpa [State.lbRequests] using hx))
  obtain ⟨-, -, -, -, -, -, -, -, -, tu, -⟩ := (settled_iff s).mp settled'
  exact ⟨b, q, eq.trans eq', ⟨calm', lb, tuStep_none (s := s) gone.tu tu, gone.te ▸ grant, gone.te ▸ got⟩, free, entries⟩

/-- The oldest line gone, the element that waited for its room is placed and performed (R93, R149). -/
theorem LineGone.places {e : LineEntry} {rest : List LineEntry} (gone : LineGone e.line s u) (h : s.quietUnits)
    (grant : s.te.grant = some n) (step : s.te.step = .placing v pa) (move : (s.chan n).currentMove = some m)
    (op : m.op ≠ .fill) (current : s.lb.current = some (.write pa m.dst.size v n)) (entries : s.lb.entries = e :: rest)
    (room : rest.length = 7) (single : ∀ x ∈ rest, x.line ≠ e.line) (others : ∀ x ∈ e :: rest, x.line ≠ lineOf pa) :
    (settle u).lb.entries = rest ++ [LineEntry.fresh pa m.dst.size v n]
      ∧ ((settle u).chan n).performed = (s.chan n).performed + 1 := by
  obtain ⟨settled', -, -, -, got⟩ := h
  have left : u.lb.entries = rest := by
    rw [gone.entries, entries, List.filter_cons_of_neg (by simp), List.filter_eq_self.mpr fun x hx => by simp [single x hx]]
  have placed := placeElement_of_room (z := m.dst.size) (v := v) (n := n)
    (fun x hx => others x (List.mem_cons_of_mem e hx)) (by omega)
  obtain ⟨b, q, eq, turn, free, entries'⟩ := gone.turn (es := rest ++ [.fresh pa m.dst.size v n]) settled' grant got current
    (by rw [lbAdvance, left, placed])
  have move' : (u.chan n).currentMove = some m := (currentMove_congr (gone.progress n)).trans move
  have step' : u.te.step = .placing v pa := by rw [gone.te]; exact step
  obtain ⟨lines, performed⟩ := turn.counts move' op free
  rw [eq, turn.at_placing step' move' free]
  have before := congrArg (fun p => p.2.2.2.2.2.2.1) (gone.progress n)
  exact ⟨lines.trans entries', performed.trans (congrArg (· + 1) before)⟩

/-- The checked line gone, TE reads (R82, R152). -/
theorem LineGone.reads (gone : LineGone (lineOf pa) s u) (h : s.quietUnits) (grant : s.te.grant = some n)
    (step : s.te.step = .lineCheck a pa) (move : (s.chan n).currentMove = some m)
    (current : s.lb.current = some (.check pa)) :
    (settle u).te.step = .reading a pa ∧ (settle u).mp.te = some (.read pa (a.size m).bytes)
      ∧ (settle u).lb.entries = s.lb.entries.filter (·.line != lineOf pa) := by
  obtain ⟨settled', -, -, -, got⟩ := h
  have missing : u.lb.victim (.check pa) = none := by
    rw [LineBuffer.victim, LineBuffer.find, gone.entries]
    simp
  obtain ⟨b, q, eq, turn, free, entries'⟩ := gone.turn (es := u.lb.entries) settled' grant got current
    (by rw [lbAdvance, missing]; rfl)
  have move' : (u.chan n).currentMove = some m := (currentMove_congr (gone.progress n)).trans move
  have step' : u.te.step = .lineCheck a pa := by rw [gone.te]; exact step
  rw [eq, turn.at_lineCheck step' move' free]
  exact ⟨rfl, rfl, entries'.trans gone.entries⟩

/-! ## The value of a source -/

section Value

variable {w : Way} {x : CacheEntry}

/-- A COPY element for a ninth line waits for the eviction of the oldest (R149). -/
theorem Turn.copy_evicts {y : BitVec 64} {e : LineEntry} {rest : List LineEntry} (h : Turn n s)
    (move : (s.chan n).currentMove = some m) (idle : s.lbIdle) (finds : s.finds (s.chan n).space (s.chan n).dstEA w x)
    (ok : x.parityOk = true) (op : m.op = .copy) (value : m.convert v = some y) (allows : x.access.allows true = true)
    (known : x.modifiedKnown = true) (normal : x.device = false) (entries : s.lb.entries = e :: rest)
    (full : rest.length = 7) (others : ∀ z ∈ e :: rest, z.line ≠ lineOf (framePA x.frame (s.chan n).dstEA)) :
    settle (valueRead n m .source v s)
      = writeOut e (lbTakes (served s (.writeDest y)) (.placing y (framePA x.frame (s.chan n).dstEA))
          (.write (framePA x.frame (s.chan n).dstEA) m.dst.size y n)) := by
  have answered := h.translated (a := .writeDest y) move finds ok allows fun _ => known
  rw [normal] at answered
  rw [valueRead_kept op value, answered]
  exact (turn_served h (.writeDest y)).evicts idle entries full others

/-- A VERIFY element asks LB to check its destination's line (R82, R90). -/
theorem Turn.verify_checks (h : Turn n s) (move : (s.chan n).currentMove = some m)
    (finds : s.finds (s.chan n).space (s.chan n).dstEA w x) (ok : x.parityOk = true) (op : m.op = .verify)
    (allows : x.access.allows false = true) :
    settle (valueRead n m .source v s)
      = settle (((served s (.verifyDest v)).setTeStep
          (.lineCheck (.verifyDest v) (framePA x.frame (s.chan n).dstEA))).queueLb
          (.check (framePA x.frame (s.chan n).dstEA))) := by
  rw [valueRead_verify op, h.translated (a := .verifyDest v) move finds ok allows nofun]
  rfl

end Value

/-- Settles O49: LB places an element in its line's entry, in a new one, or after an eviction, and a read of a line that LB holds
waits for its write-out. -/
theorem elementWritesGatherInLines : Obligations.ElementWritesGatherInLines := by
  unfold Obligations.ElementWritesGatherInLines
  refine ⟨fun l pa z v n => ⟨fun pre e post split line others => ?_, placeElement_of_room, placeElement_of_full⟩,
    fun e pa z v n off place _ => ?_, ?_, ?_, ?_⟩
  · rw [split]
    exact placeElement_of_held line others
  · subst place
    refine ⟨rfl, by simp [LineEntry.merge], rfl, rfl, fun i hi => ⟨?_, ?_, ?_, ?_⟩⟩
    · exact getLsbD_mask_merge e hi
    · have bytes := byteAt_merge (pa := pa) (z := z) (v := v) (n := n) e hi
      simp only [covers_iff] at bytes
      exact bytes
    · exact getLsbD_elementMask hi
    · have bytes := byteAt_elementData (pa := pa) (z := z) (v := v) hi
      simp only [covers_iff] at bytes
      exact bytes
  · rintro n m src _ resp d _ w x s h reading good rfl idle finds ok rfl
    obtain ⟨b, q, due, turn, -⟩ := elementRead_acts h reading resp d
    obtain ⟨-, -, -, -, -, -, -, -, move, -⟩ := h
    rw [if_pos good] at due
    refine ⟨fun y e rest op value allows known normal entries full others => ?_, fun op allows => ?_⟩
    · have evicted := turn.copy_evicts move idle finds ok op value allows known normal entries full others
      exact ⟨_, due.trans (congrArg _ evicted), rfl, rfl, rfl, rfl, rfl⟩
    · have checks := turn.verify_checks (v := m.src.size.low d) move finds ok op allows
      have served' := turn_served turn (.verifyDest (m.src.size.low d))
      cases hf : s.lb.find (lineOf (framePA x.frame (s.chan n).dstEA)) with
      | some e =>
        have held := served'.checks_held (a := .verifyDest (m.src.size.low d)) idle hf
        refine ⟨_, due.trans (congrArg _ (checks.trans held)), rfl, rfl, fun e' found => ?_, fun missing => ?_⟩
        · obtain rfl : e = e' := Option.some.inj (hf.symm.trans found)
          exact ⟨rfl, rfl, rfl, rfl⟩
        · have found : s.lb.entries.find? (·.line == lineOf (framePA x.frame (s.chan n).dstEA)) = some e := hf
          have line := List.find?_some found
          exact absurd (beq_iff_eq.mp line) (missing e (List.mem_of_find?_eq_some found))
      | none =>
        have free := served'.checks_free (a := .verifyDest (m.src.size.low d)) move idle hf
        refine ⟨_, due.trans (congrArg _ (checks.trans free)), rfl, rfl, fun e' found => ?_, fun _ => ⟨rfl, rfl⟩⟩
        cases hf.symm.trans found
  · intro n m v pa e rest s h quiet grant step move op current writing asked entries room single others
    obtain ⟨t, due, gone⟩ := lineWriteOut_acts h quiet writing asked .okay nofun
    refine ⟨⟨_, due, gone.places h grant step move op current entries room single others⟩, fun place => ?_⟩
    obtain ⟨t, due, gone⟩ := lineWriteOut_acts h quiet writing asked .error fun _ => place
    exact ⟨_, due, gone.places h grant step move op current entries room single others⟩
  · intro n m a pa resp s h quiet grant step move current writing asked place
    obtain ⟨t, due, gone⟩ := lineWriteOut_acts h quiet writing asked resp fun _ => place
    exact ⟨_, due, gone.reads h grant step move current⟩

end Sys2Proof.Moves
end

section
/-! SUPPORT. What TE keeps: no other unit's step reaches its grant, its counter or its step, and its own either goes on with
the element, performs it, faults or ends the slice. -/

namespace Sys2Proof.Slices

open Sys2Proof Sys2Proof.Machine Sys2Proof.Laws Sys2Proof.Flow Sys2Proof.Moves

variable {n : ChanId} {m : Move} {s t u : State}

/-! ## The steps of the other units -/

/-- From `s` to `t` TE has at most handed over events. -/
def EngineRests (s t : State) : Prop := ∃ l, t.te = { s.te with held := l } ∧ (s.te.held = [] → l = [])

theorem EngineRests.of_eq (h : t.te = s.te) : EngineRests s t := ⟨s.te.held, h, id⟩

theorem EngineRests.trans (a : EngineRests s t) (b : EngineRests t u) : EngineRests s u := by
  obtain ⟨l, te, none⟩ := a
  obtain ⟨k, te', none'⟩ := b
  exact ⟨k, by rw [te', te], fun h => none' (by rw [te]; exact none h)⟩

/-- Every internal step is TE's own, or leaves TE but for an event it hands over. -/
theorem micro_engine (h : micro s = some t) : EngineRests s t ∨ teStep s = some t := by
  rcases micro_cases h with h | h | h | h | h | h | h | h | h | h | h
  · obtain ⟨e, l, b, -, -, rfl⟩ := fuHandOver_some h; exact .inl (.of_eq rfl)
  · obtain ⟨e, l, b, -, -, rfl⟩ := suHandOver_some h; exact .inl (.of_eq rfl)
  · obtain ⟨e, l, b, held, -, rfl⟩ := teHandOver_some h
    exact .inl ⟨l, rfl, fun none => by simp [none] at held⟩
  · obtain ⟨e, l, b, -, -, rfl⟩ := tuHandOver_some h; exact .inl (.of_eq rfl)
  · obtain ⟨e, l, b, -, -, rfl⟩ := lbHandOver_some h; exact .inl (.of_eq rfl)
  · obtain ⟨e, q, -, -, rfl⟩ := sbStep_some h; exact .inl (.of_eq rfl)
  · rcases fuStep_some h with ⟨j, g, -, -, -, rfl⟩ | ⟨j, q, -, -, -, rfl⟩
    · exact .inl (.of_eq (acts_fuAnswered _ j g).te)
    · exact .inl (.of_eq rfl)
  · exact .inl (.of_eq (suStep_spares h).te)
  · obtain ⟨b, q, rfl, -⟩ := lbStep_frame h; exact .inl (.of_eq rfl)
  · obtain ⟨v, q, rfl, -⟩ := tuStep_frame h; exact .inl (.of_eq rfl)
  · exact .inr h

/-- Without a grant TE makes no step (R99). -/
theorem teStep_of_free (free : s.te.grant = none) : teStep s = none :=
  teStep_of_paused (by simp only [paused, free])

/-- While the grant is free TE stays as it is (R99). -/
theorem settle_engine_of_free (free : s.te.grant = none) : EngineRests s (settle s) := by
  refine settle_induct (EngineRests s) (fun t u h step => ?_) (.of_eq rfl)
  rcases micro_engine step with rests | step
  · exact h.trans rests
  · obtain ⟨l, te, -⟩ := h
    rw [teStep_of_free (by rw [te]; exact free)] at step
    cases step

/-- Internal steps leave ROTOR: only a grant sets it (R100). -/
theorem settle_rotor (s : State) : (settle s).te.rotor = s.te.rotor := by
  refine settle_induct (fun t => t.te.rotor = s.te.rotor) (fun t u h step => ?_) rfl
  rcases micro_engine step with ⟨l, te, -⟩ | step
  · rw [te]; exact h
  · obtain ⟨n, -, engages⟩ := teStep_engages step
    exact engages.rotor.trans h

/-! ## TE's own step -/

/-- From `s` to `t` TE has gone on with the element of channel `n`, whose move's addresses, fill value and first flag alone
may have changed. -/
structure Goes (n : ChanId) (s t : State) : Prop where
  grant : t.te.grant = s.te.grant
  counter : t.te.counter = s.te.counter
  got : s.te.got = none → t.te.got = none
  chan : ∃ a b f v, t.chan n = { s.chan n with srcEA := a, dstEA := b, firstFlag := f, fillValue := v }

theorem Goes.trans (a : Goes n s t) (b : Goes n t u) : Goes n s u where
  grant := b.grant.trans a.grant
  counter := b.counter.trans a.counter
  got h := b.got (a.got h)
  chan := by
    obtain ⟨_, _, _, _, first⟩ := a.chan
    obtain ⟨x, y, f, v, second⟩ := b.chan
    exact ⟨x, y, f, v, by rw [second, first]⟩

/-- A change that leaves the channel, and TE but for its step and its answer. -/
theorem Goes.of_chan (grant : t.te.grant = s.te.grant) (counter : t.te.counter = s.te.counter)
    (got : s.te.got = none → t.te.got = none) (chan : t.chan n = s.chan n) : Goes n s t :=
  ⟨grant, counter, got, _, _, _, _, chan⟩

/-- What TE makes of an element: it goes on, perhaps to a fault, or to the element performed (R93, R94). -/
inductive Advances (n : ChanId) (s : State) : State → Prop
  | goes {t : State} (h : Goes n s t) : Advances n s t
  | faults {u : State} (h : Goes n s u) (code : FaultCode) (va : VAddr) : Advances n s (sliceFault n code va u)
  | performs {u : State} (h : Goes n s u) (m : Move) (x : Bool) : Advances n s (elementDone n m x u)

namespace Advances

theorem after (g : Goes n s t) (h : Advances n t u) : Advances n s u := by
  cases h with
  | goes h => exact .goes (g.trans h)
  | faults h code va => exact .faults (g.trans h) code va
  | performs h m x => exact .performs (g.trans h) m x

theorem faulted (n : ChanId) (s : State) (code : FaultCode) (va : VAddr) : Advances n s (sliceFault n code va s) :=
  .faults (.of_chan rfl rfl id rfl) code va

theorem performed (n : ChanId) (s : State) (m : Move) (x : Bool) : Advances n s (elementDone n m x s) :=
  .performs (.of_chan rfl rfl id rfl) m x

theorem askTranslation (n : ChanId) (va : VAddr) (w : Bool) (a : Access) (s : State) :
    Advances n s (askTranslation n va w a s) := .goes (.of_chan rfl rfl id rfl)

theorem startElement (n : ChanId) (m : Move) (s : State) : Advances n s (startElement n m s) := by
  unfold Machine.startElement
  dsimp only
  split
  · exact .faulted ..
  · split
    · exact .faulted ..
    · split <;> exact .askTranslation ..

theorem moveBegun (n : ChanId) (m : Move) (v : Option (BitVec 64)) (s : State) : Advances n s (moveBegun n m v s) := by
  have begins : Goes n s (s.setChan n (begun (s.chan n) m v)) := ⟨rfl, rfl, id, _, _, _, _, chan_setChan s n _⟩
  exact after begins (.startElement ..)

theorem takeFill (n : ChanId) (m : Move) (v : BitVec 64) (s : State) : Advances n s (takeFill n m v s) := by
  unfold Machine.takeFill
  split
  · exact .faulted ..
  · exact .moveBegun ..

theorem beginMove (n : ChanId) (m : Move) (s : State) : Advances n s (beginMove n m s) := by
  unfold Machine.beginMove
  dsimp only
  split
  · exact .faulted ..
  · split
    · exact .moveBegun ..
    · exact .moveBegun ..
    · split
      · exact .takeFill ..
      · split
        · exact .askTranslation ..
        · exact .faulted ..

theorem translationAnswered (n : ChanId) (m : Move) (a : Access) (x : TuAnswer) (s : State) :
    Advances n s (translationAnswered n m a x s) := by
  have free : Goes n s ({ s with
      tu := { s.tu with req := none, stage := .idle, root := none, descriptor := none, pageEntry := none } } : State) :=
    .of_chan rfl rfl id rfl
  cases x with
  | fault code => exact .faults free code _
  | translated pa device direct =>
    cases a with
    | writeDest v => cases device <;> exact .goes (.of_chan rfl rfl id rfl)
    | fillSource | source | verifyDest => exact .goes (.of_chan rfl rfl id rfl)

theorem valueRead (n : ChanId) (m : Move) (a : Access) (v : BitVec 64) (s : State) : Advances n s (valueRead n m a v s) := by
  cases a with
  | fillSource => exact .takeFill ..
  | source =>
    simp only [Machine.valueRead]
    split
    · exact .askTranslation ..
    all_goals
      split
      · exact .faulted ..
      · exact .askTranslation ..
  | verifyDest w => exact .performed ..
  | writeDest w => exact .goes (.of_chan rfl rfl id rfl)

theorem teAnswered (n : ChanId) (m : Move) (g : Got 64) (s : State) : Advances n s (teAnswered n m g s) := by
  have taken : Goes n s ({ s with te := { s.te with got := none } } : State) := .of_chan rfl rfl (fun _ => rfl) rfl
  refine after taken ?_
  unfold Machine.teAnswered
  dsimp only
  split
  · split
    · exact .valueRead ..
    · exact .faulted ..
  · split
    · exact .performed ..
    · exact .faulted ..
  · exact .goes (.of_chan rfl rfl id rfl)

end Advances

/-- At an element boundary a RESET, or the lack of a move, ends the slice; else TE makes something of the element (R107). -/
theorem elementBoundary_advances (n : ChanId) (s : State) :
    (elementBoundary n s = endSlice n none s ∧ ((s.chan n).reset ≠ .off ∨ (s.chan n).currentMove = none))
      ∨ Advances n s (elementBoundary n s) := by
  by_cases off : (s.chan n).reset = .off
  · cases move : (s.chan n).currentMove with
    | none => exact .inl ⟨by simp [elementBoundary, off, move], .inr rfl⟩
    | some m =>
      right
      cases first : (s.chan n).firstFlag with
      | true =>
        have begins : elementBoundary n s = beginMove n m s := by simp [elementBoundary, off, move, first]
        rw [begins]
        exact .beginMove ..
      | false =>
        have starts : elementBoundary n s = startElement n m s := by simp [elementBoundary, off, move, first]
        rw [starts]
        exact .startElement ..
  · exact .inl ⟨by simp [elementBoundary, off], .inl off⟩

/-- TE's step ends the slice for a RESET or the lack of a move, or makes something of the element; at the end of the slice's
count it only awaits the RESET (R103, R107). -/
theorem teStep_advances (h : teStep s = some t) :
    ∃ n, s.te.grant = some n
      ∧ ((t = endSlice n none s ∧ ((s.chan n).reset ≠ .off ∨ (s.chan n).currentMove = none))
        ∨ (s.te.step ≠ .exhausted ∧ Advances n s t)) := by
  obtain ⟨n, grant, turn⟩ := teTurn_of_teStep h
  refine ⟨n, grant, ?_⟩
  cases turn with
  | boundary step => exact (elementBoundary_advances n s).imp_right fun advances => ⟨by rw [step]; nofun, advances⟩
  | exhausted step =>
    refine .inl ⟨rfl, .inl fun off => ?_⟩
    rw [teStep_of_exhausted grant step off] at h
    cases h
  | translated step => exact .inr ⟨by rw [step]; nofun, .translationAnswered ..⟩
  | checked step => exact .inr ⟨by rw [step]; nofun, .goes (.of_chan rfl rfl id rfl)⟩
  | placed step => exact .inr ⟨by rw [step]; nofun, .performed ..⟩
  | answered port => exact .inr ⟨fun step => by simp [step, TeStep.awaitsPort] at port, .teAnswered ..⟩

end Sys2Proof.Slices
end

section
/-! SUPPORT. What holds of the slice counter and of a soft reset in progress after every step. -/

namespace Sys2Proof.Slices

open Sys2Proof Sys2Proof.Machine Sys2Proof.Laws Sys2Proof.Flow Sys2Proof.Moves

variable {n : ChanId} {m : Move} {s t u : State}

/-! ## The counter: TE's steps -/

theorem counterOk_of_lt (h : s.te.counter < 16) : s.counterOk := ⟨h.le, fun full => absurd full h.ne⟩

theorem counter_lt (h : s.counterOk) (step : s.te.step ≠ .exhausted) : s.te.counter < 16 :=
  lt_of_le_of_ne h.1 fun full => step (h.2 full)

theorem counterOk_of_rests (rests : EngineRests s t) (h : s.counterOk) : t.counterOk := by
  obtain ⟨l, te, -⟩ := rests
  unfold State.counterOk
  rw [te]
  exact h

theorem counterOk_of_eq (te : t.te = s.te) (h : s.counterOk) : t.counterOk := counterOk_of_rests (.of_eq te) h

/-- The end of a slice sets the counter to 0 (R103). -/
theorem counterOk_endSlice (n : ChanId) (f : Option (FaultCode × VAddr)) (s : State) : (endSlice n f s).counterOk :=
  counterOk_of_lt (by rw [(sliceEnd_endSlice n f s).te]; exact Nat.zero_lt_succ 15)

/-- An element performed below the limit is counted, and the sixteenth leaves TE at the end of its count (R103). -/
theorem counterOk_elementDone (h : s.te.counter < 16) (n : ChanId) (m : Move) (x : Bool) : (elementDone n m x s).counterOk := by
  by_cases ends : x = true ∨ (s.chan n).remaining - 1 = 0
  · rw [elementDone_ends ends]
    exact counterOk_endSlice ..
  · obtain ⟨equal, goes⟩ := not_or.mp ends
    rw [Bool.not_eq_true] at equal
    rw [equal, elementDone_counts goes]
    refine ⟨h, fun full => ?_⟩
    have full' : s.te.counter + 1 = 16 := full
    exact if_pos (by rw [full']; exact le_rfl)

theorem counterOk_advances (h : s.te.counter < 16) (advances : Advances n s t) : t.counterOk := by
  cases advances with
  | goes goes => exact counterOk_of_lt (by rw [goes.counter]; exact h)
  | faults => exact counterOk_endSlice ..
  | performs goes => exact counterOk_elementDone (by rw [goes.counter]; exact h) ..

theorem counterOk_teStep (h : s.counterOk) (step : teStep s = some t) : t.counterOk := by
  obtain ⟨n, -, ⟨rfl, -⟩ | ⟨going, advances⟩⟩ := teStep_advances step
  · exact counterOk_endSlice ..
  · exact counterOk_advances (counter_lt h going) advances

theorem counterOk_settle (h : s.counterOk) : (settle s).counterOk := by
  refine settle_induct State.counterOk (fun t u h step => ?_) h
  rcases micro_engine step with rests | step
  · exact counterOk_of_rests rests h
  · exact counterOk_teStep h step

/-! ## The counter: commands -/

/-- A grant sets the counter to 0 (R102). -/
theorem counterOk_grantTo (n : ChanId) (s : State) : (grantTo n s).counterOk := by
  refine counterOk_of_lt ?_
  unfold grantTo
  dsimp only
  split <;> exact Nat.zero_lt_succ 15

theorem te_inArrivalOrder {act : ChanId → State → State} (acts : ∀ n s, Acts n s (act n s)) (l : List ChanId) (s : State) :
    (s.inArrivalOrder l act).te = s.te :=
  (acts_all act acts (arrange l.length s.arrivals l) s).te

theorem te_setControl (v : Word) (s : State) : (setControl v s).te = s.te := by
  unfold setControl
  dsimp only
  split
  · exact te_inArrivalOrder acts_goOn ..
  · rfl

theorem te_writeOutAnswered (l : Line) (resp : WriteResp) (s : State) : (writeOutAnswered l resp s).te = s.te := by
  unfold writeOutAnswered
  dsimp only
  split
  · exact (te_inArrivalOrder acts_goOn ..).trans (acts_all setMark acts_setMark ..).te
  · rfl
  · rfl

/-- A full drain answered ends a purge slice, or lets a device write out within its element (R109, R155). -/
theorem counterOk_engineDrained (h : s.counterOk) : (engineDrained s).counterOk := by
  unfold engineDrained
  split
  · exact counterOk_endSlice ..
  · rename_i step
    split
    · have below : s.te.counter < 16 := counter_lt h (by rw [step]; nofun)
      exact counterOk_of_lt below
    · exact h
  · exact h

theorem counterOk_effect (h : s.counterOk) (effect : Effect s u) : u.counterOk := by
  cases effect with
  | control v => exact counterOk_of_eq (te_setControl v _) h
  | softReset | softDrain | signal | fuAnswer | suAnswer | teAnswer | tuAnswer | softDrained | recorded => exact h
  | command r n k => exact counterOk_of_eq (acts_takeChannelCommand n _ k).te h
  | resetStep n => exact counterOk_of_eq (acts_resetGoesOn n s).te h
  | grant n => exact counterOk_grantTo n s
  | count n => exact counterOk_endSlice ..
  | lineWritten l resp => exact counterOk_of_eq (te_writeOutAnswered l resp s) h
  | drained n => exact counterOk_of_eq (acts_drainAnswered n s.lbFree).te h
  | engineDrained => exact counterOk_engineDrained (s := s.lbFree) h

theorem counterOk_outcome (h : s.counterOk) (outcome : Outcome s t) : t.counterOk := by
  cases outcome with
  | hardReset => exact counterOk_of_lt (Nat.zero_lt_succ 15)
  | port rests =>
    obtain ⟨r, b, x, rfl, -⟩ := rests
    exact h
  | clearing => exact h
  | window n granted =>
    obtain ⟨-, -, -, rfl⟩ := granted
    exact counterOk_grantTo n s
  | settled effect => exact counterOk_settle (counterOk_effect h effect)

theorem counterOk_step (h : s.counterOk) (step : step s = .next t) : t.counterOk := by
  rcases step_outcome step with rfl | ⟨l, outcome⟩
  · exact h
  · exact counterOk_outcome (s := { s with pending := l }) h outcome

/-! ## The soft reset: what keeps it -/

theorem softResetOk_of_off (off : s.soft = .off) : s.softResetOk := fun on => absurd off on

/-- Internal steps keep RUN and the modes, and at most empty the signal slot. -/
theorem softResetOk_of_keeps (keeps : Keeps s t) (h : s.softResetOk) : t.softResetOk := by
  intro on
  obtain ⟨run, signal, command⟩ := h (by rwa [← keeps.soft])
  obtain ⟨x, l, k, rp, slot⟩ := keeps.rp
  rw [rp]
  exact ⟨run, slot.elim (fun same => same.trans signal) id, command⟩

theorem softResetOk_settled (h : settled u = .next t) (ok : u.softResetOk) : t.softResetOk := by
  cases h
  exact softResetOk_of_keeps (settle_keeps u) ok

theorem softResetOk_of_acts (acts : Acts n s t) (h : s.softResetOk) : t.softResetOk :=
  softResetOk_of_keeps (.ofActs acts) h

theorem softResetOk_of_engages (engages : Engages n s t) (h : s.softResetOk) : t.softResetOk :=
  softResetOk_of_keeps (.ofEngages engages) h

theorem softResetOk_of_actsAll {l : List ChanId} (acts : ActsAll l s t) (h : s.softResetOk) : t.softResetOk := by
  obtain ⟨x, rp⟩ := acts.rp
  intro on
  rw [rp]
  exact h (by rwa [← acts.soft])

/-- Out of a soft reset a command's channel, acting, begins none. -/
theorem softResetOk_settle_of_off (off : s.soft = .off) : (settle s).softResetOk :=
  softResetOk_of_off ((settle_keeps s).soft.trans off)

/-! ## The soft reset: register writes -/

/-- During a soft reset a register write is refused, so that only its action out of one is in question (R190). -/
theorem softResetOk_regWrite {act : State → State} (h : s.softResetOk)
    (acts : ∀ u : State, u.soft = .off → (act u).softResetOk) : (s.regWrite act).softResetOk := by
  unfold State.regWrite
  dsimp only
  split_ifs with asserted resetting
  · exact h
  · exact h
  · refine acts _ ?_
    simpa [State.resetting] using resetting

theorem soft_setControl (v : Word) (s : State) : (setControl v s).soft = s.soft := by
  unfold setControl
  dsimp only
  split
  · exact (acts_all goOn acts_goOn ..).soft
  · rfl

/-- A soft reset begins with RUN 0 and both slots empty (R189). -/
theorem softResetOk_beginSoftReset (s : State) : (beginSoftReset s).softResetOk := fun _ => ⟨rfl, rfl, rfl⟩

theorem softResetOk_writeControl {v : Word} (h : s.softResetOk) (eq : writeControl v s = .next t) : t.softResetOk := by
  cases eq
  refine softResetOk_regWrite h fun u off => ?_
  split
  · exact softResetOk_of_keeps (settle_keeps _) (softResetOk_beginSoftReset _)
  · exact softResetOk_settle_of_off ((soft_setControl v _).trans off)

theorem softResetOk_writeAnchor {f : RegPort → RegPort} (h : s.softResetOk) (eq : writeAnchor f s = .next t) :
    t.softResetOk := by
  cases eq
  refine softResetOk_regWrite h fun u off => softResetOk_of_off ?_
  split <;> exact off

theorem softResetOk_signal {v : Word} (h : s.softResetOk) (eq : execSignal v s = .next t) : t.softResetOk := by
  cases eq
  refine softResetOk_regWrite h fun u off => ?_
  unfold acceptSignal
  dsimp only
  split_ifs
  · exact softResetOk_of_off off
  · exact softResetOk_of_off off
  · exact softResetOk_settle_of_off off

theorem softResetOk_acceptCommand (off : s.soft = .off) (n : ChanId) (k : Command) : (acceptCommand n k s).softResetOk := by
  unfold acceptCommand
  dsimp only
  split_ifs
  · exact softResetOk_of_off off
  · exact softResetOk_of_off off
  · exact softResetOk_settle_of_off ((acts_takeChannelCommand n _ k).soft.trans off)

theorem softResetOk_writeChannelCmd {code : BitVec 4} (h : s.softResetOk) (eq : writeChannelCmd n code s = .next t) :
    t.softResetOk := by
  cases eq
  refine softResetOk_regWrite h fun u off => ?_
  split
  · exact softResetOk_of_off off
  · exact softResetOk_acceptCommand off n .start
  · exact softResetOk_acceptCommand off n .stop
  · exact softResetOk_acceptCommand off n .resume
  · exact softResetOk_acceptCommand off n .skip
  · exact softResetOk_acceptCommand off n .reset
  · exact softResetOk_of_off off

theorem softResetOk_statusRegisterWrite {v : Word} (h : s.softResetOk) (eq : execStatusRegisterWrite v s = .next t) :
    t.softResetOk := by
  cases eq
  exact softResetOk_regWrite h fun u off => softResetOk_of_off off

theorem softResetOk_alertRead (h : s.softResetOk) (eq : execAlertRead s = .next t) : t.softResetOk := by
  unfold execAlertRead at eq
  split at eq <;> cases eq <;> exact h

/-- A command that waits in the slot waits out of a soft reset (R189). -/
theorem softResetOk_pendingCommandTake (h : s.softResetOk) (eq : execPendingCommandTake s = .next t) : t.softResetOk := by
  unfold execPendingCommandTake at eq
  split at eq
  · rename_i n k slot
    have off : s.soft = .off := by
      by_contra on
      obtain ⟨-, -, empty⟩ := h on
      rw [slot] at empty
      cases empty
    split at eq
    · exact softResetOk_settled eq (softResetOk_of_off ((acts_takeChannelCommand n _ k).soft.trans off))
    · cases eq
  · cases eq

/-! ## The soft reset: answers -/

theorem softResetOk_fuAnswer {k : FuKind} {resp : Resp} {d : BitVec 4736} (h : s.softResetOk)
    (eq : Machine.fuAnswer k resp d s = .next t) : t.softResetOk := by
  unfold Machine.fuAnswer at eq
  split at eq
  · split at eq
    · exact softResetOk_settled eq h
    · cases eq
  · cases eq

theorem softResetOk_suReadAnswer {k : SuKind} {resp : Resp} {d : BitVec 48} (h : s.softResetOk)
    (eq : suReadAnswer k resp d s = .next t) : t.softResetOk := by
  unfold suReadAnswer at eq
  split at eq
  · split at eq
    · exact softResetOk_settled eq h
    · cases eq
  · cases eq

theorem softResetOk_suWriteAnswer {k : SuKind} {resp : WriteResp} (h : s.softResetOk)
    (eq : suWriteAnswer k resp s = .next t) : t.softResetOk := by
  unfold suWriteAnswer at eq
  split at eq
  · split at eq
    · exact softResetOk_settled eq h
    · cases eq
  · cases eq

theorem softResetOk_elementReadAnswer {resp : Resp} {d : BitVec 64} (h : s.softResetOk)
    (eq : execElementReadAnswer resp d s = .next t) : t.softResetOk := by
  unfold execElementReadAnswer at eq
  split at eq
  · exact softResetOk_settled eq h
  · cases eq

theorem softResetOk_deviceWriteAnswer {resp : WriteResp} (h : s.softResetOk)
    (eq : execDeviceWriteAnswer resp s = .next t) : t.softResetOk := by
  unfold execDeviceWriteAnswer at eq
  split at eq
  · exact softResetOk_settled eq h
  · cases eq

theorem softResetOk_walkReadAnswer {x : TuStage} {resp : Resp} {d : BitVec 64} (h : s.softResetOk)
    (eq : walkReadAnswer x resp d s = .next t) : t.softResetOk := by
  unfold walkReadAnswer at eq
  split at eq
  · split at eq
    · exact softResetOk_settled eq h
    · cases eq
  · cases eq

theorem softResetOk_flagWriteAnswer {resp : WriteResp} (h : s.softResetOk) (eq : execFlagWriteAnswer resp s = .next t) :
    t.softResetOk := by
  unfold execFlagWriteAnswer at eq
  split at eq
  · exact softResetOk_settled eq h
  · cases eq

theorem softResetOk_inArrivalOrder {act : ChanId → State → State} (acts : ∀ n s, Acts n s (act n s)) (l : List ChanId)
    (h : s.softResetOk) : (s.inArrivalOrder l act).softResetOk := by
  have acted := softResetOk_of_actsAll (acts_all act acts (arrange l.length s.arrivals l) s) h
  exact acted

theorem softResetOk_markChannels (h : s.softResetOk) (l : List ChanId) : (markChannels l s).softResetOk :=
  softResetOk_inArrivalOrder acts_goOn _ (softResetOk_of_actsAll (acts_all setMark acts_setMark l s) h)

/-- A failed write-out marks its channels, and none of them reaches RP's modes (R150). -/
theorem softResetOk_writeOutAnswered (h : s.softResetOk) (l : Line) (resp : WriteResp) :
    (writeOutAnswered l resp s).softResetOk := by
  unfold writeOutAnswered
  dsimp only
  split
  · refine softResetOk_markChannels ?_ _
    exact h
  · exact h
  · exact h

theorem softResetOk_lineWriteOutAnswer {resp : WriteResp} (h : s.softResetOk)
    (eq : execLineWriteOutAnswer resp s = .next t) : t.softResetOk := by
  unfold execLineWriteOutAnswer at eq
  split at eq
  · exact softResetOk_settled eq (softResetOk_writeOutAnswered h _ _)
  · cases eq

theorem softResetOk_errorRecordWriteAnswer {resp : WriteResp} (h : s.softResetOk)
    (eq : execErrorRecordWriteAnswer resp s = .next t) : t.softResetOk := by
  unfold execErrorRecordWriteAnswer at eq
  split at eq
  · exact softResetOk_settled eq h
  · cases eq

/-! ## The soft reset: events of the table -/

theorem softResetOk_grantTo (h : s.softResetOk) (n : ChanId) : (grantTo n s).softResetOk := by
  unfold grantTo
  dsimp only
  split <;> exact h

theorem softResetOk_grantPoint (h : s.softResetOk) (eq : execGrantPoint s = .next t) : t.softResetOk := by
  unfold execGrantPoint at eq
  split at eq
  · split at eq
    · split at eq
      · cases eq; exact softResetOk_grantTo h _
      · exact softResetOk_settled eq (softResetOk_grantTo h _)
    · cases eq
  · cases eq

theorem softResetOk_sliceCountExhausted (h : s.softResetOk) (eq : execSliceCountExhausted s = .next t) : t.softResetOk := by
  unfold execSliceCountExhausted at eq
  split at eq
  · exact softResetOk_settled eq (softResetOk_of_engages (engages_endSlice ..) h)
  · cases eq

theorem softResetOk_channelDrainComplete (h : s.softResetOk) (eq : execChannelDrainComplete s = .next t) :
    t.softResetOk := by
  unfold execChannelDrainComplete at eq
  split at eq
  · split at eq
    · exact softResetOk_settled eq (softResetOk_of_acts (acts_drainAnswered _ s.lbFree) h)
    · cases eq
  · cases eq

theorem softResetOk_engineDrained (h : s.softResetOk) : (engineDrained s).softResetOk := by
  unfold engineDrained
  split
  · exact softResetOk_of_engages (engages_endSlice ..) h
  · split <;> exact h
  · exact h

/-- The soft reset's drain ends it only from its draining: RUN and the slots stay (R189). -/
theorem softResetOk_fullDrainComplete (h : s.softResetOk) (eq : execFullDrainComplete s = .next t) : t.softResetOk := by
  unfold execFullDrainComplete at eq
  split at eq
  · split at eq
    · exact softResetOk_settled eq (softResetOk_engineDrained (s := s.lbFree) h)
    · cases eq
  · split at eq
    · rename_i due
      simp only [Bool.and_eq_true, beq_iff_eq] at due
      exact softResetOk_settled eq fun _ => h (by rw [due.2]; nofun)
    · cases eq
  · cases eq

theorem softResetOk_resetRequestsSettled (h : s.softResetOk) (eq : execResetRequestsSettled n s = .next t) :
    t.softResetOk := by
  unfold execResetRequestsSettled at eq
  split at eq
  · exact softResetOk_settled eq (softResetOk_of_acts (acts_resetGoesOn n s) h)
  · cases eq

theorem softResetOk_softResetDrain (h : s.softResetOk) (eq : execSoftResetDrain s = .next t) : t.softResetOk := by
  unfold execSoftResetDrain at eq
  split at eq
  · rename_i due
    simp only [Bool.and_eq_true, decide_eq_true_eq] at due
    exact softResetOk_settled eq fun _ => h (by rw [due.1.1.1]; nofun)
  · cases eq

theorem softResetOk_softResetClearing (eq : execSoftResetClearing s = .next t) : t.softResetOk := by
  unfold execSoftResetClearing at eq
  split at eq
  · cases eq; exact softResetOk_of_off rfl
  · cases eq

/-! ## Every command -/

theorem softResetOk_exec {c : Instr} (h : s.softResetOk) (eq : exec c s = .next t) : t.softResetOk := by
  cases c with
  | hardReset => cases eq; exact softResetOk_of_off rfl
  | resetRelease | ignoredRegisterWrite | narrowAccess => cases eq; exact h
  | controlWrite | softReset => exact softResetOk_writeControl h eq
  | anchorLoWrite v => exact softResetOk_writeAnchor (f := fun p => { p with anchorLo := v.extractLsb' 13 19 }) h eq
  | anchorHiWrite v => exact softResetOk_writeAnchor (f := fun p => { p with anchorHi := v.extractLsb' 0 8 }) h eq
  | signal => exact softResetOk_signal h eq
  | select => exact softResetOk_writeChannelCmd (code := 0) h eq
  | start => exact softResetOk_writeChannelCmd (code := 1) h eq
  | stop => exact softResetOk_writeChannelCmd (code := 2) h eq
  | resume => exact softResetOk_writeChannelCmd (code := 3) h eq
  | skip => exact softResetOk_writeChannelCmd (code := 4) h eq
  | reset => exact softResetOk_writeChannelCmd (code := 5) h eq
  | invalidCommand => exact softResetOk_writeChannelCmd h eq
  | pendingCommandTake => exact softResetOk_pendingCommandTake h eq
  | statusRegisterWrite => exact softResetOk_statusRegisterWrite h eq
  | alertRead => exact softResetOk_alertRead h eq
  | contextReadAnswer | linkReadAnswer | headerReadAnswer | bodyReadAnswer | acceptanceWriteAnswer | doneWriteAnswer
  | doneRewriteAnswer | haltStatusWriteAnswer | skippedWriteAnswer | saveWriteAnswer => exact softResetOk_fuAnswer h eq
  | waitReadAnswer | notifyReadAnswer | undoStopReadAnswer | undoResetReadAnswer | signalReadAnswer =>
    exact softResetOk_suReadAnswer h eq
  | waitWriteAnswer | notifyWriteAnswer | undoStopWriteAnswer | undoResetWriteAnswer | signalWriteAnswer =>
    exact softResetOk_suWriteAnswer h eq
  | grantPoint => exact softResetOk_grantPoint h eq
  | elementReadAnswer => exact softResetOk_elementReadAnswer h eq
  | deviceWriteAnswer => exact softResetOk_deviceWriteAnswer h eq
  | rootReadAnswer | descriptorReadAnswer | pageEntryReadAnswer => exact softResetOk_walkReadAnswer h eq
  | flagWriteAnswer => exact softResetOk_flagWriteAnswer h eq
  | lineWriteOutAnswer => exact softResetOk_lineWriteOutAnswer h eq
  | channelDrainComplete => exact softResetOk_channelDrainComplete h eq
  | fullDrainComplete => exact softResetOk_fullDrainComplete h eq
  | sliceCountExhausted => exact softResetOk_sliceCountExhausted h eq
  | errorRecordWriteAnswer => exact softResetOk_errorRecordWriteAnswer h eq
  | resetRequestsSettled => exact softResetOk_resetRequestsSettled h eq
  | softResetDrain => exact softResetOk_softResetDrain h eq
  | softResetClearing => exact softResetOk_softResetClearing eq

theorem softResetOk_step (h : s.softResetOk) (eq : step s = .next t) : t.softResetOk := by
  unfold step at eq
  split at eq
  · cases eq; exact h
  · rename_i c l _
    exact softResetOk_exec (s := { s with pending := l }) h eq

/-- Settles O57: TE alone counts, from 0 at a grant to the sixteenth element; during a soft reset no register write acts. -/
theorem sliceAndSoftResetModesStay : Obligations.SliceAndSoftResetModesStay := by
  unfold Obligations.SliceAndSoftResetModesStay
  intro s t counter soft step
  exact ⟨counterOk_step counter step, softResetOk_step soft step⟩

end Sys2Proof.Slices
end

section
/-! SUPPORT. The winner of a grant point: the channels in order after ROTOR, and the first of them at the highest priority. -/

namespace Sys2Proof.Slices

open Sys2Proof Sys2Proof.Machine Sys2Proof.Flow

variable {n m : ChanId} {s : State}

/-! ## The order after ROTOR -/

/-- How many channels stand before `n` in the order after ROTOR (R100). -/
def turnsAfter (rotor n : ChanId) : Nat := (n - rotor - 1).val

theorem turnsAfter_offset (rotor i : ChanId) : turnsAfter rotor (rotor + 1 + i) = i.val := by
  have offset : rotor + 1 + i - rotor - 1 = i := by abel
  rw [turnsAfter, offset]

theorem mem_afterRotor (rotor n : ChanId) : n ∈ afterRotor rotor :=
  List.mem_map.mpr ⟨n - rotor - 1, List.mem_finRange _, by abel⟩

/-- The channels stand in the order of their turns after ROTOR. -/
theorem afterRotor_pairwise (rotor : ChanId) :
    (afterRotor rotor).Pairwise fun a b => turnsAfter rotor a < turnsAfter rotor b := by
  refine List.pairwise_map.mpr ((List.pairwise_lt_finRange 16).imp fun {i j} lt => ?_)
  rw [turnsAfter_offset, turnsAfter_offset]
  exact lt

theorem mem_candidates : m ∈ s.candidates ↔ (s.chan m).eligible = true := by
  simp [State.candidates, mem_afterRotor]

theorem candidates_pairwise (s : State) :
    s.candidates.Pairwise fun a b => turnsAfter s.te.rotor a < turnsAfter s.te.rotor b :=
  (afterRotor_pairwise s.te.rotor).filter _

/-! ## The winner -/

/-- No eligible channel has a higher priority. -/
def Leads (s : State) (n : ChanId) : Prop := ∀ m, (s.chan m).eligible = true → (s.chan m).priority ≤ (s.chan n).priority

/-- What the choice of the winner tests. -/
theorem leads_iff :
    (s.candidates.all fun m => decide ((s.chan m).priority ≤ (s.chan n).priority)) = true ↔ Leads s n := by
  simp [Leads, mem_candidates]

/-- At a grant point there is a winner (R99, R100). -/
theorem exists_winner (point : s.atGrantPoint = true) : ∃ n, s.winner = some n := by
  have some_eligible : s.candidates ≠ [] := by
    simp only [State.atGrantPoint, Bool.and_eq_true, Bool.not_eq_true', List.isEmpty_eq_false_iff] at point
    exact point.2
  obtain ⟨n, mem, highest⟩ := Finset.exists_max_image s.candidates.toFinset (fun m => (s.chan m).priority)
    (List.toFinset_nonempty_iff _ |>.mpr some_eligible)
  have leads : Leads s n := fun m eligible => highest m (List.mem_toFinset.mpr (mem_candidates.mpr eligible))
  exact Option.isSome_iff_exists.mp (List.find?_isSome.mpr ⟨n, List.mem_toFinset.mp mem, leads_iff.mpr leads⟩)

/-- The winner has the highest priority, and of those with it the fewest turns after ROTOR (R100). -/
theorem winner_first (h : s.winner = some n) (eligible : (s.chan m).eligible = true) :
    (s.chan m).priority ≤ (s.chan n).priority
      ∧ ((s.chan m).priority = (s.chan n).priority → turnsAfter s.te.rotor n ≤ turnsAfter s.te.rotor m) := by
  obtain ⟨leads, before, after, order, passed⟩ := List.find?_eq_some_iff_append.mp h
  have leads := leads_iff.mp leads
  refine ⟨leads m eligible, fun equal => ?_⟩
  have sorted := candidates_pairwise s
  rw [order] at sorted
  obtain ⟨-, sorted, -⟩ := List.pairwise_append.mp sorted
  have mem : m ∈ before ++ n :: after := by rw [← order]; exact mem_candidates.mpr eligible
  rcases List.mem_append.mp mem with earlier | here
  · have m_leads : Leads s m := fun k hk => by rw [equal]; exact leads k hk
    simpa [leads_iff.mpr m_leads] using passed m earlier
  · rcases List.mem_cons.mp here with rfl | later
    · exact le_rfl
    · exact (List.rel_of_pairwise_cons sorted later).le

end Sys2Proof.Slices
end

section
/-! SUPPORT. The run of a slice from its grant: TE waits within it, or it ends with an element performed or a fault. -/

namespace Sys2Proof.Slices

open Sys2Proof Sys2Proof.Machine Sys2Proof.Laws Sys2Proof.Flow Sys2Proof.Records Sys2Proof.Moves

variable {n : ChanId} {m : Move} {k : Nat} {s t u : State}

/-! ## While FU and SU wait -/

/-- While FU and SU wait every internal step is TE's own, or leaves TE but for an event it hands over, and the channels. -/
theorem waits_micro (w : Waits s) (h : micro s = some t) :
    Waits t ∧ ((EngineRests s t ∧ t.chans = s.chans) ∨ teStep s = some t) := by
  rcases w.micro_cases h with ⟨b, q, te, tu, lb, rfl, none, -⟩ | step | step | step
  · exact ⟨w.congr rfl rfl, .inl ⟨⟨te, rfl, none⟩, rfl⟩⟩
  · obtain ⟨b, q, rfl, -⟩ := lbStep_frame step
    exact ⟨w.congr rfl rfl, .inl ⟨.of_eq rfl, rfl⟩⟩
  · obtain ⟨v, q, rfl, -⟩ := tuStep_frame step
    exact ⟨w.congr rfl rfl, .inl ⟨.of_eq rfl, rfl⟩⟩
  · have confined := Confined.teStep step
    exact ⟨w.congr confined.fu confined.su, .inr step⟩

theorem chan_of_chans (h : t.chans = s.chans) (m : ChanId) : t.chan m = s.chan m := congrArg (·[m.val]) h

/-! ## The slice in progress and ended -/

/-- Channel `n`, out of reset, is in its slice with a move, and `k` of its elements at least are performed. -/
structure InSlice (n : ChanId) (k : Nat) (s : State) : Prop where
  grant : s.te.grant = some n
  state : (s.chan n).state = .active
  activity : (s.chan n).activity = .slice
  reset : (s.chan n).reset = .off
  move : (s.chan n).currentMove ≠ none
  performed : k ≤ (s.chan n).performed

/-- The slice of channel `n` has ended, with more than `k` elements performed or with a fault. -/
structure Over (n : ChanId) (k : Nat) (s : State) : Prop where
  grant : s.te.grant = none
  ended : k < (s.chan n).performed ∨ (s.chan n).activity = .haltDrain

theorem InSlice.congr (h : InSlice n k s) (grant : t.te.grant = s.te.grant) (chan : t.chan n = s.chan n) : InSlice n k t where
  grant := grant.trans h.grant
  state := by rw [chan]; exact h.state
  activity := by rw [chan]; exact h.activity
  reset := by rw [chan]; exact h.reset
  move := by rw [chan]; exact h.move
  performed := by rw [chan]; exact h.performed

theorem InSlice.goes (h : InSlice n k s) (goes : Goes n s t) : InSlice n k t := by
  obtain ⟨a, b, f, v, chan⟩ := goes.chan
  exact
    { grant := goes.grant.trans h.grant
      state := by rw [chan]; exact h.state
      activity := by rw [chan]; exact h.activity
      reset := by rw [chan]; exact h.reset
      move := by rw [chan]; exact h.move
      performed := by rw [chan]; exact h.performed }

/-- A fault ends the slice with its channel's halt (R31, R94). -/
theorem InSlice.faults (h : InSlice n k s) (code : FaultCode) (va : VAddr) : Over n k (sliceFault n code va s) := by
  have ends := sliceEnd_endSlice n (some (code, va)) s
  have halts : endSlice n (some (code, va)) s = beginHalt n code va (standsReady n s) := by
    rw [endSlice_some, if_neg (by simp [h.reset])]
  refine ⟨by rw [sliceFault, ends.te]; rfl, .inr ?_⟩
  rw [sliceFault, halts, chan_beginHalt]
  rfl

/-- An element performed ends the slice, or the slice goes on (R93, R95, R103). -/
theorem InSlice.performs (h : InSlice n k s) (m : Move) (x : Bool) :
    InSlice n k (elementDone n m x s) ∨ Over n k (elementDone n m x s) := by
  by_cases last : x = true ∨ (s.chan n).remaining - 1 = 0
  · right
    have ends := sliceEnd_endSlice n none ((counted n m x s).setChan n (moveEnded (s.chan n) m x))
    obtain ⟨-, -, -, counts⟩ := moveEnded_keeps (s.chan n) m x
    have performed := congrArg (fun p => p.2.2.2.2.2.2.1) ends.progress
    simp only [progressOf, chan_setChan, counts] at performed
    rw [elementDone_ends last]
    refine ⟨by rw [ends.te]; rfl, .inl ?_⟩
    rw [performed]
    exact Nat.lt_succ_of_le h.performed
  · left
    obtain ⟨equal, goes⟩ := not_or.mp last
    rw [Bool.not_eq_true] at equal
    subst equal
    have chan : (elementDone n m false s).chan n = (s.chan n).performedElement m false := chan_elementDone goes
    exact
      { grant := by rw [elementDone_counts goes]; exact h.grant
        state := by rw [chan]; exact h.state
        activity := by rw [chan]; exact h.activity
        reset := by rw [chan]; exact h.reset
        move := by rw [chan]; exact h.move
        performed := by rw [chan]; exact Nat.le_succ_of_le h.performed }

theorem InSlice.teStep (h : InSlice n k s) (step : teStep s = some t) : InSlice n k t ∨ Over n k t := by
  obtain ⟨n', grant, advances⟩ := teStep_advances step
  obtain rfl : n = n' := Option.some.inj (h.grant.symm.trans grant)
  rcases advances with ⟨-, reset | none⟩ | ⟨-, advances⟩
  · exact absurd h.reset reset
  · exact absurd none h.move
  · cases advances with
    | goes goes => exact .inl (h.goes goes)
    | faults goes code va => exact .inr ((h.goes goes).faults code va)
    | performs goes m x => exact (h.goes goes).performs m x

/-! ## The run -/

theorem micro_slice (w : Waits s) (h : InSlice n k s ∨ Over n k s) (step : micro s = some t) :
    Waits t ∧ (InSlice n k t ∨ Over n k t) := by
  obtain ⟨w', ⟨⟨l, te, -⟩, chans⟩ | step⟩ := waits_micro w step
  · have chan := chan_of_chans chans n
    refine ⟨w', h.imp (fun slice => slice.congr (by rw [te]) chan) fun ended => ⟨?_, ?_⟩⟩
    · rw [te]; exact ended.grant
    · rw [chan]; exact ended.ended
  · rcases h with slice | ended
    · exact ⟨w', slice.teStep step⟩
    · rw [teStep_of_free ended.grant] at step
      cases step

/-- A slice runs within its command until TE waits, or to its end (R102, R103). -/
theorem settle_slice (w : Waits s) (h : InSlice n k s) : InSlice n k (settle s) ∨ Over n k (settle s) := by
  have run : Waits (settle s) ∧ (InSlice n k (settle s) ∨ Over n k (settle s)) :=
    settle_induct (fun t => Waits t ∧ (InSlice n k t ∨ Over n k t))
      (fun _ _ ⟨w, h⟩ step => micro_slice w h step) ⟨w, .inl h⟩
  exact run.2

/-! ## The grant -/

theorem rotor_grantTo (n : ChanId) (s : State) : (grantTo n s).te.rotor = n := by
  unfold grantTo
  dsimp only
  split <;> rfl

theorem reset_of_eligible (h : (s.chan n).eligible = true) : (s.chan n).reset = .off := by
  simp only [Channel.eligible, Bool.and_eq_true, beq_iff_eq] at h
  exact h.2

theorem inSlice_grantTo (eligible : (s.chan n).eligible = true) (move : (s.chan n).currentMove ≠ none) :
    InSlice n (s.chan n).performed (grantTo n s) := by
  obtain ⟨⟨grant, -⟩, -⟩ := grantTo_units n s
  have chan := chan_grantTo n s
  exact
    { grant := grant
      state := by rw [chan]
      activity := by rw [chan]
      reset := by rw [chan]; exact reset_of_eligible eligible
      move := by rw [chan]; exact move
      performed := by rw [chan] }

/-- The grant leaves TE to the step that follows the command where a RESET of the winner comes next, and else the slice runs
within its own (R101, R102). -/
theorem exec_grantPoint (point : s.atGrantPoint = true) (winner : s.winner = some n) :
    exec .grantPoint s = .next (if s.resetComes n = true then grantTo n s else settle (grantTo n s)) := by
  simp only [exec, execGrantPoint, point, winner, if_true, Machine.settled]
  split <;> rfl

/-- The slice of the winner after its grant's command. -/
theorem granted_slice (winner : s.winner = some n) (quiet : s.quietUnits) (move : (s.chan n).currentMove ≠ none)
    (ht : t = grantTo n s ∨ t = settle (grantTo n s)) :
    InSlice n (s.chan n).performed t ∨ Over n (s.chan n).performed t := by
  have slice := inSlice_grantTo (eligible_of_winner winner) move
  obtain ⟨settled, kept, -⟩ := quiet
  obtain ⟨-, fu, su, -⟩ := grantTo_units n s
  rcases ht with rfl | rfl
  · exact .inl slice
  · exact settle_slice ((Waits.of_settled settled kept).congr fu su) slice

end Sys2Proof.Slices
end

section
/-! SUPPORT. A RESET before the first element boundary: the channel in reset takes no answer, and TE ends the slice with no
element performed. -/

namespace Sys2Proof.Slices

open Sys2Proof Sys2Proof.Machine Sys2Proof.Laws Sys2Proof.Flow Sys2Proof.Commands Sys2Proof.Moves

variable {n k : ChanId} {c : Channel} {s t : State}

/-! ## Nothing reaches a channel whose reset has begun -/

section Settling

/-- A reaction of one channel that does nothing for a channel in reset leaves every such channel (R47). -/
theorem chan_of_acts (settling : (s.chan n).reset = .settling) (acts : Acts k s t)
    (still : (s.chan k).reset = .settling → t = s) : t.chan n = s.chan n := by
  by_cases same : n = k
  · subst same
    rw [still settling]
  · exact acts.others n same

variable (settling : (s.chan n).reset = .settling)
include settling

theorem chan_fuAnswered (j : FuJob) (g : Got 4736) : (fuAnswered j g s).chan n = s.chan n :=
  chan_of_acts settling (acts_fuAnswered _ j g) fun own => by simp [fuAnswered, own]

theorem chan_goOn : (goOn k s).chan n = s.chan n :=
  chan_of_acts settling (acts_goOn k s) fun own => by simp [goOn, own]

theorem chan_waitSucceeded : (waitSucceeded k s).chan n = s.chan n :=
  chan_of_acts settling (acts_waitSucceeded k s) fun own => by simp [waitSucceeded, own]

theorem chan_waitParked (parked : s.isParked k = true) : (waitParked k s).chan n = s.chan n :=
  chan_of_acts settling (acts_waitParked k s parked) fun own => by simp [waitParked, own]

theorem chan_requestFailed (code : FaultCode) : (requestFailed k code s).chan n = s.chan n :=
  chan_of_acts settling (acts_requestFailed k s code) fun own => by simp [requestFailed, own]

theorem chan_notifyPerformed : (notifyPerformed k s).chan n = s.chan n :=
  chan_of_acts settling (acts_notifyPerformed k s) fun own => by simp [notifyPerformed, own]

theorem chan_stopUndone : (stopUndone k s).chan n = s.chan n :=
  chan_of_acts settling (acts_stopUndone k s) fun own => by simp [stopUndone, own]

theorem chan_stopUndoFailed : (stopUndoFailed k s).chan n = s.chan n :=
  chan_of_acts settling (acts_stopUndoFailed k s) fun own => by simp [stopUndoFailed, own]

theorem chan_resetUndoAnswered : (resetUndoAnswered k s).chan n = s.chan n :=
  chan_of_acts settling (acts_resetUndoAnswered k s) fun own => by simp [resetUndoAnswered, own]

theorem chan_suFailed (r : SuReq) (f : SuFailure) : (suFailed r f s).chan n = s.chan n := by
  cases r with
  | wait | notify => exact chan_requestFailed settling _
  | undoStop => exact chan_stopUndoFailed settling
  | undoReset k => exact chan_resetUndoAnswered (s := s.unpark k) settling
  | signal => rfl

theorem chan_waitPerformed (i : SemId) (count : BitVec 16) : (waitPerformed k i count s).chan n = s.chan n := by
  unfold waitPerformed
  split
  · exact chan_waitSucceeded settling
  · exact chan_waitParked (s := joined k i s) settling (by simp [isParked_joined])

theorem chan_suPerformed (o : SuOp) (d : BitVec 48) : (suPerformed o d s).chan n = s.chan n := by
  have on : (s.chan n).reset ≠ .off := by rw [settling]; nofun
  have notified := fun i => chan_notifyEffects_of_reset d i o.newCount on
  unfold suPerformed
  split
  · exact chan_waitPerformed settling _ _
  · rename_i j i _
    exact (chan_notifyPerformed (s := notifyEffects d i o.newCount s) (by rw [notified]; exact settling)).trans (notified i)
  · exact notified _
  · rename_i j _
    exact chan_stopUndone (s := s.unpark j) settling
  · rename_i j _
    exact chan_resetUndoAnswered (s := s.unpark j) settling

theorem chan_suAnswered (o : SuOp) (g : Got 48) : (suAnswered o g s).chan n = s.chan n := by
  unfold suAnswered
  split
  · split
    · split
      · exact chan_suFailed (s := s.suFree) settling _ _
      · rfl
    · exact chan_suFailed (s := s.suFree) settling _ _
  · split
    · exact chan_suPerformed (s := s.suFree) settling _ _
    · exact chan_suFailed (s := s.suFree) settling _ _

theorem chan_suTake (r : SuReq) (q : List SuReq) : (suTake r q s).chan n = s.chan n := by
  unfold suTake
  dsimp only
  split
  · cases r with
    | undoStop k => exact chan_goOn (s := { s with su := { s.su with queue := q } }) settling
    | undoReset k => exact chan_resetUndoAnswered (s := { s with su := { s.su with queue := q } }) settling
    | wait | notify | signal => rfl
  · rfl

/-- An internal step is TE's, or leaves a channel whose reset has begun (R47). -/
theorem micro_settling (h : micro s = some t) : t.chan n = s.chan n ∨ teStep s = some t := by
  rcases micro_cases h with h | h | h | h | h | h | h | h | h | h | h
  · obtain ⟨e, l, b, -, -, rfl⟩ := fuHandOver_some h; exact .inl rfl
  · obtain ⟨e, l, b, -, -, rfl⟩ := suHandOver_some h; exact .inl rfl
  · obtain ⟨e, l, b, -, -, rfl⟩ := teHandOver_some h; exact .inl rfl
  · obtain ⟨e, l, b, -, -, rfl⟩ := tuHandOver_some h; exact .inl rfl
  · obtain ⟨e, l, b, -, -, rfl⟩ := lbHandOver_some h; exact .inl rfl
  · obtain ⟨e, q, -, -, rfl⟩ := sbStep_some h; exact .inl rfl
  · rcases fuStep_some h with ⟨j, g, -, -, -, rfl⟩ | ⟨j, q, -, -, -, rfl⟩
    · exact .inl (chan_fuAnswered (s := { s with fu := { s.fu with current := none, got := none } }) settling j g)
    · exact .inl rfl
  · rcases suStep_some h with ⟨o, g, -, -, -, rfl⟩ | ⟨r, q, -, -, -, rfl⟩
    · exact .inl (chan_suAnswered settling o g)
    · exact .inl (chan_suTake settling r q)
  · obtain ⟨b, q, rfl, -⟩ := lbStep_frame h; exact .inl rfl
  · obtain ⟨v, q, rfl, -⟩ := tuStep_frame h; exact .inl rfl
  · exact .inr h

end Settling

/-! ## The slice ended by the RESET -/

/-- TE stands before an element boundary of channel `n`, whose reset has begun. -/
structure BeforeBoundary (n : ChanId) (c : Channel) (s : State) : Prop where
  grant : s.te.grant = some n
  step : s.te.step = .boundary
  held : s.te.held = []
  chan : s.chan n = { c with reset := .settling }

/-- The slice of channel `n` has ended for its reset (R107). -/
structure Withdrawn (n : ChanId) (c : Channel) (s : State) : Prop where
  grant : s.te.grant = none
  counter : s.te.counter = 0
  chan : s.chan n = { c with reset := .settling, state := .ready, activity := .ready }

/-- TE's next step ends the slice (R107). -/
theorem BeforeBoundary.ends (h : BeforeBoundary n c s) : teStep s = some (standsReady n s) := by
  have settling : (s.chan n).reset = .settling := by rw [h.chan]
  have ends : elementBoundary n s = standsReady n s := by
    simp [elementBoundary, settling, endSlice_none]
  rw [← ends]
  simp [teStep, h.grant, h.held, h.step]

theorem BeforeBoundary.micro_step (h : BeforeBoundary n c s) (step : micro s = some t) :
    BeforeBoundary n c t ∨ Withdrawn n c t := by
  have own : teStep s = some t → Withdrawn n c t := fun step => by
    obtain rfl : standsReady n s = t := Option.some.inj (h.ends.symm.trans step)
    exact ⟨rfl, rfl, by rw [chan_standsReady, h.chan]⟩
  rcases micro_settling (n := n) (by rw [h.chan]) step with chan | step
  · rcases micro_engine step with ⟨l, te, none⟩ | step
    · exact .inl ⟨by rw [te]; exact h.grant, by rw [te]; exact h.step, by rw [te]; exact none h.held, chan.trans h.chan⟩
    · exact .inr (own step)
  · exact .inr (own step)

theorem Withdrawn.micro_step (h : Withdrawn n c s) (step : micro s = some t) : Withdrawn n c t := by
  have none := teStep_of_free h.grant
  rcases micro_settling (n := n) (by rw [h.chan]) step with chan | step
  · rcases micro_engine step with ⟨l, te, -⟩ | step
    · exact ⟨by rw [te]; exact h.grant, by rw [te]; exact h.counter, chan.trans h.chan⟩
    · rw [none] at step; cases step
  · rw [none] at step; cases step

/-- Within the command that resets the channel TE ends its slice (R107). -/
theorem BeforeBoundary.settles (h : BeforeBoundary n c s) : Withdrawn n c (settle s) := by
  have run : BeforeBoundary n c (settle s) ∨ Withdrawn n c (settle s) :=
    settle_induct (fun t => BeforeBoundary n c t ∨ Withdrawn n c t)
      (fun _ _ h step => h.elim (·.micro_step step) fun ended => .inr (ended.micro_step step)) (.inl h)
  refine run.resolve_left fun stands => ?_
  obtain ⟨-, -, -, -, -, -, -, -, -, -, te⟩ := (settled_iff _).mp (settle_settled s)
  rw [stands.ends] at te
  cases te

/-- Settles O37: the first of the highest priority wins, its slice runs until TE waits or it ends, and a RESET taken at its
first boundary ends it there. -/
theorem grantGoesToWinner : Obligations.GrantGoesToWinner := by
  unfold Obligations.GrantGoesToWinner
  refine ⟨fun s point => ?_, fun n s grant step held takes slot off => ?_⟩
  · obtain ⟨n, winner⟩ := exists_winner point
    refine ⟨n, _, exec_grantPoint point winner, eligible_of_winner winner, ?_, fun m => winner_first winner, ?_, ?_⟩
    · split
      · exact rotor_grantTo n s
      · exact (settle_rotor _).trans (rotor_grantTo n s)
    · intro quiet move _
      rcases granted_slice winner quiet move (ite_eq_or_eq (s.resetComes n = true) _ _) with slice | ended
      · exact .inl ⟨slice.grant, slice.state, slice.activity⟩
      · exact .inr ⟨ended.grant, ended.ended⟩
    · intro comes phase
      obtain ⟨te, -⟩ := grantTo_of_move (s := s) phase
      rw [if_pos comes, te]
      exact ⟨rfl, rfl, rfl, chan_grantTo n s⟩
  · obtain ⟨taken, -⟩ := exec_taken takes slot .reset n off
    have stands : BeforeBoundary n (s.chan n) (takeReset n (named s n)) := ⟨grant, step, held, chan_modChan _ _ _⟩
    have ended := stands.settles
    exact ⟨_, taken, ended.grant, ended.counter, ended.chan⟩

end Sys2Proof.Slices
end

section
/-! SUPPORT. The end of a slice by its count: the grant free, and the channel as the CC then leaves it. -/

namespace Sys2Proof.Slices

open Sys2Proof Sys2Proof.Machine Sys2Proof.Laws Sys2Proof.Records Sys2Proof.Moves

variable {n : ChanId} {s : State}

/-! ## What is left of the slice -/

theorem not_queued_of_not_suBusy (idle : s.suBusy n = false) {r : SuReq} (own : r.chan = some n) : r ∉ s.su.queue := by
  intro mem
  simp only [State.suBusy, Bool.or_eq_false_iff, List.any_eq_false, beq_iff_eq] at idle
  exact idle.1 r mem own

/-- With no answer in hand and no request of its own at SU, the channel is left alone once its slice has ended. -/
theorem leftAlone_endSlice (fu : s.fu.got = none) (su : s.su.got = none) (idle : s.suBusy n = false)
    (f : Option (FaultCode × VAddr)) : (endSlice n f s).leftAlone n := by
  have alone : ({ s with te := freed s.te } : State).leftAlone n := by
    refine ⟨fu, su, fun undo => ?_, nofun⟩
    rcases undo with undo | undo
    · exact absurd undo (not_queued_of_not_suBusy idle rfl)
    · exact absurd undo (not_queued_of_not_suBusy idle rfl)
  exact acts_leftAlone (acts_sliceEnded n ({ s with te := freed s.te } : State) f) alone

/-- Once a slice has ended TE stays without a grant, its counter 0 and ROTOR as it was (R103). -/
theorem settle_ended (n : ChanId) (f : Option (FaultCode × VAddr)) (s : State) :
    (settle (endSlice n f s)).te.grant = none ∧ (settle (endSlice n f s)).te.counter = 0
      ∧ (settle (endSlice n f s)).te.rotor = s.te.rotor := by
  have ends := (sliceEnd_endSlice n f s).te
  obtain ⟨l, te, -⟩ := settle_engine_of_free (s := endSlice n f s) (by rw [ends]; rfl)
  rw [te, ends]
  exact ⟨rfl, rfl, rfl⟩

/-! ## What the CC does at the slice's end -/

/-- With the mark set the channel halts (R31). -/
theorem endSlice_of_mark (off : (s.chan n).reset = .off) (mark : (s.chan n).mark = true) :
    endSlice n none s = beginHalt n .writeError 0 (standsReady n s) := by
  rw [endSlice_none]
  simp [off, mark]

/-- With a stop pending, and nothing of the channel at SU, the stop begins (R31, R41). -/
theorem endSlice_of_stop (off : (s.chan n).reset = .off) (mark : (s.chan n).mark = false)
    (stop : (s.chan n).stopPending = true) (idle : s.suBusy n = false) :
    endSlice n none s = beginStop n (standsReady n s) := by
  have idle' : (standsReady n s).suBusy n = false := idle
  rw [endSlice_none]
  simp [off, mark, stop, stopHere, idle']

/-- With neither, the channel stands READY for its next slice (R31). -/
theorem endSlice_of_list (off : (s.chan n).reset = .off) (mark : (s.chan n).mark = false)
    (stop : (s.chan n).stopPending = false) (phase : (s.chan n).phase ≠ .drain) : endSlice n none s = standsReady n s := by
  rw [endSlice_none]
  simp [off, mark, stop, phase]

/-- Settles O39: the slice's end decides, and nothing reaches the channel after it within the command. -/
theorem sliceCountEndsSlice : Obligations.SliceCountEndsSlice := by
  unfold Obligations.SliceCountEndsSlice
  intro n s grant step off phase fu su idle
  have due : exec .sliceCountExhausted s = .next (settle (endSlice n none s)) := by
    simp only [exec, execSliceCountExhausted, grant, step, settled]
  obtain ⟨free, counter, rotor⟩ := settle_ended n none s
  have rests := settle_leftAlone (leftAlone_endSlice fu su idle none)
  refine ⟨_, due, free, counter, rotor, fun mark => ⟨?_, rests.drains n ?_⟩, fun mark stop => ⟨?_, rests.drains n ?_⟩,
    fun mark stop => ?_⟩
  · rw [rests.chan, endSlice_of_mark off mark, chan_beginHalt, chan_standsReady]
    rfl
  · rw [endSlice_of_mark off mark]
    exact drain_mem_beginHalt _ _ _ _
  · rw [rests.chan, endSlice_of_stop off mark stop idle, beginStop, chan_queueLb, chan_setActivity, chan_standsReady]
  · rw [endSlice_of_stop off mark stop idle]
    simp [beginStop, State.lbRequests]
  · rw [rests.chan, endSlice_of_list off mark stop (by rw [phase]; nofun), chan_standsReady]

end Sys2Proof.Slices
end

section
/-! SUPPORT. The grant of a purge: the entries its descriptor matches, and what the command leaves of them. -/

namespace Sys2Proof.Slices

open Sys2Proof Sys2Proof.Machine Sys2Proof.Laws Sys2Proof.Flow Sys2Proof.Moves

variable {n : ChanId} {task : Task} {d : PurgeDescriptor} {s t : State}

/-! ## The invalidation -/

theorem purged_eq (e : CacheEntry) (d : PurgeDescriptor) :
    e.purged d
      = decide (d.scope = .all
        ∨ (e.space = d.space
          ∧ (d.scope = .space
            ∨ (e.region = vaRegion d.va ∧ e.segment = vaSegment d.va
              ∧ (d.scope = .segment ∨ e.page = vaPage d.va))))) := by
  unfold CacheEntry.purged
  cases d.scope with
  | all | space => simp [Bool.beq_eq_decide_eq]
  | segment | page => simp [Bool.beq_eq_decide_eq, Bool.and_assoc]

/-- A purge clears VALID in the entries that match, and changes nothing else of any (R143). -/
theorem purge_eq (e : CacheEntry) (d : PurgeDescriptor) : e.purge d = { e with valid := e.valid && !e.purged d } := by
  unfold CacheEntry.purge
  split
  · simp [CacheEntry.drop, *]
  · simp [*]

theorem getElem_purgeCache (d : PurgeDescriptor) (cache : Vector CacheSet 32) (i : Fin 32) :
    (purgeCache d cache)[i] = { cache[i] with way0 := cache[i].way0.purge d, way1 := cache[i].way1.purge d } := by
  simp [purgeCache]

theorem victim_purgeCache (d : PurgeDescriptor) (cache : Vector CacheSet 32) (i : Fin 32) :
    (purgeCache d cache)[i].victim = cache[i].victim := by
  rw [getElem_purgeCache]

theorem get_purgeCache (d : PurgeDescriptor) (cache : Vector CacheSet 32) (i : Fin 32) (w : Way) :
    (purgeCache d cache)[i].get w = (cache[i].get w).purge d := by
  rw [getElem_purgeCache]
  cases w <;> rfl

/-! ## The cache while TE waits -/

/-- While FU, SU and TE wait, and TU has no answer in hand to a request, TU's cache stays: TU may begin a walk (R115). -/
theorem settle_cache (w : Waits s) (p : paused s.te = true) (tu : s.tu.req = none ∨ s.tu.got = none) :
    (settle s).tu.cache = s.tu.cache := by
  rcases tu with req | got
  · have run : Idles s (settle s) ∧ (settle s).tu.req = none ∧ (settle s).tu.cache = s.tu.cache := by
      refine settle_induct (fun t => Idles s t ∧ t.tu.req = none ∧ t.tu.cache = s.tu.cache) ?_ ⟨.refl s, req, rfl⟩
      rintro t u ⟨idles, req, cache⟩ step
      have wt := idles.waits w
      have pt := idles.paused p
      refine ⟨idles.trans (micro_idles wt pt step), ?_⟩
      rcases wt.micro_cases step with ⟨b, q, te, tu, lb, rfl, -⟩ | step | step | step
      · exact ⟨req, cache⟩
      · obtain ⟨b, q, rfl, -⟩ := lbStep_frame step
        exact ⟨req, cache⟩
      · rw [tuStep, req] at step; cases step
      · rw [teStep_of_paused pt] at step; cases step
    exact run.2.2
  · obtain ⟨-, cache, -⟩ := (settle_idles w p).walk got
    exact cache

/-! ## The grant -/

/-- The grant of a channel in phase PURGE invalidates the entries and sends LB the full drain (R102, R109, R143). -/
structure PurgeGrant (n : ChanId) (d : PurgeDescriptor) (s t : State) : Prop where
  fu : t.fu = s.fu
  su : t.su = s.su
  tu : t.tu = { s.tu with cache := purgeCache d s.tu.cache }
  grant : t.te.grant = some n
  counter : t.te.counter = 0
  step : t.te.step = .purgeDrain
  drain : LbReq.engineDrain ∈ t.lbRequests

theorem grantTo_of_purge (phase : (s.chan n).phase = .purge) (copy : (s.chan n).task = some task) (work : task.work = .purge d) :
    PurgeGrant n d s (grantTo n s) := by
  obtain ⟨link, pauseAfter, waits, notifies, preloads, _⟩ := task
  subst work
  have purges : grantTo n s
      = beginPurge n d
          (({ s with te := { s.te with grant := some n, rotor := n, counter := 0 } } : State).modChan n fun c =>
            { c with state := .active, activity := .slice }) := by
    unfold grantTo
    dsimp only
    rw [phase, copy]
  rw [purges]
  exact ⟨rfl, rfl, rfl, rfl, rfl, rfl, by simp [beginPurge, State.lbRequests]⟩

/-- What the grant's command leaves, in either case of the RESET that may come next: the grant, idled on at most (R101). -/
theorem PurgeGrant.remains (h : PurgeGrant n d s (grantTo n s)) (still : s.isSettled) (kept : s.noneKept)
    (ht : t = grantTo n s ∨ t = settle (grantTo n s)) :
    Idles (grantTo n s) t ∧ t.tu.cache = purgeCache d s.tu.cache := by
  have cache : (grantTo n s).tu.cache = purgeCache d s.tu.cache := by rw [h.tu]
  rcases ht with rfl | rfl
  · exact ⟨.refl _, cache⟩
  · have waits : Waits (grantTo n s) := (Waits.of_settled still kept).congr h.fu h.su
    have waiting : paused (grantTo n s).te = true := by simp only [paused, h.grant, h.step]
    have tu : (grantTo n s).tu.req = none ∨ (grantTo n s).tu.got = none := by
      rw [h.tu]
      exact tu_of_settled still kept
    exact ⟨settle_idles waits waiting, (settle_cache waits waiting tu).trans cache⟩

/-- Settles O38: the grant invalidates, and within its command neither TE nor TU's cache goes on. -/
theorem purgeGrantInvalidatesMatches : Obligations.PurgeGrantInvalidatesMatches := by
  unfold Obligations.PurgeGrantInvalidatesMatches
  intro n task d s point winner still kept phase copy work
  have granted := grantTo_of_purge phase copy work
  obtain ⟨idles, cache⟩ := granted.remains still kept (ite_eq_or_eq (s.resetComes n = true) _ _)
  obtain ⟨l, te⟩ := idles.te
  refine ⟨_, exec_grantPoint point winner, ?_, ?_, ?_, (idles.chan n).trans (chan_grantTo n s),
    idles.drains _ granted.drain rfl, fun i => ⟨?_, fun w => ?_⟩⟩
  · rw [te]; exact granted.grant
  · rw [te]; exact granted.counter
  · rw [te]; exact granted.step
  · rw [cache, victim_purgeCache]
  · rw [cache, get_purgeCache, purge_eq, purged_eq]

end Sys2Proof.Slices
end

section
/-! SUPPORT. The steps of a table walk: what a region root, a segment descriptor and a page entry lead to (Tables 6-4 and 6-5). -/

namespace Sys2Proof.Walks

open Sys2Proof Sys2Proof.Machine

variable {q : TuReq} {d x entry : BitVec 64} {code : AccessCode}

/-! ## Access codes -/

theorem accessOf_eq_none_iff (c : BitVec 3) : accessOf c = none ↔ c = 3 ∨ c = 4 ∨ c = 7 := by
  revert c; decide

/-- Code 0 refuses every access, and codes 1 and 5 refuse writes (Table 6-5). -/
theorem accessOf_of_refused {c : BitVec 3} {isWrite : Bool} (h : c = 0 ∨ (isWrite = true ∧ (c = 1 ∨ c = 5))) :
    ∃ code, accessOf c = some code ∧ code.allows isWrite = false := by
  rcases h with rfl | ⟨rfl, rfl | rfl⟩
  · exact ⟨.none, rfl, rfl⟩
  · exact ⟨.read, rfl, rfl⟩
  · exact ⟨.deviceRead, rfl, rfl⟩

theorem allows_iff (c : AccessCode) (isWrite : Bool) :
    c.allows isWrite = true
      ↔ c = .readWrite ∨ c = .deviceReadWrite ∨ (isWrite = false ∧ (c = .read ∨ c = .deviceRead)) := by
  cases c <;> simp [AccessCode.allows]

theorem device_eq (c : AccessCode) : c.device = decide (c = .deviceRead ∨ c = .deviceReadWrite) := by
  cases c <;> rfl

/-! ## The region root -/

theorem rootStep_of_absent (kind : byteAt d 0 = 0) : rootStep q d = .fault .regionAbsent := by
  simp [rootStep, kind]

/-- KIND TABLE: the root's form first, then the segment's number (R115, R117). -/
theorem rootStep_of_table (kind : byteAt d 0 = 1) :
    rootStep q d
      = if 1023 < (halfAt d 2).toNat ∨ (wordAt d 4).extractLsb' 0 5 ≠ 0 then .fault .tableFormat
        else if (halfAt d 2).toNat < (vaSegment q.va).toNat then .fault .segmentRange
        else .ask (.read (tableEntry (tableBase d) (vaSegment q.va).toNat) 8) .descriptor := by
  simp [rootStep, kind]

/-- KIND DIRECT with a bad code or a bad base (R116). -/
theorem rootStep_of_badDirect (kind : byteAt d 0 = 2)
    (bad : accessOf ((byteAt d 1).extractLsb' 0 3) = none ∨ (wordAt d 4).extractLsb' 0 22 ≠ 0) :
    rootStep q d = .fault .tableFormat := by
  cases access : accessOf ((byteAt d 1).extractLsb' 0 3) with
  | none => simp [rootStep, kind, access]
  | some c =>
    have base := bad.resolve_left (by simp [access])
    simp only [rootStep, kind, access, bne_iff_ne, if_pos base]
    rfl

/-- KIND DIRECT, well formed: the code decides (R116, R119). -/
theorem rootStep_of_direct (kind : byteAt d 0 = 2) (base : (wordAt d 4).extractLsb' 0 22 = 0)
    (access : accessOf ((byteAt d 1).extractLsb' 0 3) = some code) :
    rootStep q d
      = if code.allows q.isWrite then .done (tableBase d + (q.va.extractLsb' 0 30).setWidth 40) code true true
        else .fault .access := by
  simp [rootStep, kind, access, base]

theorem rootStep_of_kind (kind : 3 ≤ (byteAt d 0).toNat) : rootStep q d = .fault .tableFormat := by
  have other : ∀ k : BitVec 8, k.toNat < 3 → byteAt d 0 ≠ k := by rintro k small rfl; omega
  have absent := other 0 (by decide)
  have table := other 1 (by decide)
  have direct := other 2 (by decide)
  simp only [rootStep, absent, table, direct, if_false]

/-! ## The segment descriptor -/

theorem descriptorStep_of_absent (present : (byteAt d 0).getLsbD 0 = false) : descriptorStep q d = .fault .segmentAbsent := by
  simp only [descriptorStep, present, Bool.not_false, if_true]

theorem descriptorStep_of_bad (present : (byteAt d 0).getLsbD 0 = true)
    (bad : accessOf ((byteAt d 1).extractLsb' 0 3) = none ∨ (wordAt d 4).extractLsb' 0 3 ≠ 0) :
    descriptorStep q d = .fault .tableFormat := by
  cases access : accessOf ((byteAt d 1).extractLsb' 0 3) with
  | none => simp only [descriptorStep, present, access, Bool.not_true, Bool.false_eq_true, if_false]
  | some c =>
    have base := bad.resolve_left (by simp [access])
    simp only [descriptorStep, present, access, Bool.not_true, Bool.false_eq_true, if_false, bne_iff_ne, if_pos base]

/-- A present and well-formed descriptor: the page's number decides (R117, R118). -/
theorem descriptorStep_of_good (present : (byteAt d 0).getLsbD 0 = true)
    (access : accessOf ((byteAt d 1).extractLsb' 0 3) ≠ none) (base : (wordAt d 4).extractLsb' 0 3 = 0) :
    descriptorStep q d
      = if (byteAt d 2).toNat < (vaPage q.va).toNat then .fault .pageRange
        else .ask (.read (tableEntry (tableBase d) (vaPage q.va).toNat) 8) .pageEntry := by
  obtain ⟨c, access⟩ := Option.ne_none_iff_exists'.mp access
  simp only [descriptorStep, present, access, base, Bool.not_true, Bool.false_eq_true, if_false, bne_self_eq_false]

/-! ## The page entry -/

theorem pageStep_of_absent (resident : (byteAt entry 0).getLsbD 0 = false) : pageStep q x entry = .fault .pageAbsent := by
  simp only [pageStep, resident, Bool.not_false, if_true]

theorem pageStep_of_refused (resident : (byteAt entry 0).getLsbD 0 = true)
    (access : accessOf ((byteAt x 1).extractLsb' 0 3) = some code) (refuses : code.allows q.isWrite = false) :
    pageStep q x entry = .fault .access := by
  simp only [pageStep, resident, access, refuses, Option.getD_some, Bool.not_true, Bool.not_false, Bool.false_eq_true, if_false,
    if_true]

/-- USED 0, or MODIFIED 0 at a write: the flags are behind (R121, Table 6-6). -/
theorem flagByte_of_behind {isWrite : Bool} {f : Byte}
    (behind : f.getLsbD 0 = false ∨ (isWrite = true ∧ f.getLsbD 1 = false)) :
    flagByte isWrite f = some (if isWrite = true ∨ f.getLsbD 1 = true then 3 else 1) := by
  rcases behind with used | ⟨write, modified⟩
  · simp [flagByte, -BitVec.getLsbD_eq_getElem, used]
  · simp [flagByte, -BitVec.getLsbD_eq_getElem, write, modified]

theorem flagByte_of_upToDate {isWrite : Bool} {f : Byte} (used : f.getLsbD 0 = true)
    (modified : isWrite = false ∨ f.getLsbD 1 = true) : flagByte isWrite f = none := by
  rcases modified with write | modified
  · simp [flagByte, -BitVec.getLsbD_eq_getElem, used, write]
  · simp [flagByte, -BitVec.getLsbD_eq_getElem, used, modified]

section Allowed

variable (resident : (byteAt entry 0).getLsbD 0 = true) (access : accessOf ((byteAt x 1).extractLsb' 0 3) = some code)
  (allows : code.allows q.isWrite = true)

include resident access allows

/-- With the flags behind, byte 1 of the entry is written (R121). -/
theorem pageStep_of_behind
    (behind : (byteAt entry 1).getLsbD 0 = false ∨ (q.isWrite = true ∧ (byteAt entry 1).getLsbD 1 = false)) :
    pageStep q x entry
      = .ask (.write (tableEntry (tableBase x) (vaPage q.va).toNat + 1) 1
          (put 0 (if q.isWrite = true ∨ (byteAt entry 1).getLsbD 1 = true then (3 : Byte) else 1))) .flag := by
  simp only [pageStep, resident, access, allows, flagByte_of_behind behind, Option.getD_some, Bool.not_true,
    Bool.false_eq_true, if_false]

/-- With the flags up to date the walk is over (R122). -/
theorem pageStep_of_upToDate (used : (byteAt entry 1).getLsbD 0 = true)
    (modified : q.isWrite = false ∨ (byteAt entry 1).getLsbD 1 = true) :
    pageStep q x entry = .done (pagePA q entry) code (q.isWrite || (byteAt entry 1).getLsbD 1) false := by
  simp only [pageStep, resident, access, allows, flagByte_of_upToDate used modified, modifiedAfter, Option.getD_some,
    Bool.not_true, Bool.false_eq_true, if_false]

end Allowed

theorem flagStep_of_okay (access : accessOf ((byteAt x 1).extractLsb' 0 3) = some code) :
    flagStep q x entry true = .done (pagePA q entry) code (q.isWrite || (byteAt entry 1).getLsbD 1) false := by
  simp [flagStep, access, modifiedAfter]

end Sys2Proof.Walks
end

section
/-! SUPPORT. An access translated: TE goes on to the line check and the read, to the drain of a device write, or to the placing of
the last element (R82, R83, R93). -/

namespace Sys2Proof.Moves

open Sys2Proof Sys2Proof.Machine Sys2Proof.Laws

variable {n : ChanId} {m : Move} {a : Access} {pa : PAddr} {s t u : State}

/-- From `s` to `t`, TE, with a read translated to `pa`, has gone no further than the read; TU is free. -/
structure Checking (n : ChanId) (a : Access) (pa : PAddr) (s t : State) : Prop where
  fu : t.fu = s.fu
  su : t.su = s.su
  chans : t.chans = s.chans
  grant : t.te.grant = some n
  got : t.te.got = none
  step : t.te.step = .lineCheck a pa ∨ t.te.step = .reading a pa
  req : t.tu.req = none
  cache : t.tu.cache = s.tu.cache

theorem Checking.micro_step (w : Waits s) (h : Checking n a pa s t) (step : micro t = some u) :
    Checking n a pa s u := by
  rcases (w.congr h.fu h.su).micro_cases step with ⟨b, p, te, tu, lb, rfl, -⟩ | step | step | step
  · exact ⟨h.fu, h.su, h.chans, h.grant, h.got, h.step, h.req, h.cache⟩
  · obtain ⟨b, p, rfl, -⟩ := lbStep_frame step
    exact ⟨h.fu, h.su, h.chans, h.grant, h.got, h.step, h.req, h.cache⟩
  · rw [tuStep, h.req] at step
    cases step
  · obtain ⟨k, -, turn⟩ := teTurn_of_teStep step
    have here := h.step
    cases turn with
    | boundary at' | exhausted at' | translated at' | placed at' => simp [at'] at here
    | answered _ has => rw [h.got] at has; cases has
    | checked at' move =>
      obtain ⟨rfl, rfl⟩ : _ = a ∧ _ = pa := by simpa [at'] using here
      exact ⟨h.fu, h.su, h.chans, h.grant, h.got, .inr rfl, h.req, h.cache⟩

/-- With a read translated TE asks LB to check its line, and gone on with it issues the read (R82). -/
theorem Turn.reads (h : Turn n s) (a : Access) :
    Checking n a pa s (settle (((served s a).setTeStep (.lineCheck a pa)).queueLb (.check pa))) :=
  settle_induct (Checking n a pa s) (fun _ _ c step => c.micro_step h.calm.waits step)
    ⟨rfl, rfl, rfl, h.grant, h.got, .inl rfl, rfl, rfl⟩

/-- TE goes on with its access translated: to the line check and the read, to the drain of a device write, or to the placing
of the last element (R82, R83, R93). -/
theorem Turn.goesOn {device direct : Bool} (h : Turn n s) (off : (s.chan n).reset = .off)
    (move : (s.chan n).currentMove = some m) (next : s.waitsAfter n m a pa device) :
    ∃ t, settle (translationAnswered n m a (.translated pa device direct) (served s a)) = t ∧ t.tu.req = none
      ∧ t.tu.cache = s.tu.cache ∧ s.goesOnWith t n m a pa device := by
  have reads := h.reads (pa := pa) a
  cases a with
  | writeDest v => exact h.writes off move next
  | fillSource | source | verifyDest =>
    exact ⟨_, rfl, reads.req, reads.cache, reads.step, congrArg (·[n.val]) reads.chans⟩

end Sys2Proof.Moves
end

section
/-! SUPPORT. MP's answer to TU: the step of the walk it leads to, and what TU and TE go on with within the same command. -/

namespace Sys2Proof.Walks

open Sys2Proof Sys2Proof.Machine Sys2Proof.Laws Sys2Proof.Records Sys2Proof.Moves

variable {q : TuReq} {m : Move} {a : Access} {s t : State} {x : TuStage} {b : StatusBlock} {p : Option MpReq}
  {o : Host.Outcome State Fault Refusal}

/-! ## The answer taken -/

/-- `s` with MP's answer to TU taken and TU at `u`; SB may have gone on. -/
def withTu (s : State) (b : StatusBlock) (p : Option MpReq) (u : TransUnit) : State :=
  { s with sb := b, mp := { s.mp with tu := none, sb := p }, tu := u }

/-- TU with the answer in hand taken is TU before the answer. -/
theorem tuHas_taken (got : s.tu.got = none) (held : s.tu.held = []) (b : StatusBlock) (p : Option MpReq) (g : Got 64) :
    (tuHas s b p g).tuGotTaken = withTu s b p s.tu := by
  have tu : ({ s.tu with got := none, held := [] } : TransUnit) = s.tu := by rw [← got, ← held]
  exact congrArg (withTu s b p) tu

/-- TU with other words of the walk latched. -/
def latching (u : TransUnit) (root descriptor entry : Option (BitVec 64)) : TransUnit :=
  { u with root := root, descriptor := descriptor, pageEntry := entry }

/-- With the outcome `o` TU has taken the step `y` of its walk, the words read so far latched, and the part has settled. -/
def StepsTo (s : State) (q : TuReq) (y : WalkNext) (o : Host.Outcome State Fault Refusal) : Prop :=
  ∃ b p root descriptor entry,
    o = .next (settle (walkNext q y (withTu s b p (latching s.tu root descriptor entry))))

theorem rootRead_steps (h : s.tuAwaits q .root) (resp : Resp) (d : BitVec 64) :
    StepsTo s q (if goodData resp then rootStep q d else .fault .walkError) (exec (.rootReadAnswer resp d) s) := by
  obtain ⟨b, p, eq, -⟩ := walkReadAnswer_next h resp d
  obtain ⟨-, ⟨-, -, -, held, -⟩, -, -, stage, got, -⟩ := h
  refine ⟨b, p, some d, s.tu.descriptor, s.tu.pageEntry, Eq.trans eq ?_⟩
  simp only [tuAnswered, tuHas_taken got held, withTu, stage, latching]

theorem descriptorRead_steps (h : s.tuAwaits q .descriptor) (resp : Resp) (d : BitVec 64) :
    StepsTo s q (if goodData resp then descriptorStep q d else .fault .walkError) (exec (.descriptorReadAnswer resp d) s) := by
  obtain ⟨b, p, eq, -⟩ := walkReadAnswer_next h resp d
  obtain ⟨-, ⟨-, -, -, held, -⟩, -, -, stage, got, -⟩ := h
  refine ⟨b, p, s.tu.root, some d, s.tu.pageEntry, Eq.trans eq ?_⟩
  simp only [tuAnswered, tuHas_taken got held, withTu, stage, latching]

theorem pageEntryRead_steps (h : s.tuAwaits q .pageEntry) (resp : Resp) (d : BitVec 64) :
    StepsTo s q (if goodData resp then pageStep q (s.tu.descriptor.getD 0) d else .fault .walkError)
      (exec (.pageEntryReadAnswer resp d) s) := by
  obtain ⟨b, p, eq, -⟩ := walkReadAnswer_next h resp d
  obtain ⟨-, ⟨-, -, -, held, -⟩, -, -, stage, got, -⟩ := h
  refine ⟨b, p, s.tu.root, s.tu.descriptor, some d, Eq.trans eq ?_⟩
  simp only [tuAnswered, tuHas_taken got held, withTu, stage, latching]

theorem flagWrite_steps (h : s.tuAwaits q .flag) (resp : WriteResp) :
    StepsTo s q (flagStep q (s.tu.descriptor.getD 0) (s.tu.pageEntry.getD 0) (asResp resp == .okay))
      (exec (.flagWriteAnswer resp) s) := by
  obtain ⟨b, p, eq, -⟩ := flagWriteAnswer_next h resp
  obtain ⟨-, ⟨-, -, -, held, -⟩, -, -, stage, got, -⟩ := h
  have kept : latching s.tu s.tu.root s.tu.descriptor s.tu.pageEntry = s.tu := rfl
  refine ⟨b, p, s.tu.root, s.tu.descriptor, s.tu.pageEntry, Eq.trans eq ?_⟩
  simp only [kept, tuAnswered, tuHas_taken got held, withTu, stage]

/-! ## A further request -/

/-- The stage of a further request of the walk, after the root's. -/
def asksFurther : TuStage → Bool
  | .descriptor | .pageEntry | .flag => true
  | .idle | .begin | .root | .reply _ => false

/-- TE waits for TU while TU has no answer for it. -/
theorem teStep_of_noReply (te : t.te = s.te) (lb : t.lb = s.lb) (chans : t.chans = s.chans)
    (reply : ∀ y, t.tu.stage ≠ .reply y)
    (h : teStep s = none) : teStep t = none := by
  have engine : t.engineAtLb = s.engineAtLb := by simp [State.engineAtLb, lb]
  have chan : ∀ k, t.chan k = s.chan k := fun k => congrArg (·[k.val]) chans
  unfold teStep at h ⊢
  rw [te]
  simp only [chan, engine]
  (repeat' split at h) <;> simp_all

/-- TU asks MP for the next word of its walk, or for the flag write, and every unit waits but SB (R114). -/
theorem StepsTo.asks {req : MpReq} {y : TuStage} (h : StepsTo s q (.ask req y) o) (wait : s.tuAwaits q x)
    (further : asksFurther y = true) :
    ∃ t, o = .next t ∧ t.tu.stage = y ∧ t.tu.cache = s.tu.cache ∧ t.mp.tu = some req ∧ (∀ k, t.chan k = s.chan k)
      ∧ t.te = s.te := by
  obtain ⟨b, p, root, descriptor, entry, rfl⟩ := h
  obtain ⟨settled, kept, -, req', -, got, -⟩ := wait
  obtain ⟨-, -, -, -, -, -, fu, su, lb, -, te⟩ := (settled_iff s).mp settled
  have begins : y ≠ .begin := by rintro rfl; cases further
  have reply : ∀ r, y ≠ .reply r := by rintro r rfl; cases further
  have ⟨_, _, _, held, _⟩ := kept
  have tu : tuStep (walkNext q (.ask req y) (withTu s b p (latching s.tu root descriptor entry))) = none := by
    simp [tuStep, walkNext, withTu, latching, req', got, held, begins]
  obtain ⟨b', p', eq⟩ := settle_sbAlone
    (s := walkNext q (.ask req y) (withTu s b p (latching s.tu root descriptor entry))) kept
    (fuStep_none (s := s) rfl fu) (suStep_none (s := s) rfl su) (lbStep_none (s := s) rfl lb) tu
    (teStep_of_noReply (s := s) rfl rfl rfl reply te)
  rw [eq]
  exact ⟨_, rfl, rfl, rfl, rfl, fun _ => rfl, rfl⟩

/-! ## The end of the walk -/

/-- A read of the walk faults when it fails, or by what is found in its word (R125). -/
theorem read_faults {resp : Resp} {y : WalkNext} {code : FaultCode} {found : Prop}
    (cause : goodData resp = false ∧ code = .walkError ∨ goodData resp = true ∧ found) (step : found → y = .fault code) :
    (if goodData resp then y else .fault .walkError) = .fault code := by
  rcases cause with ⟨failed, rfl⟩ | ⟨good, cause⟩
  · rw [if_neg (by simp [failed])]
  · rw [if_pos good, step cause]

/-- `s` with MP's answer to TU taken and the cache replaced; SB may have gone on. -/
def withCache (s : State) (b : StatusBlock) (p : Option MpReq) (cache : Vector CacheSet 32) : State :=
  withTu s b p { s.tu with cache := cache }

/-- TU with an answer for TE, and a walk's end behind it. -/
structure Replies (q : TuReq) (y : TuAnswer) (u : TransUnit) : Prop where
  req : u.req = some q
  stage : u.stage = .reply y
  upgrade : u.upgrade = none
  got : u.got = none
  held : u.held = []

/-- TE, taking TU's answer, frees TU (R81). -/
theorem translationAnswered_withTu {y : TuAnswer} {u : TransUnit} (r : Replies q y u) (held : s.tu.held = [])
    (step : s.te.step = .translating a) (n : ChanId) :
    translationAnswered n m a y (withTu s b p u) = translationAnswered n m a y (served (withCache s b p u.cache) a) := by
  obtain ⟨-, -, upgrade, got, kept⟩ := r
  calc
    _ = translationAnswered n m a y (withTu s b p
          { u with req := none, stage := .idle, root := none, descriptor := none, pageEntry := none }) := rfl
    _ = _ := by simp [served, withCache, withTu, upgrade, got, kept, held, ← step]

/-- TE takes TU's answer at once, and then it is its turn (R81). -/
theorem walk_replies {y : TuAnswer} {u : TransUnit} (h : s.walkAwaits q x m a) (r : Replies q y u) (b : StatusBlock)
    (p : Option MpReq) :
    ∃ b' p', settle (withTu s b p u) = settle (translationAnswered q.chan m a y (served (withCache s b' p' u.cache) a))
      ∧ Turn q.chan (withCache s b' p' u.cache) := by
  obtain ⟨⟨settled, kept, -, req, -, got, -⟩, -, -, teGot, grant, step, move, -⟩ := h
  obtain ⟨-, -, -, -, -, -, -, -, lb, tu, -⟩ := (settled_iff s).mp settled
  have waits := Waits.of_settled settled kept
  obtain ⟨k1, k2, k3, k4, k5⟩ := kept
  obtain ⟨b', p', eq, calm, -⟩ := settle_sb (s := withTu s b p u) (waits.congr rfl rfl) ⟨k1, k2, k3, r.held, k5⟩
  change settle (withTu s b p u) = settle (withTu s b' p' u) at eq
  change Calm (withTu s b' p' u) at calm
  have lb' : lbStep (withTu s b' p' u) = none := lbStep_none (s := s) rfl lb
  have still : tuStep (withTu s b' p' u) = none := by
    simp [tuStep, withTu, r.req, r.held, r.got, r.stage]
  have acts : teStep (withTu s b' p' u) = some (translationAnswered q.chan m a y (withTu s b' p' u)) := by
    have move' : ((withTu s b' p' u).chan q.chan).currentMove = some m := move
    have te : (withTu s b' p' u).te = s.te := rfl
    have tu : (withTu s b' p' u).tu = u := rfl
    simp [teStep, te, tu, grant, k3, step, move', r.stage, r.held]
  refine ⟨b', p', ?_, calm.congr rfl rfl rfl rfl (k4.trans r.held.symm) rfl, lbStep_none (s := s) rfl lb, ?_, grant, teGot⟩
  · rw [eq, calm.te lb' still acts, translationAnswered_withTu r k4 step]
  · simpa [tuStep, withCache, withTu, req, got, k4] using tu

/-- A walk that faults ends the slice at the address of the access, and drops the entry of a dirty upgrade (R137, R141). -/
theorem StepsTo.faults {y : WalkNext} {code : FaultCode} (h : StepsTo s q y o) (fault : y = .fault code)
    (wait : s.walkAwaits q x m a) :
    ∃ t, o = .next t ∧ t.tu.cache = s.faultedCache q
      ∧ t.sliceFaults q.chan (s.chan q.chan) code (a.va m (s.chan q.chan)) := by
  subst fault
  obtain ⟨b, p, root, descriptor, entry, rfl⟩ := h
  have wait' := wait
  obtain ⟨⟨-, ⟨-, -, -, held, -⟩, -, req, -, got, -⟩, -, -, -, -, -, -, off, -⟩ := wait'
  obtain ⟨b', p', eq, turn⟩ := walk_replies wait
    (u := (latching s.tu root descriptor entry).walkFault q code) (y := .fault code) ⟨req, rfl, rfl, got, held⟩ b p
  obtain ⟨faults, cache⟩ := settle_sliceFault (turn_served turn a).calm.waits off code (a.va m (s.chan q.chan))
  exact ⟨_, congrArg Host.Outcome.next eq, cache rfl, faults⟩

/-- A walk that succeeds fills the cache, or refills the way of a dirty upgrade, and TE goes on (R124, R138, R141). -/
theorem StepsTo.fills {pa : PAddr} {code : AccessCode} {modified direct : Bool}
    (h : StepsTo s q (.done pa code modified direct) o) (wait : s.walkAwaits q x m a)
    (next : s.waitsAfter q.chan m a pa code.device) :
    ∃ t, o = .next t ∧ t.tu.req = none ∧ t.tu.cache = s.filledCache q (filledEntry q pa code modified direct)
      ∧ s.goesOnWith t q.chan m a pa code.device := by
  obtain ⟨b, p, root, descriptor, entry, rfl⟩ := h
  have wait' := wait
  obtain ⟨⟨-, ⟨-, -, -, held, -⟩, -, req, -, got, -⟩, -, -, -, -, -, move, off, -⟩ := wait'
  obtain ⟨b', p', eq, turn⟩ := walk_replies wait
    (u := (latching s.tu root descriptor entry).walkDone q pa code modified direct)
    (y := .translated pa code.device direct) ⟨req, rfl, rfl, got, held⟩ b p
  obtain ⟨t, eq', free, cache, goes⟩ := turn.goesOn (direct := direct) off move next
  exact ⟨t, congrArg Host.Outcome.next (eq.trans eq'), free, cache, goes⟩

end Sys2Proof.Walks
end

section
/-! SUPPORT. The obligations on a walk: its further requests, its fill and its faults. -/

namespace Sys2Proof.Walks

open Sys2Proof Sys2Proof.Machine

/-- Settles O45: each word read leads to its step of the walk, which asks MP for the next. -/
theorem walkStepsAskForNextEntry : Obligations.WalkStepsAskForNextEntry := by
  unfold Obligations.WalkStepsAskForNextEntry
  intro q resp d s good
  refine ⟨fun wait kind limit base range => ?_, fun wait present access base range => ?_,
    fun x code wait word access allows resident behind => ?_⟩
  · have steps := rootRead_steps wait resp d
    rw [if_pos good, rootStep_of_table kind, if_neg (by simp [base]; omega), if_neg (by omega)] at steps
    exact steps.asks wait rfl
  · have steps := descriptorRead_steps wait resp d
    rw [if_pos good, descriptorStep_of_good present access base, if_neg (by omega)] at steps
    exact steps.asks wait rfl
  · have steps := pageEntryRead_steps wait resp d
    rw [if_pos good, word, Option.getD_some, pageStep_of_behind resident access allows behind] at steps
    exact steps.asks wait rfl

/-- Settles O46: the page entry, the flag write and the DIRECT root each end the walk well, and TE then goes on. -/
theorem walkFillsCacheAndGoesOn : Obligations.WalkFillsCacheAndGoesOn := by
  unfold Obligations.WalkFillsCacheAndGoesOn
  refine ⟨by decide, allows_iff, ?_⟩
  intro q m a x entry code pa resp s dev entryOf hpa good hdev hentry
  obtain rfl : dev = code.device := hdev.trans (device_eq code).symm
  have filled : ∀ at' modified direct, filledEntry q at' code modified direct = entryOf at' modified direct :=
    fun at' modified direct => (hentry at' modified direct).symm
  obtain rfl : pa = pagePA q entry := hpa
  refine ⟨fun word access next => ⟨fun wait allows resident used modified => ?_, fun wait page => ?_⟩,
    fun d direct wait kind base access allows hdirect next => ?_⟩
  · have steps := pageEntryRead_steps wait.1 resp entry
    rw [if_pos good, word, Option.getD_some, pageStep_of_upToDate resident access allows used modified] at steps
    exact filled _ _ _ ▸ steps.fills wait next
  · have steps := flagWrite_steps wait.1 .okay
    rw [word, page, Option.getD_some, Option.getD_some] at steps
    exact filled _ _ _ ▸ StepsTo.fills (flagStep_of_okay access ▸ steps) wait next
  · obtain rfl : direct = tableBase d + (q.va.extractLsb' 0 30).setWidth 40 := hdirect
    have steps := rootRead_steps wait.1 resp d
    rw [if_pos good, rootStep_of_direct kind base access, if_pos allows] at steps
    exact filled _ _ _ ▸ steps.fills wait next

/-- Settles O47: word by word, the checks that fail; each ends the walk and with it the slice. -/
theorem walkFaultEndsSlice : Obligations.WalkFaultEndsSlice := by
  unfold Obligations.WalkFaultEndsSlice
  rintro q m a resp d va s bad refused rfl hbad hrefused
  have noCode : ∀ {x}, bad x → accessOf ((byteAt x 1).extractLsb' 0 3) = none :=
    fun h => (accessOf_eq_none_iff _).mpr ((hbad _).mp h)
  have refuses : ∀ {x}, refused x → ∃ c, accessOf ((byteAt x 1).extractLsb' 0 3) = some c ∧ c.allows q.isWrite = false :=
    fun h => accessOf_of_refused ((hrefused _).mp h)
  refine ⟨fun wait code cause => ?_, fun wait code cause => ?_, fun wait code cause => ?_, fun wait => ?_⟩
  · refine (rootRead_steps wait.1 resp d).faults (read_faults cause fun cause => ?_) wait
    rcases cause with ⟨kind, rfl⟩ | ⟨kind, rfl⟩ | ⟨kind, form, rfl⟩ | ⟨kind, limit, base, range, rfl⟩ | ⟨kind, form, rfl⟩
      | ⟨kind, base, no, rfl⟩
    · exact rootStep_of_absent kind
    · exact rootStep_of_kind kind
    · rw [rootStep_of_table kind, if_pos form]
    · rw [rootStep_of_table kind, if_neg (by simp [base]; omega), if_pos range]
    · exact rootStep_of_badDirect kind (form.imp_left noCode)
    · obtain ⟨c, access, refuses⟩ := refuses no
      rw [rootStep_of_direct kind base access, if_neg (by simp [refuses])]
  · refine (descriptorRead_steps wait.1 resp d).faults (read_faults cause fun cause => ?_) wait
    rcases cause with ⟨absent, rfl⟩ | ⟨present, form, rfl⟩ | ⟨present, form, base, range, rfl⟩
    · exact descriptorStep_of_absent absent
    · exact descriptorStep_of_bad present (form.imp_left noCode)
    · rw [descriptorStep_of_good present (fun missing => form ((hbad d).mpr ((accessOf_eq_none_iff _).mp missing))) base,
        if_pos range]
  · refine (pageEntryRead_steps wait.1 resp d).faults (read_faults cause fun cause => ?_) wait
    rcases cause with ⟨absent, rfl⟩ | ⟨x, resident, word, no, rfl⟩
    · exact pageStep_of_absent absent
    · obtain ⟨c, access, refuses⟩ := refuses no
      rw [word, Option.getD_some, pageStep_of_refused resident access refuses]
  · exact (flagWrite_steps wait.1 .error).faults rfl wait

end Sys2Proof.Walks
end

section
/-! SUPPORT. The sets of the cache: the way a fill takes, and what keeps the keys of a set distinct (R132, R138, R142). -/

namespace Sys2Proof.Cache

open Sys2Proof Sys2Proof.Machine

variable {c d : CacheSet} {e f : CacheEntry} {q : TuReq} {i : Fin 32} {v w : Way} {space : BitVec 6} {va : VAddr}

/-! ## The ways of a set -/

@[simp] theorem get_put (c : CacheSet) (w : Way) (e : CacheEntry) : (c.put w e).get w = e := by cases w <;> rfl

@[simp] theorem get_other_put (c : CacheSet) (w : Way) (e : CacheEntry) : (c.put w e).get w.other = c.get w.other := by
  cases w <;> rfl

theorem eq_or_eq_other (v w : Way) : v = w ∨ v = w.other := by cases v <;> cases w <;> decide

theorem eq_other_of_ne (h : v ≠ w) : v = w.other := (eq_or_eq_other v w).resolve_left h

theorem some_ne_some_other (w : Way) : some w ≠ some w.other := by cases w <;> decide

/-! ## The way a fill takes -/

theorem fill_of_invalid0 (h : c.way0.valid = false) (e : CacheEntry) : c.fill e = c.put .way0 e := by
  simp [CacheSet.fill, h]

theorem fill_of_invalid1 (h : c.way0.valid = true) (h' : c.way1.valid = false) (e : CacheEntry) :
    c.fill e = c.put .way1 e := by
  simp [CacheSet.fill, h, h']

theorem fill_of_full (h : c.way0.valid = true) (h' : c.way1.valid = true) (e : CacheEntry) :
    c.fill e = { c.put c.victim e with victim := c.victim.other } := by
  simp [CacheSet.fill, h, h']

/-- Settles O48: an invalid way first, way 0 before way 1, else the way the next-victim bit names. -/
theorem cacheFillOrder : Obligations.CacheFillOrder := by
  unfold Obligations.CacheFillOrder
  intro c e
  refine ⟨fun h0 => fill_of_invalid0 h0 e, fun h0 h1 => fill_of_invalid1 h0 h1 e, fun h0 h1 bit => ?_, fun h0 h1 bit => ?_⟩
  · rw [fill_of_full h0 h1, bit]; rfl
  · rw [fill_of_full h0 h1, bit]; rfl

/-- Whichever way a fill takes, it replaces that way alone. -/
theorem fill_puts (c : CacheSet) (e : CacheEntry) : ∃ w x, c.fill e = { c.put w e with victim := x } := by
  cases h0 : c.way0.valid with
  | false => exact ⟨.way0, c.victim, fill_of_invalid0 h0 e⟩
  | true =>
    cases h1 : c.way1.valid with
    | false => exact ⟨.way1, c.victim, fill_of_invalid1 h0 h1 e⟩
    | true => exact ⟨c.victim, c.victim.other, fill_of_full h0 h1 e⟩

/-! ## Keys -/

theorem matchesKey_iff :
    e.matchesKey space va = true ↔ e.valid = true ∧ e.space = space ∧ e.region = vaRegion va ∧ e.segment = vaSegment va
      ∧ e.page = vaPage va := by
  simp [CacheEntry.matchesKey, and_assoc]

theorem matchesKey_of_invalid (h : e.valid = false) : e.matchesKey space va = false := by
  simp [CacheEntry.matchesKey, h]

@[simp] theorem matchesKey_drop (e : CacheEntry) : e.drop.matchesKey space va = false := matchesKey_of_invalid rfl

/-- A valid entry stands in the set of its key (R132). -/
def Placed (e : CacheEntry) (i : Fin 32) : Prop := e.valid = true → setIndex e.segment e.page = i

/-- Two valid entries hold one key (R142). -/
def Clash (e f : CacheEntry) : Prop :=
  e.valid = true ∧ f.valid = true ∧ e.space = f.space ∧ e.region = f.region ∧ e.segment = f.segment ∧ e.page = f.page

theorem Clash.symm (h : Clash e f) : Clash f e := by
  obtain ⟨he, hf, space, region, segment, page⟩ := h
  exact ⟨hf, he, space.symm, region.symm, segment.symm, page.symm⟩

theorem distinct_iff (w : Way) :
    c.distinct i ↔ Placed (c.get w) i ∧ Placed (c.get w.other) i ∧ ¬Clash (c.get w) (c.get w.other) := by
  cases w with
  | way0 => rfl
  | way1 =>
    refine ⟨fun ⟨h0, h1, apart⟩ => ⟨h1, h0, fun clash => apart clash.symm⟩, fun ⟨h1, h0, apart⟩ => ?_⟩
    exact ⟨h0, h1, fun clash => apart (Clash.symm clash)⟩

theorem placed_filledEntry (q : TuReq) (pa : PAddr) (a : AccessCode) (modified direct : Bool) :
    Placed (filledEntry q pa a modified direct) q.set := fun _ => rfl

/-- An entry that holds the key of a walk's fill is one that its request's lookup finds. -/
theorem matchesKey_of_clash {pa : PAddr} {a : AccessCode} {modified direct : Bool}
    (h : Clash (filledEntry q pa a modified direct) f) : f.matchesKey q.space q.va = true := by
  obtain ⟨-, valid, space, region, segment, page⟩ := h
  exact matchesKey_iff.mpr ⟨valid, space.symm, region.symm, segment.symm, page.symm⟩

/-- A walk's entry put where the other way does not hold its key leaves the keys distinct (R137, R141). -/
theorem distinct_put (h : c.distinct q.set) (free : (c.get w.other).matchesKey q.space q.va = false) (pa : PAddr)
    (a : AccessCode) (modified direct : Bool) : (c.put w (filledEntry q pa a modified direct)).distinct q.set := by
  obtain ⟨-, other, -⟩ := (distinct_iff w).mp h
  rw [distinct_iff w, get_put, get_other_put]
  refine ⟨placed_filledEntry q pa a modified direct, other, fun clash => ?_⟩
  rw [matchesKey_of_clash clash] at free
  cases free

/-! ## Entries dropped -/

/-- Every valid entry of `d` stands in `c`, in the same way: entries have at most been dropped. -/
def Dropped (c d : CacheSet) : Prop := ∀ w, (d.get w).valid = true → d.get w = c.get w

theorem Dropped.refl (c : CacheSet) : Dropped c c := fun _ _ => rfl

theorem dropped_invalid (c : CacheSet) : Dropped c .invalid := by
  intro w valid
  cases w <;> cases valid

theorem dropped_put_drop (c : CacheSet) (w : Way) : Dropped c (c.put w (c.get w).drop) := by
  intro v valid
  rcases eq_or_eq_other v w with rfl | rfl
  · rw [get_put] at valid; cases valid
  · exact get_other_put ..

theorem dropped_lookup (c : CacheSet) (space : BitVec 6) (va : VAddr) : Dropped c (c.lookup space va).set := by
  have kept : ∀ (b : Bool) (e : CacheEntry), (if b then e.drop else e).valid = true → (if b then e.drop else e) = e := by
    rintro (_ | _) e valid
    · rfl
    · cases valid
  intro w
  cases w with
  | way0 => exact kept _ c.way0
  | way1 => exact kept _ c.way1

/-- Dropping entries brings up no key. -/
theorem Dropped.matchesKey (h : Dropped c d) (free : (c.get w).matchesKey space va = false) :
    (d.get w).matchesKey space va = false := by
  cases valid : (d.get w).valid with
  | false => exact matchesKey_of_invalid valid
  | true => rw [h w valid]; exact free

theorem Dropped.distinct (h : Dropped c d) (distinct : c.distinct i) : d.distinct i := by
  obtain ⟨p0, p1, apart⟩ := (distinct_iff .way0).mp distinct
  have placed : ∀ w, Placed (c.get w) i → Placed (d.get w) i := by
    intro w p valid
    have same := h w valid
    rw [same] at valid ⊢
    exact p valid
  refine (distinct_iff .way0).mpr ⟨placed _ p0, placed _ p1, fun clash => apart ?_⟩
  have ⟨v0, v1, _⟩ := clash
  rwa [h _ v0, h _ v1] at clash

/-! ## Lookups -/

/-- After a lookup no way but the one hit holds the key (R133, R134). -/
theorem lookup_free (c : CacheSet) (space : BitVec 6) (va : VAddr) (miss : (c.lookup space va).hit ≠ some w) :
    ((c.lookup space va).set.get w).matchesKey space va = false := by
  cases w with
  | way0 =>
    cases key : c.way0.matchesKey space va <;> cases parity : c.way0.parityOk <;>
      simp_all [CacheSet.lookup, CacheSet.get]
  | way1 =>
    cases key : c.way1.matchesKey space va <;> cases parity : c.way1.parityOk <;>
      simp_all [CacheSet.lookup, CacheSet.get]

/-- A lookup that leads to a walk leaves to it the way hit, which is a dirty upgrade's, or none (R137, R140). -/
theorem upgrade_of_walking {l : Lookup} (h : (lookupStage l q).1.walking = true) : (lookupStage l q).2 = l.hit := by
  unfold lookupStage at h ⊢
  cases hit : l.hit with
  | none => rfl
  | some w =>
    rw [hit] at h
    dsimp only at h ⊢
    split_ifs at h ⊢
    · cases h
    · rfl
    · cases h

end Sys2Proof.Cache
end

section
/-! SUPPORT. What TU does to its cache, asked or at a step of its walk, keeps the keys distinct (R132, R137, R141, R142). -/

namespace Sys2Proof.Cache

open Sys2Proof Sys2Proof.Machine

variable {q : TuReq} {u v : TransUnit} {s t : State}

/-! ## The keys of TU's cache -/

/-- The keys of the cache are distinct, and so they are after the fill of the walk in progress. -/
def KeysOk (u : TransUnit) : Prop :=
  (∀ i : Fin 32, u.cache[i].distinct i) ∧ ∀ q, u.req = some q → u.stage.walking = true → u.keyFree q

theorem cacheOk_iff (s : State) : s.cacheOk ↔ KeysOk s.tu := Iff.rfl

/-- A walk's key is free where no way but the one of a dirty upgrade holds it (R137, R141). -/
theorem keyFree_iff :
    u.keyFree q ↔ ∀ w, u.upgrade ≠ some w → (u.cache[q.set].get w).matchesKey q.space q.va = false := by
  unfold TransUnit.keyFree
  cases u.upgrade with
  | none =>
    refine ⟨fun ⟨h0, h1⟩ w _ => ?_, fun h => ⟨h .way0 nofun, h .way1 nofun⟩⟩
    cases w with
    | way0 => exact h0
    | way1 => exact h1
  | some w =>
    refine ⟨fun h v ne => ?_, fun h => h w.other (some_ne_some_other w)⟩
    rw [eq_other_of_ne fun same => ne (congrArg some same.symm)]
    exact h

/-- Entries dropped, and a request that stays or is answered, break no key. -/
theorem KeysOk.of_dropped (h : KeysOk u) (dropped : ∀ i : Fin 32, Dropped u.cache[i] v.cache[i])
    (walk : v.stage.walking = true → u.stage.walking = true) (req : v.req = u.req) (upgrade : v.upgrade = u.upgrade) :
    KeysOk v := by
  obtain ⟨distinct, free⟩ := h
  refine ⟨fun i => (dropped i).distinct (distinct i), fun q asked walking => keyFree_iff.mpr fun w kept => ?_⟩
  rw [req] at asked
  rw [upgrade] at kept
  exact (dropped q.set).matchesKey (keyFree_iff.mp (free q asked (walk walking)) w kept)

/-- With no walk in progress the cache alone counts. -/
theorem keysOk_of_still (distinct : ∀ i : Fin 32, u.cache[i].distinct i) (still : u.stage.walking = false) : KeysOk u :=
  ⟨distinct, fun q _ walking => by rw [still] at walking; cases walking⟩

theorem distinct_set {cache : Vector CacheSet 32} {j : Fin 32} {c : CacheSet} (h : ∀ i : Fin 32, cache[i].distinct i)
    (hc : c.distinct j) (i : Fin 32) : (cache.set j c)[i].distinct i := by
  rcases eq_or_ne j i with rfl | ne
  · simpa using hc
  · have other := Vector.getElem_set_ne (xs := cache) (x := c) j.isLt i.isLt (fun e => ne (Fin.ext e))
    have same : (cache.set j c)[i] = cache[i] := other
    rw [same]
    exact h i

/-! ## TU asked -/

/-- TU asked drops entries at most, and begins a walk only for a key that its lookup has left free (R133, R134, R137). -/
theorem KeysOk.ask (h : KeysOk u) (q : TuReq) : KeysOk (u.ask q) := by
  obtain ⟨distinct, -⟩ := h
  refine ⟨distinct_set distinct ((dropped_lookup _ q.space q.va).distinct (distinct q.set)), fun q' asked walking => ?_⟩
  obtain rfl : q = q' := Option.some.inj asked
  have hit : (u.ask q).upgrade = (u.cache[q.set].lookup q.space q.va).hit := upgrade_of_walking walking
  have looked : (u.ask q).cache[q.set] = (u.cache[q.set].lookup q.space q.va).set := by simp [TransUnit.ask]
  refine keyFree_iff.mpr fun w kept => ?_
  rw [looked]
  exact lookup_free _ _ _ (by rwa [hit] at kept)

/-! ## The walk -/

/-- A fault of a walk drops the entry of a dirty upgrade at most (R137, R141). -/
theorem KeysOk.walkFault (h : KeysOk u) (q : TuReq) (code : FaultCode) : KeysOk (u.walkFault q code) := by
  refine keysOk_of_still ?_ rfl
  obtain ⟨distinct, -⟩ := h
  unfold TransUnit.walkFault
  dsimp only
  cases u.upgrade with
  | none => exact distinct
  | some w => exact distinct_set distinct ((dropped_put_drop _ w).distinct (distinct q.set))

/-- The fill of a walk whose key is free, or the refill of its dirty upgrade, leaves the keys distinct (R138, R141). -/
theorem KeysOk.walkDone (h : KeysOk u) (free : u.keyFree q) (pa : PAddr) (a : AccessCode) (modified direct : Bool) :
    KeysOk (u.walkDone q pa a modified direct) := by
  refine keysOk_of_still ?_ rfl
  obtain ⟨distinct, -⟩ := h
  rw [keyFree_iff] at free
  unfold TransUnit.walkDone
  dsimp only
  cases hu : u.upgrade with
  | none =>
    rw [hu] at free
    obtain ⟨w, x, fill⟩ := fill_puts u.cache[q.set] (filledEntry q pa a modified direct)
    refine distinct_set distinct ?_
    rw [fill]
    exact distinct_put (w := w) (distinct q.set) (free w.other nofun) pa a modified direct
  | some w =>
    rw [hu] at free
    exact distinct_set distinct (distinct_put (distinct q.set) (free w.other (some_ne_some_other w)) pa a modified direct)

/-- A step of the walk of the request in progress keeps the keys, whatever it leads to. -/
theorem cacheOk_walkNext (h : s.cacheOk) (req : s.tu.req = some q) (walking : s.tu.stage.walking = true) (x : WalkNext) :
    (walkNext q x s).cacheOk := by
  have free := h.2 q req walking
  cases x with
  | fault code => exact KeysOk.walkFault h q code
  | done pa a modified direct => exact KeysOk.walkDone h free pa a modified direct
  | ask r stage => exact KeysOk.of_dropped h (fun _ => .refl _) (fun _ => walking) rfl rfl

/-- TU acts on MP's answer at a step of its walk, or takes it and stays (R114, R125). -/
theorem cacheOk_tuAnswered (h : s.cacheOk) (req : s.tu.req = some q) (g : Got 64) : (tuAnswered q g s).cacheOk := by
  have walks : ∀ {x : TuStage}, s.tu.stage = x → x.walking = true → s.tu.stage.walking = true :=
    fun stage walking => by rw [stage]; exact walking
  unfold tuAnswered
  dsimp only
  split <;> rename_i stage
  case h_1 | h_2 | h_3 | h_4 => exact cacheOk_walkNext (by exact h) (by exact req) (by exact walks stage rfl) _
  all_goals exact h

theorem cacheOk_tuStep (h : s.cacheOk) (step : tuStep s = some t) : t.cacheOk := by
  unfold tuStep at step
  split at step
  · rename_i q req _
    split at step
    · cases step
      exact cacheOk_tuAnswered h req _
    · split at step
      · rename_i begins
        cases step
        exact KeysOk.of_dropped h (fun _ => .refl _) (fun _ => by rw [begins]; rfl) rfl rfl
      · cases step
  · cases step

end Sys2Proof.Cache
end

section
/-! SUPPORT. What TE makes of TU: a request made of it, a request it has answered, or nothing (R81, R113). -/

namespace Sys2Proof.Cache

open Sys2Proof Sys2Proof.Machine Sys2Proof.Laws Sys2Proof.Flow Sys2Proof.Moves

variable {u v : TransUnit} {s t : State}

/-- TU with its request answered. -/
def answered (u : TransUnit) : TransUnit :=
  { u with req := none, stage := .idle, root := none, descriptor := none, pageEntry := none }

/-- What TE makes of TU within one of its steps (R113). -/
inductive Consults (u : TransUnit) : TransUnit → Prop
  | rests : Consults u u
  | asks (q : TuReq) : Consults u (u.ask q)
  | takes : Consults u (answered u)

namespace Consults

theorem of_eq (h : v = u) : Consults u v := h ▸ .rests

theorem endSlice (n : ChanId) (f : Option (FaultCode × VAddr)) (s : State) : Consults s.tu (endSlice n f s).tu :=
  .of_eq (sliceEnd_endSlice n f s).tu

theorem startElement (n : ChanId) (m : Move) (s : State) : Consults s.tu (startElement n m s).tu := by
  unfold Machine.startElement
  dsimp only
  split_ifs
  · exact .endSlice ..
  · exact .endSlice ..
  · cases m.op <;> exact .asks _

theorem takeFill (n : ChanId) (m : Move) (v : BitVec 64) (s : State) : Consults s.tu (takeFill n m v s).tu := by
  unfold Machine.takeFill
  cases m.convert v with
  | none => exact .endSlice ..
  | some w => exact .startElement n m (s.modChan n _)

theorem beginMove (n : ChanId) (m : Move) (s : State) : Consults s.tu (beginMove n m s).tu := by
  unfold Machine.beginMove
  split
  · exact .endSlice ..
  · cases m.op with
    | copy | verify => exact .startElement n m (s.modChan n _)
    | fill =>
      dsimp only
      split_ifs
      · exact .takeFill ..
      · exact .asks _
      · exact .endSlice ..

theorem elementBoundary (n : ChanId) (s : State) : Consults s.tu (elementBoundary n s).tu := by
  unfold Machine.elementBoundary
  dsimp only
  split
  · exact .endSlice ..
  · cases (s.chan n).currentMove with
    | none => exact .endSlice ..
    | some m =>
      dsimp only
      split_ifs
      · exact .beginMove ..
      · exact .startElement ..

theorem elementDone (n : ChanId) (m : Move) (x : Bool) (s : State) : Consults s.tu (elementDone n m x s).tu := by
  rcases elementDone_cases n m x s with e | ⟨y, e, -⟩ <;> rw [e]
  · exact .endSlice n none ((counted n m x s).setChan n _)
  · exact .rests

/-- TE takes TU's answer, whatever it goes on to. -/
theorem translationAnswered (n : ChanId) (m : Move) (a : Access) (x : TuAnswer) (s : State) :
    (translationAnswered n m a x s).tu = answered s.tu := by
  cases x with
  | fault code => exact (sliceEnd_endSlice n _ { s with tu := answered s.tu }).tu
  | translated pa device direct =>
    cases a with
    | writeDest v => cases device <;> rfl
    | fillSource | source | verifyDest => rfl

theorem valueRead (n : ChanId) (m : Move) (a : Access) (v : BitVec 64) (s : State) : Consults s.tu (valueRead n m a v s).tu := by
  cases a with
  | fillSource => exact .takeFill ..
  | source =>
    unfold Machine.valueRead
    dsimp only
    cases m.op with
    | verify => exact .asks _
    | copy | fill =>
      cases m.convert v with
      | none => exact .endSlice ..
      | some w => exact .asks _
  | verifyDest w => exact .elementDone ..
  | writeDest w => exact .rests

theorem teAnswered (n : ChanId) (m : Move) (g : Got 64) (s : State) : Consults s.tu (teAnswered n m g s).tu := by
  unfold Machine.teAnswered
  dsimp only
  split
  · split
    · exact .valueRead n m _ _ { s with te := { s.te with got := none } }
    · exact .endSlice n _ { s with te := { s.te with got := none } }
  · split
    · exact .elementDone n m false { s with te := { s.te with got := none } }
    · exact .endSlice n _ { s with te := { s.te with got := none } }
  · exact .rests

/-- Whatever TE's step is. -/
theorem teStep (h : teStep s = some t) : Consults s.tu t.tu := by
  obtain ⟨n, -, turn⟩ := teTurn_of_teStep h
  cases turn with
  | boundary => exact .elementBoundary ..
  | exhausted => exact .endSlice ..
  | translated =>
    rw [translationAnswered]
    exact .takes
  | checked => exact .rests
  | placed => exact .elementDone ..
  | answered => exact .teAnswered ..

end Consults

end Sys2Proof.Cache
end

section
/-! SUPPORT. Every internal step and every command keeps the keys of the cache distinct (R132, R142). -/

namespace Sys2Proof.Cache

open Sys2Proof Sys2Proof.Machine Sys2Proof.Laws Sys2Proof.Flow Sys2Proof.Moves Sys2Proof.Slices

variable {n : ChanId} {u v : TransUnit} {s t : State}

/-! ## Internal steps -/

theorem KeysOk.consults (h : KeysOk u) (consults : Consults u v) : KeysOk v := by
  cases consults with
  | rests => exact h
  | asks q => exact h.ask q
  | takes => exact keysOk_of_still h.1 rfl

theorem cacheOk_of_tu (tu : t.tu = s.tu) (h : s.cacheOk) : t.cacheOk := by
  rw [cacheOk_iff, tu]
  exact h

theorem cacheOk_micro (h : s.cacheOk) (step : micro s = some t) : t.cacheOk := by
  rcases micro_cases step with step | step | step | step | step | step | step | step | step | step | step
  · obtain ⟨e, l, b, -, -, rfl⟩ := fuHandOver_some step; exact h
  · obtain ⟨e, l, b, -, -, rfl⟩ := suHandOver_some step; exact h
  · obtain ⟨e, l, b, -, -, rfl⟩ := teHandOver_some step; exact h
  · obtain ⟨e, l, b, -, -, rfl⟩ := tuHandOver_some step; exact h
  · obtain ⟨e, l, b, -, -, rfl⟩ := lbHandOver_some step; exact h
  · obtain ⟨e, q, -, -, rfl⟩ := sbStep_some step; exact h
  · rcases fuStep_some step with ⟨j, g, -, -, -, rfl⟩ | ⟨j, q, -, -, -, rfl⟩
    · exact cacheOk_of_tu (acts_fuAnswered _ j g).tu h
    · exact h
  · exact cacheOk_of_tu (suStep_spares step).tu h
  · obtain ⟨b, q, rfl, -⟩ := lbStep_frame step; exact h
  · exact cacheOk_tuStep h step
  · exact KeysOk.consults h (.teStep step)

theorem cacheOk_settle (h : s.cacheOk) : (settle s).cacheOk :=
  settle_induct State.cacheOk (fun _ _ h step => cacheOk_micro h step) h

/-! ## Commands -/

theorem tu_inArrivalOrder {act : ChanId → State → State} (acts : ∀ n s, Acts n s (act n s)) (l : List ChanId) (s : State) :
    (s.inArrivalOrder l act).tu = s.tu :=
  (acts_all act acts (arrange l.length s.arrivals l) s).tu

theorem tu_setControl (v : Word) (s : State) : (setControl v s).tu = s.tu := by
  unfold setControl
  dsimp only
  split
  · exact tu_inArrivalOrder acts_goOn ..
  · rfl

theorem tu_writeOutAnswered (l : Line) (resp : WriteResp) (s : State) : (writeOutAnswered l resp s).tu = s.tu := by
  unfold writeOutAnswered
  dsimp only
  split
  · exact (Marking.markChannels ..).tu
  · rfl
  · rfl

theorem tu_engineDrained (s : State) : (engineDrained s).tu = s.tu := by
  unfold engineDrained
  split
  · exact (sliceEnd_endSlice ..).tu
  · split <;> rfl
  · rfl

theorem dropped_purge (d : PurgeDescriptor) (cache : Vector CacheSet 32) (i : Fin 32) :
    Dropped cache[i] (purgeCache d cache)[i] := by
  intro w valid
  rw [get_purgeCache] at valid ⊢
  unfold CacheEntry.purge at valid ⊢
  split_ifs at valid ⊢
  · cases valid
  · rfl

/-- A grant leaves TU, but for the entries that a purge drops (R102, R143). -/
theorem cacheOk_grantTo (n : ChanId) (h : s.cacheOk) : (grantTo n s).cacheOk := by
  unfold grantTo
  dsimp only
  split
  · exact KeysOk.of_dropped h (dropped_purge _ s.tu.cache) id rfl rfl
  · exact h

/-- The cache emptied holds no key (R146, R189). -/
theorem KeysOk.emptied (h : KeysOk u) : KeysOk { u with cache := Vector.replicate 32 CacheSet.invalid } :=
  h.of_dropped (fun i => by simpa using dropped_invalid u.cache[i]) id rfl rfl

theorem cacheOk_effect (h : s.cacheOk) (effect : Effect s t) : t.cacheOk := by
  cases effect with
  | control v => exact cacheOk_of_tu (tu_setControl v _) h
  | softReset | softDrain | signal | fuAnswer | suAnswer | teAnswer | tuAnswer | recorded => exact h
  | command r n k => exact cacheOk_of_tu (acts_takeChannelCommand n _ k).tu h
  | resetStep n => exact cacheOk_of_tu (acts_resetGoesOn n s).tu h
  | grant n => exact cacheOk_grantTo n h
  | count n => exact cacheOk_of_tu (sliceEnd_endSlice n none s).tu h
  | lineWritten l resp => exact cacheOk_of_tu (tu_writeOutAnswered l resp s) h
  | drained n => exact cacheOk_of_tu (acts_drainAnswered n s.lbFree).tu h
  | engineDrained => exact cacheOk_of_tu (tu_engineDrained s.lbFree) h
  | softDrained => exact KeysOk.emptied h

theorem distinct_invalid (i : Fin 32) : CacheSet.invalid.distinct i := ⟨nofun, nofun, fun clash => by cases clash.1⟩

theorem cacheOk_outcome (h : s.cacheOk) (outcome : Outcome s t) : t.cacheOk := by
  cases outcome with
  | hardReset => exact keysOk_of_still (fun i => by rw [hardReset, Semaphores.cache_reset]; exact distinct_invalid i) rfl
  | port rests =>
    obtain ⟨r, b, x, rfl, -⟩ := rests
    exact h
  | clearing => exact KeysOk.emptied h
  | window n granted =>
    obtain ⟨-, -, -, rfl⟩ := granted
    exact cacheOk_grantTo n h
  | settled effect => exact cacheOk_settle (cacheOk_effect h effect)

/-- Settles O56: a step idles, or keeps the keys by what its command leaves. -/
theorem cacheKeysStayDistinct : Obligations.CacheKeysStayDistinct := by
  unfold Obligations.CacheKeysStayDistinct
  intro s t h step
  rcases step_outcome step with rfl | ⟨l, outcome⟩
  · exact h
  · exact cacheOk_outcome (s := { s with pending := l }) h outcome

end Sys2Proof.Cache
end

section
/-! SUPPORT. What a failed line leaves in each channel: the mark, and in READY the halt at once (R43, R151). -/

namespace Sys2Proof.Lines

open Sys2Proof Sys2Proof.Machine Sys2Proof.Laws Sys2Proof.Records

variable {n : ChanId} {s : State} {c : Channel} {l : List ChanId}

/-! ## The mark -/

/-- What setting the mark makes of a channel: an OFF channel and one in its halt procedure keep none (log 16). -/
def marked (c : Channel) : Channel :=
  if c.state = .off || c.activity == .haltDrain || c.activity == .haltStatus || c.activity == .haltSave then c
  else { c with mark := true }

theorem marked_of_closed
    (h : c.state = .off ∨ c.activity = .haltDrain ∨ c.activity = .haltStatus ∨ c.activity = .haltSave) : marked c = c :=
  if_pos (by simpa [or_assoc] using h)

theorem marked_of_open (off : c.state ≠ .off) (drain : c.activity ≠ .haltDrain) (status : c.activity ≠ .haltStatus)
    (save : c.activity ≠ .haltSave) : marked c = { c with mark := true } := if_neg (by simp [off, drain, status, save])

theorem marked_marked (c : Channel) : marked (marked c) = marked c := by
  by_cases h : c.state = .off ∨ c.activity = .haltDrain ∨ c.activity = .haltStatus ∨ c.activity = .haltSave
  · simp only [marked_of_closed h]
  · obtain ⟨off, drain, status, save⟩ := by simpa only [not_or] using h
    rw [marked_of_open off drain status save]
    exact marked_of_open (c := { c with mark := true }) off drain status save

theorem chan_setMark (n k : ChanId) (s : State) : (setMark k s).chan n = if n = k then marked (s.chan n) else s.chan n := by
  split
  next same =>
    subst same
    unfold setMark marked
    dsimp only
    split
    · rfl
    · exact chan_setChan ..
  next other => exact (acts_setMark k s).others n other

/-- Every channel of a list is marked, and no other. -/
theorem chan_setMarks (n : ChanId) :
    ∀ (l : List ChanId) (s : State),
      (l.foldl (fun t k => setMark k t) s).chan n = if n ∈ l then marked (s.chan n) else s.chan n
  | [], _ => rfl
  | k :: l, s => by
    rw [List.foldl_cons, chan_setMarks n l, chan_setMark]
    rcases eq_or_ne n k with rfl | other
    · simp [marked_marked]
    · simp [other]

/-! ## The halt of a READY channel -/

/-- A READY channel that is marked halts at once, in phase PURGE too (R43; log 28). -/
theorem goOn_of_marked (ready : (s.chan n).activity = .ready) (mark : (s.chan n).mark = true)
    (off : (s.chan n).reset = .off) : goOn n s = beginHalt n .writeError 0 s := by
  simp [goOn, readyPoint, ready, mark, off]

theorem goOn_of_halting (halts : (s.chan n).activity = .haltDrain) : goOn n s = s := by simp [goOn, halts]

/-- A channel whose halt has begun goes on with it, whichever channels go on meanwhile. -/
theorem chan_goOns_of_halting (l : List ChanId) (halts : (s.chan n).activity = .haltDrain) :
    (l.foldl (fun t k => goOn k t) s).chan n = s.chan n := by
  induction l generalizing s with
  | nil => rfl
  | cons k l ih =>
    have first : (goOn k s).chan n = s.chan n := by
      rcases eq_or_ne n k with rfl | other
      · rw [goOn_of_halting halts]
      · exact (acts_goOn k s).others n other
    rw [List.foldl_cons, ih (by rw [first]; exact halts), first]

/-- A READY channel that is marked halts once, wherever it stands in the list of those that go on. -/
theorem chan_goOns_of_marked (mem : n ∈ l) (ready : (s.chan n).activity = .ready) (mark : (s.chan n).mark = true)
    (off : (s.chan n).reset = .off) :
    (l.foldl (fun t k => goOn k t) s).chan n = (s.chan n).halting .writeError 0 := by
  induction l generalizing s with
  | nil => cases mem
  | cons k l ih =>
    rw [List.foldl_cons]
    rcases eq_or_ne n k with rfl | other
    · have halts : (goOn n s).chan n = (s.chan n).halting .writeError 0 := by
        rw [goOn_of_marked ready mark off, chan_beginHalt]
      rw [chan_goOns_of_halting l (by rw [halts]; rfl), halts]
    · have same : (goOn k s).chan n = s.chan n := (acts_goOn k s).others n other
      rw [ih (List.mem_of_ne_of_mem other mem) (by rw [same]; exact ready) (by rw [same]; exact mark)
        (by rw [same]; exact off), same]

/-! ## The channels of a line -/

theorem chan_inArrivalOrder_of_not_mem (h : n ∉ l) (s : State) : (s.inArrivalOrder l goOn).chan n = s.chan n :=
  (acts_all goOn acts_goOn (arrange l.length s.arrivals l) s).others n fun mem => h ((arrange_perm _ _ _).mem_iff.mp mem)

theorem chan_inArrivalOrder_of_marked (mem : n ∈ l) (ready : (s.chan n).activity = .ready) (mark : (s.chan n).mark = true)
    (off : (s.chan n).reset = .off) : (s.inArrivalOrder l goOn).chan n = (s.chan n).halting .writeError 0 :=
  chan_goOns_of_marked ((arrange_perm _ _ _).mem_iff.mpr mem) ready mark off

theorem chan_markChannels_of_not_mem (h : n ∉ l) (s : State) : (markChannels l s).chan n = s.chan n := by
  rw [markChannels, chan_inArrivalOrder_of_not_mem (fun mem => h (List.mem_filter.mp mem).1), chan_setMarks, if_neg h]

/-- A channel that does not stand READY is marked, whatever it is doing (R151). -/
theorem chan_markChannels_of_busy (h : n ∈ l) (busy : (s.chan n).activity ≠ .ready) :
    (markChannels l s).chan n = marked (s.chan n) := by
  have marks := chan_setMarks n l s
  rw [if_pos h] at marks
  have activity : (marked (s.chan n)).activity = (s.chan n).activity := by
    unfold marked
    split <;> rfl
  rw [markChannels, chan_inArrivalOrder_of_not_mem, marks]
  intro mem
  obtain ⟨-, ready⟩ := Bool.and_eq_true_iff.mp (List.mem_filter.mp mem).2
  rw [marks, activity] at ready
  exact busy (beq_iff_eq.mp ready)

/-- A READY channel is marked and halts at once (R43). -/
theorem chan_markChannels_of_ready (h : n ∈ l) (state : (s.chan n).state = .ready) (ready : (s.chan n).activity = .ready)
    (off : (s.chan n).reset = .off) : (markChannels l s).chan n = (s.chan n).halting .writeError 0 := by
  have marks := chan_setMarks n l s
  rw [if_pos h, marked_of_open (by simp [state]) (by simp [ready]) (by simp [ready]) (by simp [ready])] at marks
  refine (chan_inArrivalOrder_of_marked (List.mem_filter.mpr ⟨h, ?_⟩) ?_ ?_ ?_).trans ?_ <;> rw [marks]
  · simp [ready]
  · exact ready
  · exact off
  · rfl

end Sys2Proof.Lines
end

section
/-! SUPPORT. What LB does within a command while it drains: nothing but the write-out of its next line (R154, R155). -/

namespace Sys2Proof.Lines

open Sys2Proof Sys2Proof.Machine Sys2Proof.Laws Sys2Proof.Moves

variable {r : LbReq} {es : List LineEntry} {e : LineEntry} {s t u : State}

/-! ## SU's requests at MP

An operation that SU ends, performed or not, asks MP for nothing; SU asks for its own record alone. -/

theorem mp_wakeOne (b : Bool) (k : SemId) (c : BitVec 16) (s : State) : (wakeOne b k c s).mp = s.mp := by
  unfold wakeOne
  split
  · split
    · rfl
    · exact (acts_waitSucceeded _ _).mp
  · rfl

theorem mp_offerAlert (k : SemId) (s : State) : (offerAlert k s).mp = s.mp := by
  unfold offerAlert
  split_ifs <;> rfl

theorem mp_notifyEffects (d : BitVec 48) (k : SemId) (c : BitVec 16) (s : State) : (notifyEffects d k c s).mp = s.mp := by
  unfold notifyEffects
  dsimp only
  split
  · rw [mp_offerAlert, mp_wakeOne]
  · exact mp_wakeOne ..

theorem mp_suFailed (q : SuReq) (f : SuFailure) (s : State) : (suFailed q f s).mp = s.mp := by
  cases q with
  | wait n k | notify n k => exact (acts_requestFailed n s _).mp
  | undoStop n => exact (acts_stopUndoFailed n s).mp
  | undoReset n => exact (acts_resetUndoAnswered n _).mp
  | signal k => rfl

theorem mp_waitPerformed (n : ChanId) (k : SemId) (c : BitVec 16) (s : State) : (waitPerformed n k c s).mp = s.mp := by
  unfold waitPerformed
  split
  · exact (acts_waitSucceeded n s).mp
  · exact (acts_waitParked n _ (by simp [State.isParked])).mp

theorem mp_suPerformed (o : SuOp) (d : BitVec 48) (s : State) : (suPerformed o d s).mp = s.mp := by
  unfold suPerformed
  split
  · exact mp_waitPerformed ..
  · exact (acts_notifyPerformed _ _).mp.trans (mp_notifyEffects ..)
  · exact mp_notifyEffects ..
  · exact (acts_stopUndone _ _).mp
  · exact (acts_resetUndoAnswered _ _).mp

theorem mp_notParked (q : SuReq) (s : State) : (notParked q s).mp = s.mp := by
  cases q with
  | wait | notify | signal => rfl
  | undoStop n => exact (acts_goOn n s).mp
  | undoReset n => exact (acts_resetUndoAnswered n s).mp

/-- SU's step leaves the requests of the other units at MP. -/
theorem suStep_mp (h : suStep s = some t) : ∃ q, t.mp = { s.mp with su := q } := by
  rcases suStep_some h with ⟨o, g, -, -, -, rfl⟩ | ⟨x, q, -, -, -, rfl⟩
  · unfold suAnswered
    split
    · split
      · split
        · exact ⟨s.mp.su, mp_suFailed ..⟩
        · exact ⟨_, rfl⟩
      · exact ⟨s.mp.su, mp_suFailed ..⟩
    · split
      · exact ⟨s.mp.su, mp_suPerformed ..⟩
      · exact ⟨s.mp.su, mp_suFailed ..⟩
  · unfold suTake
    dsimp only
    split
    · exact ⟨s.mp.su, mp_notParked ..⟩
    · exact ⟨_, rfl⟩

/-! ## The steps of the other units -/

/-- From `s` to `t` LB has at most been asked for more, or handed over events. -/
structure LinesRest (s t : State) : Prop where
  lb : ∃ q held, t.lb = { s.lb with queue := s.lb.queue ++ q, held := held } ∧ (s.lb.held = [] → held = [])
  asked : t.mp.lb = s.mp.lb

theorem LinesRest.of_eq (lb : t.lb = s.lb) (asked : t.mp.lb = s.mp.lb) : LinesRest s t :=
  ⟨⟨[], s.lb.held, by simp [lb], id⟩, asked⟩

theorem LinesRest.of_queue (lb : ∃ q, t.lb = { s.lb with queue := s.lb.queue ++ q }) (asked : t.mp.lb = s.mp.lb) :
    LinesRest s t :=
  let ⟨q, eq⟩ := lb
  ⟨⟨q, s.lb.held, eq, id⟩, asked⟩

/-- Every internal step is LB's own, or leaves LB but for a request more or an event less. -/
theorem micro_lines (h : micro s = some t) : LinesRest s t ∨ lbStep s = some t := by
  rcases Laws.micro_cases h with h | h | h | h | h | h | h | h | h | h | h
  · obtain ⟨e, l, b, -, -, rfl⟩ := fuHandOver_some h; exact .inl (.of_eq rfl rfl)
  · obtain ⟨e, l, b, -, -, rfl⟩ := suHandOver_some h; exact .inl (.of_eq rfl rfl)
  · obtain ⟨e, l, b, -, -, rfl⟩ := teHandOver_some h; exact .inl (.of_eq rfl rfl)
  · obtain ⟨e, l, b, -, -, rfl⟩ := tuHandOver_some h; exact .inl (.of_eq rfl rfl)
  · obtain ⟨e, l, b, held, -, rfl⟩ := lbHandOver_some h
    exact .inl ⟨⟨[], l, by simp, fun none => by simp [none] at held⟩, rfl⟩
  · obtain ⟨e, q, -, -, rfl⟩ := sbStep_some h; exact .inl (.of_eq rfl rfl)
  · rcases fuStep_some h with ⟨j, g, -, -, -, rfl⟩ | ⟨j, q, -, -, -, rfl⟩
    · have acts := acts_fuAnswered { s with fu := { s.fu with current := none, got := none } } j g
      obtain ⟨q, lb, -⟩ := acts.lb
      exact .inl (.of_queue ⟨q, lb⟩ (congrArg MemPort.lb acts.mp))
    · exact .inl (.of_eq rfl rfl)
  · obtain ⟨q, lb, -⟩ := (suStep_spares h).lb
    obtain ⟨x, mp⟩ := suStep_mp h
    exact .inl (.of_queue ⟨q, lb⟩ (by rw [mp]))
  · exact .inr h
  · obtain ⟨v, q, rfl, -⟩ := tuStep_frame h; exact .inl (.of_eq rfl rfl)
  · obtain ⟨n, -, engages⟩ := teStep_engages h
    obtain ⟨x, mp⟩ := engages.mp
    exact .inl (.of_queue engages.lb (by rw [mp]))

/-! ## LB's own step -/

theorem lbAdvance_of_drain (drain : isDrain r = true) (s : State) :
    lbAdvance r s = (s.lb.victim r).map fun e => writeOut e s := by
  cases r with
  | write | check => cases drain
  | drain n | engineDrain | softDrain =>
    simp only [lbAdvance]
    split <;> simp [*]

/-- In a drain LB's step is the write-out of the next line, once it keeps no event (R154, R155, R169). -/
theorem lbStep_of_drain (drain : isDrain r = true) (current : s.lb.current = some r) :
    lbStep s
      = if s.lb.writing = none ∧ s.lb.held = [] then (s.lb.victim r).map fun e => writeOut e s else none := by
  rw [lbStep, current, ← lbAdvance_of_drain drain]
  dsimp only
  split <;> simp_all

/-- The next line of a drain depends on the lines alone. -/
theorem victim_congr {a b : LineBuffer} (h : a.entries = b.entries) (r : LbReq) : a.victim r = b.victim r := by
  cases r <;> simp only [LineBuffer.victim, LineBuffer.find, h]

/-! ## What a drain's command leaves -/

/-- LB, in the drain `r`, holds the lines `es`, and writes out none or the next of them under its MASK (R150). -/
structure Draining (r : LbReq) (es : List LineEntry) (s : State) : Prop where
  current : s.lb.current = some r
  entries : s.lb.entries = es
  out : s.lb.writing = none ∨ ∃ e, s.lb.victim r = some e ∧ s.lb.writing = some e.line
    ∧ s.mp.lb = some (.write (lineAddr e.line) e.mask e.data)

theorem Draining.rests (h : Draining r es s) (rests : LinesRest s t) : Draining r es t := by
  obtain ⟨⟨q, held, lb, -⟩, asked⟩ := rests
  have entries : t.lb.entries = s.lb.entries := by rw [lb]
  have writing : t.lb.writing = s.lb.writing := by rw [lb]
  refine ⟨by rw [lb]; exact h.current, entries.trans h.entries, ?_⟩
  rw [victim_congr entries, writing, asked]
  exact h.out

theorem Draining.micro_step (drain : isDrain r = true) (h : Draining r es s) (step : micro s = some t) :
    Draining r es t := by
  rcases micro_lines step with rests | step
  · exact h.rests rests
  · rw [lbStep_of_drain drain h.current] at step
    split at step
    · obtain ⟨e, victim, rfl⟩ := Option.map_eq_some_iff.mp step
      exact ⟨h.current, h.entries, .inr ⟨e, (victim_congr rfl r).trans victim, rfl, rfl⟩⟩
    · cases step

theorem Draining.settles (drain : isDrain r = true) (h : Draining r es s) : Draining r es (settle s) :=
  settle_induct (Draining r es) (fun _ _ h step => h.micro_step drain step) h

/-- A unit other than LB gives it no event to keep. -/
theorem settle_lb_held (h : s.lb.held = []) : (settle s).lb.held = [] := by
  refine settle_induct (fun t => t.lb.held = []) (fun t u none step => ?_) h
  rcases micro_lines step with ⟨⟨q, held, lb, kept⟩, -⟩ | step
  · rw [lb]; exact kept none
  · obtain ⟨b, q, rfl, held⟩ := lbStep_frame step
    exact held.trans none

/-- While LB keeps no event a drain goes on to its next line within the command (R154, R155). -/
theorem Draining.writes (drain : isDrain r = true) (h : Draining r es s) (kept : s.lb.held = [])
    (victim : s.lb.victim r = some e) :
    (settle s).lb.writing = some e.line ∧ (settle s).mp.lb = some (.write (lineAddr e.line) e.mask e.data) := by
  have left := h.settles drain
  have victim' : (settle s).lb.victim r = some e :=
    (victim_congr (left.entries.trans h.entries.symm) r).trans victim
  obtain ⟨-, -, -, -, -, -, -, -, rests, -⟩ := (settled_iff _).mp (settle_settled s)
  rw [lbStep_of_drain drain left.current, victim'] at rests
  rcases left.out with none | ⟨x, next, writing, asked⟩
  · simp [none, settle_lb_held kept] at rests
  · obtain rfl : e = x := Option.some.inj (victim'.symm.trans next)
    exact ⟨writing, asked⟩

end Sys2Proof.Lines
end

section
/-! SUPPORT. A slice whose TE waits goes on waiting while LB, in a drain, writes out its lines. -/

namespace Sys2Proof.Lines

open Sys2Proof Sys2Proof.Machine Sys2Proof.Laws Sys2Proof.Moves

variable {n : ChanId} {r : LbReq} {l : List ChanId} {s t : State}

/-- Whether TE has a step to make depends on TE and TU, on whether LB holds a request of TE's, and on the move and the reset of
the channel that holds the grant. -/
theorem teStep_none_of_holder (te : t.te = s.te) (tu : t.tu = s.tu) (lb : t.engineAtLb = s.engineAtLb)
    (holder : ∀ n, s.te.grant = some n →
      (t.chan n).currentMove = (s.chan n).currentMove ∧ (t.chan n).reset = (s.chan n).reset)
    (h : teStep s = none) : teStep t = none := by
  unfold teStep at h ⊢
  rw [te, tu, lb]
  cases grant : s.te.grant with
  | none => rfl
  | some n =>
    obtain ⟨move, reset⟩ := holder n grant
    rw [grant] at h
    cases held : s.te.held with
    | cons => rfl
    | nil =>
      rw [held] at h
      dsimp only at h ⊢
      rw [move, reset]
      cases hs : s.te.step with
      | boundary => simp [hs] at h
      | idle | purgeDrain | deviceDrain => rfl
      | exhausted => simpa [hs] using h
      | lineCheck | placing =>
        cases hm : (s.chan n).currentMove with
        | none => rfl
        | some m => simpa [hs, hm] using h
      | reading | deviceWrite => cases hm : (s.chan n).currentMove <;> cases hg : s.te.got <;> simp [hs, hm, hg] at h ⊢
      | translating a =>
        cases hm : (s.chan n).currentMove with
        | none => rfl
        | some m =>
          cases hu : s.tu.stage with
          | reply x => cases hh : s.tu.held <;> simp [hs, hm, hu, hh] at h ⊢
          | _ => rfl

/-- No unit but SB and LB, which is in a drain, has a step to make, and no other keeps an event. -/
structure Stalled (r : LbReq) (s : State) : Prop where
  waits : Waits s
  teHeld : s.te.held = []
  tuHeld : s.tu.held = []
  tu : tuStep s = none
  te : teStep s = none
  current : s.lb.current = some r

theorem Stalled.of_settled (h : s.isSettled) (k : s.noneKept) (current : s.lb.current = some r) : Stalled r s := by
  obtain ⟨-, -, -, -, -, -, -, -, -, tu, te⟩ := (settled_iff s).mp h
  have ⟨_, _, teHeld, tuHeld, _⟩ := k
  exact ⟨.of_settled h k, teHeld, tuHeld, tu, te, current⟩

theorem Stalled.micro_step (drain : isDrain r = true) (h : Stalled r s) (step : micro s = some t) :
    Stalled r t ∧ t.chans = s.chans := by
  have stays : ∀ {t : State}, t.fu = s.fu → t.su = s.su → t.te = s.te → t.tu = s.tu → t.lb.queue = s.lb.queue →
      t.lb.current = s.lb.current → t.chans = s.chans → Stalled r t ∧ t.chans = s.chans := by
    intro t fu su te tu queue current chans
    have chan : ∀ n, t.chan n = s.chan n := fun n => congrArg (·[n.val]) chans
    have lb : t.engineAtLb = s.engineAtLb := by rw [State.engineAtLb, queue, current, State.engineAtLb]
    exact ⟨⟨h.waits.congr fu su, by rw [te]; exact h.teHeld, by rw [tu]; exact h.tuHeld, tuStep_none tu h.tu,
      teStep_none_of_holder te tu lb (fun n _ => by rw [chan]; exact ⟨rfl, rfl⟩) h.te, current.trans h.current⟩, chans⟩
  rcases h.waits.micro_cases step with ⟨b, q, te, tu, lb, rfl, teNone, tuNone, -⟩ | step | step | step
  · obtain rfl := teNone h.teHeld
    obtain rfl := tuNone h.tuHeld
    exact stays rfl rfl (by rw [withEvents, ← h.teHeld]) (by rw [withEvents, ← h.tuHeld]) rfl rfl rfl
  · rw [lbStep_of_drain drain h.current] at step
    split at step
    · obtain ⟨e, -, rfl⟩ := Option.map_eq_some_iff.mp step
      exact stays rfl rfl rfl rfl rfl rfl rfl
    · cases step
  · rw [h.tu] at step; cases step
  · rw [h.te] at step; cases step

/-- What then comes about within the command leaves every channel as it is. -/
theorem Stalled.chans_settle (drain : isDrain r = true) (h : Stalled r s) : (settle s).chans = s.chans :=
  (settle_induct (fun t => Stalled r t ∧ t.chans = s.chans)
    (fun _ _ ⟨stalled, chans⟩ step =>
      let ⟨stalled', chans'⟩ := stalled.micro_step drain step
      ⟨stalled', chans'.trans chans⟩) ⟨h, rfl⟩).2

/-- The marks give TE nothing to do: the channel in its slice keeps its move, and LB gets drains of channels alone. -/
theorem Stalled.marks (h : Stalled r s) (marking : Marking s t)
    (reset : ∀ n, s.te.grant = some n → (t.chan n).reset = (s.chan n).reset) : Stalled r t := by
  obtain ⟨q, lb, drains⟩ := marking.lb
  have asked : t.engineAtLb = s.engineAtLb := by
    have none : q.any (·.fromEngine) = false := by simpa using drains
    simp [State.engineAtLb, lb, none]
  exact ⟨h.waits.congr marking.fu marking.su, by rw [marking.te]; exact h.teHeld, by rw [marking.tu]; exact h.tuHeld,
    tuStep_none marking.tu h.tu,
    teStep_none_of_holder marking.te marking.tu asked
      (fun n grant => ⟨currentMove_congr (marking.progress n), reset n grant⟩) h.te,
    by rw [lb]; exact h.current⟩

end Sys2Proof.Lines
end

section
/-! SUPPORT. A line of a drain written out: its entry gone, its channels marked, its event with SB (R150, R151). -/

namespace Sys2Proof.Lines

open Sys2Proof Sys2Proof.Machine Sys2Proof.Laws Sys2Proof.Moves

variable {n : ChanId} {l : Line} {e : LineEntry} {r : LbReq} {req : MpReq} {s t : State}

theorem exec_lineWriteOutAnswer (writing : s.lb.writing = some l) (asked : s.mp.lb = some req) (resp : WriteResp) :
    exec (.lineWriteOutAnswer resp) s = .next (settle (writeOutAnswered l resp s)) := by
  simp only [exec, execLineWriteOutAnswer, writing, asked, settled]

/-- The line gone, its event kept and its channels marked. -/
def failedLine (l : Line) (e : LineEntry) (s : State) : State := markChannels e.chans (droppedFailed l e s)

theorem writeOutAnswered_error (found : s.lb.find l = some e) : writeOutAnswered l .error s = failedLine l e s := by
  simp only [writeOutAnswered, found]
  rfl

theorem marking_failedLine (l : Line) (e : LineEntry) (s : State) : Marking (droppedFailed l e s) (failedLine l e s) :=
  .markChannels ..

/-! ## LB's drain -/

theorem draining_dropped (current : s.lb.current = some r) (l : Line) :
    Draining r (s.lb.entries.filter (·.line != l)) (dropped l s) :=
  ⟨current, rfl, .inl rfl⟩

theorem draining_failedLine (current : s.lb.current = some r) (l : Line) (e : LineEntry) :
    Draining r (s.lb.entries.filter (·.line != l)) (failedLine l e s) := by
  obtain ⟨q, lb, -⟩ := (marking_failedLine l e s).lb
  exact ⟨by rw [lb]; exact current, by rw [lb]; rfl, .inl (by rw [lb]; rfl)⟩

/-! ## The event -/

/-- With no other event kept and its place free, MEM_WRITE reaches SB if the level reports it (R150, R169). -/
theorem sbHas_failedLine (kept : s.noneKept) (room : s.hasRoom .lb) (reports : s.sb.reports e.failed = true) (l : Line) :
    (settle (failedLine l e s)).sbHas e.failed := by
  obtain ⟨k1, k2, k3, k4, k5⟩ := kept
  have marking := marking_failedLine l e s
  obtain ⟨q, lb, -⟩ := marking.lb
  have fu : (failedLine l e s).fu.held = [] := by rw [marking.fu]; exact k1
  have su : (failedLine l e s).su.held = [] := by rw [marking.su]; exact k2
  have te : (failedLine l e s).te.held = [] := by rw [marking.te]; exact k3
  have tu : (failedLine l e s).tu.held = [] := by rw [marking.tu]; exact k4
  have held : (failedLine l e s).lb.held = [e.failed] := by rw [lb]; simp [droppedFailed, k5]
  obtain ⟨c, taken, -, -, queued⟩ := handOver_takes (b := (failedLine l e s).sb) (e := e.failed)
    (by rw [marking.sb]; exact room)
  have hands : micro (failedLine l e s)
      = some { failedLine l e s with sb := c, lb := { (failedLine l e s).lb with held := [] } } := by
    simp [micro, microSteps, fuHandOver, suHandOver, teHandOver, tuHandOver, lbHandOver, fu, su, te, tu, held, taken]
  rw [settle_micro hands]
  exact settleFor_sbHas (.inl (queued (by rw [marking.sb]; exact reports))) _

/-! ## The channels -/

/-- Whether a channel is left alone depends on FU, SU and TE alone. -/
theorem leftAlone_congr (h : s.leftAlone n) (fu : t.fu = s.fu) (su : t.su = s.su) (te : t.te = s.te) : t.leftAlone n := by
  unfold State.leftAlone State.isParked at *
  rw [fu, su, te]
  exact h

/-- A channel left alone has after the command what the marks have left it. -/
theorem chan_settle_failedLine (h : s.leftAlone n) (l : Line) (e : LineEntry) :
    (settle (failedLine l e s)).chan n = (failedLine l e s).chan n :=
  have marking := marking_failedLine l e s
  (settle_leftAlone (leftAlone_congr h marking.fu marking.su marking.te)).chan

/-- A channel in its slice is marked and goes on: TE waits as it did (R151). -/
theorem chan_settle_failedLine_of_slice (h : s.quietUnits) (drain : isDrain r = true) (current : s.lb.current = some r)
    (grant : s.te.grant = some n) (state : (s.chan n).state = .active) (slice : (s.chan n).activity = .slice)
    (mem : n ∈ e.chans) (l : Line) : (settle (failedLine l e s)).chan n = { s.chan n with mark := true } := by
  obtain ⟨still, kept, -⟩ := h
  have own : (failedLine l e s).chan n = { s.chan n with mark := true } := by
    have busy : ((droppedFailed l e s).chan n).activity ≠ .ready := by
      change (s.chan n).activity ≠ .ready
      simp [slice]
    refine (chan_markChannels_of_busy mem busy).trans (marked_of_open (c := s.chan n) ?_ ?_ ?_ ?_) <;>
      simp [state, slice]
  have stalled := Stalled.of_settled still kept current
  have gone : Stalled r (droppedFailed l e s) :=
    ⟨stalled.waits.congr rfl rfl, stalled.teHeld, stalled.tuHeld, tuStep_none (s := s) rfl stalled.tu,
      teStep_none_of_holder (s := s) rfl rfl rfl (fun _ _ => ⟨rfl, rfl⟩) stalled.te, current⟩
  have after : Stalled r (failedLine l e s) := gone.marks (marking_failedLine l e s) fun k holds => by
    obtain rfl : n = k := Option.some.inj (grant.symm.trans holds)
    rw [own]
    rfl
  exact (congrArg (·[n.val]) (after.chans_settle drain)).trans own

/-- Settles O50: the line answered leaves LB, which goes on with its drain; on ERROR its channels are marked one by one, and its
event is handed over first. -/
theorem lineWriteOutAnswered : Obligations.LineWriteOutAnswered := by
  unfold Obligations.LineWriteOutAnswered
  intro l req r s writing asked current kind
  have drain : isDrain r = true := by rcases kind with rfl | rfl | ⟨n, rfl⟩ <;> rfl
  have okay : exec (.lineWriteOutAnswer .okay) s = .next (settle (dropped l s)) :=
    exec_lineWriteOutAnswer writing asked .okay
  have error : ∀ e, s.lb.find l = some e → exec (.lineWriteOutAnswer .error) s = .next (settle (failedLine l e s)) :=
    fun e found => writeOutAnswered_error found ▸ exec_lineWriteOutAnswer writing asked .error
  refine ⟨⟨_, okay, ?_, fun n alone => ?_, fun kept e own oldest => ?_⟩, fun e found => ⟨_, error e found, ?_⟩⟩
  · exact ((draining_dropped current l).settles drain).entries
  · exact (settle_leftAlone (s := dropped l s) (leftAlone_congr alone rfl rfl rfl)).chan
  · have next : (dropped l s).lb.victim r = some e := by
      rcases kind with rfl | rfl | ⟨n, rfl⟩
      · exact oldest (.inl rfl)
      · exact oldest (.inr rfl)
      · exact own n rfl
    exact (draining_dropped current l).writes drain kept next
  refine ⟨((draining_failedLine current l e).settles drain).entries, fun kept room reports => ?_,
    fun n quiet grant state slice mem => chan_settle_failedLine_of_slice quiet drain current grant state slice mem l,
    fun n alone => ?_⟩
  · exact sbHas_failedLine kept room reports l
  rw [chan_settle_failedLine alone]
  refine ⟨fun other _ => ?_, fun mem off ready drains status save => ?_, fun mem ready closed => ?_,
    fun mem state ready off => ?_⟩
  · exact chan_markChannels_of_not_mem other (droppedFailed l e s)
  · exact (chan_markChannels_of_busy (s := droppedFailed l e s) mem ready).trans (marked_of_open off drains status save)
  · exact (chan_markChannels_of_busy (s := droppedFailed l e s) mem ready).trans (marked_of_closed closed)
  · exact chan_markChannels_of_ready (s := droppedFailed l e s) mem state ready off

end Sys2Proof.Lines
end

section
/-! SUPPORT. The record write in progress at SB: no internal step reaches it, and its answer lets SB take its next event. -/

namespace Sys2Proof.Events

open Sys2Proof Sys2Proof.Machine Sys2Proof.Laws

variable {n : ChanId} {b : StatusBlock} {q : Option MpReq} {e : ErrorEvent} {s t u : State}

/-! ## The levels of Table 9-4 -/

/-- SB reports an event from the lowest level of its class on (R168). -/
theorem reports_iff (b : StatusBlock) (e : ErrorEvent) : b.reports e = true ↔ e.code.minLevel ≤ b.level.toNat := by
  rw [StatusBlock.reports, decide_eq_true_iff]

/-- What SB makes of an event whose unit has its place free (R168). -/
theorem handOver_by_level (room : ∀ x ∈ b.queue, x.unit ≠ e.unit) :
    (e.code.minLevel ≤ b.level.toNat → b.handOver e = some { b with queue := b.queue ++ [e] })
      ∧ (b.level.toNat < e.code.minLevel → b.handOver e = some b) := by
  rw [Commands.handOver_of_room room]
  exact ⟨fun reported => by rw [if_pos ((reports_iff b e).mpr reported)],
    fun below => by rw [if_neg (fun reported => absurd ((reports_iff b e).mp reported) (Nat.not_le.mpr below))]⟩

/-! ## The record write in progress -/

/-- From `s` to `t` SB's record write, its counter and the sticky bits of both have stayed. -/
structure RecordStays (s t : State) : Prop where
  sb : ∃ l x y, t.sb = { s.sb with queue := l, refused := x, alertLost := y }
  asked : t.mp.sb = s.mp.sb

namespace RecordStays

theorem of_eq (sb : t.sb = s.sb) (asked : t.mp.sb = s.mp.sb) : RecordStays s t :=
  ⟨⟨s.sb.queue, s.sb.refused, s.sb.alertLost, sb⟩, asked⟩

theorem refl (s : State) : RecordStays s s := of_eq rfl rfl

theorem trans (a : RecordStays s t) (b : RecordStays t u) : RecordStays s u := by
  obtain ⟨⟨_, _, _, sb⟩, asked⟩ := a
  obtain ⟨⟨_, _, _, sb'⟩, asked'⟩ := b
  exact ⟨⟨_, _, _, by rw [sb', sb]⟩, asked'.trans asked⟩

/-- A hand-over concerns SB's queue alone (R169). -/
theorem of_handOver (taken : s.sb.handOver e = some t.sb) (asked : t.mp.sb = s.mp.sb) : RecordStays s t := by
  rcases handOver_cases taken with same | ⟨-, -, queued⟩
  · exact of_eq same asked
  · exact ⟨⟨_, _, _, queued⟩, asked⟩

/-- What refuses a command at most concerns no record. -/
theorem of_refused (sb : ∃ x, t.sb = { s.sb with refused := x } ∧ (s.sb.refused = true → x = true))
    (asked : t.mp.sb = s.mp.sb) : RecordStays s t :=
  let ⟨x, eq, _⟩ := sb
  ⟨⟨s.sb.queue, x, s.sb.alertLost, eq⟩, asked⟩

/-- Until MP answers the record write no internal step ends it or begins another. -/
theorem micro_step (writing : s.sb.writing.isSome = true) (h : micro s = some t) : RecordStays s t := by
  rcases micro_cases h with h | h | h | h | h | h | h | h | h | h | h
  · obtain ⟨_, _, _, -, taken, rfl⟩ := fuHandOver_some h; exact of_handOver taken rfl
  · obtain ⟨_, _, _, -, taken, rfl⟩ := suHandOver_some h; exact of_handOver taken rfl
  · obtain ⟨_, _, _, -, taken, rfl⟩ := teHandOver_some h; exact of_handOver taken rfl
  · obtain ⟨_, _, _, -, taken, rfl⟩ := tuHandOver_some h; exact of_handOver taken rfl
  · obtain ⟨_, _, _, -, taken, rfl⟩ := lbHandOver_some h; exact of_handOver taken rfl
  · obtain ⟨_, _, free, -⟩ := sbStep_some h
    simp [free] at writing
  · rcases fuStep_some h with ⟨j, g, -, -, -, rfl⟩ | ⟨j, q, -, -, -, rfl⟩
    · have acts := acts_fuAnswered { s with fu := { s.fu with current := none, got := none } } j g
      exact of_refused acts.sb (congrArg MemPort.sb acts.mp)
    · exact of_eq rfl rfl
  · obtain ⟨x, y, sb, -⟩ := (suStep_spares h).sb
    obtain ⟨_, mp⟩ := Lines.suStep_mp h
    exact ⟨⟨s.sb.queue, x, y, sb⟩, by rw [mp]⟩
  · obtain ⟨_, _, rfl, -⟩ := lbStep_frame h; exact of_eq rfl rfl
  · obtain ⟨_, _, rfl, -⟩ := tuStep_frame h; exact of_eq rfl rfl
  · obtain ⟨_, -, engages⟩ := teStep_engages h
    obtain ⟨_, mp⟩ := engages.mp
    exact of_refused engages.sb (by rw [mp])

theorem settles (writing : s.sb.writing.isSome = true) : RecordStays s (settle s) := by
  refine settle_induct (RecordStays s) (fun t u stays step => stays.trans (micro_step ?_ step)) (refl s)
  obtain ⟨_, _, _, sb⟩ := stays.sb
  rw [sb]
  exact writing

end RecordStays

/-! ## The answer to the record write -/

/-- In a settled part that keeps SB's queue and level only SB can come to have a step to make: an event kept stays kept. -/
theorem micro_withSb (h : s.isSettled) (queue : b.queue = s.sb.queue) (level : b.level = s.sb.level) :
    micro (withSb s b q) = sbStep (withSb s b q) := by
  obtain ⟨h1, h2, h3, h4, h5, -, fu, su, lb, tu, te⟩ := (settled_iff s).mp h
  have hand : ∀ e, b.handOver e = none ↔ s.sb.handOver e = none := fun e => handOver_none queue level
  have k1 : fuHandOver (withSb s b q) = none := by cases held : s.fu.held <;> simp_all [fuHandOver, withSb]
  have k2 : suHandOver (withSb s b q) = none := by cases held : s.su.held <;> simp_all [suHandOver, withSb]
  have k3 : teHandOver (withSb s b q) = none := by cases held : s.te.held <;> simp_all [teHandOver, withSb]
  have k4 : tuHandOver (withSb s b q) = none := by cases held : s.tu.held <;> simp_all [tuHandOver, withSb]
  have k5 : lbHandOver (withSb s b q) = none := by cases held : s.lb.held <;> simp_all [lbHandOver, withSb]
  have fu : fuStep (withSb s b q) = none := fuStep_none (s := s) rfl fu
  have su : suStep (withSb s b q) = none := suStep_none (s := s) rfl su
  have lb : lbStep (withSb s b q) = none := lbStep_none (s := s) rfl lb
  have tu : tuStep (withSb s b q) = none := tuStep_none (s := s) rfl tu
  have te : teStep (withSb s b q) = none := teStep_none (s := s) rfl rfl rfl (fun _ => rfl) (fun _ => rfl) te
  simp only [micro, microSteps, List.findSome?_cons, List.findSome?_nil, k1, k2, k3, k4, k5, fu, su, lb, tu, te]
  cases sbStep (withSb s b q) <;> rfl

/-- SB free of its record write, an answer ERROR noted (R171). -/
def recordDone (b : StatusBlock) (resp : WriteResp) : StatusBlock :=
  { b with writing := none, recordFailed := b.recordFailed || resp == .error }

theorem exec_errorRecordWriteAnswer {req : MpReq} (writing : s.sb.writing = some e) (asked : s.mp.sb = some req)
    (resp : WriteResp) :
    exec (.errorRecordWriteAnswer resp) s = .next (settle (withSb s (recordDone s.sb resp) none)) := by
  simp only [exec, execErrorRecordWriteAnswer, writing, asked, settled]
  rfl

/-- With no further event the part has settled. -/
theorem settle_recordDone_of_empty (h : s.isSettled) (resp : WriteResp) (empty : s.sb.queue = []) :
    settle (withSb s (recordDone s.sb resp) none) = withSb s (recordDone s.sb resp) none := by
  refine settle_of_settled ((micro_withSb (b := recordDone s.sb resp) h rfl rfl).trans ?_)
  simp [sbStep, withSb, recordDone, empty]

/-- SB with the head of its queue in its record write (R170). -/
def recordBegun (b : StatusBlock) (e : ErrorEvent) (rest : List ErrorEvent) : StatusBlock :=
  { b with queue := rest, counter := b.counted, errorEvent := true, writing := some e }

/-- The write of an error record: all 64 bytes, at the anchor plus 0x1800 (R170). -/
def recordWrite (s : State) (e : ErrorEvent) (events : Word) : MpReq :=
  .write (s.anchor + 0x1800) (BitVec.allOnes 64) (errorImage e events)

/-- With a further event SB takes it first, and nothing that follows reaches its record. -/
theorem settle_recordDone_of_cons (h : s.isSettled) (resp : WriteResp) {rest : List ErrorEvent}
    (queue : s.sb.queue = e :: rest) :
    RecordStays (withSb s (recordBegun (recordDone s.sb resp) e rest) (some (recordWrite s e s.sb.counted)))
      (settle (withSb s (recordDone s.sb resp) none)) := by
  have takes : sbStep (withSb s (recordDone s.sb resp) none)
      = some (withSb s (recordBegun (recordDone s.sb resp) e rest) (some (recordWrite s e s.sb.counted))) := by
    simp only [sbStep, withSb, recordDone, queue]
    rfl
  rw [settle_micro ((micro_withSb (b := recordDone s.sb resp) h rfl rfl).trans takes)]
  exact .settles rfl

/-- Settles O53: an event by its place and then its level; a record's answer by what SB's queue holds. -/
theorem eventsReportedAndRecorded : Obligations.EventsReportedAndRecorded := by
  unfold Obligations.EventsReportedAndRecorded
  refine ⟨fun b e needed least => ?_, fun e req resp s still writing asked => ?_⟩
  · obtain rfl : needed = e.code.minLevel := least.trans (by cases e.code <;> rfl)
    exact ⟨fun ⟨x, mem, same⟩ => Commands.handOver_full mem same, fun room => (handOver_by_level room).1,
      fun room => (handOver_by_level room).2⟩
  · refine ⟨_, exec_errorRecordWriteAnswer writing asked resp, ?_⟩
    cases queue : s.sb.queue with
    | nil =>
      rw [settle_recordDone_of_empty still resp queue]
      exact ⟨rfl, fun _ => ⟨rfl, rfl, rfl⟩, nofun⟩
    | cons e' rest =>
      obtain ⟨⟨_, _, _, sb⟩, written⟩ := settle_recordDone_of_cons still resp queue
      rw [sb, written]
      refine ⟨rfl, nofun, fun x l eq => ?_⟩
      obtain ⟨rfl, rfl⟩ := List.cons.inj eq
      have counter : s.sb.counted = if s.sb.counter = 0xFFFFFFFF then 0xFFFFFFFF else s.sb.counter + 1 := by
        rw [StatusBlock.counted]
        split <;> simp [*]
      exact ⟨rfl, rfl, counter, rfl⟩

end Sys2Proof.Events
end

section
/-! SUPPORT. MP's answer to FU: SB has its event first (Table 9-2), and an answer OKAY raises none, whatever FU, SU and LB go on
to do for its channel. -/

namespace Sys2Proof.Events

open Sys2Proof Sys2Proof.Machine Sys2Proof.Laws

variable {n : ChanId} {j : FuJob} {e : ErrorEvent} {s t u : State}

/-! ## Table 9-2 -/

/-- The row of Table 9-2 for a failing or corrected answer to FU: the kind of its request, the answer and the code. -/
def FuRow (k : FuKind) (r : Resp) (code : EventCode) : Prop :=
  ((k = .context ∨ k = .link ∨ k = .header ∨ k = .body)
    ∧ ((r = .corrected ∧ code = .memCorrected) ∨ (r = .uncorrectable ∧ code = .readUncorrectable)
      ∨ (r = .error ∧ code = .busError)))
    ∨ ((k = .acceptance ∨ k = .done ∨ k = .doneRewrite ∨ k = .haltStatus ∨ k = .skipped)
      ∧ r = .error ∧ code = .statusWrite)
    ∨ (k = .save ∧ r = .error ∧ code = .saveWrite)

theorem fuEvents_of_read {k : FuKind} (read : k = .context ∨ k = .link ∨ k = .header ∨ k = .body) (n : ChanId) (r : Resp)
    (pa : PAddr) : k.events n r pa = readEvents .fu (some n) r pa := by
  rcases read with rfl | rfl | rfl | rfl <;> rfl

theorem fuEvents_okay (k : FuKind) (n : ChanId) (pa : PAddr) : k.events n .okay pa = [] := by cases k <;> rfl

theorem FuRow.events {k : FuKind} {r : Resp} {code : EventCode} (row : FuRow k r code) (n : ChanId) (pa : PAddr) :
    k.events n r pa = [⟨code, .fu, some n, r, pa⟩] := by
  rcases row with ⟨read, answer⟩ | ⟨status, rfl, rfl⟩ | ⟨rfl, rfl, rfl⟩
  · rw [fuEvents_of_read read]
    rcases answer with ⟨rfl, rfl⟩ | ⟨rfl, rfl⟩ | ⟨rfl, rfl⟩ <;> rfl
  · rcases status with rfl | rfl | rfl | rfl | rfl <;> rfl
  · rfl

/-- FU raises no event of class R: MEM_CORRECTED is of class C, and every other code of its rows of class U (Table 9-4). -/
theorem FuRow.minLevel {k : FuKind} {r : Resp} {code : EventCode} (row : FuRow k r code) :
    code.minLevel = if code = .memCorrected then 3 else 1 := by
  rcases row with ⟨-, ⟨-, rfl⟩ | ⟨-, rfl⟩ | ⟨-, rfl⟩⟩ | ⟨-, -, rfl⟩ | ⟨-, -, rfl⟩ <;> rfl

/-! ## The event of FU's answer -/

/-- FU with MP's answer in hand and the events it raises (R49, R166). -/
def fuHas (s : State) (g : Got 4736) (events : List ErrorEvent) : State :=
  { s with fu := { s.fu with got := some g, held := events }, mp := { s.mp with fu := none } }

theorem fuAnswer_awaited (h : s.fuAwaits j) (resp : Resp) (d : BitVec 4736) :
    fuAnswer j.kind resp d s
      = .next (settle (fuHas s ⟨j.req.answer resp, d⟩ (j.kind.events j.chan (j.req.answer resp) j.req.addr))) := by
  obtain ⟨-, ⟨held, -⟩, -, current, asked, ⟨got, -⟩, -⟩ := h
  simp only [fuAnswer, current, got, asked, if_true, settled, held, List.nil_append, fuHas]

/-- An event that SB's level reports reaches SB, before anything else is done. -/
theorem sbHas_fuHas (room : s.hasRoom .fu) (unit : e.unit = .fu)
    (reported : e.code.minLevel ≤ s.sb.level.toNat) (g : Got 4736) : (settle (fuHas s g [e])).sbHas e := by
  have taken := (handOver_by_level (b := s.sb) (e := e) (by rw [unit]; exact room)).1 reported
  have hands : micro (fuHas s g [e])
      = some { fuHas s g [] with sb := { s.sb with queue := s.sb.queue ++ [e] } } := by
    have first : fuHandOver (fuHas s g [e])
        = some { fuHas s g [] with sb := { s.sb with queue := s.sb.queue ++ [e] } } := by
      simp only [fuHandOver, fuHas, taken, Option.map_some]
    simp only [micro, microSteps, List.findSome?_cons, first]
  rw [settle_micro hands]
  exact settleFor_sbHas (.inl (by simp)) _

/-! ## What an answer OKAY leads to -/

/-- From `s` to `t` FU, SU and LB may have gone on for channel `n`, FU and SU with no answer in hand now; TE, TU, SB's events
and the other channels are as they were, LB has neither gained nor answered a request of TE's, and no unit keeps an event. -/
structure Apart (n : ChanId) (s t : State) : Prop where
  queue : t.sb.queue = s.sb.queue
  writing : t.sb.writing = s.sb.writing
  counter : t.sb.counter = s.sb.counter
  kept : t.noneKept
  te : t.te = s.te
  tu : t.tu = s.tu
  others : ∀ m, m ≠ n → t.chan m = s.chan m
  fuGot : t.fu.got = none
  suGot : t.su.got = none
  suOwn : t.su.current = none → ∀ r ∈ t.su.queue, r.chan = some n
  engine : t.engineAtLb = s.engineAtLb
  busy : t.engineAtLb = true → lbStep t = none

/-- Whether LB can go on with its operation depends on the lines alone. -/
theorem lbAdvance_none {r : LbReq} (entries : t.lb.entries = s.lb.entries) (h : lbAdvance r s = none) :
    lbAdvance r t = none := by
  have victim := Lines.victim_congr entries r
  cases r with
  | write pa z v m =>
    simp only [lbAdvance, entries, victim] at h ⊢
    cases placed : placeElement s.lb.entries pa z v m with
    | some l => simp [placed] at h
    | none => cases found : s.lb.victim (.write pa z v m) <;> simp [placed, found] at h ⊢
  | check pa => cases found : s.lb.victim (.check pa) <;> simp [lbAdvance, found] at h
  | drain m | engineDrain | softDrain =>
    simp only [lbAdvance, victim] at h ⊢
    split at h
    · cases h
    · rfl

/-- While LB is at an operation, a request more in its queue gives it no step to make (R148). -/
theorem lbStep_none_of_current {r : LbReq} {l : List LbReq} (current : s.lb.current = some r)
    (lb : t.lb = { s.lb with queue := s.lb.queue ++ l }) (h : lbStep s = none) : lbStep t = none := by
  have entries : t.lb.entries = s.lb.entries := by rw [lb]
  have current' : t.lb.current = some r := by rw [lb]; exact current
  have writing : t.lb.writing = s.lb.writing := by rw [lb]
  have held : t.lb.held = s.lb.held := by rw [lb]
  unfold lbStep at h ⊢
  rw [current] at h
  rw [current', writing, held]
  dsimp only at h ⊢
  split at h
  · exact lbAdvance_none entries h
  · rfl

/-- LB, with no step to make, holds a request of TE's as its operation alone. -/
theorem current_of_engineAtLb (asks : s.engineAtLb = true) (h : lbStep s = none) : ∃ r, s.lb.current = some r := by
  cases current : s.lb.current with
  | some r => exact ⟨r, rfl⟩
  | none => cases queue : s.lb.queue <;> simp [lbStep, State.engineAtLb, current, queue] at asks h

/-- A drain more is no request of TE's (R148). -/
theorem engineAtLb_append {l : List LbReq} (lb : t.lb = { s.lb with queue := s.lb.queue ++ l })
    (drains : ∀ r ∈ l, r = LbReq.drain n) : t.engineAtLb = s.engineAtLb := by
  have none : l.any (·.fromEngine) = false := by
    simp only [List.any_eq_false, Bool.not_eq_true]
    intro r mem
    rw [drains r mem]
    rfl
  simp [State.engineAtLb, lb, none]

/-- SU, free and with no step to make, has nothing queued (R50). -/
theorem suQueue_of_free (h : suStep s = none) (held : s.su.held = []) (free : s.su.current = none) : s.su.queue = [] := by
  cases queue : s.su.queue with
  | nil => rfl
  | cons r q => simp [suStep, free, held, queue] at h

/-- SU answers the undo of a channel that is not parked to that channel. -/
theorem acts_notParked {r : SuReq} (own : r.chan = some n) (s : State) : Acts n s (notParked r s) := by
  cases r with
  | wait | notify | signal => exact .refl n s
  | undoStop m => cases own; exact acts_goOn n s
  | undoReset m => cases own; exact acts_resetUndoAnswered n s

namespace Apart

/-- The reaction of the channel itself. -/
theorem acts (a : Apart n s t) (acts : Acts n t u) : Apart n s u := by
  obtain ⟨k1, k2, k3, k4, k5⟩ := a.kept
  obtain ⟨_, fu, -⟩ := acts.fu
  obtain ⟨l, su, own⟩ := acts.su
  obtain ⟨_, lb, drains⟩ := acts.lb
  obtain ⟨_, sb, -⟩ := acts.sb
  have engine := engineAtLb_append lb drains
  exact {
    queue := by rw [sb]; exact a.queue
    writing := by rw [sb]; exact a.writing
    counter := by rw [sb]; exact a.counter
    kept := ⟨by rw [fu]; exact k1, by rw [su]; exact k2, by rw [acts.te]; exact k3, by rw [acts.tu]; exact k4,
      by rw [lb]; exact k5⟩
    te := acts.te.trans a.te
    tu := acts.tu.trans a.tu
    others := fun m other => (acts.others m other).trans (a.others m other)
    fuGot := by rw [fu]; exact a.fuGot
    suGot := by rw [su]; exact a.suGot
    suOwn := fun free r mem => by
      rw [su] at free mem
      exact (List.mem_append.mp mem).elim (a.suOwn free r) fun new => (own r new).1
    engine := engine.trans a.engine
    busy := fun asks => by
      rw [engine] at asks
      obtain ⟨r, current⟩ := current_of_engineAtLb asks (a.busy asks)
      exact lbStep_none_of_current current lb (a.busy asks) }

/-- FU takes up another request, with no answer in hand (R49). -/
theorem withFu (a : Apart n s t) (v : FetchUnit) (p : MemPort) (got : v.got = none) (held : v.held = []) :
    Apart n s { t with fu := v, mp := p } :=
  { a with
    others := a.others
    kept := let ⟨_, kept⟩ := a.kept; ⟨held, kept⟩
    fuGot := got
    busy := fun asks => lbStep_none (s := t) rfl (a.busy asks) }

/-- SU takes up another request, with no answer in hand (R50). -/
theorem withSu (a : Apart n s t) (v : SemUnit) (p : MemPort) (got : v.got = none) (held : v.held = [])
    (own : v.current = none → ∀ r ∈ v.queue, r.chan = some n) : Apart n s { t with su := v, mp := p } :=
  { a with
    others := a.others
    kept := let ⟨fu, _, kept⟩ := a.kept; ⟨fu, held, kept⟩
    suGot := got
    suOwn := own
    busy := fun asks => lbStep_none (s := t) rfl (a.busy asks) }

/-- LB goes on, which it does only without a request of TE's. -/
theorem lb_step (a : Apart n s t) (h : lbStep t = some u) : Apart n s u := by
  have free : t.engineAtLb = false := by
    by_contra asks
    rw [a.busy (by simpa using asks)] at h
    cases h
  have still := (Moves.lbStep_drains h free).2
  obtain ⟨b, q, rfl, held⟩ := lbStep_frame h
  exact { a with
    others := a.others
    kept := let ⟨fu, su, te, tu, lb⟩ := a.kept; ⟨fu, su, te, tu, held.trans lb⟩
    engine := (still.trans free.symm).trans a.engine
    busy := fun asks => by rw [still] at asks; cases asks }

/-- SU's next request is the channel's own: its record is read, or its channel, not parked, is answered (R40, R48). -/
theorem su_step (a : Apart n s t) (h : suStep t = some u) : Apart n s u := by
  rcases suStep_some h with ⟨_, _, -, got, -⟩ | ⟨r, q, free, held, queue, rfl⟩
  · rw [a.suGot] at got; cases got
  · have own := queue ▸ a.suOwn free
    have rest : ∀ x ∈ q, x.chan = some n := fun x mem => own x (List.mem_cons_of_mem r mem)
    unfold suTake
    dsimp only
    split
    · exact (a.withSu { t.su with queue := q } t.mp a.suGot held fun _ => rest).acts
        (acts_notParked (own r List.mem_cons_self) _)
    · exact a.withSu _ _ a.suGot held nofun

/-- SB, TU and TE, with no step to make in `s`, come to none, since another channel holds the grant; so no event is raised. -/
theorem micro_step (still : s.isSettled) (holder : s.te.grant ≠ some n) (a : Apart n s t) (h : micro t = some u) :
    Apart n s u := by
  obtain ⟨-, -, -, -, -, sb, -, -, -, tu, te⟩ := (settled_iff s).mp still
  obtain ⟨k1, k2, k3, k4, k5⟩ := a.kept
  rcases micro_cases h with h | h | h | h | h | h | h | h | h | h | h
  · simp [fuHandOver, k1] at h
  · simp [suHandOver, k2] at h
  · simp [teHandOver, k3] at h
  · simp [tuHandOver, k4] at h
  · simp [lbHandOver, k5] at h
  · obtain ⟨_, _, writing, queue, -⟩ := sbStep_some h
    simp [sbStep, a.writing.symm.trans writing, a.queue.symm.trans queue] at sb
  · rcases fuStep_some h with ⟨_, _, -, got, -⟩ | ⟨j, q, -, held, -, rfl⟩
    · rw [a.fuGot] at got; cases got
    · exact a.withFu _ _ a.fuGot held
  · exact a.su_step h
  · exact a.lb_step h
  · rw [tuStep_none a.tu tu] at h; cases h
  · have waits : teStep t = none := Lines.teStep_none_of_holder a.te a.tu a.engine
      (fun m grant => by rw [a.others m (by rintro rfl; exact holder grant)]; exact ⟨rfl, rfl⟩) te
    rw [waits] at h
    cases h

theorem settles (still : s.isSettled) (holder : s.te.grant ≠ some n) (a : Apart n s t) : Apart n s (settle t) :=
  settle_induct (Apart n s) (fun _ _ a h => a.micro_step still holder h) a

/-- FU freed of its request, before its channel has the answer. -/
theorem of_fuFreed (h : s.fuAwaits j) : Apart j.chan s (fuFreed s s.sb s.mp.sb) := by
  obtain ⟨still, ⟨-, held, others⟩, -, -, -, ⟨-, suGot, -⟩, -⟩ := h
  obtain ⟨-, -, -, -, -, -, -, su, lb, -⟩ := (settled_iff s).mp still
  exact {
    queue := rfl, writing := rfl, counter := rfl, te := rfl, tu := rfl, fuGot := rfl, engine := rfl
    kept := ⟨rfl, held, others⟩
    others := fun _ _ => rfl
    suGot := suGot
    suOwn := fun free => by
      have empty : (fuFreed s s.sb s.mp.sb).su.queue = [] := suQueue_of_free (s := s) su held free
      simp [empty]
    busy := fun _ => lbStep_none (s := s) rfl lb }

end Apart

/-- With no event to hand over FU passes the answer on at once (R49). -/
theorem settle_fuHas_nil (h : s.fuAwaits j) (g : Got 4736) :
    settle (fuHas s g []) = settle (fuAnswered j g (fuFreed s s.sb s.mp.sb)) := by
  obtain ⟨still, ⟨-, kept⟩, -, current, -⟩ := h
  obtain ⟨-, -, -, -, -, sb, -⟩ := (settled_iff s).mp still
  refine settle_micro (micro_fu (s := fuHas s g []) ⟨rfl, kept⟩ (Semaphores.sbStep_none (s := s) rfl sb) ?_)
  simp only [fuStep, fuHas, current]
  rfl

/-- Settles O27: the event is handed over before the answer is acted on; without one nothing else comes to raise an event. -/
theorem fuEventsReachStatusBlock : Obligations.FuEventsReachStatusBlock := by
  unfold Obligations.FuEventsReachStatusBlock
  intro j resp r d s h hr
  subst hr
  have answered := fuAnswer_awaited h resp d
  have ⟨still, _, room, _, _, ⟨_, _, _, holder⟩, _⟩ := h
  refine ⟨fun code reported row => ⟨_, answered, ?_⟩, fun okay => ⟨_, answered, ?_⟩⟩
  · have row : FuRow j.kind (j.req.answer resp) code := row
    rw [row.events]
    exact sbHas_fuHas room rfl (row.minLevel.trans_le reported) _
  · rw [okay, fuEvents_okay, settle_fuHas_nil h]
    have after := ((Apart.of_fuFreed h).acts (acts_fuAnswered _ j ⟨.okay, d⟩)).settles still holder
    exact ⟨after.queue, after.writing, after.counter⟩

end Sys2Proof.Events
end

section
/-! SUPPORT. What a command leaves of the queue of commands, of the alert list and of the controls (R69, R178, R180, R188). -/

namespace Sys2Proof.Port

open Sys2Proof Sys2Proof.Machine Sys2Proof.Laws

variable {n : ChanId} {s t u : State}

/-! ## The queue, the alert list and the controls -/

/-- RUN, REPORT_LEVEL, INT_EN, the anchor, the level SB holds and the reset pin. -/
def controls (s : State) : Bool × BitVec 2 × BitVec 5 × BitVec 19 × BitVec 8 × BitVec 2 × Bool :=
  (s.rp.run, s.rp.reportLevel, s.rp.intEn, s.rp.anchorLo, s.rp.anchorHi, s.sb.level, s.resetAsserted)

theorem controls_eq_iff :
    controls t = controls s ↔
      t.rp.run = s.rp.run ∧ t.rp.reportLevel = s.rp.reportLevel ∧ t.rp.intEn = s.rp.intEn ∧ t.rp.anchorLo = s.rp.anchorLo
        ∧ t.rp.anchorHi = s.rp.anchorHi ∧ t.sb.level = s.sb.level ∧ t.resetAsserted = s.resetAsserted := by
  simp [controls]

/-- From `s` to `t` the queue stays, and the alert list has at most gained numbers. -/
structure Grows (s t : State) : Prop where
  pending : t.pending = s.pending
  alerts : s.rp.alerts <+: t.rp.alerts

/-- From `s` to `t` the controls stay as well. -/
structure Stays (s t : State) : Prop extends Grows s t where
  controls : Port.controls t = Port.controls s

theorem Grows.refl (s : State) : Grows s s := ⟨rfl, [], List.append_nil _⟩

/-- What follows on a state that agrees with `s` in the queue and the alert list. -/
theorem Grows.after (h : Grows t u) (pending : t.pending = s.pending) (alerts : t.rp.alerts = s.rp.alerts) : Grows s u :=
  ⟨h.pending.trans pending, alerts ▸ h.alerts⟩

theorem Grows.trans (a : Grows s t) (b : Grows t u) : Grows s u := ⟨b.pending.trans a.pending, a.alerts.trans b.alerts⟩

namespace Stays

/-- A change of nothing but the units, the channels and the rest of RP and SB. -/
theorem same (pending : t.pending = s.pending) (alerts : t.rp.alerts = s.rp.alerts)
    (controls : Port.controls t = Port.controls s) : Stays s t :=
  ⟨⟨pending, [], (List.append_nil _).trans alerts.symm⟩, controls⟩

theorem refl (s : State) : Stays s s := same rfl rfl rfl

theorem trans (a : Stays s t) (b : Stays t u) : Stays s u :=
  ⟨a.toGrows.trans b.toGrows, b.controls.trans a.controls⟩

theorem ofKeeps (keeps : Keeps s t) : Stays s t := by
  obtain ⟨x, l, k, rp, -⟩ := keeps.rp
  refine ⟨⟨keeps.pending, l, by rw [rp]⟩, controls_eq_iff.mpr ?_⟩
  rw [rp]
  exact ⟨rfl, rfl, rfl, rfl, rfl, keeps.level, keeps.resetAsserted⟩

theorem ofActs (acts : Acts n s t) : Stays s t := ofKeeps (.ofActs acts)

theorem ofActsAll {l : List ChanId} (acts : ActsAll l s t) : Stays s t := by
  obtain ⟨x, rp⟩ := acts.rp
  obtain ⟨b, sb, -⟩ := acts.sb
  refine same acts.pending (by rw [rp]) (controls_eq_iff.mpr ?_)
  rw [rp, sb]
  exact ⟨rfl, rfl, rfl, rfl, rfl, rfl, acts.resetAsserted⟩

/-- The internal steps of a command keep the queue and the controls, and take no number from the alert list. -/
theorem settles (h : Stays s u) : Stays s (settle u) := h.trans (ofKeeps (settle_keeps u))

/-- What is so of a command's own effect is so when the part has settled. -/
theorem settled (eq : settled u = .next t) (h : Stays s u) : Stays s t := by
  cases eq
  exact h.settles

/-- What follows on a state that agrees with `s` in the queue, the alert list and the controls. -/
theorem after (h : Stays t u) (pending : t.pending = s.pending) (alerts : t.rp.alerts = s.rp.alerts)
    (controls : Port.controls t = Port.controls s) : Stays s u := (same pending alerts controls).trans h

theorem inArrivalOrder {act : ChanId → State → State} (acts : ∀ n s, Acts n s (act n s)) (l : List ChanId) (s : State) :
    Stays s (s.inArrivalOrder l act) :=
  (ofActsAll (acts_all act acts (arrange l.length s.arrivals l) s)).trans (same rfl rfl rfl)

end Stays

/-! ## Register writes -/

/-- A register write replies, is refused, or acts (R176, R190). -/
theorem regWrite_cases {P : State → Prop} {act : State → State} (replied : P (s.replied ⟨false, 0⟩))
    (refused : P ((s.replied ⟨false, 0⟩).refuse .resetting)) (acts : P (act (s.replied ⟨false, 0⟩))) :
    P (s.regWrite act) := by
  unfold State.regWrite
  dsimp only
  split_ifs
  · exact replied
  · exact refused
  · exact acts

theorem stays_refuse (s : State) (r : Reason) : Stays s (s.refuse r) := .same rfl rfl rfl

theorem stays_replied (s : State) (r : Reply) : Stays s (s.replied r) := .same rfl rfl rfl

theorem stays_regWrite {act : State → State} (acts : ∀ u, Stays u (act u)) : Stays s (s.regWrite act) :=
  regWrite_cases (P := Stays s) (stays_replied s _) ((stays_replied s _).trans (stays_refuse _ _))
    ((stays_replied s _).trans (acts _))

theorem grows_regWrite {act : State → State} (acts : ∀ u, Grows u (act u)) : Grows s (s.regWrite act) :=
  regWrite_cases (P := Grows s) (stays_replied s _).toGrows ((stays_replied s _).trans (stays_refuse _ _)).toGrows
    ((stays_replied s _).toGrows.trans (acts _))

theorem grows_setControl (v : Word) (s : State) : Grows s (setControl v s) := by
  unfold setControl
  dsimp only
  split
  · exact (Stays.inArrivalOrder acts_goOn _ _).toGrows.after rfl rfl
  · exact ⟨rfl, [], List.append_nil _⟩

theorem grows_writeControl {v : Word} (h : writeControl v s = .next t) : Grows s t := by
  cases h
  refine grows_regWrite fun u => ?_
  have settles (x : State) : Grows x (settle x) := ((Stays.refl x).settles).toGrows
  split
  · exact (settles (beginSoftReset u)).after rfl rfl
  · exact (grows_setControl v u).trans (settles _)

theorem grows_writeAnchor {f : RegPort → RegPort} (hf : ∀ p, (f p).alerts = p.alerts) (h : writeAnchor f s = .next t) :
    Grows s t := by
  cases h
  refine grows_regWrite fun u => ?_
  split
  · exact ⟨rfl, [], (List.append_nil _).trans (hf _).symm⟩
  · exact (stays_refuse u _).toGrows

theorem stays_acceptSignal (v : Word) (s : State) : Stays s (acceptSignal v s) := by
  unfold acceptSignal
  dsimp only
  split_ifs
  · exact stays_refuse s _
  · exact stays_refuse s _
  · exact (Stays.refl _).settles.after rfl rfl rfl

theorem stays_acceptCommand (n : ChanId) (k : Command) (s : State) : Stays s (acceptCommand n k s) := by
  unfold acceptCommand
  dsimp only
  split_ifs
  · exact stays_refuse s _
  · exact .same rfl rfl rfl
  · have taken := Stays.ofActs (acts_takeChannelCommand n { s with rp := { s.rp with lastNamed := n } } k)
    exact taken.settles.after rfl rfl rfl

theorem stays_writeChannelCmd {code : BitVec 4} (h : writeChannelCmd n code s = .next t) : Stays s t := by
  cases h
  refine stays_regWrite fun u => ?_
  split
  · exact .same rfl rfl rfl
  · exact stays_acceptCommand n .start u
  · exact stays_acceptCommand n .stop u
  · exact stays_acceptCommand n .resume u
  · exact stays_acceptCommand n .skip u
  · exact stays_acceptCommand n .reset u
  · exact stays_refuse u _

theorem stays_statusRegisterWrite {v : Word} (h : execStatusRegisterWrite v s = .next t) : Stays s t := by
  cases h
  exact stays_regWrite fun _ => .same rfl rfl rfl

/-- An ALERT read takes a number from the list and leaves the queue and the controls (R186). -/
theorem alertRead_controls (h : execAlertRead s = .next t) : t.pending = s.pending ∧ controls t = controls s := by
  unfold execAlertRead at h
  split at h <;> cases h <;> exact ⟨rfl, rfl⟩

theorem stays_pendingCommandTake (h : execPendingCommandTake s = .next t) : Stays s t := by
  unfold execPendingCommandTake at h
  split at h
  next n k _ =>
    split at h
    · have taken := Stays.ofActs (acts_takeChannelCommand n { s with rp := { s.rp with commandSlot := none } } k)
      exact (Stays.settled h taken).after rfl rfl rfl
    · cases h
  next => cases h

/-! ## Answers of MP -/

theorem stays_fuAnswer {k : FuKind} {resp : Resp} {d : BitVec 4736} (h : Machine.fuAnswer k resp d s = .next t) :
    Stays s t := by
  unfold Machine.fuAnswer at h
  split at h
  · split at h
    · exact .settled h (.same rfl rfl rfl)
    · cases h
  · cases h

theorem stays_suReadAnswer {k : SuKind} {resp : Resp} {d : BitVec 48} (h : suReadAnswer k resp d s = .next t) :
    Stays s t := by
  unfold suReadAnswer at h
  split at h
  · split at h
    · exact .settled h (.same rfl rfl rfl)
    · cases h
  · cases h

theorem stays_suWriteAnswer {k : SuKind} {resp : WriteResp} (h : suWriteAnswer k resp s = .next t) : Stays s t := by
  unfold suWriteAnswer at h
  split at h
  · split at h
    · exact .settled h (.same rfl rfl rfl)
    · cases h
  · cases h

theorem stays_elementReadAnswer {resp : Resp} {d : BitVec 64} (h : execElementReadAnswer resp d s = .next t) :
    Stays s t := by
  unfold execElementReadAnswer at h
  split at h
  · exact .settled h (.same rfl rfl rfl)
  · cases h

theorem stays_deviceWriteAnswer {resp : WriteResp} (h : execDeviceWriteAnswer resp s = .next t) : Stays s t := by
  unfold execDeviceWriteAnswer at h
  split at h
  · exact .settled h (.same rfl rfl rfl)
  · cases h

theorem stays_walkReadAnswer {x : TuStage} {resp : Resp} {d : BitVec 64} (h : walkReadAnswer x resp d s = .next t) :
    Stays s t := by
  unfold walkReadAnswer at h
  split at h
  · split at h
    · exact .settled h (.same rfl rfl rfl)
    · cases h
  · cases h

theorem stays_flagWriteAnswer {resp : WriteResp} (h : execFlagWriteAnswer resp s = .next t) : Stays s t := by
  unfold execFlagWriteAnswer at h
  split at h
  · exact .settled h (.same rfl rfl rfl)
  · cases h

theorem stays_markChannels (l : List ChanId) (s : State) : Stays s (markChannels l s) :=
  (Stays.ofActsAll (acts_all setMark acts_setMark l s)).trans (.inArrivalOrder acts_goOn _ _)

theorem stays_writeOutAnswered (l : Line) (resp : WriteResp) (s : State) : Stays s (writeOutAnswered l resp s) := by
  unfold writeOutAnswered
  dsimp only
  split
  · exact (stays_markChannels _ _).after rfl rfl rfl
  · exact .same rfl rfl rfl
  · exact .same rfl rfl rfl

theorem stays_lineWriteOutAnswer {resp : WriteResp} (h : execLineWriteOutAnswer resp s = .next t) : Stays s t := by
  unfold execLineWriteOutAnswer at h
  split at h
  · exact .settled h (stays_writeOutAnswered _ resp s)
  · cases h

theorem stays_errorRecordWriteAnswer {resp : WriteResp} (h : execErrorRecordWriteAnswer resp s = .next t) :
    Stays s t := by
  unfold execErrorRecordWriteAnswer at h
  split at h
  · exact .settled h (.same rfl rfl rfl)
  · cases h

/-! ## Events of the table -/

theorem stays_grantTo (n : ChanId) (s : State) : Stays s (grantTo n s) := by
  unfold grantTo
  dsimp only
  split <;> exact .same rfl rfl rfl

theorem stays_grantPoint (h : execGrantPoint s = .next t) : Stays s t := by
  unfold execGrantPoint at h
  split at h
  · split at h
    · split at h
      · cases h; exact stays_grantTo _ s
      · exact .settled h (stays_grantTo _ s)
    · cases h
  · cases h

theorem stays_endSlice (n : ChanId) (s : State) : Stays s (endSlice n none s) :=
  .ofKeeps (.ofEngages (engages_endSlice n s none))

theorem stays_sliceCountExhausted (h : execSliceCountExhausted s = .next t) : Stays s t := by
  unfold execSliceCountExhausted at h
  split at h
  · exact .settled h (stays_endSlice _ s)
  · cases h

theorem stays_channelDrainComplete (h : execChannelDrainComplete s = .next t) : Stays s t := by
  unfold execChannelDrainComplete at h
  split at h
  next n _ =>
    split at h
    · exact (Stays.settled h (.ofActs (acts_drainAnswered n s.lbFree))).after rfl rfl rfl
    · cases h
  next => cases h

theorem stays_engineDrained (s : State) : Stays s (engineDrained s) := by
  unfold engineDrained
  split
  · exact (Stays.ofActs (Acts.modChan _ s _)).trans (stays_endSlice _ _)
  · split <;> exact .same rfl rfl rfl
  · exact .refl s

/-- A full drain of TE takes no number from the alert list; that of a soft reset empties it (R155, R189). -/
theorem fullDrainComplete_controls (h : execFullDrainComplete s = .next t) :
    t.pending = s.pending ∧ controls t = controls s ∧ (s.lb.current ≠ some .softDrain → s.rp.alerts <+: t.rp.alerts) := by
  unfold execFullDrainComplete at h
  split at h
  next =>
    split at h
    · have stays : Stays s t := (Stays.settled h (stays_engineDrained s.lbFree)).after rfl rfl rfl
      exact ⟨stays.pending, stays.controls, fun _ => stays.alerts⟩
    · cases h
  next soft =>
    split at h
    · have stays := Stays.settled h (.refl (softDrained s.lbFree))
      exact ⟨stays.pending, stays.controls, fun other => absurd soft other⟩
    · cases h
  next => cases h

theorem stays_resetRequestsSettled (h : execResetRequestsSettled n s = .next t) : Stays s t := by
  unfold execResetRequestsSettled at h
  split at h
  · exact .settled h (.ofActs (acts_resetGoesOn n s))
  · cases h

theorem stays_softResetDrain (h : execSoftResetDrain s = .next t) : Stays s t := by
  unfold execSoftResetDrain at h
  split at h
  · exact .settled h (.same rfl rfl rfl)
  · cases h

/-- The clearing step of a soft reset empties the alert list and leaves the queue and the controls (R189). -/
theorem softResetClearing_controls (h : execSoftResetClearing s = .next t) :
    t.pending = s.pending ∧ controls t = controls s := by
  unfold execSoftResetClearing at h
  split at h <;> cases h
  exact ⟨rfl, rfl⟩

/-! ## Every command -/

/-- The controls kept, in the terms of the obligation. -/
theorem controls_kept (h : controls t = controls s) :
    t.rp.run = s.rp.run ∧ t.rp.reportLevel = s.rp.reportLevel ∧ t.rp.intEn = s.rp.intEn ∧ t.anchor = s.anchor
      ∧ t.sb.level = s.sb.level ∧ t.resetAsserted = s.resetAsserted := by
  obtain ⟨run, level, intEn, lo, hi, sb, pin⟩ := controls_eq_iff.mp h
  exact ⟨run, level, intEn, by rw [State.anchor, lo, hi]; rfl, sb, pin⟩

/-- A command that keeps queue, list and controls does so whatever the exceptions `p` to `p₄` of the obligation. -/
theorem Stays.kept {p : Prop} (h : Stays s t) (p₁ p₂ p₃ p₄ : Prop) :
    t.pending = s.pending ∧ (p₁ → p₂ → p₃ → p₄ → s.rp.alerts <+: t.rp.alerts)
      ∧ (p → t.rp.run = s.rp.run ∧ t.rp.reportLevel = s.rp.reportLevel ∧ t.rp.intEn = s.rp.intEn ∧ t.anchor = s.anchor
        ∧ t.sb.level = s.sb.level ∧ t.resetAsserted = s.resetAsserted) :=
  ⟨h.pending, fun _ _ _ _ => h.alerts, fun _ => controls_kept h.controls⟩

/-- Settles O54: command by command, by what its own effect and the internal steps leave. -/
theorem controlsKeptByOtherCommands : Obligations.ControlsKeptByOtherCommands := by
  unfold Obligations.ControlsKeptByOtherCommands
  intro c s t h
  cases c with
  | hardReset => cases h; exact ⟨rfl, fun other => absurd rfl other, False.elim⟩
  | resetRelease => cases h; exact ⟨rfl, fun _ _ _ _ => ⟨[], List.append_nil _⟩, False.elim⟩
  | controlWrite | softReset =>
    have grows := grows_writeControl h
    exact ⟨grows.pending, fun _ _ _ _ => grows.alerts, False.elim⟩
  | anchorLoWrite v =>
    have grows := grows_writeAnchor (f := fun p => { p with anchorLo := v.extractLsb' 13 19 }) (fun _ => rfl) h
    exact ⟨grows.pending, fun _ _ _ _ => grows.alerts, False.elim⟩
  | anchorHiWrite v =>
    have grows := grows_writeAnchor (f := fun p => { p with anchorHi := v.extractLsb' 0 8 }) (fun _ => rfl) h
    exact ⟨grows.pending, fun _ _ _ _ => grows.alerts, False.elim⟩
  | alertRead =>
    obtain ⟨pending, controls⟩ := alertRead_controls h
    exact ⟨pending, fun _ other => absurd rfl other, fun _ => controls_kept controls⟩
  | softResetClearing =>
    obtain ⟨pending, controls⟩ := softResetClearing_controls h
    exact ⟨pending, fun _ _ other => absurd rfl other, fun _ => controls_kept controls⟩
  | fullDrainComplete =>
    obtain ⟨pending, controls, alerts⟩ := fullDrainComplete_controls h
    exact ⟨pending, fun _ _ _ other => alerts fun soft => other ⟨rfl, soft⟩, fun _ => controls_kept controls⟩
  | signal v => cases h; exact (stays_regWrite (stays_acceptSignal v)).kept ..
  | select => exact (stays_writeChannelCmd (code := 0) h).kept ..
  | start => exact (stays_writeChannelCmd (code := 1) h).kept ..
  | stop => exact (stays_writeChannelCmd (code := 2) h).kept ..
  | resume => exact (stays_writeChannelCmd (code := 3) h).kept ..
  | skip => exact (stays_writeChannelCmd (code := 4) h).kept ..
  | reset => exact (stays_writeChannelCmd (code := 5) h).kept ..
  | invalidCommand => exact (stays_writeChannelCmd h).kept ..
  | pendingCommandTake => exact (stays_pendingCommandTake h).kept ..
  | statusRegisterWrite => exact (stays_statusRegisterWrite h).kept ..
  | ignoredRegisterWrite | narrowAccess => cases h; exact (stays_replied s _).kept ..
  | contextReadAnswer | linkReadAnswer | headerReadAnswer | bodyReadAnswer | acceptanceWriteAnswer | doneWriteAnswer
  | doneRewriteAnswer | haltStatusWriteAnswer | skippedWriteAnswer | saveWriteAnswer => exact (stays_fuAnswer h).kept ..
  | waitReadAnswer | notifyReadAnswer | undoStopReadAnswer | undoResetReadAnswer | signalReadAnswer =>
    exact (stays_suReadAnswer h).kept ..
  | waitWriteAnswer | notifyWriteAnswer | undoStopWriteAnswer | undoResetWriteAnswer | signalWriteAnswer =>
    exact (stays_suWriteAnswer h).kept ..
  | grantPoint => exact (stays_grantPoint h).kept ..
  | elementReadAnswer => exact (stays_elementReadAnswer h).kept ..
  | deviceWriteAnswer => exact (stays_deviceWriteAnswer h).kept ..
  | rootReadAnswer | descriptorReadAnswer | pageEntryReadAnswer => exact (stays_walkReadAnswer h).kept ..
  | flagWriteAnswer => exact (stays_flagWriteAnswer h).kept ..
  | lineWriteOutAnswer => exact (stays_lineWriteOutAnswer h).kept ..
  | channelDrainComplete => exact (stays_channelDrainComplete h).kept ..
  | sliceCountExhausted => exact (stays_sliceCountExhausted h).kept ..
  | errorRecordWriteAnswer => exact (stays_errorRecordWriteAnswer h).kept ..
  | resetRequestsSettled => exact (stays_resetRequestsSettled h).kept ..
  | softResetDrain => exact (stays_softResetDrain h).kept ..

end Sys2Proof.Port
end

section
/-! SUPPORT. A soft reset's start, drain and clearing: no SIGNAL is queued at SU by itself, and a drain asked of LB is answered by
its own command alone (R72, R146, R154, R155, R189). -/

namespace Sys2Proof.Port

open Sys2Proof Sys2Proof.Machine Sys2Proof.Laws

variable {n : ChanId} {s t u : State}

/-! ## No SIGNAL at SU -/

/-- SU's queue holds no SIGNAL. -/
def NoSignal (s : State) : Prop := ∀ k, SuReq.signal k ∉ s.su.queue

theorem noSignal_append {l : List SuReq} (h : NoSignal s) (queue : t.su.queue = s.su.queue ++ l)
    (own : ∀ r ∈ l, OwnRequest n s r) : NoSignal t := by
  intro k mem
  rw [queue, List.mem_append] at mem
  rcases mem with old | new
  · exact h k old
  · obtain ⟨chan, -⟩ := own _ new
    cases chan

/-- A channel's reaction asks SU for nothing but waits, notifies and undos. -/
theorem noSignal_ofActs (acts : Acts n s t) (h : NoSignal s) : NoSignal t :=
  let ⟨_, su, own⟩ := acts.su
  noSignal_append h (by rw [su]) own

theorem noSignal_ofEngages (engages : Engages n s t) (h : NoSignal s) : NoSignal t :=
  let ⟨_, su, own⟩ := engages.su
  noSignal_append h (by rw [su]) own

theorem noSignal_wakeOne (b : Bool) (k : SemId) (c : BitVec 16) (h : NoSignal s) : NoSignal (wakeOne b k c s) := by
  unfold wakeOne
  split
  · split
    · exact h
    · exact noSignal_ofActs (acts_waitSucceeded _ _) h
  · exact h

theorem noSignal_offerAlert (k : SemId) (h : NoSignal s) : NoSignal (offerAlert k s) := by
  unfold offerAlert
  split_ifs <;> exact h

theorem noSignal_notifyEffects (d : BitVec 48) (k : SemId) (c : BitVec 16) (h : NoSignal s) :
    NoSignal (notifyEffects d k c s) := by
  unfold notifyEffects
  dsimp only
  split
  · exact noSignal_offerAlert k (noSignal_wakeOne _ k c h)
  · exact noSignal_wakeOne _ k c h

theorem noSignal_suFailed (r : SuReq) (f : SuFailure) (h : NoSignal s) : NoSignal (suFailed r f s) := by
  cases r with
  | wait | notify => exact noSignal_ofActs (acts_requestFailed _ _ _) h
  | undoStop => exact noSignal_ofActs (acts_stopUndoFailed _ _) h
  | undoReset => exact noSignal_ofActs (acts_resetUndoAnswered _ _) h
  | signal => exact h

theorem noSignal_waitPerformed (n : ChanId) (k : SemId) (c : BitVec 16) (h : NoSignal s) :
    NoSignal (waitPerformed n k c s) := by
  unfold waitPerformed
  split
  · exact noSignal_ofActs (acts_waitSucceeded n s) h
  · exact noSignal_ofActs (acts_waitParked n _ (by simp [State.isParked])) h

theorem noSignal_suPerformed (o : SuOp) (d : BitVec 48) (h : NoSignal s) : NoSignal (suPerformed o d s) := by
  unfold suPerformed
  split
  · exact noSignal_waitPerformed _ _ _ h
  · exact noSignal_ofActs (acts_notifyPerformed _ _) (noSignal_notifyEffects _ _ _ h)
  · exact noSignal_notifyEffects _ _ _ h
  · exact noSignal_ofActs (acts_stopUndone _ _) h
  · exact noSignal_ofActs (acts_resetUndoAnswered _ _) h

theorem noSignal_suAnswered (o : SuOp) (g : Got 48) (h : NoSignal s) : NoSignal (suAnswered o g s) := by
  have free : NoSignal s.suFree := h
  unfold suAnswered
  split
  · split
    · split
      · exact noSignal_suFailed _ _ free
      · exact h
    · exact noSignal_suFailed _ _ free
  · split
    · exact noSignal_suPerformed _ _ free
    · exact noSignal_suFailed _ _ free

theorem noSignal_suTake {r : SuReq} {q : List SuReq} (queue : s.su.queue = r :: q) (h : NoSignal s) :
    NoSignal (suTake r q s) := by
  have rest : NoSignal { s with su := { s.su with queue := q } } :=
    fun k mem => h k (queue ▸ List.mem_cons_of_mem r mem)
  unfold suTake
  dsimp only
  split
  · cases r with
    | wait | notify | signal => exact rest
    | undoStop => exact noSignal_ofActs (acts_goOn _ _) rest
    | undoReset => exact noSignal_ofActs (acts_resetUndoAnswered _ _) rest
  · exact rest

/-- A SIGNAL comes to SU's queue from RP alone (R60, R181). -/
theorem micro_noSignal (h : NoSignal s) (step : micro s = some t) : NoSignal t := by
  rcases micro_cases step with m | m | m | m | m | m | m | m | m | m | m
  · obtain ⟨e, l, b, -, -, rfl⟩ := fuHandOver_some m; exact h
  · obtain ⟨e, l, b, -, -, rfl⟩ := suHandOver_some m; exact h
  · obtain ⟨e, l, b, -, -, rfl⟩ := teHandOver_some m; exact h
  · obtain ⟨e, l, b, -, -, rfl⟩ := tuHandOver_some m; exact h
  · obtain ⟨e, l, b, -, -, rfl⟩ := lbHandOver_some m; exact h
  · obtain ⟨e, q, -, -, rfl⟩ := sbStep_some m; exact h
  · rcases fuStep_some m with ⟨j, g, -, -, -, rfl⟩ | ⟨j, q, -, -, -, rfl⟩
    · exact noSignal_ofActs (s := { s with fu := { s.fu with current := none, got := none } }) (acts_fuAnswered _ j g) h
    · exact h
  · rcases suStep_some m with ⟨o, g, -, -, -, rfl⟩ | ⟨r, q, -, -, queue, rfl⟩
    · exact noSignal_suAnswered o g h
    · exact noSignal_suTake queue h
  · obtain ⟨b, q, rfl, -⟩ := lbStep_frame m; exact h
  · obtain ⟨v, q, rfl, -⟩ := tuStep_frame m; exact h
  · obtain ⟨m, -, engages⟩ := teStep_engages m; exact noSignal_ofEngages engages h

theorem settle_noSignal (h : NoSignal s) : NoSignal (settle s) :=
  settle_induct NoSignal (fun _ _ h step => micro_noSignal h step) h

/-! ## A drain asked of LB -/

/-- LB answers a drain by no step of its own (R154, R155). -/
theorem lbStep_keeps_drain {r : LbReq} (drain : Moves.isDrain r = true) (step : lbStep s = some t)
    (mem : r ∈ s.lbRequests) : r ∈ t.lbRequests := by
  unfold lbStep at step
  split at step
  next free =>
    split at step
    next x q queue =>
      cases step
      simpa [State.lbRequests, free, queue] using mem
    next => cases step
  next x current =>
    split at step
    next =>
      cases x with
      | write pa z v n | check pa =>
        have queued : r ∈ s.lb.queue := by
          rcases List.mem_append.mp mem with now | queued
          · rw [current, Option.toList_some, List.mem_singleton] at now
            subst now
            cases drain
          · exact queued
        unfold lbAdvance at step
        (repeat' split at step) <;> cases step <;> exact List.mem_append_right _ queued
      | drain | engineDrain | softDrain =>
        rw [Lines.lbAdvance_of_drain rfl] at step
        obtain ⟨e, -, rfl⟩ := Option.map_eq_some_iff.mp step
        exact mem
    next => cases step

/-- A drain asked of LB is still there when the part has settled. -/
theorem settle_keeps_drain {r : LbReq} (drain : Moves.isDrain r = true) (mem : r ∈ s.lbRequests) :
    r ∈ (settle s).lbRequests := by
  refine settle_induct (fun t => r ∈ t.lbRequests) (fun t u asked step => ?_) mem
  rcases Lines.micro_lines step with ⟨⟨q, held, lb, -⟩, -⟩ | step
  · rw [State.lbRequests, lb, ← List.append_assoc]
    exact List.mem_append_left q asked
  · exact lbStep_keeps_drain drain step asked

/-! ## The steps of a soft reset -/

theorem chan_beginSoftReset (s : State) (n : ChanId) : (beginSoftReset s).chan n = (s.chan n).softReset := by
  simp [beginSoftReset, State.chan]

theorem chan_clearPart (s : State) (n : ChanId) : (clearPart s).chan n = { s.chan n with haltedBit := false } := by
  simp [clearPart, State.chan]

/-- A channel out of reset begins its reset, unless it is OFF (R189). -/
theorem softReset_of_off {c : Channel} (off : c.reset = .off) :
    c.softReset = if c.state = .off then c else { c with reset := .settling } := by
  by_cases state : c.state = .off <;> simp [Channel.softReset, off, state]

theorem leftAlone_beginSoftReset (h : s.leftAlone n) : (beginSoftReset s).leftAlone n := by
  obtain ⟨fu, su, undo, grant⟩ := h
  exact ⟨fu, su, fun queued => undo (queued.imp List.mem_of_mem_filter List.mem_of_mem_filter), grant⟩

/-- No SIGNAL is left in SU's queue (R72, R189). -/
theorem noSignal_beginSoftReset (s : State) : NoSignal (beginSoftReset s) := fun k mem => by
  have asked := List.of_mem_filter mem
  cases asked

/-- A CONTROL write with SOFT_RESET begins a soft reset (R178, R189). -/
theorem exec_softReset {v : Word} (takes : s.takesWrites) (bit : softResetBit v = true) :
    exec (.softReset v) s = .next (settle (beginSoftReset (s.replied ⟨false, 0⟩))) := by
  refine congrArg Host.Outcome.next ((regWrite_takes takes _).trans ?_)
  rw [if_pos bit]

/-- What a soft reset has changed of RP and the modes when its first command is over (R189). -/
theorem settle_beginSoftReset (s : State) :
    ∃ x l, (settle (beginSoftReset s)).rp
        = { s.rp with run := false, commandSlot := none, signalSlot := none, refuseReason := x, alerts := l }
      ∧ (settle (beginSoftReset s)).soft = .channels := by
  have keeps := settle_keeps (beginSoftReset s)
  obtain ⟨x, l, k, rp, slot⟩ := keeps.rp
  obtain rfl : k = none := slot.elim id id
  exact ⟨x, _, rp, keeps.soft⟩

/-- The full drain is sent once every channel is OFF and SU idle (R189). -/
theorem exec_softResetDrain (soft : s.soft = .channels) (off : s.allOff = true) (queue : s.su.queue = [])
    (current : s.su.current = none) :
    exec .softResetDrain s = .next (settle ({ s with soft := .draining }.queueLb .softDrain)) := by
  simp [exec, execSoftResetDrain, soft, off, queue, current, settled]

/-- The clearing step is taken when SB is idle (R189). -/
theorem exec_softResetClearing (soft : s.soft = .clearing) (queue : s.sb.queue = []) (writing : s.sb.writing = none) :
    exec .softResetClearing s = .next (clearPart s) := by
  simp [exec, execSoftResetClearing, soft, queue, writing]

/-- Settles O8: each of the three steps by its command's own effect, and by what the internal steps after it keep. -/
theorem softResetBeginsAndEnds : Obligations.SoftResetBeginsAndEnds := by
  unfold Obligations.SoftResetBeginsAndEnds
  intro s
  refine ⟨fun v takes bit => ?_, fun soft off queue current => ?_, fun soft queue writing => ?_⟩
  · obtain ⟨x, l, rp, soft⟩ := settle_beginSoftReset (s.replied ⟨false, 0⟩)
    refine ⟨_, exec_softReset takes bit, soft, by rw [rp], by rw [rp], by rw [rp], by rw [State.anchor, rp]; rfl,
      by rw [rp]; rfl, by rw [rp]; rfl, settle_noSignal (noSignal_beginSoftReset _), fun n alone off => ?_⟩
    have rests := settle_leftAlone (leftAlone_beginSoftReset (s := s.replied ⟨false, 0⟩) alone)
    rw [rests.chan, chan_beginSoftReset]
    exact softReset_of_off off
  · exact ⟨_, exec_softResetDrain soft off queue current, (settle_keeps _).soft,
      settle_keeps_drain rfl (by simp [State.lbRequests])⟩
  · refine ⟨_, exec_softResetClearing soft queue writing, rfl, fun i => ?_, rfl, rfl, rfl, chan_clearPart s, rfl, rfl, rfl,
      rfl, rfl⟩
    simp [clearPart]

end Sys2Proof.Port
end

section
/-! SUPPORT. A CONTROL write: the controls it sets, and the channels held by RUN that it lets go on (R24, R36, R168, R178). -/

namespace Sys2Proof.Port

open Sys2Proof Sys2Proof.Machine Sys2Proof.Laws

variable {n m : ChanId} {s t : State} {v : Word} {l : List ChanId}

/-! ## The controls set -/

/-- `s` with the controls a CONTROL write carries: RUN, REPORT_LEVEL and INT_EN (R178). -/
def withControls (v : Word) (s : State) : State :=
  { s with
    rp := { s.rp with run := v.getLsbD 0, reportLevel := v.extractLsb' 4 2, intEn := v.extractLsb' 8 5 }
    sb := { s.sb with level := v.extractLsb' 4 2 } }

theorem setControl_eq (v : Word) (s : State) :
    setControl v s
      = if (!s.rp.run && v.getLsbD 0) = true then
          (withControls v s).inArrivalOrder (allChannels.filter fun n => (s.chan n).heldByRun) goOn
        else withControls v s := rfl

/-- With RUN set already, or not set, no channel goes on. -/
theorem setControl_of_noRelease (h : s.rp.run = true ∨ v.getLsbD 0 = false) : setControl v s = withControls v s := by
  rw [setControl_eq, if_neg]
  rcases h with run | run <;> rw [run]
  · exact Bool.false_ne_true
  · rw [Bool.and_false]; exact Bool.false_ne_true

/-- RUN set anew lets the channels it held go on, in a free order (R36; log 6). -/
theorem setControl_of_release (stopped : s.rp.run = false) (run : v.getLsbD 0 = true) :
    setControl v s = (withControls v s).inArrivalOrder (allChannels.filter fun n => (s.chan n).heldByRun) goOn := by
  rw [setControl_eq, stopped, run]
  rfl

theorem exec_controlWrite (takes : s.takesWrites) (bit : softResetBit v = false) :
    exec (.controlWrite v) s = .next (settle (setControl v (s.replied ⟨false, 0⟩))) := by
  refine congrArg Host.Outcome.next ((regWrite_takes takes _).trans ?_)
  rw [if_neg (by simp [bit])]

/-- In a settled part that keeps no event another REPORT_LEVEL leaves every unit waiting. -/
theorem withControls_settled (h : s.isSettled) (kept : s.noneKept) (r : Reply) :
    (withControls v (s.replied r)).isSettled :=
  settled_congr h rfl rfl rfl rfl rfl rfl (.inr kept) rfl (fun _ => rfl) (fun _ => rfl)

/-! ## A channel held before its posting wait -/

/-- Nothing but its turn keeps channel `n` from its posting wait: RUN is 1, no stop and no request of its own stand before it
(R24, R36). -/
structure PostsNext (n : ChanId) (s : State) : Prop where
  run : s.rp.run = true
  free : s.suBusy n = false
  reset : (s.chan n).reset = .off
  activity : (s.chan n).activity = .beforeWait
  phase : (s.chan n).phase = .post
  stop : (s.chan n).stopPending = false

/-- In its turn it queues the wait. -/
theorem PostsNext.goOn (h : PostsNext n s) :
    goOn n s = (s.setActivity n .waiting).queueSu (.wait n (s.chan n).posting) := by
  have posting : Machine.goOn n s = postingPoint n s := by simp [Machine.goOn, h.reset, h.activity, h.phase]
  exact posting.trans (Records.postingPoint_of_run h.stop h.run h.free)

/-- Another channel's reaction asks SU for nothing of channel `n`. -/
theorem suBusy_of_acts (acts : Acts m s t) (other : n ≠ m) : t.suBusy n = s.suBusy n := by
  obtain ⟨l, su, own⟩ := acts.su
  have none : l.any (fun r => r.chan == some n) = false := by
    refine List.any_eq_false.mpr fun r hr same => other ?_
    obtain ⟨chan, -⟩ := own r hr
    rw [chan] at same
    exact (Option.some.inj (beq_iff_eq.mp same)).symm
  simp only [State.suBusy, su, List.any_append, none, Bool.or_false]

theorem PostsNext.of_acts (h : PostsNext n s) (acts : Acts m s t) (other : n ≠ m) : PostsNext n t := by
  have chan := acts.others n other
  obtain ⟨x, rp⟩ := acts.rp
  exact {
    run := by rw [rp]; exact h.run
    free := (suBusy_of_acts acts other).trans h.free
    reset := by rw [chan]; exact h.reset
    activity := by rw [chan]; exact h.activity
    phase := by rw [chan]; exact h.phase
    stop := by rw [chan]; exact h.stop }

/-- A channel whose wait stands at SU keeps it, whichever channels go on. -/
theorem goOns_of_waiting (l : List ChanId) {r : SuReq} (waits : (s.chan n).activity = .waiting) (mem : r ∈ s.su.queue) :
    (l.foldl (fun t k => goOn k t) s).chan n = s.chan n ∧ r ∈ (l.foldl (fun t k => goOn k t) s).su.queue := by
  refine List.foldlRecOn l _ (motive := fun t : State => t.chan n = s.chan n ∧ r ∈ t.su.queue) ⟨rfl, mem⟩ ?_
  intro t ⟨chan, mem⟩ k _
  obtain ⟨q, su, -⟩ := (acts_goOn k t).su
  refine ⟨?_, by rw [su]; exact List.mem_append_left q mem⟩
  rcases eq_or_ne n k with rfl | other
  · rw [Machine.goOn, chan, waits]
    split <;> exact chan
  · exact ((acts_goOn k t).others n other).trans chan

/-- Wherever it stands in the order of those that go on, a channel held before its posting wait queues it. -/
theorem goOns_of_postsNext (mem : n ∈ l) (h : PostsNext n s) :
    (l.foldl (fun t k => goOn k t) s).chan n = { s.chan n with activity := .waiting }
      ∧ SuReq.wait n (s.chan n).posting ∈ (l.foldl (fun t k => goOn k t) s).su.queue := by
  induction l generalizing s with
  | nil => cases mem
  | cons k l ih =>
    rw [List.foldl_cons]
    rcases eq_or_ne n k with rfl | other
    · rw [h.goOn]
      have waits := goOns_of_waiting (n := n) (s := (s.setActivity n .waiting).queueSu (.wait n (s.chan n).posting))
        (r := .wait n (s.chan n).posting) l (by simp) (by simp)
      simpa using waits
    · have same := (acts_goOn k s).others n other
      rw [← same]
      exact ih (List.mem_of_ne_of_mem other mem) (h.of_acts (acts_goOn k s) other)

theorem leftAlone_goOns (l : List ChanId) (h : s.leftAlone n) : (l.foldl (fun t k => goOn k t) s).leftAlone n :=
  List.foldlRecOn l _ (motive := fun t : State => t.leftAlone n) h fun t alone k _ =>
    acts_leftAlone (acts_goOn k t) alone

/-- With RUN set anew a channel held before its posting wait stands at SU with it when the part has settled (R24, R36). -/
theorem settle_setControl_posts (stopped : s.rp.run = false) (run : v.getLsbD 0 = true) (alone : s.leftAlone n)
    (posts : PostsNext n (withControls v s)) :
    (settle (setControl v s)).rp.run = true
      ∧ (settle (setControl v s)).chan n = { s.chan n with activity := .waiting }
      ∧ SuReq.wait n (s.chan n).posting ∈ (settle (setControl v s)).suRequests := by
  rw [setControl_of_release stopped run]
  have held : n ∈ allChannels.filter fun n => (s.chan n).heldByRun := by
    have reset : (s.chan n).reset = .off := posts.reset
    have activity : (s.chan n).activity = .beforeWait := posts.activity
    simp [allChannels, Channel.heldByRun, reset, activity]
  generalize allChannels.filter (fun n => (s.chan n).heldByRun) = l at held
  obtain ⟨chan, mem⟩ := goOns_of_postsNext ((arrange_perm l.length (withControls v s).arrivals l).mem_iff.mpr held) posts
  have released := acts_all goOn acts_goOn (arrange l.length (withControls v s).arrivals l) (withControls v s)
  obtain ⟨x, released⟩ := released.rp
  have rests := settle_leftAlone (s := (withControls v s).inArrivalOrder l goOn)
    (leftAlone_goOns (arrange l.length (withControls v s).arrivals l) (s := withControls v s) alone)
  obtain ⟨y, q, k, rp, -⟩ := (settle_keeps ((withControls v s).inArrivalOrder l goOn)).rp
  refine ⟨?_, rests.chan.trans chan, rests.suRequests _ (List.mem_append_right _ mem) nofun⟩
  rw [rp]
  exact (congrArg RegPort.run released).trans run

/-- Settles O4: with no channel released the part stays settled; else the channel queues its wait in its turn. -/
theorem controlWriteSetsFieldsAndReleases : Obligations.ControlWriteSetsFieldsAndReleases := by
  unfold Obligations.ControlWriteSetsFieldsAndReleases
  intro v s takes bit
  have write := exec_controlWrite takes bit
  refine ⟨fun still kept noRelease => ?_, fun n stopped run alone free reset activity phase stop => ?_⟩
  · rw [write, setControl_of_noRelease (s := s.replied ⟨false, 0⟩) noRelease]
    exact congrArg Host.Outcome.next (settle_of_settled (withControls_settled still kept _))
  · have posts : PostsNext n (withControls v (s.replied ⟨false, 0⟩)) := ⟨run, free, reset, activity, phase, stop⟩
    exact ⟨_, write, settle_setControl_posts (s := s.replied ⟨false, 0⟩) stopped run alone posts⟩

end Sys2Proof.Port
end

section
/-! SUPPORT. The fields of the registers the host reads, and what QUIET and the interrupt line stand for (Tables 10-2 and 10-4). -/

namespace Sys2Proof.Port

open Sys2Proof Sys2Proof.Machine Sys2Proof.Laws

variable {s t : State}

/-! ## Fields of a register -/

theorem getLsbD_bitAt (i j : Nat) (b : Bool) : (bitAt i b).getLsbD j = (decide (j < 32) && decide (i = j) && b) := by
  unfold bitAt
  split
  next high =>
    subst high
    rw [BitVec.getLsbD_shiftLeft, BitVec.ofNat_eq_ofNat, BitVec.getLsbD_one]
    grind
  next low => simp [low]

theorem getLsbD_fieldAt {w : Nat} (i j : Nat) (x : BitVec w) :
    (fieldAt i x).getLsbD j = (decide (j < 32) && decide (i ≤ j) && x.getLsbD (j - i)) := by
  rw [fieldAt, BitVec.getLsbD_shiftLeft, BitVec.getLsbD_setWidth]
  grind

/-- A field reads back what stands in it. -/
theorem extract_fieldAt {w i : Nat} (x : BitVec w) (fits : i + w ≤ 32) : (fieldAt i x).extractLsb' i w = x := by
  refine BitVec.eq_of_getLsbD_eq fun j hj => ?_
  rw [BitVec.getLsbD_extractLsb', getLsbD_fieldAt]
  grind

/-- Another field reads 0 of it. -/
theorem extract_fieldAt_apart {w i start len : Nat} (x : BitVec w) (apart : start + len ≤ i ∨ i + w ≤ start) :
    (fieldAt i x).extractLsb' start len = 0 := by
  refine BitVec.eq_of_getLsbD_eq fun j hj => ?_
  rw [BitVec.getLsbD_extractLsb', getLsbD_fieldAt, BitVec.ofNat_eq_ofNat, BitVec.getLsbD_zero]
  rcases apart with above | below
  · grind
  · rw [BitVec.getLsbD_of_ge x _ (by omega)]
    simp

theorem extract_bitAt_apart {i start len : Nat} (b : Bool) (apart : i < start ∨ start + len ≤ i) :
    (bitAt i b).extractLsb' start len = 0 := by
  refine BitVec.eq_of_getLsbD_eq fun j hj => ?_
  rw [BitVec.getLsbD_extractLsb', getLsbD_bitAt, BitVec.ofNat_eq_ofNat, BitVec.getLsbD_zero]
  grind

/-- One bit for each channel of a list. -/
theorem getLsbD_bits (f : ChanId → Bool) (j : Nat) (l : List ChanId) (v : Word) :
    (l.foldl (fun v n => v ||| bitAt n.val (f n)) v).getLsbD j
      = (v.getLsbD j || l.any fun n => decide (j < 32) && decide (n.val = j) && f n) := by
  induction l generalizing v with
  | nil => simp
  | cons n l ih => rw [List.foldl_cons, ih, BitVec.getLsbD_or, getLsbD_bitAt, List.any_cons, Bool.or_assoc]

theorem mem_allChannels (n : ChanId) : n ∈ allChannels := List.mem_finRange n

/-! ## The registers -/

/-- HALTED has the bit of each channel (R186). -/
theorem getLsbD_haltedValue (s : State) (n : ChanId) : s.haltedValue.getLsbD n.val = (s.chan n).haltedBit := by
  rw [State.haltedValue, getLsbD_bits, BitVec.ofNat_eq_ofNat, BitVec.getLsbD_zero, Bool.false_or]
  cases bit : (s.chan n).haltedBit with
  | true => exact List.any_eq_true.mpr ⟨n, mem_allChannels n, by simpa [bit] using n.isLt.trans (by decide)⟩
  | false =>
    refine List.any_eq_false.mpr fun m _ => ?_
    rcases eq_or_ne m n with rfl | other
    · simp [bit]
    · simp [Fin.val_ne_of_ne other]

/-- The upper half of HALTED belongs to no channel (R186). -/
theorem haltedValue_high (s : State) : s.haltedValue.extractLsb' 16 16 = 0 := by
  refine BitVec.eq_of_getLsbD_eq fun j hj => ?_
  rw [BitVec.getLsbD_extractLsb', State.haltedValue, getLsbD_bits]
  simp only [BitVec.ofNat_eq_ofNat, BitVec.getLsbD_zero]
  have unset : ∀ n ∈ allChannels, ¬(decide (16 + j < 32) && decide (n.val = 16 + j) && (s.chan n).haltedBit) = true := by
    intro n _
    have := n.isLt
    have apart : n.val ≠ 16 + j := by omega
    simp [apart]
  rw [List.any_eq_false.mpr unset, Bool.false_or, Bool.and_false]

theorem anchorLoValue_eq (s : State) : s.anchorLoValue = s.rp.anchorLo ++ (0 : BitVec 13) := by
  refine BitVec.eq_of_getLsbD_eq fun j hj => ?_
  rw [State.anchorLoValue, getLsbD_fieldAt, BitVec.getLsbD_append]
  grind

theorem anchorHiValue_eq (s : State) : s.anchorHiValue = s.rp.anchorHi.setWidth 32 := BitVec.shiftLeft_zero _

section Released

variable (h : s.resetAsserted = false)

include h

theorem readRegister_ident : s.readRegister 0 = Config.ident := by simp [State.readRegister, h]

theorem readRegister_control : s.readRegister 0x04 = s.controlValue := by simp [State.readRegister, h]

theorem readRegister_anchorLo : s.readRegister 0x08 = s.anchorLoValue := by simp [State.readRegister, h]

theorem readRegister_anchorHi : s.readRegister 0x0C = s.anchorHiValue := by simp [State.readRegister, h]

theorem readRegister_signal : s.readRegister 0x10 = 0 := by simp [State.readRegister, h]

theorem readRegister_channelCmd : s.readRegister 0x14 = s.channelView := by simp [State.readRegister, h]

theorem readRegister_status : s.readRegister 0x18 = s.statusValue := by simp [State.readRegister, h]

theorem readRegister_halted : s.readRegister 0x1C = s.haltedValue := by simp [State.readRegister, h]

/-- The offsets beyond ALERT hold no register (Table 10-1). -/
theorem readRegister_unused {offset : BitVec 6} (unused : 0x24 ≤ offset.toNat) : s.readRegister offset = 0 := by
  rw [State.readRegister, if_neg (by simp [h])]
  split
  case h_10 => rfl
  all_goals omega

end Released

theorem readRegister_asserted (h : s.resetAsserted = true) (offset : BitVec 6) : s.readRegister offset = 0 := by
  simp [State.readRegister, h]

/-! ## QUIET and the interrupt line -/

/-- The activities at rest are those with nothing outstanding (log 26). -/
theorem atRest_iff (c : Channel) :
    c.atRest = true ↔ c.reset = .off ∧ (c.activity = .rest ∨ c.activity = .parked ∨ c.activity = .beforeWait
      ∨ c.activity = .beforeFetch ∨ c.activity = .ready ∨ c.activity = .beforeNotify) := by
  rw [Channel.atRest, Bool.and_eq_true, beq_iff_eq]
  cases c.activity <;> simp

theorem mpQuiet_iff (p : MemPort) :
    p.quiet = true ↔ p.fu = none ∧ p.su = none ∧ p.te = none ∧ p.tu = none ∧ p.lb = none ∧ p.sb = none := by
  simp [MemPort.quiet, and_assoc]

theorem resetting_eq (s : State) : s.resetting = decide (s.soft ≠ .off) := by
  cases h : s.soft <;> simp [State.resetting, h]

theorem quiet_iff (s : State) :
    s.quiet = true ↔
      s.rp.run = false ∧ s.soft = .off ∧ s.rp.signalSlot = none ∧ s.rp.commandSlot = none ∧ s.fu.queue = []
        ∧ s.fu.current = none ∧ s.su.queue = [] ∧ s.su.current = none ∧ s.te.grant = none ∧ s.lb.queue = []
        ∧ s.lb.current = none ∧ s.sb.queue = [] ∧ s.sb.writing = none
        ∧ (s.mp.fu = none ∧ s.mp.su = none ∧ s.mp.te = none ∧ s.mp.tu = none ∧ s.mp.lb = none ∧ s.mp.sb = none)
        ∧ ∀ n, (s.chan n).reset = .off
          ∧ ((s.chan n).activity = .rest ∨ (s.chan n).activity = .parked ∨ (s.chan n).activity = .beforeWait
            ∨ (s.chan n).activity = .beforeFetch ∨ (s.chan n).activity = .ready
            ∨ (s.chan n).activity = .beforeNotify) := by
  simp [State.quiet, mpQuiet_iff, atRest_iff, resetting_eq, mem_allChannels, and_assoc]

theorem haltPending_iff (s : State) : s.haltPending = true ↔ ∃ n, (s.chan n).haltedBit = true := by
  simp [State.haltPending, mem_allChannels]

/-- The interrupt line is high exactly while a cause and its enable are (R187, Table 10-4). -/
theorem irq_iff (s : State) :
    s.irq = true ↔
      (s.rp.intEn.getLsbD 0 = true ∧ s.rp.alerts ≠ []) ∨ (s.rp.intEn.getLsbD 1 = true ∧ ∃ n, (s.chan n).haltedBit = true)
        ∨ (s.rp.intEn.getLsbD 2 = true ∧ s.sb.refused = true) ∨ (s.rp.intEn.getLsbD 3 = true ∧ s.sb.errorEvent = true)
        ∨ (s.rp.intEn.getLsbD 4 = true ∧ (s.sb.alertLost = true ∨ s.sb.recordFailed = true)) := by
  have pending : s.alertPending = true ↔ s.rp.alerts ≠ [] := by simp [State.alertPending]
  simp only [State.irq, Bool.or_eq_true, Bool.and_eq_true, pending, haltPending_iff, or_assoc]

/-! ## The views -/

/-- A one-bit field of STATUS (R184). -/
theorem statusValue_bits (s : State) :
    s.statusValue.getLsbD 0 = !s.rp.alerts.isEmpty ∧ s.statusValue.getLsbD 1 = allChannels.any (fun n => (s.chan n).haltedBit)
      ∧ s.statusValue.getLsbD 4 = s.sb.refused ∧ s.statusValue.getLsbD 5 = s.sb.errorEvent
      ∧ s.statusValue.getLsbD 6 = s.sb.alertLost ∧ s.statusValue.getLsbD 7 = s.sb.recordFailed
      ∧ s.statusValue.getLsbD 8 = s.quiet ∧ s.statusValue.getLsbD 9 = decide (s.soft ≠ .off)
      ∧ s.statusValue.getLsbD 10 = s.rp.signalSlot.isSome := by
  simp only [State.statusValue, BitVec.getLsbD_or, getLsbD_bitAt, getLsbD_fieldAt, ← resetting_eq]
  simp [State.alertPending, State.haltPending]

/-- STATUS shows the latest reason (R185). -/
theorem statusValue_reason (s : State) :
    s.statusValue.extractLsb' 16 4 = BitVec.ofNat 4 s.rp.refuseReason.code := by
  simp [State.statusValue, BitVec.extractLsb'_or, extract_bitAt_apart, extract_fieldAt]

theorem controlValue_fields (s : State) :
    s.controlValue.getLsbD 0 = s.rp.run ∧ s.controlValue.getLsbD 1 = false
      ∧ s.controlValue.extractLsb' 4 2 = s.rp.reportLevel ∧ s.controlValue.extractLsb' 8 5 = s.rp.intEn := by
  refine ⟨?_, ?_, ?_, ?_⟩
  · simp only [State.controlValue, BitVec.getLsbD_or, getLsbD_bitAt, getLsbD_fieldAt]
    simp
  · simp only [State.controlValue, BitVec.getLsbD_or, getLsbD_bitAt, getLsbD_fieldAt]
    simp
  · simp [State.controlValue, BitVec.extractLsb'_or, extract_bitAt_apart, extract_fieldAt, extract_fieldAt_apart]
  · simp [State.controlValue, BitVec.extractLsb'_or, extract_bitAt_apart, extract_fieldAt, extract_fieldAt_apart]

theorem code_lt (x : ChState) : x.code < 16 := by cases x <;> decide

/-- CHANNEL_CMD shows the last-named channel (R183). -/
theorem channelView_fields (s : State) :
    (s.channelView.extractLsb' 0 4).toNat = s.rp.lastNamed.val
      ∧ (s.channelView.extractLsb' 8 4).toNat = (s.chan s.rp.lastNamed).state.code
      ∧ s.channelView.getLsbD 16 = (s.chan s.rp.lastNamed).stopPending
      ∧ s.channelView.getLsbD 17 = s.rp.commandSlot.isSome := by
  refine ⟨?_, ?_, ?_, ?_⟩
  · simp [State.channelView, BitVec.extractLsb'_or, extract_bitAt_apart, extract_fieldAt, extract_fieldAt_apart]
  · simp [State.channelView, BitVec.extractLsb'_or, extract_bitAt_apart, extract_fieldAt, extract_fieldAt_apart,
      Nat.mod_eq_of_lt (code_lt _)]
  · simp only [State.channelView, BitVec.getLsbD_or, getLsbD_bitAt, getLsbD_fieldAt]
    simp
  · simp only [State.channelView, BitVec.getLsbD_or, getLsbD_bitAt, getLsbD_fieldAt]
    simp

/-- Settles O6: out of reset IDENT reads the constant. -/
theorem identReadsConstant : Obligations.IdentReadsConstant := by
  unfold Obligations.IdentReadsConstant
  intro s released
  rw [readRegister_ident released]
  exact ⟨rfl, by decide, by decide, by decide, fun c t _ released' => readRegister_ident released'⟩

/-- Settles O7: register by register, QUIET and the interrupt line by what each of their causes stands for. -/
theorem statusAndInterruptViews : Obligations.StatusAndInterruptViews := by
  unfold Obligations.StatusAndInterruptViews
  intro s
  obtain ⟨alert, halt, refused, event, lost, failed, quiet, resetting, slot⟩ := statusValue_bits s
  refine ⟨⟨alert, halt, refused, event, lost, failed, quiet, resetting, slot, statusValue_reason s⟩, irq_iff s,
    fun released => ?_, readRegister_asserted, controlValue_fields s, channelView_fields s, quiet_iff s⟩
  have halted := readRegister_halted released
  exact ⟨readRegister_control released, readRegister_channelCmd released, readRegister_status released,
    (readRegister_anchorLo released).trans (anchorLoValue_eq s), (readRegister_anchorHi released).trans (anchorHiValue_eq s),
    readRegister_signal released, fun n => halted ▸ getLsbD_haltedValue s n, halted ▸ haltedValue_high s,
    fun offset unused _ => readRegister_unused released unused⟩

end Sys2Proof.Port
end

section
/-! SUPPORT. What RP decides on a register write or an ALERT read, and the invariants of a part just reset (R176, R180 to R186). -/

namespace Sys2Proof.Port

open Sys2Proof Sys2Proof.Machine Sys2Proof.Laws

variable {n : ChanId} {s : State}

/-! ## Register writes -/

/-- A write to one of RP's registers goes through RP's decision, whatever it does then (R176, R190). -/
theorem exec_portWrite {c : Instr} (h : portWrite c = true) (s : State) : ∃ act, exec c s = .next (s.regWrite act) := by
  cases c with
  | controlWrite | softReset | anchorLoWrite | anchorHiWrite | signal | select | start | stop | resume | skip | reset
  | invalidCommand | statusRegisterWrite => exact ⟨_, rfl⟩
  | _ => cases h

/-- An ANCHOR write out of the resets is decided by RUN and the channels (R180). -/
theorem writeAnchor_takes (takes : s.takesWrites) (f : RegPort → RegPort) :
    writeAnchor f s
      = .next (if !s.rp.run && s.allOff then { s.replied ⟨false, 0⟩ with rp := f (s.replied ⟨false, 0⟩).rp }
        else (s.replied ⟨false, 0⟩).refuse .anchorLocked) := congrArg Host.Outcome.next (regWrite_takes takes _)

theorem writeAnchor_of_unlocked (takes : s.takesWrites) (run : s.rp.run = false) (off : s.allOff = true)
    (f : RegPort → RegPort) :
    writeAnchor f s = .next { s.replied ⟨false, 0⟩ with rp := f (s.replied ⟨false, 0⟩).rp } := by
  rw [writeAnchor_takes takes, run, off]
  rfl

theorem writeAnchor_of_locked (takes : s.takesWrites) (locked : s.rp.run = true ∨ s.allOff = false)
    (f : RegPort → RegPort) : writeAnchor f s = .next ((s.replied ⟨false, 0⟩).refuse .anchorLocked) := by
  rw [writeAnchor_takes takes, if_neg]
  rcases locked with run | busy
  · simp [run]
  · simp [busy]

theorem exec_anchorLoWrite (v : Word) (s : State) :
    exec (.anchorLoWrite v) s = writeAnchor (fun p => { p with anchorLo := v.extractLsb' 13 19 }) s := rfl

theorem exec_anchorHiWrite (v : Word) (s : State) :
    exec (.anchorHiWrite v) s = writeAnchor (fun p => { p with anchorHi := v.extractLsb' 0 8 }) s := rfl

/-- Settles O3: RP decides every write before it acts, and an ANCHOR write by RUN and the channels. -/
theorem writesDecidedByResetsAndAnchorLock : Obligations.WritesDecidedByResetsAndAnchorLock := by
  unfold Obligations.WritesDecidedByResetsAndAnchorLock
  refine ⟨fun c s write => ?_, fun v s takes => ?_⟩
  · obtain ⟨act, acts⟩ := exec_portWrite write s
    rw [acts]
    exact ⟨fun asserted => congrArg _ (regWrite_asserted asserted act),
      fun released soft => congrArg _ (regWrite_soft released soft act)⟩
  · rw [exec_anchorLoWrite, exec_anchorHiWrite]
    exact ⟨fun ⟨run, off⟩ => ⟨writeAnchor_of_unlocked takes run off _, writeAnchor_of_unlocked takes run off _⟩,
      fun locked => ⟨writeAnchor_of_locked takes locked _, writeAnchor_of_locked takes locked _⟩⟩

/-! ## STATUS and ALERT -/

/-- An entry of the alert list as ALERT reads (R186). -/
theorem alertValue_cons {k : SemId} {rest : List SemId} (alerts : s.rp.alerts = k :: rest) :
    s.alertValue = 0x80000000 + BitVec.ofNat 32 k.val := by
  have number : BitVec.ofNat 32 k.val = fieldAt 0 (BitVec.ofNat 8 k.val) := by
    refine BitVec.eq_of_toNat_eq ?_
    simp [fieldAt]
  have apart : bitAt 31 true &&& fieldAt 0 (BitVec.ofNat 8 k.val) = 0#32 := by
    refine BitVec.eq_of_getLsbD_eq fun j hj => ?_
    rw [BitVec.getLsbD_and, getLsbD_bitAt, getLsbD_fieldAt, BitVec.getLsbD_zero]
    grind
  rw [State.alertValue, alerts, number]
  exact (BitVec.add_eq_or_of_and_eq_zero _ _ apart).symm

theorem alertValue_nil (alerts : s.rp.alerts = []) : s.alertValue = 0 := by rw [State.alertValue, alerts]

theorem exec_alertRead (released : s.resetAsserted = false) :
    exec .alertRead s
      = .next { s with rp := { s.rp with alerts := s.rp.alerts.tail, reply := ⟨false, s.alertValue⟩ } } := by
  have acts : execAlertRead s = _ := if_neg (by simp [released])
  exact acts

/-- While reset_n is asserted an ALERT read returns 0 and takes nothing (R176). -/
theorem exec_alertRead_asserted (asserted : s.resetAsserted = true) :
    exec .alertRead s = .next (s.replied ⟨false, 0⟩) := by
  have acts : execAlertRead s = _ := if_pos asserted
  exact acts

/-- Settles O5: each access by its command's own effect. -/
theorem statusAlertAndIgnoredAccesses : Obligations.StatusAlertAndIgnoredAccesses := by
  unfold Obligations.StatusAlertAndIgnoredAccesses
  intro v offset w s
  refine ⟨fun takes => congrArg Host.Outcome.next (regWrite_takes takes _), fun k rest released alerts => ?_,
    fun noAlert => ?_, fun _ => rfl, rfl⟩
  · rw [exec_alertRead released, alertValue_cons alerts, alerts]
    rfl
  · rcases Bool.eq_false_or_eq_true s.resetAsserted with pin | pin
    · exact exec_alertRead_asserted pin
    · have empty : s.rp.alerts = [] := noAlert.resolve_left (by simp [pin])
      have tail : s.rp.alerts.tail = s.rp.alerts := by rw [empty]; rfl
      rw [exec_alertRead pin, alertValue_nil empty, tail]

/-! ## CHANNEL_CMD -/

theorem exec_select (takes : s.takesWrites) (n : ChanId) :
    exec (.select n) s = .next { s with rp := { s.rp with lastNamed := n, reply := ⟨false, 0⟩ } } :=
  congrArg Host.Outcome.next (regWrite_takes takes _)

/-- A COMMAND code from 6 on is refused (R182). -/
theorem exec_invalidCommand (takes : s.takesWrites) {code : BitVec 4} (high : 6 ≤ code.toNat) :
    exec (.invalidCommand n code) s = .next ((s.replied ⟨false, 0⟩).refuse .invalid) := by
  refine congrArg Host.Outcome.next ((regWrite_takes takes _).trans ?_)
  split
  case h_7 => rfl
  all_goals omega

theorem acceptCommand_of_busy (busy : s.rp.commandSlot ≠ none) (k : Command) : acceptCommand n k s = s.refuse .busy :=
  if_pos (Option.isSome_iff_ne_none.mpr busy)

/-- A command of a channel in its reset waits in the slot (R37). -/
theorem acceptCommand_of_reset (free : s.rp.commandSlot = none) (reset : (s.chan n).reset ≠ .off) (k : Command) :
    acceptCommand n k s = { s with rp := { s.rp with lastNamed := n, commandSlot := some (n, k) } } := by
  unfold acceptCommand
  rw [if_neg (by simp [free])]
  exact if_pos (bne_iff_ne.mpr reset)

/-- Settles O9: by the COMMAND code, then by the slot and the channel's reset. -/
theorem channelCmdDecidedByPort : Obligations.ChannelCmdDecidedByPort := by
  unfold Obligations.ChannelCmdDecidedByPort
  intro n code k s takes
  refine ⟨exec_select takes n, exec_invalidCommand takes, fun busy => ?_, fun free reset => ?_⟩ <;> rw [exec_write takes]
  · exact congrArg _ (acceptCommand_of_busy (s := s.replied ⟨false, 0⟩) busy k)
  · exact congrArg _ (acceptCommand_of_reset (s := s.replied ⟨false, 0⟩) free reset k)

/-! ## The invariants after reset -/

theorem reset_isSettled : State.reset.isSettled := by
  simp [settled_iff, State.reset, fuHandOver, suHandOver, teHandOver, tuHandOver, lbHandOver, sbStep, fuStep, suStep,
    lbStep, tuStep, teStep]

/-- The cache holds no valid entry (R146). -/
theorem reset_cacheOk : State.reset.cacheOk := by
  refine ⟨fun i => ?_, nofun⟩
  rw [Semaphores.cache_reset]
  exact ⟨nofun, nofun, nofun⟩

theorem reset_answersOk : State.reset.answersOk := ⟨nofun, nofun, nofun, fun _ => rfl, nofun⟩

theorem reset_jobsOf (n : ChanId) : State.reset.jobsOf n = [] := rfl

theorem reset_asksOf (n : ChanId) : State.reset.asksOf n = [] := rfl

/-- No channel has asked for anything, and each is OFF at rest (R188). -/
theorem reset_flowAt (n : ChanId) : State.reset.flowAt n := by
  have fits : State.reset.flowFits n := by
    refine ⟨by simp [reset_jobsOf], by simp [reset_asksOf], nofun, nofun, fun _ => ?_, by simp [reset_asksOf]⟩
    rw [Semaphores.chan_reset]
    rfl
  refine ⟨Nat.zero_le _, Nat.zero_le _, by simp [reset_asksOf], nofun, fun _ => fits, ?_, ?_⟩ <;>
    rw [Semaphores.chan_reset] <;> nofun

/-- Settles O60: each invariant of the empty lists and queues of a part just reset. -/
theorem invariantsHoldAtReset : Obligations.InvariantsHoldAtReset := by
  unfold Obligations.InvariantsHoldAtReset
  exact ⟨⟨by decide, .nil⟩, ⟨by decide, .nil⟩, .nil, reset_cacheOk, ⟨by decide, nofun⟩, fun on => absurd rfl on,
    reset_isSettled, ⟨rfl, rfl, rfl, rfl, rfl⟩, reset_answersOk, reset_flowAt, .nil, by decide⟩

end Sys2Proof.Port
end

section
/-! SUPPORT. What a step is on each kind of queue: the front command's meaning on the queue's rest, or idling (10.1, log 4). -/

namespace Sys2Proof.Port

open Sys2Proof Sys2Proof.Machine

variable {s : State}

/-- The front command is off the queue before its meaning runs. -/
theorem step_of_pending_cons {c : Instr} {rest : List Instr} (front : s.pending = c :: rest) :
    step s = exec c { s with pending := rest } := by
  rw [step, front]

/-- The model's choice of log 4: no command, no change. -/
theorem step_of_pending_nil (empty : s.pending = []) : step s = .next s := by
  rw [step, empty]

/-- Settles O1: by the two kinds of queue. -/
theorem stepRunsFrontCommand : Obligations.StepRunsFrontCommand := by
  unfold Obligations.StepRunsFrontCommand
  exact fun s => ⟨fun _ _ front => step_of_pending_cons front, step_of_pending_nil⟩

end Sys2Proof.Port
end
